-- ==== Sys2Proof/Word.lean ====
section
/-! DEFINITION. Word.lean: the word types of the KC24 and the fixed-size table that holds its per-module and
per-channel records. -/

namespace Sys2Proof

/-- One byte of a host frame or of a chain frame (R216, R221). -/
abbrev Byte := BitVec 8

/-- A timebase value: the 32-bit wrapping count of 100 µs ticks (R6). -/
abbrev Tick := BitVec 32

/-- A 16-bit cell mask, bit n for channel n (R216). -/
abbrev CellMask := BitVec 16

/-- The record number `i` of a table. -/
def tget {α : Type} {n : Nat} (v : Vector α n) (i : Fin n) : α := v[i.val]

/-- The table with record number `i` replaced. -/
def tput {α : Type} {n : Nat} (v : Vector α n) (i : Fin n) (x : α) : Vector α n := v.set i.val x i.isLt

/-- The table whose record number `i` is `f i`. -/
def tbuild {α : Type} {n : Nat} (f : Fin n → α) : Vector α n := Vector.ofFn f

/-- The table with every record rewritten from its number and its old value. -/
def tmap {α : Type} {n : Nat} (v : Vector α n) (f : Fin n → α → α) : Vector α n :=
  tbuild fun i => f i (tget v i)

end Sys2Proof
end

