-- ==== Sys2Proof/Config.lean ====
section
/-! DEFINITION. Config.lean: the fixed capacities of the KC24, and the free values of the sensing modules on the
chain, about which the manual says only that a module has them (R64, R65). -/

namespace Sys2Proof.Config

/-- The records an event queue can hold (R190). -/
abbrev queueSize : Nat := 32

/-- The live tickets a port can hold (R109). -/
abbrev ticketLimit : Nat := 4

/-- Ticks of the timebase in one second (R147, R207). -/
abbrev ticksPerSecond : Nat := 10000

/-- Microseconds of link time in one timebase tick (R56). -/
abbrev microsPerTick : Nat := 100

/-- The idle kept after each down-lane frame, in µs (R56). -/
abbrev laneIdle : Nat := 2

/-- The broadcast gap in µs (R68). -/
abbrev broadcastGap : Nat := 20

/-- The release pause after RELEASE_ALL in µs (R88). -/
abbrev releasePause : Nat := 1000

/-- The DOWN retry time in ticks (R95). -/
abbrev downRetry : Nat := 10000

/-- The period of the ON time timer in ticks (R154). -/
abbrev onTimePeriod : Nat := 10000

/-- Microseconds one byte takes on a chain lane (R221). -/
abbrev microsPerByte : Nat := 4

/-- The longest response payload in bytes (R221). -/
abbrev longestPayload : Nat := 35

/-- Free value: how many µs the module at this place of the chain takes to convert (R64: "a property of the
module"). Log entry 14. -/
opaque conversionMicros : Nat → Nat

/-- Free value: the CELL counts that the module at a place of the chain measures at a conversion begun at a link
time, by channel (R65). Log entry 14. -/
opaque cellReading : Nat → Nat → Nat → BitVec 16

/-- Free value: the open-wire flags of the cell channels at that conversion (R65). Log entry 14. -/
opaque openCells : Nat → Nat → BitVec 16

/-- Free value: the temperature counts by channel at that conversion (R65). Log entry 14. -/
opaque tempReading : Nat → Nat → Nat → BitVec 16

/-- Free value: the open-wire flags of the temperature channels at that conversion (R65). Log entry 14. -/
opaque openTemps : Nat → Nat → BitVec 4

/-- Free value: the BLOCK counts at that conversion (R65). Log entry 14. -/
opaque blockReading : Nat → Nat → BitVec 16

/-- Free value: the DIE counts at that conversion (R65). Log entry 14. -/
opaque dieReading : Nat → Nat → BitVec 16

/-- Free value: what the down lane does, hop by hop, to the frame whose transmission ends at a time while no
command says it (R60). Log entry 2. -/
opaque laneNoise : Nat → List (List Byte)

/-- Free value: at a timeout of a slot taken at a link time while no command says it, the order in which the originator
and the Chain Map take the outcome: one of the three that the manual allows (R39, R75). Log entry 10. -/
opaque outcomeOrder : Nat → Nat → Fin 3

end Sys2Proof.Config
end

