-- ==== Sys2Proof/Syntax.lean ====
section
/-! DEFINITION. Syntax.lean: the commands and events of the KC24, one constructor per row of
spec/opcode_table.json.

A command of a host is the END of the frame that carried it (R160): its operands are the port and the bytes received
after the code byte, arguments, CRC-8 and fill alike, so that the checks of R164 are part of its meaning. An event of
the chain side carries what the outside decides: the bytes that arrived, the noise on the lane, and the order in which
two blocks take one outcome where the manual leaves it open (R39, R75). -/

namespace Sys2Proof

/-- The two host ports. -/
inductive Port | A | B
  deriving DecidableEq, Repr

/-- A module number less one: index `i` is module `i + 1` of the chain (R1). -/
abbrev Mod := Fin 12

/-- What a pass is for: one module, or ALL for an aligned pass (R28). -/
inductive Target
  | one (m : Mod)
  | all
  deriving DecidableEq, Repr

/-- The three deadline sets of a module (R8): the cells (fast), the BLOCK entry (fast), TEMP and DIE (slow). -/
inductive DeadlineKind | cells | block | slow
  deriving DecidableEq, Repr

/-- The order in which a transaction's originator and the Chain Map take one outcome. The manual allows each (R39, R75),
so the command names the one that happens. -/
inductive TakenFirst
  | originator
  | chainMap
  /-- The originator is first, and the grant that has become possible then comes before the Chain Map: the case of R39 in
  which the restore is sent before the loss. -/
  | originatorAndGrant
  deriving DecidableEq, Repr

/-- The commands of spec/opcode_table.json. -/
inductive Instr
  | deviceReset
  | resetRelease
  | frameStart (p : Port)
  | frameEmpty (p : Port)
  | frameDiscarded (p : Port)
  | unknownRequest (p : Port) (code : Byte)
  | nop (p : Port) (rest : List Byte)
  | ident (p : Port) (rest : List Byte)
  | status (p : Port) (rest : List Byte)
  | sessionReset (p : Port) (rest : List Byte)
  | readEntry (p : Port) (rest : List Byte)
  | latch (p : Port) (rest : List Byte)
  | readHold (p : Port) (rest : List Byte)
  | direct (p : Port) (rest : List Byte)
  | cancel (p : Port) (rest : List Byte)
  | balance (p : Port) (rest : List Byte)
  | unbalance (p : Port) (rest : List Byte)
  | inhibit (p : Port) (rest : List Byte)
  | uninhibit (p : Port) (rest : List Byte)
  | readBalance (p : Port) (rest : List Byte)
  | clearBalanceTime (p : Port) (rest : List Byte)
  | popEvents (p : Port) (rest : List Byte)
  | eventCount (p : Port) (rest : List Byte)
  | takeToken (p : Port) (rest : List Byte)
  | dropToken (p : Port) (rest : List Byte)
  | set (p : Port) (rest : List Byte)
  | get (p : Port) (rest : List Byte)
  | chainRestart (p : Port) (rest : List Byte)
  | readMap (p : Port) (rest : List Byte)
  | grant
  /-- `noise` holds, hop by hop from the KC24 outward, the bits by which the lane changes the frame's bytes after
  the start marker before the next module receives it; a missing hop is a clean one (R60). -/
  | frameTransmissionEnd (noise : List (List Byte))
  | linkIdleEnd
  | broadcastGapEnd
  /-- `bytes` are the bytes of the frame as the KC24 received it, the start marker first (R221). -/
  | responseArrival (bytes : List Byte) (first : TakenFirst)
  | responseTimeout (slot : Fin 4) (first : TakenFirst)
  | resend
  | quarantineEnd (tag : BitVec 4)
  | releasePauseExpiry
  | downRetryExpiry
  | deadlineExpiry (m : Mod) (k : DeadlineKind)
  | visitDecision
  | directedPassCreate (p : Port)
  | alignedPassCreate
  | settleExpiry (t : Target)
  | conversionWaitExpiry (m : Mod)
  | rereadWaitExpiry (t : Target)
  | alignedWaitExpiry
  | periodBoundary
  | receiptEvent
  | sumCheckEvent
  | balanceDecision (m : Mod)
  | requestExpiry (m : Mod)
  | onTimeTimerExpiry
  | eventStore (p : Port)
  | leaseExpiry
  | portReceivesAnswer (p : Port)
  | upLaneFellIdle
  deriving DecidableEq, Repr

end Sys2Proof
end

