-- ==== Sys2Proof/Decode.lean ====
section
/-! DEFINITION. Decode.lean: the bytes a host or a module sends to the KC24, read: the request codes and their
argument lengths (R217), the two CRCs (R216, R221), the response frame of the up lane (R58, R72, R221), and
`decodeTableWord`. The rows of spec/opcode_table.json give no bits, so no word spells a command. -/

namespace Sys2Proof

/-- The command that a table word spells: spec/opcode_table.json gives no row any bits, so there is none. -/
def decodeTableWord (_nbits _w : Nat) : Option Instr := none

/-- The mask of the channels that `f` names. -/
def maskOf (f : Fin 16 → Bool) : CellMask :=
  (List.finRange 16).foldl (fun acc c => if f c then acc ||| BitVec.twoPow 16 c.val else acc) 0#16

/-- Channel `c` stands in the mask. -/
def inMask (m : CellMask) (c : Fin 16) : Bool := m.getLsbD c.val

/-- One shift of an 8-bit CRC register under the polynomial 2FH, most significant bit first (R216). -/
def crc8Shift (c : BitVec 8) : BitVec 8 :=
  if c.msb then (c <<< 1) ^^^ 0x2F#8 else c <<< 1

/-- One byte into the CRC-8 (R216). -/
def crc8Byte (c : BitVec 8) (b : Byte) : BitVec 8 :=
  (List.range 8).foldl (fun x _ => crc8Shift x) (c ^^^ b)

/-- The CRC-8 of host frames: initial value 5AH, no reflection, no final XOR (R216). -/
def crc8 (bytes : List Byte) : BitVec 8 := bytes.foldl crc8Byte 0x5A#8

/-- One shift of the 16-bit CRC register under the polynomial 2D15H (R221). -/
def crc16Shift (c : BitVec 16) : BitVec 16 :=
  if c.msb then (c <<< 1) ^^^ 0x2D15#16 else c <<< 1

/-- One byte into the CRC-16 (R221). -/
def crc16Byte (c : BitVec 16) (b : Byte) : BitVec 16 :=
  (List.range 8).foldl (fun x _ => crc16Shift x) (c ^^^ (b.setWidth 16 <<< 8))

/-- The CRC-16 of chain frames: initial value FFFFH, no reflection, no final XOR (R221). -/
def crc16 (bytes : List Byte) : BitVec 16 := bytes.foldl crc16Byte 0xFFFF#16

/-- The request codes of R217. -/
def requestCodes : List Byte :=
  [0x10, 0x11, 0x12, 0x13, 0x20, 0x21, 0x22, 0x30, 0x31, 0x40, 0x41, 0x42, 0x43, 0x44, 0x45, 0x50, 0x51,
   0x60, 0x61, 0x62, 0x63, 0x70, 0x71]

/-- How many argument bytes follow a request code (R217). -/
def argumentBytes (code : Byte) : Nat :=
  match code.toNat with
  | 0x20 => 2 | 0x21 => 4 | 0x22 => 2
  | 0x30 => 2 | 0x31 => 1
  | 0x40 => 5 | 0x41 => 3 | 0x42 => 3 | 0x43 => 3 | 0x44 => 1 | 0x45 => 1
  | 0x50 => 1
  | 0x60 => 1 | 0x62 => 6 | 0x63 => 2
  | _ => 0

/-- What a host sends after the code byte of a good request: the arguments and the CRC-8 (R164, R217). -/
def requestRest (code : Byte) (args : List Byte) : List Byte := args ++ [crc8 (code :: args)]

/-- A frame that the checks of R164, steps 2 and 3, let pass: long enough, and its CRC-8 agrees. The bytes after the
CRC are fill and are not examined (R160). -/
def frameGood (code : Byte) (rest : List Byte) : Bool :=
  let n := argumentBytes code
  match rest.drop n with
  | [] => false
  | c :: _ => crc8 (code :: rest.take n) == c

/-- The argument bytes of a frame. -/
def frameArgs (code : Byte) (rest : List Byte) : List Byte := rest.take (argumentBytes code)

/-- A response frame, read (R58). -/
structure ResponseFrame where
  node : Nat
  tag : BitVec 4
  status : Byte
  payload : List Byte
  deriving DecidableEq, Repr

/-- What the receiver makes of the bytes of one up-lane frame. -/
inductive Received
  /-- No start marker was seen, so no frame was begun. -/
  | noFrame
  /-- A bad frame (R72, and a status above 04H by R221). -/
  | bad
  | good (f : ResponseFrame)
  deriving DecidableEq, Repr

/-- The check of R72 on an up-lane frame. The frame is as long as its own payload length says; fewer bytes mean that
the lane fell idle before the frame was complete. -/
def receive (bytes : List Byte) : Received :=
  match bytes with
  | start :: nodeTag :: status :: len :: rest =>
    if start != 0x6A#8 then .noFrame
    else if Config.longestPayload < len.toNat then .bad
    else
      let payload := rest.take len.toNat
      match rest.drop len.toNat with
      | hi :: lo :: _ =>
        if payload.length == len.toNat && crc16 (nodeTag :: status :: len :: payload) == hi ++ lo
            && status.toNat ≤ 4 then
          .good { node := nodeTag.toNat / 16, tag := nodeTag.setWidth 4, status := status, payload := payload }
        else .bad
      | _ => .bad
  | start :: _ => if start != 0x6A#8 then .noFrame else .bad
  | [] => .noFrame

/-- The bytes a module puts on the up lane for an answer (R58, R221). -/
def responseBytes (node : Nat) (tag : BitVec 4) (status : Byte) (payload : List Byte) : List Byte :=
  let body := BitVec.ofNat 8 (node * 16 + tag.toNat) :: status :: BitVec.ofNat 8 payload.length :: payload
  let c := crc16 body
  0x6A#8 :: (body ++ [c.extractLsb' 8 8, c.extractLsb' 0 8])

end Sys2Proof
end

