-- ==== Sys2Proof/Machine/Types.lean ====
section
/-! DEFINITION. Machine/Types.lean: the records the KC24 keeps, block by block, as the manual's tables list them. -/

namespace Sys2Proof.Machine

/-! ## The two ports -/

/-- A pair of records, one per host port. -/
structure PerPort (α : Type) where
  a : α
  b : α
  deriving DecidableEq, Repr

/-- The record of one port. -/
def PerPort.get {α : Type} (x : PerPort α) : Port → α
  | .A => x.a
  | .B => x.b

/-- The pair with one port's record replaced. -/
def PerPort.set {α : Type} (x : PerPort α) (p : Port) (v : α) : PerPort α :=
  match p with
  | .A => { x with a := v }
  | .B => { x with b := v }

/-! ## Pack Image (R1 to R8) -/

/-- An entry's trust state (R3). -/
inductive Quality | unpopulated | pending | fresh | stale | faulted
  deriving DecidableEq, Repr

/-- Why an entry is FAULTED (R3). -/
inductive FaultCause | noResponse | sensorOpen | restart
  deriving DecidableEq, Repr

/-- The origin of a pass, and the source of the entries it renews (R5, R28). -/
inductive Source | sweepRolling | sweepAligned | directedA | directedB
  deriving DecidableEq, Repr

/-- The verdict of the Limit Checker (R119). -/
inductive LimitState | within | high | low
  deriving DecidableEq, Repr

/-- The far side a streak counts toward (R119). -/
inductive StreakSide | none | high | low
  deriving DecidableEq, Repr

/-- The entry record as a host sees it, less the fields that its index fixes (R3). `renewal` 0 is absent. -/
structure EntryRecord where
  quality : Quality
  cause : Option FaultCause
  value : Int
  instant : Option Tick
  renewal : BitVec 32
  source : Option Source
  balanced : Bool
  limit : LimitState
  streak : Nat
  deriving DecidableEq, Repr

/-- An entry with the streak side, which the Limit Checker keeps and no host sees (R119). -/
structure Entry extends EntryRecord where
  side : StreakSide
  deriving DecidableEq, Repr

/-- The quantities of one module: its class and channel (R1). -/
inductive Chan
  | cell (c : Fin 16)
  | temp (c : Fin 4)
  | block
  | die
  deriving DecidableEq, Repr

/-- The two renewal groups of a module (R8). -/
inductive Group | cells | aux
  deriving DecidableEq, Repr

/-- The two retention windows (R8). -/
inductive WindowKind | fast | slow
  deriving DecidableEq, Repr

/-- The 22 entries of one module. -/
structure ModuleImage where
  cell : Vector Entry 16
  temp : Vector Entry 4
  block : Entry
  die : Entry
  deriving DecidableEq, Repr

/-- The Pack Image: 264 entries, by module, and the renewal counter (R7). -/
structure Image where
  modules : Vector ModuleImage 12
  counter : BitVec 32
  deriving DecidableEq, Repr

/-- One sample of a read response (R2, R65). -/
structure Sample where
  value : Int
  openWire : Bool
  deriving DecidableEq, Repr

/-- A copy of an entry in a hold buffer; its index is fixed by the module and the channel (R25, R171). -/
structure HoldCopy where
  module : Mod
  chan : Chan
  record : EntryRecord
  deriving DecidableEq, Repr

/-! ## Events (R185, R186) -/

/-- The eighteen kinds of event (R186). -/
inductive EventKind
  | groupStale | groupFaulted | groupRecovered | sensorOpen | limitCrossed | limitCleared
  | sumMismatch | sumCleared | moduleSuspect | moduleLost | moduleFound | chainReady
  | chainCountMismatch | directedDone | balanceEnded | balanceBlocked | tokenLapsed | overflow
  deriving DecidableEq, Repr

/-- The limit kinds (R120). -/
inductive LimitKind | ov | uv | th | tl | dh
  deriving DecidableEq, Repr

/-- The block causes, in order of precedence (R140). -/
inductive BlockCause | inhibited | moduleDown | moduleHot | sum | data | cellLow
  deriving DecidableEq, Repr

/-- The cause an event record carries (R219). An OVERFLOW record carries the kind of the first event dropped. -/
inductive EventCause
  | noResponse
  | limit (k : LimitKind)
  | tooLong | expected
  | done | aborted | restart
  | expired | unpopulated
  | blocked (c : BlockCause)
  | dropped (k : EventKind)
  deriving DecidableEq, Repr

/-- An event as its block raises it: an event record less the sequence number that its port gives it (R185). -/
structure Event where
  kind : EventKind
  time : Tick
  module : Option Mod := none
  entry : Option (Mod × Chan) := none
  ticket : Option (BitVec 8) := none
  value : Option Int := none
  cause : Option EventCause := none
  port : Option Port := none
  deriving DecidableEq, Repr

/-- An event record of a port's queue (R185). -/
structure EventRecord where
  seq : Nat
  event : Event
  deriving DecidableEq, Repr

/-! ## Passes and the sweep (R28, R43, R47 to R54) -/

/-- What a pass renews (R28). -/
inductive What | cells | aux | both
  deriving DecidableEq, Repr

/-- The steps of a pass (R28). A record that reaches ENDED is reported and removed in the same event, so no record
stands in it. -/
inductive PassStep | opened | quiescing | settling | converting | reading | restoring
  deriving DecidableEq, Repr

/-- The steps of a part (R43). -/
inductive PartStep | waiting | reading | restoring | done
  deriving DecidableEq, Repr

/-- The outcome of a pass or of a part (R28, R43). -/
inductive PassOutcome | complete | aborted
  deriving DecidableEq, Repr

/-- What a pass keeps for one module: a part of an aligned pass (R43), or the same fields of a single-module pass
(R28), which has exactly one part. -/
structure Part where
  module : Mod
  step : PartStep
  quiesced : Bool
  rereadCells : Bool
  rereadAux : Bool
  cellRenewal : BitVec 32
  auxRenewal : BitVec 32
  outcome : Option PassOutcome
  /-- The balanced-during condition recorded at the CONVERT (R34). -/
  balanced : Bool
  /-- A cell sample of this pass was marked open-wire (R35). -/
  sawOpen : Bool
  deriving DecidableEq, Repr

/-- The timers a pass runs (R33, R34, R36). -/
inductive PassTimerKind | settle | conversion | reread
  deriving DecidableEq, Repr

/-- A running timer of a pass. -/
structure PassTimer where
  kind : PassTimerKind
  due : Tick
  deriving DecidableEq, Repr

/-- A ticket of a port, named (R28, R109). -/
structure TicketRef where
  port : Port
  id : BitVec 8
  deriving DecidableEq, Repr

/-- A pass record (R28). -/
structure Pass where
  what : What
  origin : Source
  /-- The quiesce mode captured at creation is QUIESCE. -/
  quiesce : Bool
  settleTicks : Nat
  waitTicks : Nat
  /-- The ticket a directed pass was created for; none when a session reset removed it (R117). -/
  owner : Option TicketRef
  joined : List TicketRef
  step : PassStep
  instant : Option Tick
  timer : Option PassTimer
  parts : List Part
  deriving DecidableEq, Repr

/-- The states of the Sweep Engine (R47). -/
inductive SweepState | halted | waiting | running
  deriving DecidableEq, Repr

/-- The sweep modes (R48). -/
inductive SweepMode | rolling | aligned
  deriving DecidableEq, Repr

/-- What the visit of the module under the pointer is doing (R49, R52). -/
inductive Visit | idle | deciding | passing | pinging
  deriving DecidableEq, Repr

/-- The Sweep Engine (R47 to R54). -/
structure Sweep where
  state : SweepState
  /-- The mode of the sweep in progress. -/
  mode : SweepMode
  pointer : Nat
  visit : Visit
  pendingStart : Bool
  nextBoundary : Option Tick
  auxCount : Vector Nat 12
  alignedAux : Nat
  /-- The sweep-level counter had reached AUX_CADENCE at the start of the aligned sweep, where the setting is read
  (R54, R201; log entry 21). -/
  alignedDue : Bool
  /-- The aligned pass of the sweep has neither ended nor been given up (R54). -/
  alignedOpen : Bool
  /-- The recovery PINGs of an aligned sweep that have not ended (R54). -/
  pings : List Mod
  deriving DecidableEq, Repr

/-! ## Chain link (R56 to R81) -/

/-- What a transaction is for (R69, R100). -/
inductive Role | assign | probe | ping | quiesce | convert | readCells | readAux | restore | update
  deriving DecidableEq, Repr

/-- The originator of a transaction (R69); `gone` when its pass has ended (R40, R75). -/
inductive Owner
  | enumeration
  | pass (t : Target)
  | balance
  | sweep
  | gone
  deriving DecidableEq, Repr

/-- The payload of a command frame (R57). -/
inductive Payload
  | empty
  | number (n : Nat)
  | what (w : What)
  | mask (m : CellMask)
  deriving DecidableEq, Repr

/-- A held slot of the outstanding-transaction table (R69). `tag` is none while the slot waits in the re-send queue;
`windowEnd` is none until the latest frame's transmission has ended. -/
structure TxnSlot where
  tag : Option (BitVec 4)
  node : Nat
  role : Role
  owner : Owner
  payload : Payload
  sendInstant : Tick
  windowEnd : Option Nat
  window : Nat
  attemptLimit : Nat
  attemptsUsed : Nat
  deriving DecidableEq, Repr

/-- The frame on the down lane (R67, R68). -/
structure Sending where
  bytes : List Byte
  endAt : Nat
  slot : Option (Fin 4)
  broadcast : Bool
  /-- The frame is the RELEASE_ALL of the enumeration under way (R88). -/
  release : Bool
  deriving DecidableEq, Repr

/-- A tag in quarantine and the link time at which its quarantine ends (R71). -/
structure Quarantined where
  tag : BitVec 4
  endAt : Nat
  deriving DecidableEq, Repr

/-- The Chain Link Controller (R81) with the chain statistics (R80). -/
structure Link where
  slots : Vector (Option TxnSlot) 4
  resendQueue : List (Fin 4)
  lastTag : BitVec 4
  quarantine : List Quarantined
  sending : Option Sending
  idleUntil : Option Nat
  gapUntil : Option Nat
  retries : Nat
  badCrc : Nat
  late : Nat
  overruns : Nat
  deriving DecidableEq, Repr

/-- The outcome of a transaction, as a released slot hands it on (R75). -/
inductive LinkOutcome
  | failed
  | answered (status : Byte) (payload : List Byte)
  deriving DecidableEq, Repr

/-! ## Chain Map (R82, R83) -/

/-- The chain states (R82). -/
inductive ChainState | down | enumerating | running
  deriving DecidableEq, Repr

/-- The states of a module record (R83). -/
inductive ModuleState | absent | active | suspect | lost
  deriving DecidableEq, Repr

/-- The reasons an enumeration ends (R91). -/
inductive EndReason | assignFailed | badDescriptor | full | tooLong
  deriving DecidableEq, Repr

/-- A module record (R83). -/
structure ModuleRecord where
  state : ModuleState
  cellCount : Nat
  tempCount : Nat
  revision : Nat
  failures : Nat
  lastSuccess : Option Tick
  mark : Bool
  deriving DecidableEq, Repr

/-- The Chain Map (R82, R88, R95, R98). -/
structure ChainMap where
  state : ChainState
  n : Nat
  records : Vector ModuleRecord 12
  endReason : Option EndReason
  endInstant : Option Tick
  retryDue : Option Tick
  /-- The number that the ASSIGN step offers (R89). -/
  nextNumber : Nat
  /-- The link time at which the release pause ends (R88). -/
  pauseEnd : Option Nat
  deriving DecidableEq, Repr

/-! ## Chain Scheduler (R100, R106) -/

/-- The next transaction that a pass asks for (R100). -/
inductive PassAct | first | convert | readCells | readAux | restore
  deriving DecidableEq, Repr

/-- The kinds of work item, with the originator of each (R100). -/
inductive ItemKind
  | release
  | assign
  | probe
  | passStep (t : Target) (act : PassAct)
  | update (m : Mod)
  | ping (m : Mod)
  deriving DecidableEq, Repr

/-- A work item and the link time at which it last became ready (R100, R101). -/
structure WorkItem where
  kind : ItemKind
  readySince : Option Nat
  deriving DecidableEq, Repr

/-- The Chain Scheduler (R108). -/
structure Scheduler where
  items : List WorkItem
  lastServed : Port
  deriving DecidableEq, Repr

/-! ## Directed Measurement Unit (R109) -/

/-- The states of a live ticket, with the pass it rides on (R109). -/
inductive TicketState
  | queued
  | joined (t : Target)
  | running (t : Target)
  deriving DecidableEq, Repr

/-- A ticket record; its port is the queue that holds it (R109). -/
structure Ticket where
  id : BitVec 8
  module : Mod
  what : What
  state : TicketState
  deriving DecidableEq, Repr

/-- One port's ticket queue, in creation order, and its last id issued (R109). -/
structure TicketQueue where
  tickets : List Ticket
  lastId : BitVec 8
  deriving DecidableEq, Repr

/-! ## Limit Checker (R121, R128) -/

/-- The sum state of a module (R128). -/
inductive SumState | clear | mismatch
  deriving DecidableEq, Repr

/-- What waits in the receipt list (R121, R129). -/
inductive LimitWork
  | receipt (m : Mod) (renewal : BitVec 32) (samples : List (Chan × Int))
  | sumCheck (m : Mod) (cellRenewal auxRenewal : BitVec 32)
  deriving DecidableEq, Repr

/-- The Limit Checker's own state (R135). -/
structure Limits where
  work : List LimitWork
  sums : Vector SumState 12
  deriving DecidableEq, Repr

/-! ## Balance Controller (R136) -/

/-- The balance state of a cell; its block cause is present exactly when it is BLOCKED (R136). -/
inductive BalanceState
  | idle
  | waiting
  | blocked (c : BlockCause)
  | on
  | held
  deriving DecidableEq, Repr

/-- A cell record of the balance table (R136): each port's request by its end instant, each port's inhibit mark, the
balance state and the accumulated ON time in seconds. -/
structure CellRecord where
  request : PerPort (Option Tick)
  inhibit : PerPort Bool
  state : BalanceState
  onTime : BitVec 32
  deriving DecidableEq, Repr

/-- The mask the module last accepted, or UNKNOWN (R136, R137). -/
inductive Commanded
  | mask (m : CellMask)
  | unknown
  deriving DecidableEq, Repr

/-- A module record of the balance table with its sixteen cell records (R136). Whether an update is pending is read
from the scheduler's items, which hold it. -/
structure BalanceModule where
  cells : Vector CellRecord 16
  decided : CellMask
  commanded : Commanded
  hold : Bool
  deriving DecidableEq, Repr

/-- The Balance Controller: the table, the hand-offs that wait for a decision, oldest first (R139), and the tick
count since the release of reset at which the ON time timer expires next (R154). -/
structure Balance where
  modules : Vector BalanceModule 12
  handoffs : List Mod
  onTimer : Nat
  deriving DecidableEq, Repr

/-! ## Settings and token (R199, R206) -/

/-- The shared settings, in the units of the settings table (R199). -/
structure Settings where
  sweepMode : SweepMode
  sweepPeriod : Nat
  auxCadence : Nat
  skipRecent : Bool
  fastWindow : Nat
  slowWindow : Nat
  urgencyMargin : Nat
  /-- QUIESCE_MODE is QUIESCE. -/
  quiesceMode : Bool
  settleDelay : Nat
  conversionWait : Nat
  responseWindow : Nat
  retryLimit : Nat
  lostThreshold : Nat
  expectedModules : Nat
  autoRestart : Bool
  populationMask : Vector CellMask 12
  cellOv : Nat
  cellUv : Nat
  tempHigh : Int
  tempLow : Int
  dieHigh : Int
  hystCell : Nat
  hystTemp : Nat
  streakLimit : Nat
  /-- Bit 0 OV, 1 UV, 2 TH, 3 TL, 4 DH (R220). -/
  streakBypass : BitVec 5
  sumTolerance : Nat
  balanceCapacity : Nat
  deriving DecidableEq, Repr

/-- The token record: the lease length in seconds and the lease end are absent exactly while FREE (R206). -/
inductive Token
  | free
  | held (p : Port) (lease : Nat) (leaseEnd : Tick)
  deriving DecidableEq, Repr

/-! ## Host ports (R160 to R184) -/

/-- The status codes of an answer (R170). NOT_READY is an output and never stands in a slot. -/
inductive Status
  | ok | checkError | unknownRequest | badArgument | notReady | noToken | heldElsewhere
  | queueFull | noModule | noTicket | tooLate | incoherent | restarting | resetDone
  deriving DecidableEq, Repr

/-- An answer: status, echo and payload; its CRC-8 follows from them (R163). -/
structure Answer where
  status : Status
  echo : Byte
  payload : List Byte
  deriving DecidableEq, Repr

/-- The response slot (R165). In PREPARING it names the request, and the answer that its block has made is on its way
back to the port. -/
inductive ResponseSlot
  | ready (a : Answer)
  | preparing (echo : Byte) (a : Answer)
  deriving DecidableEq, Repr

/-- The frame on a port. `running` holds what the frame clocks out, fixed at its start, and whether that is a NOT_READY
output (R162, R166); `cut` is a frame begun under, or cut off by, a device reset (R160, R161). -/
inductive FrameState
  | idle
  | running (out : List Byte) (notReady : Bool)
  | cut
  deriving DecidableEq, Repr

/-- The latch header less the count, which is the hold count (R171). -/
structure LatchHeader where
  instant : Tick
  counter : BitVec 32
  coherent : Bool
  deriving DecidableEq, Repr

/-- A port's hold buffer: the copies in ascending index order, and the header (R171). -/
structure HoldBuffer where
  copies : List HoldCopy
  header : Option LatchHeader
  deriving DecidableEq, Repr

/-- A port's event queue, its next sequence number, its two sets of event kinds (bit n for kind code n, R220) and its
alert line (R182, R185 to R194). -/
structure EventQueue where
  records : List EventRecord
  nextSeq : Nat
  subscribe : BitVec 32
  alertMask : BitVec 32
  /-- The alert line is asserted. -/
  alert : Bool
  deriving DecidableEq, Repr

/-- A host port (R184). -/
structure HostPort where
  frame : FrameState
  slot : ResponseSlot
  hold : HoldBuffer
  deriving DecidableEq, Repr

/-! ## The sensing modules on the chain (R59 to R66) -/

/-- The sample state of a group of a module. A conversion begun at a link time is READABLE once the module's own
conversion time has passed, and CONVERTING until then (R64, R65). -/
inductive SampleState
  | none
  | converted (since : Nat)
  deriving DecidableEq, Repr

/-- A sensing module: what it holds, and its fixed properties (section 3.2). -/
structure SensingModule where
  number : Nat
  passOpen : Bool
  switches : CellMask
  cells : SampleState
  aux : SampleState
  cellCount : Nat
  tempCount : Nat
  revision : Nat
  deriving DecidableEq, Repr

end Sys2Proof.Machine
end

