-- ==== Sys2Proof/Machine/ResetValues.lean ====
section
/-! DEFINITION. Machine/ResetValues.lean: what each block holds right after device reset (R27, R55, R81, R99, R108,
R118, R135, R159, R184, R198, R215). -/

namespace Sys2Proof.Machine

/-- An UNPOPULATED entry, cleared (R19, R27). -/
def clearedEntry : Entry :=
  { quality := .unpopulated, cause := none, value := 0, instant := none, renewal := 0, source := none,
    balanced := false, limit := .within, streak := 0, side := .none }

/-- The entries of a module with nothing populated (R27). -/
def clearedModule : ModuleImage :=
  { cell := tbuild fun _ => clearedEntry, temp := tbuild fun _ => clearedEntry, block := clearedEntry,
    die := clearedEntry }

/-- The Pack Image after device reset (R27). -/
def resetImage : Image := { modules := tbuild fun _ => clearedModule, counter := 0 }

/-- The Sweep Engine after device reset (R55). -/
def resetSweep : Sweep :=
  { state := .halted, mode := .rolling, pointer := 0, visit := .idle, pendingStart := false, nextBoundary := none,
    auxCount := tbuild fun _ => 0, alignedAux := 0, alignedDue := false, alignedOpen := false, pings := [] }

/-- The link after device reset: all slots free, last tag issued 15 (R81). -/
def resetLink : Link :=
  { slots := tbuild fun _ => none, resendQueue := [], lastTag := 15, quarantine := [], sending := none,
    idleUntil := none, gapUntil := none, retries := 0, badCrc := 0, late := 0, overruns := 0 }

/-- A module record after device reset (R99). -/
def absentRecord : ModuleRecord :=
  { state := .absent, cellCount := 0, tempCount := 0, revision := 0, failures := 0, lastSuccess := none,
    mark := false }

/-- The Chain Map in the event that ends device reset: ENUMERATING with N 0 (R99). -/
def resetMap : ChainMap :=
  { state := .enumerating, n := 0, records := tbuild fun _ => absentRecord, endReason := none, endInstant := none,
    retryDue := none, nextNumber := 0, pauseEnd := none }

/-- The scheduler after device reset: the first RELEASE_ALL is offered (R88, R108). -/
def resetScheduler : Scheduler :=
  { items := [{ kind := .release, readySince := some 0 }], lastServed := .B }

/-- A ticket queue after device reset or a session reset (R117, R118). -/
def resetTickets : TicketQueue := { tickets := [], lastId := 255 }

/-- The Limit Checker after device reset (R135). -/
def resetLimits : Limits := { work := [], sums := tbuild fun _ => .clear }

/-- A cell record of the balance table after device reset (R159). -/
def resetCell : CellRecord :=
  { request := { a := none, b := none }, inhibit := { a := false, b := false }, state := .idle, onTime := 0 }

/-- A module's balance records after device reset (R159). -/
def resetBalanceModule : BalanceModule :=
  { cells := tbuild fun _ => resetCell, decided := 0, commanded := .mask 0, hold := false }

/-- The Balance Controller after device reset (R159). -/
def resetBalance : Balance :=
  { modules := tbuild fun _ => resetBalanceModule, handoffs := [], onTimer := Config.onTimePeriod }

/-- The default of every shared setting (R199). -/
def defaultSettings : Settings :=
  { sweepMode := .rolling, sweepPeriod := 50, auxCadence := 4, skipRecent := false, fastWindow := 200,
    slowWindow := 2000, urgencyMargin := 25, quiesceMode := true, settleDelay := 1, conversionWait := 10,
    responseWindow := 20, retryLimit := 2, lostThreshold := 3, expectedModules := 0, autoRestart := true,
    populationMask := tbuild fun _ => 0xFFFF, cellOv := 42000, cellUv := 25000, tempHigh := 600, tempLow := -200,
    dieHigh := 1050, hystCell := 200, hystTemp := 30, streakLimit := 3, streakBypass := 0, sumTolerance := 50,
    balanceCapacity := 8 }

/-- Every event kind of R188: bits 1 to 17 (R220). -/
def everyKind : BitVec 32 := 0x3FFFE

/-- The answer in both slots after device reset (R161, R216). -/
def resetAnswer : Answer := { status := .resetDone, echo := 0, payload := [1] }

/-- A port after device reset, outside any frame (R161, R184). -/
def resetPort : HostPort :=
  { frame := .idle, slot := .ready resetAnswer, hold := { copies := [], header := none } }

/-- A port's queue after device reset (R198). -/
def resetQueue : EventQueue :=
  { records := [], nextSeq := 1, subscribe := everyKind, alertMask := 0, alert := false }

end Sys2Proof.Machine
end

