-- ==== Sys2Proof/Machine/State.lean ====
section
/-! DEFINITION. Machine/State.lean: the whole state of the KC24, with the commands that wait, and the state right after
device reset. -/

namespace Sys2Proof.Machine

/-- The KC24 has no fault: whatever it is sent or meets, it answers and goes on (R164, R170). -/
inductive Fault
  deriving DecidableEq, Repr

/-- Why a command has no outcome in this model. -/
inductive Refusal
  /-- `exec` has no meaning for the command yet. Raised by an arm of `exec` alone; safe, since the model stops. -/
  | notModelled (mnemonic : String)
  deriving DecidableEq, Repr

/-- The state of the KC24, block by block. -/
structure State where
  /-- The commands that wait, first in, first out (the model's own). -/
  pending : List Instr
  /-- The part is in device reset: RSTN is low or the power-on reset holds (R161). -/
  inReset : Bool
  /-- Link time in µs since the release of device reset; the timebase is derived from it (R6, R56). -/
  linkTime : Nat
  /-- The link time in µs that had run before the last release of device reset, which does not reach the modules (R81;
  the model's own). -/
  chainEpoch : Nat
  image : Image
  /-- At most one single-module pass per module (R29). -/
  passes : Vector (Option Pass) 12
  /-- The aligned pass, if one exists (R43). -/
  aligned : Option Pass
  /-- An aligned pass is reserved (R43). -/
  reserved : Bool
  sweep : Sweep
  link : Link
  map : ChainMap
  sched : Scheduler
  tickets : PerPort TicketQueue
  limits : Limits
  balance : Balance
  settings : Settings
  token : Token
  ports : PerPort HostPort
  queues : PerPort EventQueue
  /-- The storing events that the Event Queues block has yet to take at each port, oldest first; each holds the records
  that one block raised in one event (R187). -/
  raised : PerPort (List (List Event))
  /-- The modules on the chain, nearest first; the KC24's reset does not reach them (R81). -/
  chain : List SensingModule
  /-- The answers the modules have put on the up lane that have not arrived, oldest first (R56). -/
  upLane : List (List Byte)
  deriving DecidableEq, Repr

/-- The machine right after device reset, in the event that ends it: every block at its device-reset values, both slots
READY with RESET_DONE (DEVICE), link time 0 and the automatic enumeration begun (R88, R161). -/
def State.reset : State :=
  { pending := [], inReset := false, linkTime := 0, chainEpoch := 0, image := resetImage, passes := tbuild fun _ => none,
    aligned := none, reserved := false, sweep := resetSweep, link := resetLink, map := resetMap,
    sched := resetScheduler, tickets := { a := resetTickets, b := resetTickets }, limits := resetLimits,
    balance := resetBalance, settings := defaultSettings, token := .free,
    ports := { a := resetPort, b := resetPort }, queues := { a := resetQueue, b := resetQueue },
    raised := { a := [], b := [] }, chain := [], upLane := [] }

end Sys2Proof.Machine
end

