-- ==== Sys2Proof/Machine/Ops.lean ====
section
/-! DEFINITION. Machine/Ops.lean: the operations every block uses: time, raising events, hand-offs to the Balance
Controller, and the accessors of the records that State holds. -/

namespace Sys2Proof.Machine

/-! ## Time (R6, R56) -/

/-- The time in µs that the modules on the chain live in, which device reset does not restart (R81). -/
def State.chainTime (s : State) : Nat := s.chainEpoch + s.linkTime

/-- The count of whole ticks since the release of reset, unwrapped. -/
def State.ticks (s : State) : Nat := s.linkTime / Config.microsPerTick

/-- The timebase: link time divided by 100, rounded down, modulo 2³² (R56). -/
def State.timebase (s : State) : Tick := BitVec.ofNat 32 s.ticks

/-- The age of an instant, modulo 2³² (R6). -/
def age (now instant : Tick) : Nat := (now - instant).toNat

/-- The ticks left to an instant, modulo 2³² (R206). -/
def ticksLeft (now due : Tick) : Nat := (due - now).toNat

/-- The timebase has reached an instant that was set ahead of it. Every such instant is set less than 2³¹ ticks
ahead, so a difference below 2³¹ means that it has been reached (log entry 4). -/
def reached (now due : Tick) : Bool := (now - due).toNat < 2 ^ 31

/-- A tick count, as a timebase difference. -/
def ticksOf (n : Nat) : Tick := BitVec.ofNat 32 n

/-- Whole units, rounded up. -/
def ceilDiv (a b : Nat) : Nat := (a + b - 1) / b

/-- A 16-bit statistic one higher, staying at 65535 (R80). -/
def countUp (n : Nat) : Nat := min 65535 (n + 1)

/-! ## Ports -/

/-- The other port. -/
def otherPort : Port → Port
  | .A => .B
  | .B => .A

/-- The code of a port in every field that names one (R218). -/
def portCode : Port → Byte
  | .A => 1
  | .B => 2

def State.port (s : State) (p : Port) : HostPort := s.ports.get p

def State.setPort (p : Port) (h : HostPort) (s : State) : State := { s with ports := s.ports.set p h }

def State.queue (s : State) (p : Port) : EventQueue := s.queues.get p

def State.setQueue (p : Port) (q : EventQueue) (s : State) : State := { s with queues := s.queues.set p q }

/-! ## Raising events (R187) -/

/-- A block raises records to one port in one event of its own: one storing event waits there. -/
def raiseTo (p : Port) (es : List Event) (s : State) : State :=
  if es.isEmpty then s else { s with raised := s.raised.set p (s.raised.get p ++ [es]) }

/-- A block raises records of kinds that go to both ports. -/
def raiseBoth (es : List Event) (s : State) : State := raiseTo .B es (raiseTo .A es s)

/-- The records that an event of one block raises to a port, in as many parts as it was taken in, wait there as one
storing event (R187); `before` is the state before the event. -/
def mergeRaised (p : Port) (before s : State) : State :=
  let old := before.raised.get p
  let new := ((s.raised.get p).drop old.length).flatten
  { s with raised := s.raised.set p (if new.isEmpty then old else old ++ [new]) }

/-- An event of one block, its records to each port raised in one storing event (R187). -/
def asOneEvent (act : State → State) (s : State) : State := mergeRaised .B s (mergeRaised .A s (act s))

/-! ## Modules -/

/-- The number of a module (R1). -/
def modNumber (m : Mod) : Nat := m.val + 1

/-- The module of a number 1..12. -/
def modOfNumber (n : Nat) : Option Mod :=
  if h : 1 ≤ n ∧ n ≤ 12 then some ⟨n - 1, by omega⟩ else none

/-- Every module number, ascending. -/
def allMods : List Mod := List.finRange 12

def State.record (s : State) (m : Mod) : ModuleRecord := tget s.map.records m

def State.setRecord (m : Mod) (r : ModuleRecord) (s : State) : State :=
  { s with map := { s.map with records := tput s.map.records m r } }

def State.health (s : State) (m : Mod) : ModuleState := (s.record m).state

/-- The module is numbered 1..N (R83). -/
def State.onChain (s : State) (m : Mod) : Bool := modNumber m ≤ s.map.n

/-! ## Image -/

def State.moduleImage (s : State) (m : Mod) : ModuleImage := tget s.image.modules m

def State.setModuleImage (m : Mod) (mi : ModuleImage) (s : State) : State :=
  { s with image := { s.image with modules := tput s.image.modules m mi } }

/-! ## Passes -/

/-- The pass for a target. -/
def State.passOf (s : State) : Target → Option Pass
  | .one m => tget s.passes m
  | .all => s.aligned

def State.setPass (t : Target) (p : Option Pass) (s : State) : State :=
  match t with
  | .one m => { s with passes := tput s.passes m p }
  | .all => { s with aligned := p }

/-! ## Balance table -/

def State.balanceOf (s : State) (m : Mod) : BalanceModule := tget s.balance.modules m

def State.setBalance (m : Mod) (b : BalanceModule) (s : State) : State :=
  { s with balance := { s.balance with modules := tput s.balance.modules m b } }

/-- A change that concerns the Balance Controller is handed to it, to be taken as a decision of its own (R139). -/
def handOff (m : Mod) (s : State) : State :=
  { s with balance := { s.balance with handoffs := s.balance.handoffs ++ [m] } }

/-- The module's commanded mask becomes `c` (R137). -/
def setCommanded (m : Mod) (c : Commanded) (s : State) : State :=
  s.setBalance m { s.balanceOf m with commanded := c }

/-- The commanded mask is non-empty or UNKNOWN (R31). -/
def commandedSome : Commanded → Bool
  | .mask m => m != 0
  | .unknown => true

/-- The decided mask differs from the commanded mask; UNKNOWN differs from every mask (R137). -/
def masksDiffer (b : BalanceModule) : Bool := b.commanded != .mask b.decided

/-! ## Work items (R100) -/

/-- An originator offers an item to the Chain Scheduler. -/
def offer (k : ItemKind) (s : State) : State :=
  { s with sched := { s.sched with items := s.sched.items ++ [{ kind := k, readySince := none }] } }

/-- The items of which `gone` holds are withdrawn. -/
def withdraw (gone : ItemKind → Bool) (s : State) : State :=
  { s with sched := { s.sched with items := s.sched.items.filter fun it => !gone it.kind } }

/-- The item is one of the pass for this target. -/
def isPassItem (t : Target) : ItemKind → Bool
  | .passStep u _ => u == t
  | _ => false

end Sys2Proof.Machine
end

