-- ==== Sys2Proof/Machine/ImageOps.lean ====
section
/-! DEFINITION. Machine/ImageOps.lean: the index plan and the events of the Pack Image (chapter 1). Every event at the
Image rewrites the entries of a module by one function of the channel and the entry, and what it raises is read off
the entries before and after. -/

namespace Sys2Proof.Machine

/-! ## The index plan (R1) -/

/-- The index of an entry (R1). -/
def entryIndex (m : Mod) : Chan → Nat
  | .cell c => m.val * 16 + c.val
  | .temp c => 192 + m.val * 4 + c.val
  | .block => 240 + m.val
  | .die => 252 + m.val

/-- The module and channel of an index 0..263 (R1). -/
def entryOfIndex (i : Nat) : Option (Mod × Chan) :=
  if h : i < 192 then some (⟨i / 16, by omega⟩, .cell ⟨i % 16, by omega⟩)
  else if h : i < 240 then some (⟨(i - 192) / 4, by omega⟩, .temp ⟨(i - 192) % 4, by omega⟩)
  else if h : i < 252 then some (⟨i - 240, by omega⟩, .block)
  else if h : i < 264 then some (⟨i - 252, by omega⟩, .die)
  else none

/-- The channels of a module in ascending index order. -/
def allChans : List Chan :=
  (List.finRange 16).map Chan.cell ++ (List.finRange 4).map Chan.temp ++ [.block, .die]

/-- The renewal group of a channel (R8). -/
def groupOf : Chan → Group
  | .cell _ => .cells
  | _ => .aux

/-- The deadline set of a channel (R8). -/
def deadlineOf : Chan → DeadlineKind
  | .cell _ => .cells
  | .block => .block
  | _ => .slow

/-- The window a deadline set is held to (R8). -/
def windowKindOf : DeadlineKind → WindowKind
  | .slow => .slow
  | _ => .fast

/-- A window setting in ticks, at 10 ticks per millisecond (R6). -/
def windowTicks (st : Settings) : WindowKind → Nat
  | .fast => st.fastWindow * 10
  | .slow => st.slowWindow * 10

/-- The retention window of a channel in ticks (R8). -/
def chanWindow (st : Settings) (ch : Chan) : Nat := windowTicks st (windowKindOf (deadlineOf ch))

/-! ## Entries of a module -/

/-- The entry of a channel. -/
def chanEntry (mi : ModuleImage) : Chan → Entry
  | .cell c => tget mi.cell c
  | .temp c => tget mi.temp c
  | .block => mi.block
  | .die => mi.die

/-- Every entry of a module rewritten by `f`. -/
def mapEntries (f : Chan → Entry → Entry) (mi : ModuleImage) : ModuleImage :=
  { cell := tmap mi.cell fun c e => f (.cell c) e
    temp := tmap mi.temp fun c e => f (.temp c) e
    block := f .block mi.block
    die := f .die mi.die }

/-- The channels, ascending, of which `P` holds of the entry before and after. -/
def chansWhere (P : Chan → Entry → Entry → Bool) (before after : ModuleImage) : List Chan :=
  allChans.filter fun ch => P ch (chanEntry before ch) (chanEntry after ch)

/-- The entry is populated (R10). -/
def populated (e : Entry) : Bool := e.quality != .unpopulated

/-- Some entry's quality differs. -/
def qualityChanged (before after : ModuleImage) : Bool :=
  !(chansWhere (fun _ b a => b.quality != a.quality) before after).isEmpty

/-- The Image's record of a module changes from `before` to `after`, and the Balance Controller receives the entries
whose quality changed (R12 to R18, R20, R21). -/
def writeModule (m : Mod) (f : Chan → Entry → Entry) (s : State) : State :=
  let before := s.moduleImage m
  let after := mapEntries f before
  let s := s.setModuleImage m after
  if qualityChanged before after then handOff m s else s

/-! ## Group renewal (R7, R10 to R12) -/

/-- The renewal counter one on; from FFFFFFFFH it advances to 1 (R7). -/
def nextCounter (c : BitVec 32) : BitVec 32 := if c = BitVec.allOnes 32 then 1 else c + 1

/-- A TEMP or DIE sample brought into −400..+1500; CELL and BLOCK samples as reported (R2). -/
def storedValue (ch : Chan) (v : Int) : Int :=
  match ch with
  | .temp _ | .die => max (-400) (min 1500 v)
  | _ => v

/-- What a pass hands the Image with a response (R9). -/
structure RenewalInfo where
  instant : Tick
  source : Source
  balanced : Bool
  deriving DecidableEq, Repr

/-- A populated entry takes its sample (R10, R11). -/
def takeSample (now : Tick) (window : Nat) (info : RenewalInfo) (n : BitVec 32) (ch : Chan) (x : Sample)
    (e : Entry) : Entry :=
  let e := { e with instant := some info.instant, renewal := n, source := some info.source,
                    balanced := info.balanced }
  if x.openWire then { e with quality := .faulted, cause := some .sensorOpen }
  else { e with value := storedValue ch x.value, cause := none,
                quality := if window ≤ age now info.instant then .stale else .fresh }

/-- The entry after its group's renewal: samples for UNPOPULATED entries are discarded, and the other group is
untouched (R10). -/
def renewEntry (now : Tick) (st : Settings) (g : Group) (samples : Chan → Option Sample) (info : RenewalInfo)
    (n : BitVec 32) (ch : Chan) (e : Entry) : Entry :=
  if groupOf ch = g && populated e then
    match samples ch with
    | some x => takeSample now (chanWindow st ch) info n ch x e
    | none => e
  else e

/-- An event of one module and one entry. -/
def entryEvent (k : EventKind) (now : Tick) (m : Mod) (ch : Chan) : Event :=
  { kind := k, time := now, module := some m, entry := some (m, ch) }

/-- One GROUP_STALE per deadline set of which some channel is listed, carrying the lowest of them. The sets stand in
ascending order of their own lowest entry index: cells, slow, block. R21 gives that order for a window write; that the
sets of one renewal stand in it too is the model's choice (R12, R20; log entry 8). -/
def staleEvents (now : Tick) (m : Mod) (gone : List Chan) : List Event :=
  [DeadlineKind.cells, .slow, .block].filterMap fun k =>
    (gone.find? fun ch => deadlineOf ch == k).map (entryEvent .groupStale now m)

/-- The entry became FAULTED (SENSOR_OPEN) and was not so before. -/
def becameOpen (b a : Entry) : Bool :=
  a.quality == .faulted && a.cause == some .sensorOpen && !(b.quality == .faulted && b.cause == some .sensorOpen)

/-- The entry is FRESH and was STALE, FAULTED, or PENDING with its renewal number present (R12). -/
def recovered (b a : Entry) : Bool :=
  a.quality == .fresh
    && (b.quality == .stale || b.quality == .faulted || (b.quality == .pending && b.renewal != 0))

/-- The entry entered STALE. -/
def becameStale (b a : Entry) : Bool := a.quality == .stale && b.quality != .stale

/-- The events of a group renewal, in the order of R12. -/
def renewalEvents (now : Tick) (m : Mod) (before after : ModuleImage) : List Event :=
  (chansWhere (fun _ b a => becameOpen b a) before after).map (entryEvent .sensorOpen now m)
    ++ ((chansWhere (fun _ b a => recovered b a) before after).head?.map
        (entryEvent .groupRecovered now m)).toList
    ++ staleEvents now m (chansWhere (fun _ b a => becameStale b a) before after)

/-- The entries that took a valid sample, with the stored value: the receipt of the renewal (R12, R121). -/
def validSamples (g : Group) (samples : Chan → Option Sample) (before : ModuleImage) : List (Chan × Int) :=
  allChans.filterMap fun ch =>
    if groupOf ch = g && populated (chanEntry before ch) then
      match samples ch with
      | some x => if x.openWire then none else some (ch, storedValue ch x.value)
      | none => none
    else none

/-- The writes of a group renewal: the counter advances, and every populated entry of the group takes its sample under
the new number (R10). -/
def writeRenewal (m : Mod) (g : Group) (samples : Chan → Option Sample) (info : RenewalInfo) (s : State) : State :=
  let n := nextCounter s.image.counter
  let s' := s.setModuleImage m (mapEntries (renewEntry s.timebase s.settings g samples info n) (s.moduleImage m))
  { s' with image := { s'.image with counter := n } }

/-- A receipt is handed to the Limit Checker (R12, R121); one that lists no entry is discarded. -/
def handReceipt (m : Mod) (n : BitVec 32) (xs : List (Chan × Int)) (s : State) : State :=
  if xs.isEmpty then s else { s with limits := { s.limits with work := s.limits.work ++ [.receipt m n xs] } }

/-- One group renewal (R10, R12). The renewal number it took is the counter afterwards. -/
def renewGroup (m : Mod) (g : Group) (samples : Chan → Option Sample) (info : RenewalInfo) (s : State) : State :=
  let before := s.moduleImage m
  let s := writeRenewal m g samples info s
  let after := s.moduleImage m
  let s := raiseBoth (renewalEvents s.timebase m before after) s
  let s := handReceipt m s.image.counter (validSamples g samples before) s
  if g = .cells || qualityChanged before after then handOff m s else s

/-! ## Population and loss (R13 to R19) -/

/-- An entry qualifies for population, the chain permitting (R13). -/
def qualifies (onChain : Bool) (r : ModuleRecord) (mask : CellMask) (ch : Chan) : Bool :=
  onChain &&
    match ch with
    | .cell c => c.val < r.cellCount && inMask mask c
    | .temp c => c.val < r.tempCount
    | _ => true

/-- Whether an entry of the module qualifies as things stand, its enumeration running or just ended (R13). -/
def State.qualifies (s : State) (m : Mod) (ch : Chan) : Bool :=
  Machine.qualifies (s.onChain m) (s.record m) (tget s.settings.populationMask m) ch

/-- An entry becomes UNPOPULATED and is cleared (R19). -/
def unpopulate (_ : Entry) : Entry := clearedEntry

/-- The channels of the module that are UNPOPULATED are struck from every receipt that waits (R19, R121). A receipt that
this empties keeps its place until its turn, when it is taken without effect: the model's choice (log entry 26). -/
def strikeReceipts (m : Mod) (s : State) : State :=
  let mi := s.moduleImage m
  let strike : LimitWork → LimitWork
    | .receipt k n xs => if k = m then .receipt k n (xs.filter fun x => populated (chanEntry mi x.1))
        else .receipt k n xs
    | w => w
  { s with limits := { s.limits with work := s.limits.work.map strike } }

/-- A successful ASSIGN populates the module (R14). -/
def populateModule (m : Mod) (s : State) : State :=
  writeModule m (fun ch e =>
    if !populated e && s.qualifies m ch then { e with quality := .pending } else e) s

/-- The enumeration end at one module (R15). -/
def enumerationEndEntry (q : Bool) (e : Entry) : Entry :=
  if q then
    if !populated e || (e.quality == .faulted && e.cause == some .restart) then
      { e with quality := .pending, cause := none }
    else e
  else unpopulate e

/-- The enumeration end over all 264 entries (R15). -/
def imageEnumerationEnd (s : State) : State :=
  allMods.foldl (fun s m =>
    strikeReceipts m (writeModule m (fun ch e => enumerationEndEntry (s.qualifies m ch) e) s)) s

/-- A chain restart at one entry (R16). -/
def restartEntry (e : Entry) : Entry :=
  if populated e then { e with quality := .faulted, cause := some .restart } else e

/-- A chain restart at the Image (R16). -/
def imageRestart (s : State) : State :=
  allMods.foldl (fun s m => writeModule m (fun _ => restartEntry) s) s

/-- A loss at one entry (R17). -/
def loseEntry (e : Entry) : Entry :=
  match e.quality with
  | .pending | .fresh | .stale => { e with quality := .faulted, cause := some .noResponse }
  | _ => e

/-- GROUP_FAULTED per group with a changed entry, the cell group first (R17). -/
def lossEvents (now : Tick) (m : Mod) (changed : List Chan) : List Event :=
  [Group.cells, .aux].filterMap fun g =>
    (changed.find? fun ch => groupOf ch == g).map fun ch =>
      { entryEvent .groupFaulted now m ch with cause := some .noResponse }

/-- The loss of a module at the Image (R17). -/
def imageLoss (m : Mod) (s : State) : State :=
  let before := s.moduleImage m
  let after := mapEntries (fun _ => loseEntry) before
  writeModule m (fun _ => loseEntry)
    (raiseBoth (lossEvents s.timebase m (chansWhere (fun _ b a => b.quality != a.quality) before after)) s)

/-- A POPULATION_MASK write at one entry (R18). -/
def maskWriteEntry (old new : CellMask) (q lost : Bool) (ch : Chan) (e : Entry) : Entry :=
  match ch with
  | .cell c =>
    if inMask old c == inMask new c then e
    else if inMask new c then
      if !populated e && q then
        if lost then { e with quality := .faulted, cause := some .noResponse } else { e with quality := .pending }
      else e
    else unpopulate e
  | _ => e

/-- A POPULATION_MASK write at the Image. `old` is the mask before the write; the settings already hold the new one.
While the chain is not RUNNING no entry qualifies (R18). -/
def imageMaskWrite (m : Mod) (old : CellMask) (s : State) : State :=
  let new := tget s.settings.populationMask m
  let lost := s.health m == .lost
  strikeReceipts m (writeModule m (fun ch e =>
    maskWriteEntry old new (s.map.state == .running && s.qualifies m ch) lost ch e) s)

/-! ## Retention deadlines (R20 to R22) -/

/-- The entry is FRESH and its window has run out (R6, R20). -/
def overdue (now : Tick) (window : Nat) (e : Entry) : Bool :=
  e.quality == .fresh &&
    match e.instant with
    | some t => window ≤ age now t
    | none => false

/-- The ticks left of an entry's window. -/
def remaining (now : Tick) (window : Nat) (e : Entry) : Nat :=
  match e.instant with
  | some t => window - age now t
  | none => 0

/-- The deadline of a set has been reached by a FRESH entry (R20). -/
def State.deadlineDue (s : State) (m : Mod) (k : DeadlineKind) : Bool :=
  allChans.any fun ch => deadlineOf ch == k && overdue s.timebase (chanWindow s.settings ch)
    (chanEntry (s.moduleImage m) ch)

/-- Every FRESH entry of the set goes STALE (R20). -/
def expireEntry (k : DeadlineKind) (ch : Chan) (e : Entry) : Entry :=
  if deadlineOf ch = k && e.quality == .fresh then { e with quality := .stale } else e

/-- The deadline set of a module expires, less its event. -/
def expireSet (m : Mod) (k : DeadlineKind) (s : State) : State := writeModule m (expireEntry k) s

/-- The GROUP_STALE of a set that goes STALE. -/
def expireEvents (m : Mod) (k : DeadlineKind) (s : State) : List Event :=
  staleEvents s.timebase m
    (chansWhere (fun _ b a => becameStale b a) (s.moduleImage m) (mapEntries (expireEntry k) (s.moduleImage m)))

/-- The expiry event of a deadline set (R20). -/
def expireDeadline (m : Mod) (k : DeadlineKind) (s : State) : State :=
  expireSet m k (raiseBoth (expireEvents m k s) s)

/-- The deadline sets held to a window, in ascending order of their lowest entry index (R21). -/
def setsOfWindow : WindowKind → List (Mod × DeadlineKind)
  | .fast => allMods.map (·, .cells) ++ allMods.map (·, .block)
  | .slow => allMods.map (·, .slow)

/-- A write of a window at the Image, the new value already in the settings: the sets past it go STALE, their events
raised in one storing event (R21, R187). -/
def imageWindowWrite (w : WindowKind) (s : State) : State :=
  let due := (setsOfWindow w).filter fun x => s.deadlineDue x.1 x.2
  due.foldl (fun s x => expireSet x.1 x.2 s) (raiseBoth (due.flatMap fun x => expireEvents x.1 x.2 s) s)

/-- The entry is near its deadline (R22). -/
def nearDeadline (now : Tick) (st : Settings) (ch : Chan) (e : Entry) : Bool :=
  e.quality == .fresh && remaining now (chanWindow st ch) e ≤ chanWindow st ch * st.urgencyMargin / 100

/-- The entry makes a sweep's item urgent (R104). -/
def urgentEntry (now : Tick) (st : Settings) (ch : Chan) (e : Entry) : Bool :=
  nearDeadline now st ch e || e.quality == .pending || e.quality == .stale
    || (e.quality == .faulted && e.cause != some .sensorOpen)

/-- Some entry of the module is urgent (R104). -/
def State.urgentModule (s : State) (m : Mod) : Bool :=
  allChans.any fun ch => urgentEntry s.timebase s.settings ch (chanEntry (s.moduleImage m) ch)

/-- Some aux entry of the module makes aux due: PENDING, STALE or FAULTED, or FRESH with less than two SWEEP_PERIODs
left (R50). -/
def State.auxEntriesDue (s : State) (m : Mod) : Bool :=
  allChans.any fun ch =>
    let e := chanEntry (s.moduleImage m) ch
    groupOf ch == .aux && (e.quality == .pending || e.quality == .stale || e.quality == .faulted
      || (e.quality == .fresh
          && remaining s.timebase (chanWindow s.settings ch) e < 2 * (s.settings.sweepPeriod * 10)))

/-- The cell group holds a FRESH entry younger than half of FAST_WINDOW, counted in ticks and rounded down (R51). -/
def State.cellsRecent (s : State) (m : Mod) : Bool :=
  allChans.any fun ch =>
    let e := chanEntry (s.moduleImage m) ch
    groupOf ch == .cells && e.quality == .fresh &&
      match e.instant with
      | some t => age s.timebase t < s.settings.fastWindow * 10 / 2
      | none => false

/-! ## Reading (R24 to R26) -/

/-- The copies of a run of entries, ascending (R25). -/
def copyRun (s : State) (first count : Nat) : List HoldCopy :=
  (List.range count).filterMap fun i =>
    (entryOfIndex (first + i)).map fun x =>
      { module := x.1, chan := x.2, record := (chanEntry (s.moduleImage x.1) x.2).toEntryRecord }

/-- The FRESH entries of a run share one conversion instant (R26). -/
def coherent (run : List HoldCopy) : Bool :=
  match (run.filter fun c => c.record.quality == .fresh).map fun c => c.record.instant with
  | [] => true
  | t :: ts => ts.all fun u => u == t

end Sys2Proof.Machine
end

