-- ==== Sys2Proof/Machine/LimitOps.lean ====
section
/-! DEFINITION. Machine/LimitOps.lean: the Limit Checker: the judgement of a sample (R119 to R127) and the sum check
(R128 to R131). -/

namespace Sys2Proof.Machine

/-! ## Limit kinds (R120) -/

/-- The HIGH kind of a class. -/
def highKind : Chan → Option LimitKind
  | .cell _ => some .ov
  | .temp _ => some .th
  | .die => some .dh
  | .block => none

/-- The LOW kind of a class; a DIE entry has none (R120). -/
def lowKind : Chan → Option LimitKind
  | .cell _ => some .uv
  | .temp _ => some .tl
  | _ => none

/-- The sample lies on the far side of the kind (R120). -/
def farSide (st : Settings) (k : LimitKind) (v : Int) : Bool :=
  match k with
  | .ov => (st.cellOv : Int) < v
  | .uv => v < (st.cellUv : Int)
  | .th => st.tempHigh < v
  | .tl => v < st.tempLow
  | .dh => st.dieHigh < v

/-- The sample counts toward clearing the kind; sums and differences are exact (R120). -/
def clearing (st : Settings) (k : LimitKind) (v : Int) : Bool :=
  match k with
  | .ov => v ≤ (st.cellOv : Int) - st.hystCell
  | .uv => (st.cellUv : Int) + st.hystCell ≤ v
  | .th => v ≤ st.tempHigh - st.hystTemp
  | .tl => st.tempLow + st.hystTemp ≤ v
  | .dh => v ≤ st.dieHigh - st.hystTemp

/-- The bit of a kind in STREAK_BYPASS (R220). -/
def bypassed (st : Settings) (k : LimitKind) : Bool :=
  st.streakBypass.getLsbD (match k with | .ov => 0 | .uv => 1 | .th => 2 | .tl => 3 | .dh => 4)

/-! ## Judging one sample (R121 to R124) -/

/-- What a judgement makes of an entry, and the event it calls for. -/
structure Verdict where
  entry : Entry
  event : Option (EventKind × LimitKind)
  deriving DecidableEq, Repr

/-- A sample on the far side of a kind, the entry in WITHIN: counted, or crossing at once under STREAK_BYPASS (R122,
R123). -/
def countFar (st : Settings) (k : LimitKind) (state : LimitState) (side : StreakSide) (e : Entry) : Verdict :=
  let streak := if e.side = side then e.streak + 1 else 1
  if bypassed st k || st.streakLimit ≤ streak then
    { entry := { e with limit := state, streak := 0, side := .none }, event := some (.limitCrossed, k) }
  else { entry := { e with streak := streak, side := side }, event := none }

/-- The kind whose far side the sample lies on; on both, the HIGH side alone (R122). -/
def sideOf (st : Settings) (ch : Chan) (v : Int) : Option (LimitKind × LimitState × StreakSide) :=
  match (highKind ch).filter fun k => farSide st k v with
  | some k => some (k, .high, .high)
  | none => ((lowKind ch).filter fun k => farSide st k v).map fun k => (k, .low, .low)

/-- An entry in WITHIN (R122). -/
def judgeWithin (st : Settings) (ch : Chan) (v : Int) (e : Entry) : Verdict :=
  match sideOf st ch v with
  | some (k, state, side) => countFar st k state side e
  | none => { entry := { e with streak := 0, side := .none }, event := none }

/-- An entry in HIGH or LOW, under the kind whose state it holds (R124). -/
def judgeOutside (st : Settings) (k : LimitKind) (v : Int) (e : Entry) : Verdict :=
  if clearing st k v then
    if st.streakLimit ≤ e.streak + 1 then
      { entry := { e with limit := .within, streak := 0, side := .none }, event := some (.limitCleared, k) }
    else { entry := { e with streak := e.streak + 1 }, event := none }
  else { entry := { e with streak := 0 }, event := none }

/-- The judgement of one sample (R121). A BLOCK entry is passed over. -/
def judge (st : Settings) (ch : Chan) (v : Int) (e : Entry) : Verdict :=
  if ch = .block then { entry := e, event := none }
  else
    match e.limit with
    | .within => judgeWithin st ch v e
    | .high => match highKind ch with
      | some k => judgeOutside st k v e
      | none => { entry := e, event := none }
    | .low => match lowKind ch with
      | some k => judgeOutside st k v e
      | none => { entry := e, event := none }

/-! ## A receipt (R121, R125) -/

/-- The sample that a receipt lists for a channel. -/
def sampleOf (xs : List (Chan × Int)) (ch : Chan) : Option Int :=
  (xs.find? fun x => x.1 = ch).map (·.2)

/-- The entry after its receipt's event. -/
def judgeEntry (st : Settings) (xs : List (Chan × Int)) (ch : Chan) (e : Entry) : Entry :=
  match sampleOf xs ch with
  | some v => (judge st ch v e).entry
  | none => e

/-- The events of a receipt, in ascending index order (R125). -/
def receiptEvents (now : Tick) (st : Settings) (m : Mod) (xs : List (Chan × Int)) (before : ModuleImage) :
    List Event :=
  allChans.filterMap fun ch =>
    (sampleOf xs ch).bind fun v =>
      (judge st ch v (chanEntry before ch)).event.map fun x =>
        { entryEvent x.1 now m ch with value := some v, cause := some (.limit x.2) }

/-- The event of a receipt (R121, R125). A change of a limit state is handed to the Balance Controller. -/
def takeReceipt (m : Mod) (xs : List (Chan × Int)) (s : State) : State :=
  let before := s.moduleImage m
  let after := mapEntries (judgeEntry s.settings xs) before
  let s' := raiseBoth (receiptEvents s.timebase s.settings m xs before) (s.setModuleImage m after)
  if (chansWhere (fun _ b a => b.limit != a.limit) before after).isEmpty then s' else handOff m s'

/-! ## The sum check (R129 to R131) -/

/-- The populated CELL entries of a module. -/
def populatedCells (mi : ModuleImage) : List Entry :=
  ((List.finRange 16).map (tget mi.cell)).filter populated

/-- The check is made, and not void (R129). -/
def sumCheckMade (mi : ModuleImage) (cellRenewal auxRenewal : BitVec 32) : Bool :=
  !(populatedCells mi).isEmpty
    && (populatedCells mi).all (fun e => e.quality == .fresh && e.renewal == cellRenewal)
    && mi.block.quality == .fresh && mi.block.renewal == auxRenewal

/-- The cell sum in BLOCK counts, to the nearest, a half rounded up, less the BLOCK value (R130). -/
def sumDifference (mi : ModuleImage) : Int :=
  (((populatedCells mi).map fun e => e.value).sum + 10) / 20 - mi.block.value

/-- The event of a sum check (R129 to R131). -/
def takeSumCheck (m : Mod) (cellRenewal auxRenewal : BitVec 32) (s : State) : State :=
  let mi := s.moduleImage m
  if sumCheckMade mi cellRenewal auxRenewal then
    let d := sumDifference mi
    let after : SumState := if s.settings.sumTolerance < d.natAbs then .mismatch else .clear
    let before := tget s.limits.sums m
    if before = after then s
    else
      let kind : EventKind := if after = .mismatch then .sumMismatch else .sumCleared
      let s := raiseBoth [{ kind := kind, time := s.timebase, module := some m, value := some d }] s
      handOff m { s with limits := { s.limits with sums := tput s.limits.sums m after } }
  else s

end Sys2Proof.Machine
end

