-- ==== Sys2Proof/Machine/BalanceOps.lean ====
section
/-! DEFINITION. Machine/BalanceOps.lean: the decision of the Balance Controller and the claims of the two ports
(R136 to R143, R147 to R158). -/

namespace Sys2Proof.Machine

/-! ## What a decision reads (R138) -/

/-- What the decision of a module reads beside its balance table and its entries (R138). -/
structure DecisionInput where
  capacity : Nat
  down : Bool
  mismatch : Bool
  deriving DecidableEq, Repr

/-- The input of a module's decision as things stand. -/
def State.decisionInput (s : State) (m : Mod) : DecisionInput :=
  { capacity := s.settings.balanceCapacity
    down := s.health m == .suspect || s.health m == .lost
    mismatch := tget s.limits.sums m == .mismatch }

/-- A TEMP entry or the DIE entry has limit state HIGH (R140). -/
def moduleHot (mi : ModuleImage) : Bool :=
  ((List.finRange 4).any fun c => (tget mi.temp c).limit == .high) || mi.die.limit == .high

/-- A port holds a request on the cell. -/
def requestedBy (p : Port) (r : CellRecord) : Bool := (r.request.get p).isSome

/-- Some port holds a request on the cell. -/
def requested (r : CellRecord) : Bool := requestedBy .A r || requestedBy .B r

/-- The block cause of a requested cell, the first in the order of precedence that applies (R140). -/
def blockCauseOf (i : DecisionInput) (mi : ModuleImage) (c : Fin 16) (r : CellRecord) : Option BlockCause :=
  let e := tget mi.cell c
  if r.inhibit.a || r.inhibit.b then some .inhibited
  else if i.down then some .moduleDown
  else if moduleHot mi then some .moduleHot
  else if i.mismatch then some .sum
  else if e.quality != .fresh then some .data
  else if e.limit == .low then some .cellLow
  else none

/-- The cell is a candidate (R141, step 3). -/
def candidate (i : DecisionInput) (mi : ModuleImage) (b : BalanceModule) (c : Fin 16) : Bool :=
  requested (tget b.cells c) && (blockCauseOf i mi c (tget b.cells c)).isNone

/-- Candidate `d` ranks above candidate `c`: a higher value, or an equal value and a lower channel (R141, step 3). -/
def ranksAbove (mi : ModuleImage) (d c : Fin 16) : Bool :=
  (tget mi.cell c).value < (tget mi.cell d).value
    || ((tget mi.cell c).value == (tget mi.cell d).value && d.val < c.val)

/-- How many candidates rank above a cell. -/
def rankOf (i : DecisionInput) (mi : ModuleImage) (b : BalanceModule) (c : Fin 16) : Nat :=
  (List.finRange 16).countP fun d => candidate i mi b d && ranksAbove mi d c

/-- The cell is chosen (R141, step 4). -/
def chosen (i : DecisionInput) (mi : ModuleImage) (b : BalanceModule) (c : Fin 16) : Bool :=
  candidate i mi b c && rankOf i mi b c < i.capacity

/-- The balance state of a cell (R141). -/
def decideCell (i : DecisionInput) (mi : ModuleImage) (b : BalanceModule) (c : Fin 16) : BalanceState :=
  let r := tget b.cells c
  if requested r then
    match blockCauseOf i mi c r with
    | some k => .blocked k
    | none => if chosen i mi b c then (if b.hold then .held else .on) else .waiting
  else .idle

/-- A cell that is ON or HELD stands in the decided mask (R136, R141). -/
def switchedOn (st : BalanceState) : Bool := st == .on || st == .held

/-- The decision's writes to a module's table (R141). -/
def decideModule (i : DecisionInput) (mi : ModuleImage) (b : BalanceModule) : BalanceModule :=
  { b with cells := tmap b.cells fun c r => { r with state := decideCell i mi b c }
           decided := maskOf fun c => switchedOn (decideCell i mi b c) }

/-! ## Events (R142, R156) -/

/-- The block causes, in order of precedence (R140). -/
def allCauses : List BlockCause := [.inhibited, .moduleDown, .moduleHot, .sum, .data, .cellLow]

/-- The cell is BLOCKED, whatever the cause. -/
def isBlocked : BalanceState → Bool
  | .blocked _ => true
  | _ => false

/-- The cell is reported blocked to the port: BLOCKED after with the cause, and requested by it; and before, not
BLOCKED or not requested by it (R142). -/
def reportedBlocked (p : Port) (k : BlockCause) (before after : CellRecord) : Bool :=
  after.state == .blocked k && requestedBy p after && !(isBlocked before.state && requestedBy p before)

/-- An event of one module and one cell mask. -/
def maskEvent (k : EventKind) (now : Tick) (m : Mod) (mask : CellMask) (c : EventCause) : Event :=
  { kind := k, time := now, module := some m, value := some mask.toNat, cause := some c }

/-- The BALANCE_BLOCKED events of a decision to a port, in order of cause precedence (R142). -/
def blockedEvents (now : Tick) (m : Mod) (p : Port) (before after : BalanceModule) : List Event :=
  allCauses.filterMap fun k =>
    let mask := maskOf fun c => reportedBlocked p k (tget before.cells c) (tget after.cells c)
    if mask = 0 then none else some (maskEvent .balanceBlocked now m mask (.blocked k))

/-- The BALANCE_ENDED event to a port for the cells whose requests of that port ended (R156). -/
def endedEvents (now : Tick) (m : Mod) (p : Port) (cause : EventCause) (before after : BalanceModule) :
    List Event :=
  let mask := maskOf fun c => requestedBy p (tget before.cells c) && !requestedBy p (tget after.cells c)
  if mask = 0 then [] else [maskEvent .balanceEnded now m mask cause]

/-! ## Taking a decision (R139, R142) -/

/-- The decision of a module, in an event that found its table as `before` and has changed its claims to `claims`; the
requests that ended are reported with the cause, if one is given. -/
def decideFrom (m : Mod) (ended : Option EventCause) (before claims : BalanceModule) (s : State) : State :=
  let after := decideModule (s.decisionInput m) (s.moduleImage m) claims
  let events (p : Port) :=
    (match ended with
      | some c => endedEvents s.timebase m p c before claims
      | none => []) ++ blockedEvents s.timebase m p before after
  raiseTo .B (events .B) (raiseTo .A (events .A) (s.setBalance m after))

/-- The decision of a module as things stand (R139). -/
def takeDecision (m : Mod) (s : State) : State := decideFrom m none (s.balanceOf m) (s.balanceOf m) s

/-- The decision of every module, ascending, in one event (R139, R156). -/
def decideAll (s : State) : State := asOneEvent (fun s => allMods.foldl (fun s m => takeDecision m s) s) s

/-- The beginning or the end of a hold period, taken as a decision of the module (R143). -/
def setHold (m : Mod) (on : Bool) (s : State) : State :=
  decideFrom m none (s.balanceOf m) { s.balanceOf m with hold := on } s

/-! ## Claims (R147 to R152, R158) -/

/-- A module's cell records rewritten on the cells of a mask. -/
def onCells (mask : CellMask) (f : CellRecord → CellRecord) (b : BalanceModule) : BalanceModule :=
  { b with cells := tmap b.cells fun c r => if inMask mask c then f r else r }

/-- One port's request of a cell. -/
def setRequest (p : Port) (due : Option Tick) (r : CellRecord) : CellRecord :=
  { r with request := r.request.set p due }

/-- One port's inhibit mark of a cell. -/
def setInhibit (p : Port) (on : Bool) (r : CellRecord) : CellRecord :=
  { r with inhibit := r.inhibit.set p on }

/-- Both ports' requests of a cell removed. -/
def dropRequests (r : CellRecord) : CellRecord := { r with request := { a := none, b := none } }

/-- The cells of a module that are UNPOPULATED. -/
def unpopulatedMask (mi : ModuleImage) : CellMask := maskOf fun c => !populated (tget mi.cell c)

/-- The requests of a module's UNPOPULATED cells are removed with BALANCE_ENDED (UNPOPULATED), and the decision is
taken (R152). -/
def dropUnpopulated (m : Mod) (s : State) : State :=
  let b := s.balanceOf m
  decideFrom m (some .unpopulated) b (onCells (unpopulatedMask (s.moduleImage m)) dropRequests b) s

/-- The request has ended: its end instant has been reached (R151). -/
def requestDue (now : Tick) : Option Tick → Bool
  | some due => reached now due
  | none => false

/-- A cell less the requests that have ended (R151). -/
def expireRequests (now : Tick) (r : CellRecord) : CellRecord :=
  { r with request :=
      { a := if requestDue now r.request.a then none else r.request.a
        b := if requestDue now r.request.b then none else r.request.b } }

/-- Some request of the module has reached its end instant (R151). -/
def State.requestsDue (s : State) (m : Mod) : Bool :=
  (List.finRange 16).any fun c =>
    requestDue s.timebase (tget (s.balanceOf m).cells c).request.a
      || requestDue s.timebase (tget (s.balanceOf m).cells c).request.b

/-- The expiry event of a module's requests (R151). -/
def expireModuleRequests (m : Mod) (s : State) : State :=
  let b := s.balanceOf m
  decideFrom m (some .expired) b { b with cells := tmap b.cells fun _ r => expireRequests s.timebase r } s

/-- The claims of a port withdrawn from a cell (R158). -/
def dropClaims (p : Port) (r : CellRecord) : CellRecord := setInhibit p false (setRequest p none r)

/-- Some cell of the module carries a claim of the port. -/
def holdsClaim (p : Port) (b : BalanceModule) : Bool :=
  (List.finRange 16).any fun c => requestedBy p (tget b.cells c) || (tget b.cells c).inhibit.get p

/-- A port's claims on a module withdrawn, and its decision taken if it had any (R158). -/
def dropModuleClaims (p : Port) (s : State) (m : Mod) : State :=
  let b := s.balanceOf m
  if holdsClaim p b then decideFrom m none b { b with cells := tmap b.cells fun _ r => dropClaims p r } s else s

/-- The session reset of a port at the Balance Controller (R158). -/
def balanceSessionReset (p : Port) (s : State) : State := asOneEvent (fun s => allMods.foldl (dropModuleClaims p) s) s

/-- A module's table at a chain restart, less the decision (R157). -/
def restartClaims (b : BalanceModule) : BalanceModule :=
  { b with cells := tmap b.cells fun _ r => dropRequests r, commanded := .mask 0, hold := false }

/-- A chain restart at the Balance Controller: one event over the whole table, its records to a port raised in
ascending module order (R156, R157). -/
def balanceRestart (s : State) : State :=
  let ended (p : Port) := allMods.flatMap fun m =>
    endedEvents s.timebase m p .restart (s.balanceOf m) (restartClaims (s.balanceOf m))
  let s := raiseTo .B (ended .B) (raiseTo .A (ended .A) s)
  allMods.foldl (fun s m => decideFrom m none (s.balanceOf m) (restartClaims (s.balanceOf m)) s) s

/-- One second of ON time more, staying at FFFFFFFFH (R154). -/
def addOnSecond (n : BitVec 32) : BitVec 32 := if n = BitVec.allOnes 32 then n else n + 1

/-- The ON time of a module's cells one second higher where its commanded mask holds them; UNKNOWN adds nothing
(R154). -/
def countOnTime (b : BalanceModule) : BalanceModule :=
  match b.commanded with
  | .mask mask => onCells mask (fun r => { r with onTime := addOnSecond r.onTime }) b
  | .unknown => b

end Sys2Proof.Machine
end

