-- ==== Sys2Proof/Machine/LinkOps.lean ====
section
/-! DEFINITION. Machine/LinkOps.lean: the Chain Link Controller's frames, slots, tags and sendings (R56 to R77). -/

namespace Sys2Proof.Machine

/-! ## Command frames (R57, R221) -/

/-- The verb code of a transaction (R221). -/
def verbCode : Role → Nat
  | .assign => 2
  | .probe => 3
  | .ping => 3
  | .convert => 4
  | .readCells => 5
  | .readAux => 6
  | .quiesce => 7
  | .restore => 7
  | .update => 7

/-- The code of a what (R221). -/
def whatCode : What → Byte
  | .cells => 1
  | .aux => 2
  | .both => 3

/-- The high and the low byte of a 16-bit field, most significant first. -/
def bytes16 (v : BitVec 16) : List Byte := [v.extractLsb' 8 8, v.extractLsb' 0 8]

/-- The four bytes of a 32-bit field, most significant first. -/
def bytes32 (v : BitVec 32) : List Byte :=
  [v.extractLsb' 24 8, v.extractLsb' 16 8, v.extractLsb' 8 8, v.extractLsb' 0 8]

/-- The payload bytes of a command frame (R221). -/
def payloadBytes : Payload → List Byte
  | .empty => []
  | .number n => [BitVec.ofNat 8 n]
  | .what w => [whatCode w]
  | .mask m => bytes16 m

/-- The bytes of a command frame, the start marker first (R57, R221). -/
def commandBytes (node verb : Nat) (tag : BitVec 4) (p : Payload) : List Byte :=
  let payload := payloadBytes p
  let body := BitVec.ofNat 8 (node * 16 + tag.toNat) :: BitVec.ofNat 8 (verb * 16 + payload.length) :: payload
  0xA6#8 :: (body ++ bytes16 (crc16 body))

/-! ## Slots and tags (R69 to R71) -/

def State.slot (s : State) (i : Fin 4) : Option TxnSlot := tget s.link.slots i

def State.setSlot (i : Fin 4) (x : Option TxnSlot) (s : State) : State :=
  { s with link := { s.link with slots := tput s.link.slots i x } }

/-- The held slots. -/
def heldSlots (l : Link) : List TxnSlot := (List.finRange 4).filterMap (tget l.slots)

/-- The lowest-numbered free slot (R69). -/
def freeSlot (l : Link) : Option (Fin 4) := (List.finRange 4).find? fun i => (tget l.slots i).isNone

/-- The tag is held by a slot or in quarantine (R70). -/
def tagBusy (l : Link) (t : BitVec 4) : Bool :=
  (heldSlots l).any (fun x => x.tag == some t) || l.quarantine.any fun q => q.tag == t

/-- The tag that a sending draws: the first of last + 1, last + 2, … modulo 16 that is not busy (R70). -/
def drawTag (l : Link) : Option (BitVec 4) :=
  ((List.range 16).map fun k => l.lastTag + 1 + BitVec.ofNat 4 k).find? fun t => !tagBusy l t

/-- A transaction to the module is outstanding. -/
def State.outstanding (s : State) (m : Mod) : Bool := (heldSlots s.link).any fun x => x.node == modNumber m

/-- A transaction to the module that belongs to no pass is outstanding (R31). -/
def State.outstandingOutside (s : State) (m : Mod) : Bool :=
  (heldSlots s.link).any fun x => x.node == modNumber m &&
    match x.owner with
    | .pass _ => false
    | _ => true

/-- A restore of the module is outstanding (R105). -/
def State.restoreOutstanding (s : State) (m : Mod) : Bool :=
  (heldSlots s.link).any fun x => x.node == modNumber m && x.role == .restore

/-- A stand-alone update of the module is outstanding (R145). -/
def State.updateOutstanding (s : State) (m : Mod) : Bool :=
  (heldSlots s.link).any fun x => x.node == modNumber m && x.role == .update

/-- A slot of a pass that has ended loses its originator (R40, R75). -/
def orphanSlot (t : Target) (node : Option Nat) (x : TxnSlot) : TxnSlot :=
  if x.owner = .pass t ∧ (node = none ∨ node = some x.node) then { x with owner := .gone } else x

/-- The slots of a pass that has ended lose their originator. For an aligned pass, `node` names the module whose part
has ended. -/
def orphanSlots (t : Target) (node : Option Nat) (s : State) : State :=
  { s with link := { s.link with slots := tmap s.link.slots fun _ x => x.map (orphanSlot t node) } }

/-! ## The lane (R56, R67, R68, R77) -/

/-- No frame is on the lane, its idle has passed and no gap runs. -/
def laneQuiet (l : Link) : Bool := l.sending.isNone && l.idleUntil.isNone && l.gapUntil.isNone

/-- The down lane is free (R67). -/
def laneFree (l : Link) : Bool := laneQuiet l && l.resendQueue.isEmpty

/-- A frame's first bit goes onto the lane; each byte takes 4 µs (R67, R221). -/
def putOnLane (bytes : List Byte) (slot : Option (Fin 4)) (broadcast release : Bool) (s : State) : State :=
  let f : Sending :=
    { bytes := bytes, endAt := s.linkTime + Config.microsPerByte * bytes.length, slot := slot,
      broadcast := broadcast, release := release }
  { s with link := { s.link with sending := some f } }

/-- A broadcast: node 15, no tag, no slot (R68). -/
def sendBroadcast (verb : Nat) (p : Payload) (release : Bool) (s : State) : State :=
  putOnLane (commandBytes 15 verb 0 p) none true release s

/-- The slot that a unicast grant fills (R69). -/
def newSlot (s : State) (tag : BitVec 4) (role : Role) (owner : Owner) (node : Nat) (p : Payload) : TxnSlot :=
  { tag := some tag, node := node, role := role, owner := owner, payload := p, sendInstant := s.timebase,
    windowEnd := none, window := s.settings.responseWindow * 10, attemptLimit := 1 + s.settings.retryLimit,
    attemptsUsed := 1 }

/-- The first sending of a transaction: the lowest free slot is filled and a tag drawn (R67, R69, R70). -/
def sendUnicast (role : Role) (owner : Owner) (node : Nat) (p : Payload) (s : State) : State :=
  match freeSlot s.link, drawTag s.link with
  | some i, some t =>
    let s := s.setSlot i (some (newSlot s t role owner node p))
    putOnLane (commandBytes node (verbCode role) t p) (some i) false false
      { s with link := { s.link with lastTag := t } }
  | _, _ => s

/-- The payload of a re-send, taken afresh: for a BALANCE_SET the mask that the first sending would carry at this
moment, for the other verbs as it was (R77). -/
def freshPayload (s : State) (x : TxnSlot) : Payload :=
  match x.role, modOfNumber x.node with
  | .restore, some m => .mask (s.balanceOf m).decided
  | .update, some m => .mask (s.balanceOf m).decided
  | _, _ => x.payload

/-- The re-send of the slot at the head of the re-send queue (R77). -/
def resendSlot (i : Fin 4) (x : TxnSlot) (t : BitVec 4) (rest : List (Fin 4)) (s : State) : State :=
  let p := freshPayload s x
  let x' := { x with tag := some t, payload := p, sendInstant := s.timebase, windowEnd := none,
                     attemptsUsed := x.attemptsUsed + 1 }
  let s := s.setSlot i (some x')
  putOnLane (commandBytes x.node (verbCode x.role) t p) (some i) false false
    { s with link := { s.link with lastTag := t, resendQueue := rest, retries := countUp s.link.retries } }

/-! ## Timeouts, restart (R71, R76, R79) -/

/-- A slot's tag enters quarantine for twice its window, counted from now (R71). -/
def quarantineTag (now : Nat) (x : TxnSlot) : List Quarantined :=
  match x.tag with
  | some t => [{ tag := t, endAt := now + 2 * x.window }]
  | none => []

/-- A chain restart at the link (R79). A frame on the lane finishes, but it belongs to nobody any more. -/
def linkRestart (s : State) : State :=
  let l := s.link
  { s with link := { l with
      slots := tbuild fun _ => none
      resendQueue := []
      quarantine := l.quarantine ++ (heldSlots l).flatMap (quarantineTag s.linkTime)
      sending := l.sending.map fun f => { f with slot := none, release := false } } }

/-! ## Scheduler (R100 to R107) -/

/-- A balance update is pending for the module: the masks differ, no restore is outstanding (R105, R138), and no
update is on its way, whose outcome will offer the next (R145). -/
def State.wantsUpdate (s : State) (m : Mod) : Bool :=
  masksDiffer (s.balanceOf m) && !s.restoreOutstanding m && !s.updateOutstanding m

/-- The module is a participant of the aligned pass (R42). -/
def State.participant (s : State) (m : Mod) : Bool :=
  match s.aligned with
  | some p => p.parts.any fun x => x.module == m
  | none => false

/-- The item is ready (R31, R101, R105). -/
def itemReady (s : State) : ItemKind → Bool
  | .release => true
  | .assign => true
  | .probe => true
  | .passStep t .first =>
    match s.passOf t with
    | some p => p.parts.all fun x => !s.outstandingOutside x.module
    | none => true
  | .passStep _ _ => true
  | .update m =>
    s.map.state == .running && (s.health m == .active || s.health m == .suspect)
      && (s.passOf (.one m)).isNone && !s.participant m && !s.outstanding m
  | .ping m => !s.outstanding m

/-- The item's ready instant is kept up: recorded when it becomes ready, dropped while it is kept back (R101). -/
def stampItem (s : State) (it : WorkItem) : WorkItem :=
  if itemReady s it.kind then { it with readySince := some (it.readySince.getD s.linkTime) }
  else { it with readySince := none }

/-- The items as an event leaves them: balance updates offered and withdrawn in the event in which the masks come to
differ or to agree (R138), ready instants recorded (R101). -/
def refreshItems (s : State) : State :=
  let kept := s.sched.items.filter fun it =>
    match it.kind with
    | .update m => s.wantsUpdate m
    | _ => true
  let new := (allMods.filter fun m => s.wantsUpdate m && !kept.any fun it => it.kind == .update m).map
    fun m => ({ kind := .update m, readySince := none } : WorkItem)
  { s with sched := { s.sched with items := (kept ++ new).map (stampItem s) } }

/-- A balance update for the module waits at the scheduler (R136). -/
def State.updatePending (s : State) (m : Mod) : Bool := s.sched.items.any fun it => it.kind == .update m

/-- The item is a broadcast (R100). -/
def isBroadcast : ItemKind → Bool
  | .release => true
  | .passStep .all .first => true
  | .passStep .all .convert => true
  | _ => false

/-- The item is an enumeration step (R100). -/
def isEnumeration : ItemKind → Bool
  | .release => true
  | .assign => true
  | .probe => true
  | _ => false

/-- The item is grantable (R102). -/
def grantable (s : State) (it : WorkItem) : Bool :=
  itemReady s it.kind
    && (isBroadcast it.kind || ((freeSlot s.link).isSome && (drawTag s.link).isSome))
    && (s.map.state != .enumerating || isEnumeration it.kind)

/-- The port whose tickets a pass of this origin serves. -/
def directedPort : Source → Option Port
  | .directedA => some .A
  | .directedB => some .B
  | _ => none

/-- The sweep's first item is urgent: some entry of a module that the pass covers is (R104). -/
def urgentPass (s : State) (p : Pass) : Bool := p.parts.any fun x => s.urgentModule x.module

/-- The recovery PING of the module stands for the rolling visit of a module with urgent entries yet to visit (R104). -/
def urgentPing (s : State) (m : Mod) : Bool :=
  s.sweep.visit == .pinging && s.sweep.pointer == modNumber m
    && allMods.any fun k => s.sweep.pointer < modNumber k && s.onChain k && s.urgentModule k

/-- A balance update turns at least one commanded switch off (R105). -/
def turnsOff (b : BalanceModule) : Bool :=
  match b.commanded with
  | .unknown => true
  | .mask m => m &&& ~~~b.decided != 0

/-- The rung of an item (R103). -/
def rungOf (s : State) : ItemKind → Nat
  | .release => 1
  | .assign => 1
  | .probe => 1
  | .passStep t .first =>
    match s.passOf t with
    | some p => match directedPort p.origin with
      | some _ => 5
      | none => if urgentPass s p then 4 else 7
    | none => 7
  | .passStep _ _ => 3
  | .update m => if turnsOff (s.balanceOf m) then 2 else 6
  | .ping m => if urgentPing s m then 4 else 8

/-- The module number of an item; 0 for an enumeration step or an aligned pass. -/
def itemNumber : ItemKind → Nat
  | .passStep (.one m) _ => modNumber m
  | .update m => modNumber m
  | .ping m => modNumber m
  | _ => 0

/-- On rung 5 the port served last comes after the other (R106). -/
def servedLast (s : State) : ItemKind → Nat
  | .passStep t .first =>
    match (s.passOf t).bind fun p => directedPort p.origin with
    | some p => if p = s.sched.lastServed then 1 else 0
    | none => 0
  | _ => 0

/-- What the choice compares, in order: rung, alternation, ready instant, module number (R103, R106). -/
def itemKey (s : State) (it : WorkItem) : List Nat :=
  [rungOf s it.kind, servedLast s it.kind, it.readySince.getD s.linkTime, itemNumber it.kind]

/-- The first key comes before the second. -/
def keyBefore : List Nat → List Nat → Bool
  | a :: as, b :: bs => a < b || (a == b && keyBefore as bs)
  | _, _ => false

/-- The item that the ladder chooses among the grantable ones (R102, R103). -/
def chooseItem (s : State) : Option WorkItem :=
  (s.sched.items.filter (grantable s)).foldl (fun best it =>
    match best with
    | none => some it
    | some b => if keyBefore (itemKey s it) (itemKey s b) then some it else some b) none

end Sys2Proof.Machine
end

