-- ==== Sys2Proof/Machine/SweepOps.lean ====
section
/-! DEFINITION. Machine/SweepOps.lean: the Sweep Engine's sweeps and visits (R47 to R54) and the creation of passes
(R28, R29, R43, R112). -/

namespace Sys2Proof.Machine

/-! ## Pass records (R28, R43) -/

/-- A part as it is created (R28, R43). -/
def newPart (m : Mod) : Part :=
  { module := m, step := .waiting, quiesced := false, rereadCells := false, rereadAux := false, cellRenewal := 0,
    auxRenewal := 0, outcome := none, balanced := false, sawOpen := false }

/-- A pass record as it is created, with the settings it captures (R28, R201). -/
def newPass (st : Settings) (what : What) (origin : Source) (owner : Option TicketRef) (mods : List Mod) : Pass :=
  { what := what, origin := origin, quiesce := st.quiesceMode, settleTicks := st.settleDelay * 2,
    waitTicks := st.conversionWait, owner := owner, joined := [], step := .opened, instant := none, timer := none,
    parts := mods.map newPart }

/-- A pass is created and offers its first item (R28, R31). -/
def createPass (t : Target) (p : Pass) (s : State) : State := offer (.passStep t .first) (s.setPass t (some p))

/-- Some pass exists. -/
def State.anyPass (s : State) : Bool := s.aligned.isSome || allMods.any fun m => (s.passOf (.one m)).isSome

/-- No pass of the module, no aligned pass and no reservation stands in the way of a new pass (R29). -/
def State.moduleFree (s : State) (m : Mod) : Bool :=
  (s.passOf (.one m)).isNone && s.aligned.isNone && !s.reserved

/-! ## Sweeps (R47, R48, R53, R54) -/

def State.setSweep (w : Sweep) (s : State) : State := { s with sweep := w }

/-- The modules 1..N that are LOST. -/
def State.lostMods (s : State) : List Mod := allMods.filter fun m => s.onChain m && s.health m == .lost

/-- A cadence counter one higher, saturating at 8 (R50, R54). -/
def cadenceUp (n : Nat) : Nat := min 8 (n + 1)

/-- A sweep starts in the mode that SWEEP_MODE gives (R47, R48). A rolling sweep begins its first visit; an aligned
one reserves its pass and offers its recovery PINGs (R43, R54). -/
def startSweep (s : State) : State :=
  match s.settings.sweepMode with
  | .rolling =>
    s.setSweep { s.sweep with state := .running, mode := .rolling, pointer := 1, visit := .deciding,
                              pendingStart := false, alignedOpen := false, pings := [] }
  | .aligned =>
    let lost := s.lostMods
    let w := { s.sweep with state := .running, mode := .aligned, pointer := 1, visit := .idle,
                            pendingStart := false, alignedAux := cadenceUp s.sweep.alignedAux,
                            alignedDue := decide (s.settings.auxCadence ≤ cadenceUp s.sweep.alignedAux),
                            alignedOpen := true, pings := lost }
    lost.foldl (fun s m => offer (.ping m) s) { s.setSweep w with reserved := true }

/-- A sweep ends: the pending one starts, or the engine waits (R47, R53). -/
def endSweep (s : State) : State :=
  if s.sweep.pendingStart then startSweep s
  else s.setSweep { s.sweep with state := .waiting, pointer := 1, visit := .idle }

/-- The visit under the pointer ends (R53). -/
def endVisit (s : State) : State :=
  if s.sweep.pointer < s.map.n then
    s.setSweep { s.sweep with pointer := s.sweep.pointer + 1, visit := .deciding }
  else endSweep s

/-- An aligned sweep ends when its pass and every PING of it have ended (R54). -/
def endAlignedIfDone (s : State) : State :=
  if s.sweep.state = .running ∧ s.sweep.mode = .aligned ∧ !s.sweep.alignedOpen ∧ s.sweep.pings.isEmpty then
    endSweep s
  else s

/-- A chain restart at the Sweep Engine (R47, R55). -/
def sweepRestart (s : State) : State :=
  { s.setSweep resetSweep with reserved := false }

/-- The aux cadence counter of a module (R50). -/
def State.auxCount (s : State) (m : Mod) : Nat := tget s.sweep.auxCount m

def State.setAuxCount (m : Mod) (n : Nat) (s : State) : State :=
  s.setSweep { s.sweep with auxCount := tput s.sweep.auxCount m n }

/-- Aux is due for the module at a decision (R50). -/
def State.auxDue (s : State) (m : Mod) : Bool :=
  decide (s.settings.auxCadence ≤ s.auxCount m) || s.auxEntriesDue m

/-- A visit of the module is skipped (R51). -/
def State.skipVisit (s : State) (m : Mod) : Bool := s.settings.skipRecent && !s.auxDue m && s.cellsRecent m

/-- The decision of a rolling visit of the module under the pointer (R49 to R52). -/
def decideVisit (m : Mod) (s : State) : State :=
  let s := s.setAuxCount m (cadenceUp (s.auxCount m))
  if s.health m = .lost then offer (.ping m) (s.setSweep { s.sweep with visit := .pinging })
  else if s.skipVisit m then endVisit s
  else
    let what : What := if s.auxDue m then .both else .cells
    createPass (.one m) (newPass s.settings what .sweepRolling none [m])
      (s.setSweep { s.sweep with visit := .passing })

/-- The visit under the pointer waits for its decision, and its module has no pass (R49). -/
def State.visitDue (s : State) : Option Mod :=
  if s.sweep.state = .running ∧ s.sweep.visit = .deciding then
    (modOfNumber s.sweep.pointer).filter fun m => s.moduleFree m
  else none

/-- The Sweep Engine has a visit waiting on the module (R29). -/
def State.visitWaits (s : State) (m : Mod) : Bool :=
  s.sweep.state == .running && s.sweep.visit == .deciding && s.sweep.pointer == modNumber m

/-- The participants of an aligned pass created now: every module 1..N that is not LOST (R43). -/
def State.participants (s : State) : List Mod := allMods.filter fun m => s.onChain m && s.health m != .lost

/-- The reserved aligned pass is created, its what fixed as R54 gives, from the AUX_CADENCE that the sweep's start read
(R201) and the participants' entries as they stand now: the model's choice where a creation waits (log entry 21). With no
participants it is not created, and the sweep carries its PINGs alone (R43, R54). -/
def createAligned (s : State) : State :=
  let mods := s.participants
  let s := { s with reserved := false }
  if mods.isEmpty then endAlignedIfDone (s.setSweep { s.sweep with alignedOpen := false })
  else
    let due := s.sweep.alignedDue || mods.any fun m => s.auxEntriesDue m
    createPass .all (newPass s.settings (if due then .both else .cells) .sweepAligned none mods) s

/-! ## Directed Measurement Unit (R109 to R117) -/

def State.ticketQueue (s : State) (p : Port) : TicketQueue := s.tickets.get p

def State.setTickets (p : Port) (q : TicketQueue) (s : State) : State := { s with tickets := s.tickets.set p q }

/-- A port's origin for its directed passes (R112). -/
def directedOrigin : Port → Source
  | .A => .directedA
  | .B => .directedB

/-- The port has a directed pass, its ticket removed or not (R112, R117). -/
def State.hasDirected (s : State) (p : Port) : Bool :=
  allMods.any fun m => match s.passOf (.one m) with
    | some x => x.origin == directedOrigin p
    | none => false

/-- The head ticket: the oldest QUEUED ticket (R112). -/
def headTicket (q : TicketQueue) : Option Ticket := q.tickets.find? fun t => t.state = .queued

/-- The port's demand: its head ticket, while it has no directed pass (R112). -/
def State.demand (s : State) (p : Port) : Option Ticket :=
  if s.hasDirected p then none else headTicket (s.ticketQueue p)

/-- Both ports' demands wait on one module, and this port was served last (R112). R112 gives the alternation at the end
of a pass; that it holds too where both wait on a free module and no pass has ended is the model's choice (log entry
25). -/
def State.yields (s : State) (p : Port) (m : Mod) : Bool :=
  match s.demand (otherPort p) with
  | some t => t.module == m && s.sched.lastServed == p
  | none => false

/-- The ticket whose directed pass can be created now (R29, R112). -/
def State.directedDue (s : State) (p : Port) : Option Ticket :=
  (s.demand p).filter fun t => s.moduleFree t.module && !s.visitWaits t.module && !s.yields p t.module

/-- The ticket of an id in another state. -/
def setTicketState (id : BitVec 8) (st : TicketState) (q : TicketQueue) : TicketQueue :=
  { q with tickets := q.tickets.map fun t => if t.id = id then { t with state := st } else t }

/-- The directed pass of a port's head ticket is created, if it can be (R112). -/
def createDirected (p : Port) (s : State) : State :=
  match s.directedDue p with
  | some t =>
    createPass (.one t.module)
      (newPass s.settings t.what (directedOrigin p) (some { port := p, id := t.id }) [t.module])
      (s.setTickets p (setTicketState t.id (.running (.one t.module)) (s.ticketQueue p)))
  | none => s

/-- The renewal numbers of the groups a what names (R114). -/
def namedRenewals : What → Part → List (BitVec 32)
  | .cells, x => [x.cellRenewal]
  | .aux, x => [x.auxRenewal]
  | .both, x => [x.cellRenewal, x.auxRenewal]

/-- The highest renewal number among those renewed, 0 when none was (R114). -/
def highestRenewal (ns : List (BitVec 32)) : Nat := (ns.map BitVec.toNat).foldl max 0

/-- The part of a pass for a module. -/
def partOf (p : Pass) (m : Mod) : Option Part := p.parts.find? fun x => x.module = m

/-- The DIRECTED_DONE of a ticket, from the part of its module (R114, R116). -/
def doneEvent (now : Tick) (restart : Bool) (part : Option Part) (t : Ticket) : Event :=
  let ns := (part.map (namedRenewals t.what)).getD [0]
  { kind := .directedDone, time := now, module := some t.module, ticket := some t.id,
    value := some (highestRenewal ns),
    cause := some (if restart then .restart else if ns.all (· != 0) then .done else .aborted) }

/-- The ids of a port's tickets that rode on a pass: the ticket it was created for, then the joined tickets (R114). -/
def ridersOf (p : Port) (x : Pass) : List (BitVec 8) :=
  ((x.owner.toList ++ x.joined).filter fun r => r.port = p).map (·.id)

/-- One port's tickets of a pass that has ended leave its queue and are reported to it (R114). -/
def reportTo (p : Port) (x : Pass) (s : State) : State :=
  let q := s.ticketQueue p
  let ids := ridersOf p x
  let events := ids.filterMap fun id =>
    (q.tickets.find? fun t => t.id = id).map fun t => doneEvent s.timebase false (partOf x t.module) t
  raiseTo p events (s.setTickets p { q with tickets := q.tickets.filter fun t => !ids.contains t.id })

/-- A chain restart at one port's tickets: each ends FAILED (RESTART), in creation order (R116). -/
def restartTickets (p : Port) (s : State) : State :=
  let q := s.ticketQueue p
  let events := q.tickets.map fun t =>
    let pass := match t.state with
      | .queued => none
      | .joined u => s.passOf u
      | .running u => s.passOf u
    doneEvent s.timebase true (pass.bind fun x => partOf x t.module) t
  raiseTo p events (s.setTickets p { q with tickets := [] })

/-- A ticket is struck from every pass that names it, as one joined or as the one it was created for. -/
def strikeRefs (gone : TicketRef → Bool) (s : State) : State :=
  let strike (x : Pass) : Pass :=
    { x with owner := x.owner.filter fun r => !gone r, joined := x.joined.filter fun r => !gone r }
  { s with passes := tmap s.passes fun _ x => x.map strike, aligned := s.aligned.map strike }

/-- The session reset of a port at the Directed Measurement Unit (R117). -/
def ticketsSessionReset (p : Port) (s : State) : State :=
  strikeRefs (fun r => r.port = p) (s.setTickets p resetTickets)

/-- The ids 1, 2, … past the last issued, modulo 256; the first that no live ticket has (R109). -/
def nextId (q : TicketQueue) : BitVec 8 :=
  (((List.range 5).map fun k => q.lastId + 1 + BitVec.ofNat 8 k).find? fun id =>
    !q.tickets.any fun t => t.id = id).getD (q.lastId + 1)

/-- The what of a pass covers the ticket's (R111). -/
def covers : What → What → Bool
  | .both, _ => true
  | .cells, w => w = .cells
  | .aux, w => w = .aux

/-- The pass's joined-ticket list is open: its step is OPEN, QUIESCING or SETTLING (R28, R111). -/
def listOpen (p : Pass) : Bool := p.step = .opened || p.step = .quiescing || p.step = .settling

/-- The pass a new ticket joins, if any (R111). -/
def State.joinable (s : State) (m : Mod) (w : What) : Option Target :=
  let fits (t : Target) : Bool := match s.passOf t with
    | some p => (partOf p m).isSome && listOpen p && covers p.what w
    | none => false
  if fits (.one m) then some (.one m) else if fits .all then some .all else none

/-! ## The steps of a pass that need no outcome (R32 to R36, R43 to R45) -/

/-- The pass for a target rewritten, if it exists. -/
def updatePass (t : Target) (f : Pass → Pass) (s : State) : State :=
  match s.passOf t with
  | some p => s.setPass t (some (f p))
  | none => s

/-- The part of a module rewritten. -/
def updatePart (m : Mod) (f : Part → Part) (p : Pass) : Pass :=
  { p with parts := p.parts.map fun x => if x.module = m then f x else x }

/-- The settle timer starts, or expires at once for a settle time of 0 (R33). -/
def startSettle (t : Target) (s : State) : State :=
  match s.passOf t with
  | some p =>
    if p.settleTicks = 0 then offer (.passStep t .convert) (s.setPass t (some { p with step := .settling, timer := none }))
    else
      let timer : PassTimer := { kind := .settle, due := s.timebase + ticksOf p.settleTicks }
      s.setPass t (some { p with step := .settling, timer := some timer })
  | none => s

/-- The wait timer starts (R34, R36, R44). -/
def startWait (t : Target) (k : PassTimerKind) (s : State) : State :=
  updatePass t (fun p =>
    let timer : PassTimer := { kind := k, due := s.timebase + ticksOf p.waitTicks }
    { p with timer := some timer }) s

/-- The pass's timer of a kind has expired (R33). -/
def State.timerDue (s : State) (t : Target) (k : PassTimerKind) : Bool :=
  match s.passOf t with
  | some p => match p.timer with
    | some x => x.kind == k && reached s.timebase x.due
    | none => false
  | none => false

/-- The first read of a what (R35). -/
def firstRead : What → PassAct
  | .aux => .readAux
  | _ => .readCells

/-- The part being served: the one READING or RESTORING (R45). -/
def servedPart (p : Pass) : Option Part := p.parts.find? fun x => x.step = .reading ∨ x.step = .restoring

/-- A sending of the pass's CONVERT: the conversion instant and each part's balanced-during condition are taken, and
the joined-ticket list is closed by the step (R34, R44). -/
def convertSent (t : Target) (s : State) : State :=
  updatePass t (fun p =>
    { p with step := .converting, instant := some s.timebase,
             parts := p.parts.map fun x =>
               { x with balanced := !x.quiesced && commandedSome (s.balanceOf x.module).commanded } }) s

/-- The quiesce of a single-module pass has been sent (R32). -/
def quiesceSent (m : Mod) (s : State) : State :=
  setHold m true (updatePass (.one m) (fun p =>
    updatePart m (fun x => { x with quiesced := true }) { p with step := .quiescing }) s)

/-- The broadcast quiesce of an aligned pass has been sent: every participant that is not LOST is quiesced, its
commanded mask empty and its hold period begun (R44). -/
def quiesceSentAll (p : Pass) (s : State) : State :=
  let mods := (p.parts.map (·.module)).filter fun m => s.health m != .lost
  startSettle .all (mods.foldl (fun s m =>
    setHold m true (setCommanded m (.mask 0)
      (updatePass .all (updatePart m fun x => { x with quiesced := true }) s))) s)

/-- The sending of a CONVERT, for an aligned pass as a broadcast whose wait timer starts at once (R34, R44). -/
def sendConvert (t : Target) (p : Pass) (s : State) : State :=
  match t with
  | .one m => convertSent t (sendUnicast .convert (.pass t) (modNumber m) (.what p.what) s)
  | .all => startWait t .conversion (convertSent t (sendBroadcast (verbCode .convert) (.what p.what) false s))

/-- The first grant takes the quiesce decision: the mode is QUIESCE, and a commanded mask is non-empty or UNKNOWN (R31,
R44). -/
def quiesceNeeded (s : State) (p : Pass) : Bool :=
  p.quiesce && p.parts.any fun x => commandedSome (s.balanceOf x.module).commanded

/-- The first item of a directed pass makes its port the one served last (R106). -/
def servePort (o : Source) (s : State) : State :=
  { s with sched := { s.sched with lastServed := (directedPort o).getD s.sched.lastServed } }

/-- A pass quiesces, or sends its CONVERT at once (R31, R44). -/
def quiesceOrConvert (t : Target) (p : Pass) (s : State) : State :=
  if quiesceNeeded s p then
    match t with
    | .one m => quiesceSent m (sendUnicast .quiesce (.pass t) (modNumber m) (.mask 0) s)
    | .all => quiesceSentAll p (sendBroadcast (verbCode .quiesce) (.mask 0) false s)
  else sendConvert t p s

/-- The grant of a pass's first item (R31, R44, R106). -/
def grantFirst (t : Target) (p : Pass) (s : State) : State := quiesceOrConvert t p (servePort p.origin s)

/-- The grant of a restore: the hold period ends first, so that the mask sent is the decided mask after that (R37,
R143). -/
def grantRestore (t : Target) (m : Mod) (s : State) : State :=
  let s := if (s.balanceOf m).hold then setHold m false s else s
  sendUnicast .restore (.pass t) (modNumber m) (.mask (s.balanceOf m).decided) s

/-- The grant of a pass's item. -/
def grantPassItem (t : Target) (act : PassAct) (s : State) : State :=
  match s.passOf t with
  | none => s
  | some p =>
    match act with
    | .first => grantFirst t p s
    | .convert => sendConvert t p s
    | .readCells => match servedPart p with
      | some x => sendUnicast .readCells (.pass t) (modNumber x.module) .empty s
      | none => s
    | .readAux => match servedPart p with
      | some x => sendUnicast .readAux (.pass t) (modNumber x.module) .empty s
      | none => s
    | .restore => match servedPart p with
      | some x => grantRestore t x.module s
      | none => s

/-- The pass begins reading a part (R34, R45). -/
def beginReading (t : Target) (m : Mod) (s : State) : State :=
  match s.passOf t with
  | some p =>
    offer (.passStep t (firstRead p.what))
      (s.setPass t (some (updatePart m (fun x => { x with step := .reading })
        { p with step := .reading, timer := none })))
  | none => s

/-! ## The end of a pass (R38 to R41, R45, R46) -/

/-- The hold periods of a pass that ends without restoring end with it (R38, R143). -/
def endHolds (p : Pass) (s : State) : State :=
  (p.parts.map (·.module)).foldl (fun s m => if (s.balanceOf m).hold then setHold m false s else s) s

/-- What the end of a pass does at the Sweep Engine (R38, R53, R54). -/
def sweepPassEnd (p : Pass) (s : State) : State :=
  match p.origin with
  | .sweepRolling => if s.sweep.visit = .passing then endVisit s else s
  | .sweepAligned =>
    endAlignedIfDone (s.setSweep { s.sweep with
      alignedOpen := false, alignedAux := if p.what = .both then 0 else s.sweep.alignedAux })
  | _ => s

/-- A pass ends: its tickets are reported, its record and its item are removed, its hold periods end, the demands that
its end lets through create their passes, and the Sweep Engine takes the end last, so that a new sweep's reservation
comes after them (R29, R38, R112). -/
def endPass (t : Target) (s : State) : State :=
  match s.passOf t with
  | none => s
  | some p =>
    let s := reportTo .B p (reportTo .A p s)
    let s := withdraw (isPassItem t) (orphanSlots t none (s.setPass t none))
    let s := createDirected .B (createDirected .A (endHolds p s))
    sweepPassEnd p s

/-- The next participant of an aligned pass is served; after the last the pass ends (R45, R46). -/
def serveNext (s : State) : State :=
  match s.aligned with
  | none => s
  | some p =>
    match p.parts.find? fun x => x.step = .waiting with
    | some x => beginReading .all x.module s
    | none => endPass .all s

/-- A module's share of its pass is over: a single-module pass ends, an aligned pass serves its next participant (R37,
R45, R46). -/
def partDone (t : Target) (m : Mod) (o : PassOutcome) (s : State) : State :=
  let s := updatePass t (updatePart m fun x => { x with step := .done, outcome := some (x.outcome.getD o) }) s
  match t with
  | .one _ => endPass t s
  | .all => serveNext s

/-- The restore is offered (R37, R39). -/
def offerRestore (t : Target) (m : Mod) (o : Option PassOutcome) (s : State) : State :=
  let s := updatePass t (fun p =>
    updatePart m (fun x => { x with step := .restoring, outcome := o })
      { p with step := if t = .all then p.step else .restoring, timer := none }) s
  offer (.passStep t .restore) s

/-- The last read has renewed: the part restores when it had quiesced or the masks differ, and is COMPLETE otherwise
(R37). -/
def afterReads (t : Target) (m : Mod) (quiesced : Bool) (s : State) : State :=
  if quiesced || masksDiffer (s.balanceOf m) then offerRestore t m none s else partDone t m .complete s

/-- A failed transaction of a part (R39, R46); with the module LOST it ends as a loss ends it (R40). -/
def abortPart (t : Target) (m : Mod) (quiesced : Bool) (s : State) : State :=
  if s.health m = .lost then partDone t m .aborted (setCommanded m .unknown s)
  else if quiesced then offerRestore t m (some .aborted) s
  else partDone t m .aborted s

/-- The loss of a participant of the aligned pass whose part is not DONE (R46). -/
def alignedLoss (m : Mod) (p : Pass) (x : Part) (s : State) : State :=
  let wasServed := x.step = .reading ∨ x.step = .restoring
  let s := setCommanded m .unknown s
  let s := orphanSlots .all (some (modNumber m)) s
  let s := s.setPass .all (some (updatePart m (fun x => { x with step := .done, outcome := some .aborted }) p))
  let s := if (s.balanceOf m).hold then setHold m false s else s
  if wasServed then
    serveNext (updatePass .all (fun p => { p with timer := none }) (withdraw (isPassItem .all) s))
  else if (p.parts.all fun y => y.module = m ∨ y.step = .done) then endPass .all s
  else s

/-- The loss of a module at the Pass Controller (R40, R46). -/
def passLoss (m : Mod) (s : State) : State :=
  match s.passOf (.one m) with
  | some _ =>
    endPass (.one m) (updatePass (.one m) (updatePart m fun x => { x with outcome := some .aborted })
      (setCommanded m .unknown s))
  | none =>
    match s.aligned with
    | some p => match partOf p m with
      | some x => if x.step = .done then s else alignedLoss m p x s
      | none => s
    | none => s

/-- A chain restart at the Pass Controller: every pass ends and nothing restores (R41). Its tickets are reported by the
Directed Measurement Unit's own restart event, taken before (R116, log entry 9). -/
def passRestart (s : State) : State :=
  { s with passes := tbuild fun _ => none, aligned := none, reserved := false }

end Sys2Proof.Machine
end

