-- ==== Sys2Proof/Machine/MapOps.lean ====
section
/-! DEFINITION. Machine/MapOps.lean: the Chain Map: chain restart, enumeration and module health (R82 to R95), and the
outcomes of transactions at their originators (R30 to R37, R52, R75, R89, R90, R145). -/

namespace Sys2Proof.Machine

def State.setMap (c : ChainMap) (s : State) : State := { s with map := c }

/-! ## Chain restart (R88, R93) -/

/-- A module record at a chain restart: ABSENT, its counts and revision kept (R93). -/
def restartRecord (r : ModuleRecord) : ModuleRecord :=
  { r with state := .absent, failures := 0, lastSuccess := none, mark := false }

/-- A chain restart at the Chain Map (R93). -/
def mapRestart (s : State) : State :=
  s.setMap { s.map with state := .enumerating, n := 0, retryDue := none, nextNumber := 0, pauseEnd := none,
                        records := tmap s.map.records fun _ r => restartRecord r }

/-- A chain restart at the Chain Scheduler: every item is discarded and the new RELEASE_ALL offered (R88, R107). -/
def schedRestart (s : State) : State :=
  offer .release { s with sched := { s.sched with items := [] } }

/-- A chain restart begins, and every block that depends on the chain takes it (R93). The tickets are reported first,
from the passes they rode on (R116); the hand-offs that wait at the Balance Controller are taken after it: the model's
choice (log entry 30). -/
def beginRestart (s : State) : State :=
  let s := restartTickets .B (restartTickets .A s)
  let s := schedRestart (linkRestart (sweepRestart (passRestart (mapRestart s))))
  balanceRestart (imageRestart s)

/-! ## Enumeration (R89 to R91) -/

/-- A module record at an enumeration end that leaves it ABSENT (R91). -/
def endRecord (n : Nat) (m : Mod) (r : ModuleRecord) : ModuleRecord :=
  if modNumber m ≤ n then r
  else { r with state := .absent, failures := 0, cellCount := 0, tempCount := 0, revision := 0 }

/-- The events of an enumeration end, in the order of R91. -/
def enumerationEvents (now : Tick) (st : Settings) (n : Nat) (reason : EndReason) : List Event :=
  if n = 0 then []
  else
    [{ kind := .chainReady, time := now, value := some n }]
      ++ (if reason = .tooLong then
          [{ kind := .chainCountMismatch, time := now, value := some n, cause := some .tooLong }] else [])
      ++ (if st.expectedModules ≠ 0 ∧ st.expectedModules ≠ n then
          [{ kind := .chainCountMismatch, time := now, value := some n, cause := some .expected }] else [])

/-- The sum states at an enumeration end: CLEAR for modules above N, each change handed to the Balance Controller (R128,
R132). -/
def sumsEnumerationEnd (s : State) : State :=
  let sums := tmap s.limits.sums fun m x => if modNumber m ≤ s.map.n then x else .clear
  let cleared := allMods.filter fun m => tget s.limits.sums m == .mismatch && !s.onChain m
  cleared.foldl (fun s m => handOff m s) { s with limits := { s.limits with sums := sums } }

/-- The first sweep starts in the event that ends an enumeration RUNNING, and its instant is the first boundary (R47,
R48). -/
def startFirstSweep (s : State) : State :=
  startSweep (s.setSweep { s.sweep with
    nextBoundary := some (s.timebase + ticksOf (s.settings.sweepPeriod * 10)) })

/-- The DOWN retry timer starts (R95). -/
def startDownRetry (s : State) : State :=
  s.setMap { s.map with retryDue := some (s.timebase + ticksOf Config.downRetry) }

/-- The end of an enumeration at the Chain Map: N stands, the end is recorded, and the chain is RUNNING or DOWN (R91). -/
def closeMap (reason : EndReason) (s : State) : State :=
  s.setMap { s.map with
    state := if s.map.n = 0 then .down else .running
    records := tmap s.map.records (endRecord s.map.n)
    endReason := some reason
    endInstant := some s.timebase
    nextNumber := 0 }

/-- What the end of an enumeration starts: the DOWN retry timer with AUTO_RESTART ON, or the first sweep (R47, R91,
R95). -/
def startAfterEnd (s : State) : State :=
  if s.map.n = 0 then (if s.settings.autoRestart then startDownRetry s else s) else startFirstSweep s

/-- An enumeration ends (R91). -/
def endEnumeration (reason : EndReason) (s : State) : State :=
  let s := startAfterEnd (closeMap reason s)
  let s := raiseBoth (enumerationEvents s.timebase s.settings s.map.n reason) s
  sumsEnumerationEnd (allMods.foldl (fun s m => dropUnpopulated m s) (imageEnumerationEnd s))

/-- The descriptor of an answer: cell count, temperature count, revision (R221). -/
def descriptorOf (payload : List Byte) : Option (Nat × Nat × Nat) :=
  match payload with
  | [c, t, r] => some (c.toNat, t.toNat, r.toNat)
  | _ => none

/-- The descriptor is in range (R89). -/
def descriptorGood (d : Nat × Nat × Nat) : Bool := 1 ≤ d.1 && d.1 ≤ 16 && d.2.1 ≤ 4

/-- An ASSIGN step that succeeds, at the Chain Map: the record, N and the next number (R89). -/
def recordModule (m : Mod) (d : Nat × Nat × Nat) (s : State) : State :=
  let s := s.setRecord m
    { s.record m with state := .active, failures := 0, lastSuccess := none, cellCount := d.1, tempCount := d.2.1,
                      revision := d.2.2 }
  s.setMap { s.map with n := modNumber m, nextNumber := if modNumber m < 12 then modNumber m + 1 else 0 }

/-- An ASSIGN step succeeds for the module of the next number (R89). -/
def assignModule (m : Mod) (d : Nat × Nat × Nat) (s : State) : State :=
  offer (if modNumber m < 12 then .assign else .probe) (handOff m (populateModule m (recordModule m d s)))

/-- The end of an enumeration step at the Chain Map: of an ASSIGN or of the length probe (R89, R90). -/
def takeEnumerationStep (x : TxnSlot) (o : LinkOutcome) (s : State) : State :=
  match x.role, o with
  | .probe, .failed => endEnumeration .full s
  | .probe, .answered _ _ => endEnumeration .tooLong s
  | _, .answered 0 payload =>
    match modOfNumber s.map.nextNumber, (descriptorOf payload).filter descriptorGood with
    | some m, some d => assignModule m d s
    | _, _ => endEnumeration .badDescriptor s
  | _, _ => endEnumeration .assignFailed s

/-- The outcome of an enumeration step, which only an enumeration under way can have asked for (R88). -/
def enumerationOutcome (x : TxnSlot) (o : LinkOutcome) (s : State) : State :=
  if s.map.state = .enumerating then takeEnumerationStep x o s else s

/-! ## Health (R84 to R87, R94) -/

/-- The loss of a module reaches the blocks that depend on it (R85). -/
def moduleLoss (m : Mod) (s : State) : State := handOff m (passLoss m (imageLoss m s))

/-- Every module 1..N is LOST, on a RUNNING chain with N of 1..12 (R94). -/
def State.allLost (s : State) : Bool :=
  s.map.state == .running && decide (1 ≤ s.map.n) && allMods.all fun m => !s.onChain m || s.health m == .lost

/-- An automatic restart begins when AUTO_RESTART is ON and every module is LOST (R94). The Balance Controller takes it
before the hand-offs that wait, that of the loss among them: the model's choice (log entry 30). -/
def autoRestart (s : State) : State := if s.settings.autoRestart && s.allLost then beginRestart s else s

/-- An event of the Chain Map about a module. -/
def moduleEvent (k : EventKind) (now : Tick) (m : Mod) : Event := { kind := k, time := now, module := some m }

/-- A failure notice for a module (R85). -/
def failureNotice (m : Mod) (s : State) : State :=
  let r := s.record m
  let count := min 7 (r.failures + 1)
  let lost := decide (s.settings.lostThreshold ≤ count)
  match r.state with
  | .absent => s
  | .lost => s.setRecord m { r with failures := count }
  | .active =>
    if lost then
      autoRestart (moduleLoss m (raiseBoth [moduleEvent .moduleLost s.timebase m]
        (s.setRecord m { r with failures := count, state := .lost })))
    else
      handOff m (raiseBoth [{ moduleEvent .moduleSuspect s.timebase m with value := some count }]
        (s.setRecord m { r with failures := count, state := .suspect }))
  | .suspect =>
    if lost then
      autoRestart (moduleLoss m (raiseBoth [moduleEvent .moduleLost s.timebase m]
        (s.setRecord m { r with failures := count, state := .lost })))
    else s.setRecord m { r with failures := count }

/-- A success notice for a module (R86). While the descriptor mark is set it is discarded (R87). -/
def successNotice (m : Mod) (s : State) : State :=
  let r := s.record m
  if r.mark then s
  else
    let r' := { r with state := .active, failures := 0, lastSuccess := some s.timebase }
    match r.state with
    | .absent => s
    | .active => s.setRecord m r'
    | .suspect => handOff m (s.setRecord m r')
    | .lost => handOff m (raiseBoth [moduleEvent .moduleFound s.timebase m] (s.setRecord m r'))

/-- The descriptor equals the module's record (R87). -/
def descriptorMatches (r : ModuleRecord) (payload : List Byte) : Bool :=
  descriptorOf payload == some (r.cellCount, r.tempCount, r.revision)

/-- The OK of a PING to a module number: the descriptor is compared first (R87). -/
def pingNotice (m : Mod) (payload : List Byte) (s : State) : State :=
  if descriptorMatches (s.record m) payload then successNotice m s
  else if s.health m = .absent then s
  else failureNotice m (s.setRecord m { s.record m with mark := true })

/-- A 16-bit word of a payload. -/
def wordAt (bs : List Byte) (i : Nat) : BitVec 16 := bs.getD i 0 ++ bs.getD (i + 1) 0

/-- The samples of a READ_CELLS payload that carries one for each of `count` channels (R65, R221). -/
def cellSamples (count : Nat) (payload : List Byte) : Option (List Sample) :=
  if (payload.head?.map BitVec.toNat) = some count ∧ payload.length = 3 + 2 * count then
    some ((List.range count).map fun c =>
      { value := (wordAt payload (1 + 2 * c)).toNat
        openWire := (wordAt payload (1 + 2 * count)).getLsbD c })
  else none

/-- The samples of a READ_AUX payload: temperatures, block and die (R65, R221). -/
def auxSamples (count : Nat) (payload : List Byte) : Option (List Sample × Int × Int) :=
  if (payload.head?.map BitVec.toNat) = some count ∧ payload.length = 6 + 2 * count then
    some ((List.range count).map fun c =>
        ({ value := (wordAt payload (1 + 2 * c)).toInt
           openWire := (payload.getD (1 + 2 * count) 0).getLsbD c } : Sample),
      (wordAt payload (2 + 2 * count)).toNat, (wordAt payload (4 + 2 * count)).toInt)
  else none

/-- A read of a pass is answered OK with samples that are not one for each channel, which the pass takes as a failure
(R30). -/
def wrongSamples (x : TxnSlot) (r : ModuleRecord) (payload : List Byte) : Bool :=
  match x.owner, x.role with
  | .pass _, .readCells => (cellSamples r.cellCount payload).isNone
  | .pass _, .readAux => (auxSamples r.tempCount payload).isNone
  | _, _ => false

/-- What a released slot reports to the Chain Map (R75, R84). Node 0 is charged to no module. An OK read that its pass
takes as failed for its samples is no success, as R30 says against the word of R75 and R84: the model's choice (log entry
22). -/
def mapNotice (x : TxnSlot) (o : LinkOutcome) (s : State) : State :=
  match modOfNumber x.node, o with
  | some m, .failed => failureNotice m s
  | some m, .answered 0 payload =>
    if x.role = .ping then pingNotice m payload s
    else if wrongSamples x (s.record m) payload then s
    else successNotice m s
  | _, _ => s

/-! ## Grants (R102) -/

/-- The sending of a granted item (R67, R102). -/
def grantItem (k : ItemKind) (s : State) : State :=
  match k with
  | .release => sendBroadcast 1 .empty true s
  | .assign => sendUnicast .assign .enumeration 0 (.number s.map.nextNumber) s
  | .probe => sendUnicast .probe .enumeration 0 .empty s
  | .passStep t act => grantPassItem t act s
  | .update m => sendUnicast .update .balance (modNumber m) (.mask (s.balanceOf m).decided) s
  | .ping m => sendUnicast .ping .sweep (modNumber m) .empty s

/-- The grant that is possible now (R102). -/
def State.grantDue (s : State) : Option WorkItem := if laneFree s.link then chooseItem s else none

/-- A grant: the chosen item leaves the scheduler and its frame is sent (R102). -/
def takeGrant (s : State) : State :=
  match s.grantDue with
  | some it => refreshItems (grantItem it.kind (withdraw (· == it.kind) s))
  | none => s

/-- The grant that an event has made possible (R102). -/
def grantNow (s : State) : State := takeGrant (refreshItems s)

/-! ## Failures that the originator takes (R30, R39) -/

/-- A failure that the originator takes, and reports to the Chain Map unless the link has done so, in any of the three
orders. When the Chain Map takes it first and the module becomes LOST by it, the loss has ended the pass and nothing is
left to do (R30, R39; log entry 10). -/
def takeFailure (first : TakenFirst) (m : Mod) (o : LinkOutcome) (k : State → State) (s : State) : State :=
  match o, first with
  | .failed, _ => k s
  | .answered _ _, .originator => failureNotice m (k s)
  | .answered _ _, .originatorAndGrant => failureNotice m (grantNow (k s))
  | .answered _ _, .chainMap =>
    let s' := failureNotice m s
    if s.health m ≠ .lost ∧ s'.health m ≠ s.health m ∧ s'.health m ≠ .suspect then s' else k s'

/-! ## Outcomes at a pass (R32 to R37) -/

/-- The sample of each CELL channel. -/
def cellSource (xs : List Sample) : Chan → Option Sample
  | .cell c => xs[c.val]?
  | _ => none

/-- The sample of each aux channel; the block and die values carry no flag (R2). -/
def auxSource (x : List Sample × Int × Int) : Chan → Option Sample
  | .temp c => x.1[c.val]?
  | .block => some { value := x.2.1, openWire := false }
  | .die => some { value := x.2.2, openWire := false }
  | _ => none

/-- What the pass hands the Image with a response (R9). -/
def renewalInfo (p : Pass) (x : Part) : RenewalInfo :=
  { instant := p.instant.getD 0, source := p.origin, balanced := x.balanced }

/-- A READ_CELLS has renewed: the number is stored, and READ_AUX follows when the what names it (R35). -/
def cellsRead (t : Target) (m : Mod) (p : Pass) (x : Part) (xs : List Sample) (s : State) : State :=
  let s := renewGroup m .cells (cellSource xs) (renewalInfo p x) s
  let s := updatePass t (updatePart m fun x =>
    { x with cellRenewal := s.image.counter, sawOpen := xs.any (·.openWire) }) s
  if p.what = .both then offer (.passStep t .readAux) s else afterReads t m x.quiesced s

/-- A READ_AUX has renewed: the module's aux cadence counter is cleared, and a BOTH pass that saw no open-wire cell
hands the sum check (R35, R50). -/
def auxRead (t : Target) (m : Mod) (p : Pass) (x : Part) (d : List Sample × Int × Int) (s : State) : State :=
  let s := renewGroup m .aux (auxSource d) (renewalInfo p x) s
  let n := s.image.counter
  let s := s.setAuxCount m 0
  let s := updatePass t (updatePart m fun x => { x with auxRenewal := n }) s
  let s := if p.what = .both ∧ x.cellRenewal ≠ 0 ∧ !x.sawOpen then
      { s with limits := { s.limits with work := s.limits.work ++ [.sumCheck m x.cellRenewal n] } }
    else s
  afterReads t m x.quiesced s

/-- A NOT_READY read is repeated once: the wait timer restarts (R36). -/
def rereadLater (t : Target) (m : Mod) (cells : Bool) (s : State) : State :=
  startWait t .reread (updatePass t (updatePart m fun x =>
    if cells then { x with rereadCells := true } else { x with rereadAux := true }) s)

/-- The outcome of a transaction of a pass, at the pass (R30, R32 to R37, R39). A read answered BAD_VERB, which R30 does
not list, is taken as a failed transaction and reported: the model's choice (log entry 23). -/
def passOutcome (first : TakenFirst) (t : Target) (m : Mod) (x : TxnSlot) (o : LinkOutcome) (s : State) : State :=
  match s.passOf t with
  | none => s
  | some p =>
    match partOf p m with
    | none => s
    | some part =>
      let abort := takeFailure first m o (abortPart t m part.quiesced)
      match x.role, o with
      | .quiesce, .answered 0 _ => startSettle t (setCommanded m (.mask 0) s)
      | .quiesce, _ => abort (setCommanded m .unknown s)
      | .convert, .answered 0 _ => startWait t .conversion s
      | .readCells, .answered 0 payload =>
        match cellSamples (s.record m).cellCount payload with
        | some xs => cellsRead t m p part xs s
        | none => abort s
      | .readCells, .answered 1 _ => if part.rereadCells then abort s else rereadLater t m true s
      | .readAux, .answered 0 payload =>
        match auxSamples (s.record m).tempCount payload with
        | some d => auxRead t m p part d s
        | none => abort s
      | .readAux, .answered 1 _ => if part.rereadAux then abort s else rereadLater t m false s
      | .restore, .answered 0 _ =>
        match x.payload with
        | .mask k => partDone t m .complete (setCommanded m (.mask k) s)
        | _ => partDone t m .complete s
      | .restore, _ =>
        takeFailure first m o
          (fun s => partDone t m .aborted
            (updatePass t (updatePart m fun y => { y with outcome := some .aborted }) s))
          (setCommanded m .unknown s)
      | _, _ => abort s

/-- The outcome of a BALANCE_SET that its own block or nobody waits for: the commanded mask (R75, R145). -/
def maskOutcome (m : Mod) (x : TxnSlot) (o : LinkOutcome) (s : State) : State :=
  match o, x.payload with
  | .answered 0 _, .mask k => setCommanded m (.mask k) s
  | _, _ => setCommanded m .unknown s

/-- The outcome of a stand-alone update at the Balance Controller, which writes the mask and reports a failing status in
one event (R145). -/
def updateOutcome (m : Mod) (x : TxnSlot) (o : LinkOutcome) (s : State) : State :=
  match o with
  | .answered 0 _ => maskOutcome m x o s
  | .failed => maskOutcome m x o s
  | .answered _ _ => failureNotice m (maskOutcome m x o s)

/-- The outcome of a recovery PING at the Sweep Engine (R52, R53, R54): any status but OK is a failure that it
reports. -/
def pingOutcome (m : Mod) (o : LinkOutcome) (s : State) : State :=
  let s := match o with
    | .answered 0 _ => s
    | .failed => s
    | .answered _ _ => failureNotice m s
  if s.sweep.state = .running ∧ s.sweep.mode = .rolling then
    if s.sweep.visit = .pinging ∧ s.sweep.pointer = modNumber m then endVisit s else s
  else endAlignedIfDone (s.setSweep { s.sweep with pings := s.sweep.pings.filter fun k => k != m })

/-- The outcome of a transaction whose pass has ended (R40, R75): only a BALANCE_SET still says something. -/
def orphanOutcome (m : Mod) (x : TxnSlot) (o : LinkOutcome) (s : State) : State :=
  match x.role with
  | .quiesce | .restore | .update => maskOutcome m x o s
  | _ => s

/-- A released slot hands its outcome to its originator (R75). -/
def originatorOutcome (first : TakenFirst) (x : TxnSlot) (o : LinkOutcome) (s : State) : State :=
  match x.owner, modOfNumber x.node with
  | .enumeration, _ => enumerationOutcome x o s
  | .pass t, some m => passOutcome first t m x o s
  | .balance, some m => updateOutcome m x o s
  | .sweep, some m => pingOutcome m o s
  | .gone, some m => orphanOutcome m x o s
  | _, none => s

/-! ## Release of a slot (R73, R75, R76) -/

/-- A slot is released with an outcome, which its originator and the Chain Map take in the order named (R75). While the
Chain Map takes it first, the slot stands without a tag, so that a loss that ends the pass leaves it without an
originator. An OK read with a wrong sample count brings the pass's failure notice alone (R30; log entry 22); the orders are
those of log entry 10. -/
def releaseSlot (first : TakenFirst) (i : Fin 4) (x : TxnSlot) (o : LinkOutcome) (s : State) : State :=
  match first with
  | .originator => mapNotice x o (originatorOutcome first x o (s.setSlot i none))
  | .originatorAndGrant =>
    let s := originatorOutcome first x o (s.setSlot i none)
    mapNotice x o (if o = .failed then grantNow s else s)
  | .chainMap =>
    let s := mapNotice x o (s.setSlot i (some { x with tag := none, windowEnd := none }))
    match s.slot i with
    | some y => originatorOutcome first y o (s.setSlot i none)
    | none => s

end Sys2Proof.Machine
end

