-- ==== Sys2Proof/Machine/Formats.lean ====
section
/-! DEFINITION. Machine/Formats.lean: the codes and byte layouts that a host sees (R163, R216 to R220). -/

namespace Sys2Proof.Machine

/-! ## Codes -/

/-- The status codes (R217). -/
def statusCode : Status → Byte
  | .ok => 0x00 | .checkError => 0x01 | .unknownRequest => 0x02 | .badArgument => 0x03 | .notReady => 0x04
  | .noToken => 0x05 | .heldElsewhere => 0x06 | .queueFull => 0x07 | .noModule => 0x08 | .noTicket => 0x09
  | .tooLate => 0x0A | .incoherent => 0x0B | .restarting => 0x0C | .resetDone => 0x0D

/-- The class codes (R218). -/
def classCode : Chan → Byte
  | .cell _ => 0 | .temp _ => 1 | .block => 2 | .die => 3

def qualityCode : Quality → Byte
  | .unpopulated => 0 | .pending => 1 | .fresh => 2 | .stale => 3 | .faulted => 4

def faultCode : Option FaultCause → Byte
  | none => 0 | some .noResponse => 1 | some .sensorOpen => 2 | some .restart => 3

def sourceCode : Option Source → Byte
  | none => 0 | some .sweepRolling => 1 | some .sweepAligned => 2 | some .directedA => 3 | some .directedB => 4

def limitCode : LimitState → Byte
  | .within => 0 | .high => 1 | .low => 2

/-- The event kind codes (R219). -/
def kindCode : EventKind → Nat
  | .groupStale => 0x01 | .groupFaulted => 0x02 | .groupRecovered => 0x03 | .sensorOpen => 0x04
  | .limitCrossed => 0x05 | .limitCleared => 0x06 | .sumMismatch => 0x07 | .sumCleared => 0x08
  | .moduleSuspect => 0x09 | .moduleLost => 0x0A | .moduleFound => 0x0B | .chainReady => 0x0C
  | .chainCountMismatch => 0x0D | .directedDone => 0x0E | .balanceEnded => 0x0F | .balanceBlocked => 0x10
  | .tokenLapsed => 0x11 | .overflow => 0x12

/-- The block cause codes (R219). -/
def blockCode : BlockCause → Byte
  | .inhibited => 0x40 | .moduleDown => 0x41 | .moduleHot => 0x42 | .sum => 0x43 | .data => 0x44 | .cellLow => 0x45

/-- The cause byte of an event record; for an OVERFLOW record the kind of the first record dropped (R219). -/
def causeCode : EventCause → Byte
  | .noResponse => 0x01
  | .limit .ov => 0x10 | .limit .uv => 0x11 | .limit .th => 0x12 | .limit .tl => 0x13 | .limit .dh => 0x14
  | .tooLong => 0x20 | .expected => 0x21
  | .done => 0x30 | .aborted => 0x31 | .restart => 0x03 | .expired => 0x32 | .unpopulated => 0x33
  | .blocked c => blockCode c
  | .dropped k => BitVec.ofNat 8 (kindCode k)

def chainStateCode : ChainState → Byte
  | .down => 0 | .enumerating => 1 | .running => 2

def sweepStateCode : SweepState → Byte
  | .halted => 0 | .waiting => 1 | .running => 2

def endReasonCode : Option EndReason → Byte
  | none => 0 | some .assignFailed => 1 | some .badDescriptor => 2 | some .full => 3 | some .tooLong => 4

def moduleStateCode : ModuleState → Byte
  | .absent => 0 | .active => 1 | .suspect => 2 | .lost => 3

def balanceStateCode : BalanceState → Byte
  | .idle => 0 | .waiting => 1 | .blocked _ => 2 | .on => 3 | .held => 4

def flagByte (b : Bool) : Byte := if b then 1 else 0

/-- A count in one byte. -/
def byteOf (n : Nat) : Byte := BitVec.ofNat 8 n

/-- A count in two bytes. -/
def word16 (n : Nat) : List Byte := bytes16 (BitVec.ofNat 16 n)

/-! ## Answers (R163) -/

/-- The bytes that an answer clocks out: status, echo, payload, CRC-8 (R163). -/
def answerBytes (a : Answer) : List Byte :=
  let body := statusCode a.status :: a.echo :: a.payload
  body ++ [crc8 body]

/-- A refusal has no payload (R217). -/
def refusal (st : Status) (code : Byte) : Answer := { status := st, echo := code, payload := [] }

/-- An accepted request's answer. -/
def okAnswer (code : Byte) (payload : List Byte) : Answer := { status := .ok, echo := code, payload := payload }

/-- What a frame begun while the slot is PREPARING clocks out (R163, R166). -/
def notReadyOutput (echo : Byte) : Answer := { status := .notReady, echo := echo, payload := [] }

/-- Byte `i` of a frame's output; past the answer the port clocks out FFH (R163). -/
def outputByte (out : List Byte) (i : Nat) : Byte := out.getD i 0xFF

/-! ## Records (R218, R219) -/

/-- The 18 bytes of an entry record (R218). -/
def entryBytes (m : Mod) (ch : Chan) (e : EntryRecord) : List Byte :=
  word16 (entryIndex m ch)
    ++ [classCode ch, qualityCode e.quality, faultCode e.cause, sourceCode e.source,
        limitCode e.limit ||| (flagByte e.balanced <<< 2), byteOf e.streak]
    ++ bytes16 (BitVec.ofInt 16 e.value) ++ bytes32 (e.instant.getD 0) ++ bytes32 e.renewal

/-- The ten bytes of a latch header (R218). -/
def headerBytes (h : LatchHeader) (count : Nat) : List Byte :=
  bytes32 h.instant ++ bytes32 h.counter ++ [byteOf count, flagByte h.coherent]

/-- The presence bits of an event record (R219). -/
def presenceByte (e : Event) : Byte :=
  flagByte e.module.isSome ||| (flagByte e.entry.isSome <<< 1) ||| (flagByte e.ticket.isSome <<< 2)
    ||| (flagByte e.value.isSome <<< 3) ||| (flagByte e.cause.isSome <<< 4) ||| (flagByte e.port.isSome <<< 5)

/-- The 18 bytes of an event record (R219). -/
def eventBytes (r : EventRecord) : List Byte :=
  let e := r.event
  word16 r.seq ++ [byteOf (kindCode e.kind), presenceByte e] ++ bytes32 e.time
    ++ [byteOf ((e.module.map modNumber).getD 0)]
    ++ word16 ((e.entry.map fun x => entryIndex x.1 x.2).getD 0)
    ++ [e.ticket.getD 0] ++ bytes32 (BitVec.ofInt 32 (e.value.getD 0))
    ++ [(e.cause.map causeCode).getD 0, (e.port.map portCode).getD 0]

/-- A record place of a POP_EVENTS answer that holds no record (R219). -/
def emptyPlace : List Byte := List.replicate 18 0

/-! ## Payloads of the blocks' answers (R218 to R220) -/

/-- The IDENT payload (R175, R218). -/
def identBytes (p : Port) : List Byte :=
  word16 0x0C24 ++ [1, portCode p, 12] ++ word16 264 ++ [32, 32, 4, 4]

/-- The port field of the token (R218). -/
def holderCode : Token → Byte
  | .free => 0
  | .held p _ _ => portCode p

/-- The remaining lease in whole milliseconds, rounded up; 0 while FREE (R176, R206). -/
def remainingLease (s : State) : Nat :=
  match s.token with
  | .free => 0
  | .held _ _ due => ceilDiv (ticksLeft s.timebase due) 10

/-- The STATUS payload (R176, R218). Every block is read at one instant, which is the model's choice: R177 lets the blocks
be read on either side of an event (log entry 29). -/
def statusBytes (p : Port) (s : State) : List Byte :=
  [chainStateCode s.map.state, byteOf s.map.n, sweepStateCode s.sweep.state, byteOf s.sweep.pointer,
   holderCode s.token]
    ++ word16 (remainingLease s)
    ++ [byteOf (s.queue p).records.length, byteOf (s.ticketQueue p).tickets.length]
    ++ word16 s.link.retries ++ word16 s.link.badCrc ++ word16 s.link.late ++ word16 s.link.overruns
    ++ bytes32 s.image.counter ++ bytes32 s.timebase

/-- The remaining seconds of a request, 0000H when absent (R147, R220). At the end instant itself, before the expiry is
taken, R147's formula gives 0000H too, outside its range of 1..3600: the model's choice (log entry 28). -/
def requestSeconds (now : Tick) : Option Tick → Nat
  | some due => ceilDiv (ticksLeft now due) Config.ticksPerSecond
  | none => 0

/-- The block cause byte of a balance state (R220). -/
def stateCause : BalanceState → Byte
  | .blocked c => blockCode c
  | _ => 0

/-- A cell group of the READ_BALANCE answer (R220). -/
def cellBytes (now : Tick) (r : CellRecord) : List Byte :=
  word16 (requestSeconds now r.request.a) ++ word16 (requestSeconds now r.request.b)
    ++ [flagByte r.inhibit.a ||| (flagByte r.inhibit.b <<< 1), balanceStateCode r.state, stateCause r.state]
    ++ bytes32 r.onTime

/-- The flag and the mask of a commanded mask (R220). -/
def commandedBytes : Commanded → List Byte
  | .mask m => 0 :: bytes16 m
  | .unknown => [1, 0, 0]

/-- The READ_BALANCE payload (R153, R220). -/
def balanceBytes (m : Mod) (s : State) : List Byte :=
  let b := s.balanceOf m
  [byteOf (modNumber m)] ++ (List.finRange 16).flatMap (fun c => cellBytes s.timebase (tget b.cells c))
    ++ bytes16 b.decided ++ commandedBytes b.commanded
    ++ [flagByte b.hold, flagByte (s.updatePending m), byteOf s.settings.balanceCapacity]

/-- The remaining DOWN retry time in whole milliseconds, rounded up; FFFFH when the timer does not run (R98, R220). -/
def retryField (s : State) : Nat :=
  match s.map.retryDue with
  | some due => ceilDiv (ticksLeft s.timebase due) 10
  | none => 0xFFFF

/-- The commanded mask as a module record of READ_MAP carries it: 0 when UNKNOWN (R220). -/
def commandedField : Commanded → CellMask
  | .mask m => m
  | .unknown => 0

/-- A module record of the READ_MAP answer (R220). -/
def recordBytes (m : Mod) (s : State) : List Byte :=
  let r := s.record m
  let c := (s.balanceOf m).commanded
  [byteOf (modNumber m), moduleStateCode r.state, byteOf r.cellCount, byteOf r.tempCount, byteOf r.revision,
   byteOf r.failures,
   flagByte r.lastSuccess.isSome ||| (flagByte (c == .unknown) <<< 1) ||| (flagByte r.mark <<< 2)]
    ++ bytes32 (r.lastSuccess.getD 0) ++ bytes16 (commandedField c)

/-- The READ_MAP payload (R98, R220). -/
def mapBytes (s : State) : List Byte :=
  [chainStateCode s.map.state, byteOf s.map.n, endReasonCode s.map.endReason]
    ++ bytes32 (s.map.endInstant.getD 0) ++ word16 (retryField s)
    ++ allMods.flatMap fun m => recordBytes m s

end Sys2Proof.Machine
end

