-- ==== Sys2Proof/Machine/Operands.lean ====
section
/-! DEFINITION. Machine/Operands.lean: the argument fields of a request, most significant byte first (R216, R217), and
the checks of a host frame (R160 to R167). -/

namespace Sys2Proof.Machine

/-! ## Argument fields (R216) -/

/-- The byte argument at a place. -/
def arg8 (args : List Byte) (i : Nat) : Byte := args.getD i 0

/-- The two-byte argument at a place. -/
def arg16 (args : List Byte) (i : Nat) : BitVec 16 := arg8 args i ++ arg8 args (i + 1)

/-- The four-byte argument at a place, as the two's complement number it is (R220). -/
def arg32 (args : List Byte) (i : Nat) : Int := (arg16 args i ++ arg16 args (i + 2)).toInt

/-- The what of DIRECT (R217). -/
def whatOf (b : Byte) : Option What :=
  if b = 1 then some .cells else if b = 2 then some .aux else if b = 3 then some .both else none

/-! ## Response slots (R165, R167) -/

/-- The slot becomes READY with an answer made in the event of the frame's end (R165). -/
def answerNow (p : Port) (a : Answer) (s : State) : State := s.setPort p { s.port p with slot := .ready a }

/-- The request is handed to its block, whose answer is on its way back: the slot is PREPARING (R165). -/
def answerLater (p : Port) (a : Answer) (s : State) : State :=
  s.setPort p { s.port p with slot := .preparing a.echo a }

/-! ## The end of a frame (R160, R164, R166) -/

/-- The request of a frame that ends now is looked at: the part is out of reset, the frame was not cut off, it did not
clock out NOT_READY, and the slot is READY (R160, R161, R166). A request command on a port with no frame running stands
for a frame begun and ended at once (log entry 5). -/
def State.frameTaken (s : State) (p : Port) : Bool :=
  !s.inReset && (match (s.port p).frame with
    | .idle => true
    | .running _ notReady => !notReady
    | .cut => false)
  && (match (s.port p).slot with
    | .ready _ => true
    | .preparing _ _ => false)

/-- Chip select is released: the port is outside any frame. -/
def endFrame (p : Port) (s : State) : State := s.setPort p { s.port p with frame := .idle }

/-- The end of a frame with the code of a request and the bytes after it: discarded, refused CHECK_ERROR, or taken by
`act` with the argument bytes (R164 to R166). -/
def takeFrame (p : Port) (code : Byte) (rest : List Byte) (act : List Byte → State → State) (s : State) : State :=
  if s.frameTaken p then
    if frameGood code rest then act (frameArgs code rest) (endFrame p s)
    else answerNow p (refusal .checkError code) (endFrame p s)
  else endFrame p s

end Sys2Proof.Machine
end

