-- ==== Sys2Proof/Machine/QueueOps.lean ====
section
/-! DEFINITION. Machine/QueueOps.lean: the event queues and the alert lines (R187 to R197). -/

namespace Sys2Proof.Machine

/-- The kind is in a set of event kinds: bit n for kind code n (R220). -/
def inKinds (mask : BitVec 32) (k : EventKind) : Bool := mask.getLsbD (kindCode k)

/-- A record alerts under a mask: its kind is in it, or it is an OVERFLOW record and the mask is not empty (R194). -/
def alerts (mask : BitVec 32) (r : EventRecord) : Bool :=
  inKinds mask r.event.kind || (r.event.kind == .overflow && mask != 0)

/-- The alert condition of a queue, and so its line, judged afresh (R194). -/
def judgeAlert (q : EventQueue) : EventQueue := { q with alert := q.records.any (alerts q.alertMask) }

/-- The sequence number after one is taken; from 65535 it advances to 1 (R189). -/
def nextSequence (n : Nat) : Nat := if n = 65535 then 1 else n + 1

/-- A record is an OVERFLOW record. -/
def isOverflow (r : EventRecord) : Bool := r.event.kind == .overflow

/-- A queue holds an OVERFLOW record. -/
def hasOverflow (q : EventQueue) : Bool := q.records.any isOverflow

/-- A record appended as the newest, with the next sequence number (R189). -/
def appendRecord (e : Event) (q : EventQueue) : EventQueue :=
  { q with records := q.records ++ [{ seq := q.nextSeq, event := e }], nextSeq := nextSequence q.nextSeq }

/-- The OVERFLOW event that the first drop creates: dropped count 1, the kind dropped, the instant of the storing
(R190, R191). -/
def overflowEvent (now : Tick) (k : EventKind) : Event :=
  { kind := .overflow, time := now, value := some 1, cause := some (.dropped k) }

/-- One more drop counted into an OVERFLOW record, its count staying at 65535 (R190). -/
def countDrop (r : EventRecord) : EventRecord :=
  if isOverflow r then { r with event := { r.event with value := some (min 65535 (r.event.value.getD 0 + 1)) } }
  else r

/-- The storing of one record at a queue (R188, R190). -/
def storeRecord (now : Tick) (e : Event) (q : EventQueue) : EventQueue :=
  if !inKinds q.subscribe e.kind then q
  else if hasOverflow q then { q with records := q.records.map countDrop }
  else if q.records.length < Config.queueSize - 1 then appendRecord e q
  else appendRecord (overflowEvent now e.kind) q

/-- A storing event: the records that one block raised in one event, in its order; the line follows in the event (R187,
R194). -/
def storeAll (now : Tick) (es : List Event) (q : EventQueue) : EventQueue :=
  judgeAlert (es.foldl (fun q e => storeRecord now e q) q)

/-- The session reset of a port at its queue, its per-port settings at their defaults (R178, R197). -/
def resetSessionQueue : EventQueue := resetQueue

/-- The oldest storing event that waits at a port is taken (R187). -/
def takeStoring (p : Port) (s : State) : State :=
  match s.raised.get p with
  | [] => s
  | es :: rest =>
    { s.setQueue p (storeAll s.timebase es (s.queue p)) with raised := s.raised.set p rest }

/-- The removal of the oldest records (R192). -/
def popRecords (n : Nat) (q : EventQueue) : EventQueue := judgeAlert { q with records := q.records.drop n }

/-- The POP_EVENTS payload: records returned, records left, eight places (R192, R219). -/
def popBytes (n : Nat) (q : EventQueue) : List Byte :=
  let out := q.records.take n
  [byteOf out.length, byteOf (q.records.length - n)] ++ out.flatMap eventBytes
    ++ (List.replicate (8 - out.length) emptyPlace).flatten

/-- The dropped count of the OVERFLOW record, if the queue holds one (R193). -/
def droppedCount (q : EventQueue) : Nat :=
  match q.records.find? isOverflow with
  | some r => (r.event.value.getD 0).toNat
  | none => 0

/-- The EVENT_COUNT payload (R193, R219). -/
def countBytes (q : EventQueue) : List Byte :=
  [byteOf q.records.length, byteOf (q.records.countP (alerts q.alertMask)), flagByte (hasOverflow q)]
    ++ word16 (droppedCount q) ++ word16 ((q.records.head?.map (·.seq)).getD 0) ++ word16 q.nextSeq

end Sys2Proof.Machine
end

