-- ==== Sys2Proof/Machine/SettingOps.lean ====
section
/-! DEFINITION. Machine/SettingOps.lean: the settings by identifier, their ranges and moments of effect, and the
configuration token (R199 to R215). -/

namespace Sys2Proof.Machine

/-- The settings of R220, by identifier. POPULATION_MASK carries its module. -/
inductive SettingId
  | sweepMode | sweepPeriod | auxCadence | skipRecent | fastWindow | slowWindow | urgencyMargin | quiesceMode
  | settleDelay | conversionWait | responseWindow | retryLimit | lostThreshold | expectedModules | autoRestart
  | populationMask | cellOv | cellUv | tempHigh | tempLow | dieHigh | hystCell | hystTemp | streakLimit
  | streakBypass | sumTolerance | balanceCapacity | subscribe | alertMask
  deriving DecidableEq, Repr

/-- The settings in the order of their identifiers 01H to 1DH (R220). -/
def settingIds : List SettingId :=
  [.sweepMode, .sweepPeriod, .auxCadence, .skipRecent, .fastWindow, .slowWindow, .urgencyMargin, .quiesceMode,
   .settleDelay, .conversionWait, .responseWindow, .retryLimit, .lostThreshold, .expectedModules, .autoRestart,
   .populationMask, .cellOv, .cellUv, .tempHigh, .tempLow, .dieHigh, .hystCell, .hystTemp, .streakLimit,
   .streakBypass, .sumTolerance, .balanceCapacity, .subscribe, .alertMask]

/-- The setting of an identifier (R220). -/
def settingOf (code : Byte) : Option SettingId :=
  if code = 0 then none else settingIds[code.toNat - 1]?

/-- The value names only members of SUBSCRIBE's and ALERT_MASK's list: bits 1 to 17 (R220). -/
def kindsInRange (v : Int) : Bool := 0 ≤ v && v ≤ 0x3FFFE && v % 2 == 0

/-- MIN and MAX of a setting (R199). A set-valued setting's members stand in the low bits, so its range is that of its
bits, bit 0 apart for the two sets of event kinds (R220). -/
def settingRange : SettingId → Int × Int
  | .sweepMode => (0, 1)
  | .sweepPeriod => (10, 2000)
  | .auxCadence => (1, 8)
  | .skipRecent => (0, 1)
  | .fastWindow => (10, 5000)
  | .slowWindow => (100, 20000)
  | .urgencyMargin => (10, 50)
  | .quiesceMode => (0, 1)
  | .settleDelay => (0, 31)
  | .conversionWait => (2, 100)
  | .responseWindow => (5, 100)
  | .retryLimit => (0, 3)
  | .lostThreshold => (1, 7)
  | .expectedModules => (0, 12)
  | .autoRestart => (0, 1)
  | .populationMask => (0, 0xFFFF)
  | .cellOv => (0, 65535)
  | .cellUv => (0, 65535)
  | .tempHigh => (-400, 1500)
  | .tempLow => (-400, 1500)
  | .dieHigh => (-400, 1500)
  | .hystCell => (0, 2000)
  | .hystTemp => (0, 200)
  | .streakLimit => (1, 8)
  | .streakBypass => (0, 31)
  | .sumTolerance => (1, 500)
  | .balanceCapacity => (1, 16)
  | .subscribe => (0, 0x3FFFE)
  | .alertMask => (0, 0x3FFFE)

/-- A value is in range (R200). -/
def settingInRange (k : SettingId) (v : Int) : Bool :=
  match k with
  | .subscribe => kindsInRange v
  | .alertMask => kindsInRange v
  | _ => (settingRange k).1 ≤ v && v ≤ (settingRange k).2

/-- The setting is of kind P (R199). -/
def perPort : SettingId → Bool
  | .subscribe => true
  | .alertMask => true
  | _ => false

/-- The index a SET may carry: a module number for POPULATION_MASK, 0 for every other setting (R203). -/
def setIndexGood (k : SettingId) (i : Nat) : Bool :=
  match k with
  | .populationMask => 1 ≤ i && i ≤ 12
  | _ => i == 0

/-- The index a GET may carry: also a port for a per-port setting (R205). -/
def getIndexGood (k : SettingId) (i : Nat) : Bool :=
  match k with
  | .populationMask => 1 ≤ i && i ≤ 12
  | .subscribe => i == 1 || i == 2
  | .alertMask => i == 1 || i == 2
  | _ => i == 0

/-- The value of a shared setting, coded as SET and GET carry it (R220). -/
def settingValue (st : Settings) (m : Mod) : SettingId → Int
  | .sweepMode => if st.sweepMode = .aligned then 1 else 0
  | .sweepPeriod => st.sweepPeriod
  | .auxCadence => st.auxCadence
  | .skipRecent => if st.skipRecent then 1 else 0
  | .fastWindow => st.fastWindow
  | .slowWindow => st.slowWindow
  | .urgencyMargin => st.urgencyMargin
  | .quiesceMode => if st.quiesceMode then 0 else 1
  | .settleDelay => st.settleDelay
  | .conversionWait => st.conversionWait
  | .responseWindow => st.responseWindow
  | .retryLimit => st.retryLimit
  | .lostThreshold => st.lostThreshold
  | .expectedModules => st.expectedModules
  | .autoRestart => if st.autoRestart then 1 else 0
  | .populationMask => (tget st.populationMask m).toNat
  | .cellOv => st.cellOv
  | .cellUv => st.cellUv
  | .tempHigh => st.tempHigh
  | .tempLow => st.tempLow
  | .dieHigh => st.dieHigh
  | .hystCell => st.hystCell
  | .hystTemp => st.hystTemp
  | .streakLimit => st.streakLimit
  | .streakBypass => st.streakBypass.toNat
  | .sumTolerance => st.sumTolerance
  | .balanceCapacity => st.balanceCapacity
  | .subscribe => 0
  | .alertMask => 0

/-- A shared setting written (R204). -/
def writeSetting (m : Mod) (k : SettingId) (v : Int) (st : Settings) : Settings :=
  let n := v.toNat
  match k with
  | .sweepMode => { st with sweepMode := if v = 1 then .aligned else .rolling }
  | .sweepPeriod => { st with sweepPeriod := n }
  | .auxCadence => { st with auxCadence := n }
  | .skipRecent => { st with skipRecent := v == 1 }
  | .fastWindow => { st with fastWindow := n }
  | .slowWindow => { st with slowWindow := n }
  | .urgencyMargin => { st with urgencyMargin := n }
  | .quiesceMode => { st with quiesceMode := v == 0 }
  | .settleDelay => { st with settleDelay := n }
  | .conversionWait => { st with conversionWait := n }
  | .responseWindow => { st with responseWindow := n }
  | .retryLimit => { st with retryLimit := n }
  | .lostThreshold => { st with lostThreshold := n }
  | .expectedModules => { st with expectedModules := n }
  | .autoRestart => { st with autoRestart := v == 1 }
  | .populationMask => { st with populationMask := tput st.populationMask m (BitVec.ofNat 16 n) }
  | .cellOv => { st with cellOv := n }
  | .cellUv => { st with cellUv := n }
  | .tempHigh => { st with tempHigh := v }
  | .tempLow => { st with tempLow := v }
  | .dieHigh => { st with dieHigh := v }
  | .hystCell => { st with hystCell := n }
  | .hystTemp => { st with hystTemp := n }
  | .streakLimit => { st with streakLimit := n }
  | .streakBypass => { st with streakBypass := BitVec.ofNat 5 n }
  | .sumTolerance => { st with sumTolerance := n }
  | .balanceCapacity => { st with balanceCapacity := n }
  | .subscribe => st
  | .alertMask => st

/-! ## The token (R206 to R213) -/

/-- The port holds the token. -/
def State.holds (s : State) (p : Port) : Bool :=
  match s.token with
  | .free => false
  | .held q _ _ => q = p

/-- The end of a lease of so many seconds that starts now (R207). -/
def leaseEndFrom (now : Tick) (seconds : Nat) : Tick := now + ticksOf (seconds * Config.ticksPerSecond)

/-- The holder's lease restarts with its current length (R209). -/
def restartLease (s : State) : State :=
  match s.token with
  | .free => s
  | .held p n _ => { s with token := .held p n (leaseEndFrom s.timebase n) }

/-- The session reset of a port at the token: freed, with no TOKEN_LAPSED, if the port holds it (R213). -/
def tokenSessionReset (p : Port) (s : State) : State := if s.holds p then { s with token := .free } else s

/-- The lease has run out (R211). -/
def State.leaseDue (s : State) : Bool :=
  match s.token with
  | .free => false
  | .held _ _ due => reached s.timebase due

/-- The expiry of a lease: the token becomes FREE, with TOKEN_LAPSED to the former holder alone (R211). -/
def lapseToken (s : State) : State :=
  match s.token with
  | .free => s
  | .held p _ _ =>
    raiseTo p [{ kind := .tokenLapsed, time := s.timebase, port := some p }] { s with token := .free }

/-! ## Moments of effect (R202) -/

/-- What an accepted write of a shared setting does at once at its block, the new value stored; `old` are the settings
before. A write of the value already held does nothing here (R202). -/
def settingEffect (m : Mod) (k : SettingId) (old : Settings) (s : State) : State :=
  match k with
  | .fastWindow => if old.fastWindow = s.settings.fastWindow then s else imageWindowWrite .fast s
  | .slowWindow => if old.slowWindow = s.settings.slowWindow then s else imageWindowWrite .slow s
  | .populationMask =>
    let was := tget old.populationMask m
    if was = tget s.settings.populationMask m then s else dropUnpopulated m (imageMaskWrite m was s)
  | .autoRestart =>
    if old.autoRestart = s.settings.autoRestart then s
    else if s.settings.autoRestart then
      (if s.map.state = .down then startDownRetry s else autoRestart s)
    else s.setMap { s.map with retryDue := none }
  | .balanceCapacity => if old.balanceCapacity = s.settings.balanceCapacity then s else decideAll s
  | _ => s

/-- An accepted write of a shared setting: stored, the lease restarted, and the effect at once taken (R202, R204). -/
def acceptShared (m : Mod) (k : SettingId) (v : Int) (s : State) : State :=
  let old := s.settings
  settingEffect m k old (restartLease { s with settings := writeSetting m k v old })

/-- An accepted write of a per-port setting, at the writing port (R181, R195, R204). -/
def acceptPerPort (p : Port) (k : SettingId) (v : Int) (s : State) : State :=
  let q := s.queue p
  match k with
  | .subscribe => s.setQueue p { q with subscribe := BitVec.ofInt 32 v }
  | .alertMask => s.setQueue p (judgeAlert { q with alertMask := BitVec.ofInt 32 v })
  | _ => s

end Sys2Proof.Machine
end

