-- ==== Sys2Proof/Machine/ResetCommands.lean ====
section
/-! DEFINITION. Machine/ResetCommands.lean: device reset and its release (R161). -/

namespace Sys2Proof.Machine

/-- The answer of a command: the model has no fault, so every command has a next state. -/
abbrev Result := Host.Outcome State Fault Refusal

/-- Out of device reset the event is taken; during it nothing happens (R161). -/
def awake (act : State → State) (s : State) : State := if s.inReset then s else act s

/-- A frame in progress is cut off without being taken (R160, R161). -/
def cutFrame (h : HostPort) : HostPort :=
  { h with frame := match h.frame with
    | .running _ _ => .cut
    | f => f }

/-- The alert line released (R161, R182). -/
def releaseAlert (q : EventQueue) : EventQueue := { q with alert := false }

/-- DEVICE_RESET (R81, R161): frames on the ports and on the down lane are cut off, and the alert lines are released. No
module sees a frame that is cut off: the model's choice (log entry 32). The blocks take their reset values at the
release. -/
def execDeviceReset (s : State) : Result :=
  if s.inReset then .next s
  else .next
    { s with inReset := true
             ports := { a := cutFrame s.ports.a, b := cutFrame s.ports.b }
             queues := { a := releaseAlert s.queues.a, b := releaseAlert s.queues.b }
             link := { s.link with sending := none, idleUntil := none, gapUntil := none } }

/-- A port at the release of device reset; a frame still held by its chip select stays cut off (R160). -/
def releasedPort (h : HostPort) : HostPort := { resetPort with frame := h.frame }

/-- RESET_RELEASE (R161): every block takes its device-reset values and the automatic enumeration begins. The modules
and the answers they have under way are not reached (R81). -/
def execResetRelease (s : State) : Result :=
  if s.inReset then
    .next { State.reset with
      pending := s.pending
      chainEpoch := s.chainTime
      ports := { a := releasedPort s.ports.a, b := releasedPort s.ports.b }
      chain := s.chain
      upLane := s.upLane }
  else .next s

end Sys2Proof.Machine
end

