-- ==== Sys2Proof/Machine/PortCommands.lean ====
section
/-! DEFINITION. Machine/PortCommands.lean: the frames of a host port and the requests that the port answers itself (R160
to R180). -/

namespace Sys2Proof.Machine

/-- What the frame that starts now clocks out, fixed by the slot (R162). -/
def frameAtStart (s : State) (p : Port) : FrameState :=
  if s.inReset then .cut
  else
    match (s.port p).slot with
    | .ready a => .running (answerBytes a) false
    | .preparing echo _ => .running (answerBytes (notReadyOutput echo)) true

/-- FRAME_START (R160, R162). Chip select that is asserted already starts nothing. -/
def execFrameStart (p : Port) (s : State) : Result :=
  if (s.port p).frame = .idle then .next (s.setPort p { s.port p with frame := frameAtStart s p })
  else .next s

/-- FRAME_EMPTY: no whole byte was received, nothing is taken, the slot stays (R160). -/
def execFrameEmpty (p : Port) (s : State) : Result := .next (endFrame p s)

/-- FRAME_DISCARDED: the request of a frame that clocked out NOT_READY is discarded (R166). A frame that clocked out an
answer is not discarded, so the command does not end it. -/
def execFrameDiscarded (p : Port) (s : State) : Result :=
  match (s.port p).frame with
  | .running _ false => .next s
  | _ => .next (endFrame p s)

/-- UNKNOWN_REQUEST: the first byte names no request (R164, step 1). -/
def execUnknownRequest (p : Port) (code : Byte) (s : State) : Result :=
  if requestCodes.contains code then .next s
  else if s.frameTaken p then .next (answerNow p (refusal .unknownRequest code) (endFrame p s))
  else .next (endFrame p s)

/-- NOP leaves the slot as it stands (R168). -/
def execNop (p : Port) (rest : List Byte) (s : State) : Result :=
  .next (takeFrame p 0x10 rest (fun _ s => s) s)

/-- IDENT (R175). -/
def execIdent (p : Port) (rest : List Byte) (s : State) : Result :=
  .next (takeFrame p 0x11 rest (fun _ s => answerNow p (okAnswer 0x11 (identBytes p)) s) s)

/-- STATUS (R176). -/
def execStatus (p : Port) (rest : List Byte) (s : State) : Result :=
  .next (takeFrame p 0x12 rest (fun _ s => answerNow p (okAnswer 0x12 (statusBytes p s)) s) s)

/-- The answer to an accepted SESSION_RESET (R178). -/
def sessionAnswer : Answer := { status := .resetDone, echo := 0x13, payload := [2] }

/-- A session reset at the port itself: the hold buffer is cleared and RESET_DONE (SESSION) stands in the slot (R178). -/
def portSessionReset (p : Port) (s : State) : State :=
  s.setPort p { s.port p with slot := .ready sessionAnswer, hold := { copies := [], header := none } }

/-- A session reset, at the port and at the blocks that hold its claims (R178, R179). The decisions taken afresh offer
and withdraw the balance updates as R138 has it, although R108 and R159 call the items unchanged: the model's choice (log
entry 27). -/
def resetSession (p : Port) (s : State) : State :=
  let s := (portSessionReset p s).setQueue p resetSessionQueue
  refreshItems (tokenSessionReset p (balanceSessionReset p (ticketsSessionReset p s)))

/-- SESSION_RESET (R178). -/
def execSessionReset (p : Port) (rest : List Byte) (s : State) : Result :=
  .next (takeFrame p 0x13 rest (fun _ s => resetSession p s) s)

/-- The READ_HOLD copies: slots start, start + 1, … modulo the hold count (R173). -/
def holdRun (copies : List HoldCopy) (start count : Nat) : List HoldCopy :=
  (List.range count).filterMap fun i => copies[(start + i) % copies.length]?

/-- The READ_HOLD answer (R173). -/
def readHoldAnswer (h : HoldBuffer) (start count : Nat) : Answer :=
  match h.header with
  | some header =>
    if h.copies.length ≤ start ∨ count = 0 ∨ 32 < count then refusal .badArgument 0x22
    else okAnswer 0x22 (headerBytes header h.copies.length
      ++ (holdRun h.copies start count).flatMap fun c => entryBytes c.module c.chan c.record)
  | none => refusal .badArgument 0x22

/-- READ_HOLD (R173). -/
def execReadHold (p : Port) (rest : List Byte) (s : State) : Result :=
  .next (takeFrame p 0x22 rest (fun a s =>
    answerNow p (readHoldAnswer (s.port p).hold (arg8 a 0).toNat (arg8 a 1).toNat) s) s)

/-- The answer on its way reaches the slot, which becomes READY with it (R165). -/
def deliverAnswer (p : Port) (s : State) : State :=
  match (s.port p).slot with
  | .preparing _ a => s.setPort p { s.port p with slot := .ready a }
  | .ready _ => s

/-- PORT_RECEIVES_ANSWER (R165). -/
def execPortReceivesAnswer (p : Port) (s : State) : Result := .next (awake (deliverAnswer p) s)

end Sys2Proof.Machine
end

