-- ==== Sys2Proof/Machine/BalanceCommands.lean ====
section
/-! DEFINITION. Machine/BalanceCommands.lean: the balance requests and the events of the Balance Controller (R139, R148
to R155). -/

namespace Sys2Proof.Machine

/-- The mask names an UNPOPULATED cell of the module. -/
def namesUnpopulated (s : State) (m : Mod) (mask : CellMask) : Bool :=
  mask &&& unpopulatedMask (s.moduleImage m) != 0

/-- The cells of a mask that are BLOCKED (R148). -/
def blockedOf (mask : CellMask) (b : BalanceModule) : CellMask :=
  maskOf fun c => inMask mask c && isBlocked (tget b.cells c).state

/-- A BALANCE at the Balance Controller (R148). -/
def takeBalance (p : Port) (module : Nat) (mask : CellMask) (seconds : Nat) (s : State) : State :=
  if seconds = 0 ∨ 3600 < seconds ∨ mask = 0 then answerLater p (refusal .badArgument 0x40) s
  else if s.map.state = .enumerating then answerLater p (refusal .restarting 0x40) s
  else if s.map.n < module then answerLater p (refusal .noModule 0x40) s
  else
    match modOfNumber module with
    | none => answerLater p (refusal .noModule 0x40) s
    | some m =>
      if namesUnpopulated s m mask then answerLater p (refusal .badArgument 0x40) s
      else
        let b := s.balanceOf m
        let due := s.timebase + ticksOf (seconds * Config.ticksPerSecond)
        let s := refreshItems (decideFrom m none b (onCells mask (setRequest p (some due)) b) s)
        let b := s.balanceOf m
        answerLater p (okAnswer 0x40 (bytes16 b.decided ++ bytes16 (blockedOf mask b))) s

/-- BALANCE (R148). -/
def execBalance (p : Port) (rest : List Byte) (s : State) : Result :=
  .next (takeFrame p 0x40 rest (fun a s => takeBalance p (arg8 a 0).toNat (arg16 a 1) (arg16 a 3).toNat s) s)

/-- The cells of a mask on which the port holds a request (R149). -/
def requestsOf (p : Port) (mask : CellMask) (b : BalanceModule) : CellMask :=
  maskOf fun c => inMask mask c && requestedBy p (tget b.cells c)

/-- An UNBALANCE at the Balance Controller (R149). -/
def takeUnbalance (p : Port) (module : Nat) (mask : CellMask) (s : State) : State :=
  if s.map.state = .enumerating then answerLater p (refusal .restarting 0x41) s
  else if s.map.n < module then answerLater p (refusal .noModule 0x41) s
  else
    match modOfNumber module with
    | none => answerLater p (refusal .noModule 0x41) s
    | some m =>
      let b := s.balanceOf m
      let s := refreshItems (decideFrom m none b (onCells mask (setRequest p none) b) s)
      answerLater p (okAnswer 0x41 (bytes16 (requestsOf p mask b))) s

/-- UNBALANCE (R149). -/
def execUnbalance (p : Port) (rest : List Byte) (s : State) : Result :=
  .next (takeFrame p 0x41 rest (fun a s => takeUnbalance p (arg8 a 0).toNat (arg16 a 1) s) s)

/-- The cells of a module that carry a mark of either port (R150). -/
def inhibitedMask (b : BalanceModule) : CellMask :=
  maskOf fun c => (tget b.cells c).inhibit.a || (tget b.cells c).inhibit.b

/-- An INHIBIT or UNINHIBIT at the Balance Controller; the decision is taken only for a module of a chain that is not
ENUMERATING (R150). -/
def takeInhibit (p : Port) (code : Byte) (on : Bool) (module : Nat) (mask : CellMask) (s : State) : State :=
  match modOfNumber module with
  | none => answerLater p (refusal .noModule code) s
  | some m =>
    let b := s.balanceOf m
    let marked := onCells mask (setInhibit p on) b
    let s := if s.onChain m && s.map.state != .enumerating then refreshItems (decideFrom m none b marked s)
      else s.setBalance m marked
    answerLater p (okAnswer code (bytes16 (inhibitedMask marked))) s

/-- INHIBIT (R150). -/
def execInhibit (p : Port) (rest : List Byte) (s : State) : Result :=
  .next (takeFrame p 0x42 rest (fun a s => takeInhibit p 0x42 true (arg8 a 0).toNat (arg16 a 1) s) s)

/-- UNINHIBIT (R150). -/
def execUninhibit (p : Port) (rest : List Byte) (s : State) : Result :=
  .next (takeFrame p 0x43 rest (fun a s => takeInhibit p 0x43 false (arg8 a 0).toNat (arg16 a 1) s) s)

/-- The READ_BALANCE answer (R153). -/
def readBalanceAnswer (s : State) (module : Nat) : Answer :=
  match modOfNumber module with
  | some m => okAnswer 0x44 (balanceBytes m s)
  | none => refusal .noModule 0x44

/-- READ_BALANCE (R153). -/
def execReadBalance (p : Port) (rest : List Byte) (s : State) : Result :=
  .next (takeFrame p 0x44 rest (fun a s => answerLater p (readBalanceAnswer s (arg8 a 0).toNat) s) s)

/-- A module's accumulated ON times cleared (R155). -/
def clearOnTimes (b : BalanceModule) : BalanceModule :=
  { b with cells := tmap b.cells fun _ r => { r with onTime := 0 } }

/-- Every module's table rewritten by `f`. -/
def mapBalance (f : Mod → BalanceModule → BalanceModule) (s : State) : State :=
  { s with balance := { s.balance with modules := tmap s.balance.modules f } }

/-- A CLEAR_BALANCE_TIME, its argument checked before the token (R155, R210). Module 0 names every module. -/
def takeClearTime (p : Port) (module : Nat) (s : State) : State :=
  if 12 < module then answerLater p (refusal .badArgument 0x45) s
  else if !s.holds p then answerLater p (refusal .noToken 0x45) s
  else
    answerLater p (okAnswer 0x45 [])
      (mapBalance (fun m b => if module = 0 ∨ modNumber m = module then clearOnTimes b else b) (restartLease s))

/-- CLEAR_BALANCE_TIME (R155). -/
def execClearBalanceTime (p : Port) (rest : List Byte) (s : State) : Result :=
  .next (takeFrame p 0x45 rest (fun a s => takeClearTime p (arg8 a 0).toNat s) s)

/-- The oldest hand-off of a module is taken as a decision (R139). -/
def takeHandoff (m : Mod) (s : State) : State :=
  refreshItems (takeDecision m { s with balance := { s.balance with handoffs := s.balance.handoffs.erase m } })

/-- BALANCE_DECISION (R139, R141). -/
def execBalanceDecision (m : Mod) (s : State) : Result := .next (awake (takeHandoff m) s)

/-- REQUEST_EXPIRY (R151): taken when a request of the module has reached its end instant. -/
def execRequestExpiry (m : Mod) (s : State) : Result :=
  .next (awake (fun s => if s.requestsDue m then refreshItems (expireModuleRequests m s) else s) s)

/-- The ON time timer has expired (R154). -/
def State.onTimerDue (s : State) : Bool := s.balance.onTimer ≤ s.ticks

/-- The expiry of the ON time timer, which runs on for 10000 ticks from its own instant (R154). -/
def takeOnTimer (s : State) : State :=
  let s := mapBalance (fun _ => countOnTime) s
  { s with balance := { s.balance with onTimer := s.balance.onTimer + Config.onTimePeriod } }

/-- ON_TIME_TIMER_EXPIRY (R154). -/
def execOnTimeTimerExpiry (s : State) : Result :=
  .next (awake (fun s => if s.onTimerDue then takeOnTimer s else s) s)

end Sys2Proof.Machine
end

