-- ==== Sys2Proof/Machine/DirectedCommands.lean ====
section
/-! DEFINITION. Machine/DirectedCommands.lean: DIRECT, CANCEL and the creation of directed passes (R109 to R115). -/

namespace Sys2Proof.Machine

/-- A new ticket, joined to the pass it fits or QUEUED (R110, R111). -/
def placeTicket (p : Port) (m : Mod) (w : What) (s : State) : State :=
  let q := s.ticketQueue p
  let id := nextId q
  let state : TicketState := match s.joinable m w with
    | some t => .joined t
    | none => .queued
  let ticket : Ticket := { id := id, module := m, what := w, state := state }
  let s := s.setTickets p { tickets := q.tickets ++ [ticket], lastId := id }
  match state with
  | .joined t => updatePass t (fun x => { x with joined := x.joined ++ [{ port := p, id := id }] }) s
  | _ => s

/-- The refusal of a DIRECT, the first that applies (R110). -/
def directRefusal (s : State) (p : Port) (module : Nat) (w : Option What) : Option Status :=
  if w.isNone then some .badArgument
  else if s.map.state = .enumerating then some .restarting
  else if module = 0 ∨ s.map.n < module then some .noModule
  else if Config.ticketLimit ≤ (s.ticketQueue p).tickets.length then some .queueFull
  else none

/-- A DIRECT at the Directed Measurement Unit (R110). -/
def takeDirect (p : Port) (module : Nat) (w : Option What) (s : State) : State :=
  match directRefusal s p module w, modOfNumber module, w with
  | some st, _, _ => answerLater p (refusal st 0x30) s
  | none, some m, some w =>
    let state : Byte := if (s.joinable m w).isSome then 2 else 1
    answerLater p (okAnswer 0x30 [nextId (s.ticketQueue p), state]) (placeTicket p m w s)
  | none, _, _ => answerLater p (refusal .noModule 0x30) s

/-- DIRECT (R110). -/
def execDirect (p : Port) (rest : List Byte) (s : State) : Result :=
  .next (takeFrame p 0x30 rest (fun a s => takeDirect p (arg8 a 0).toNat (whatOf (arg8 a 1)) s) s)

/-- A port's ticket removed without an event (R115). -/
def removeTicket (p : Port) (id : BitVec 8) (s : State) : State :=
  let q := s.ticketQueue p
  s.setTickets p { q with tickets := q.tickets.filter fun t => t.id != id }

/-- A CANCEL at the Directed Measurement Unit (R115). -/
def takeCancel (p : Port) (id : BitVec 8) (s : State) : State :=
  match (s.ticketQueue p).tickets.find? fun t => t.id = id with
  | none => answerLater p (refusal .noTicket 0x31) s
  | some t =>
    match t.state with
    | .running _ => answerLater p (refusal .tooLate 0x31) s
    | .queued => answerLater p (okAnswer 0x31 [1]) (removeTicket p id s)
    | .joined _ =>
      answerLater p (okAnswer 0x31 [1]) (strikeRefs (fun r => r.port = p && r.id = id) (removeTicket p id s))

/-- CANCEL (R115). -/
def execCancel (p : Port) (rest : List Byte) (s : State) : Result :=
  .next (takeFrame p 0x31 rest (fun a s => takeCancel p (arg8 a 0) s) s)

/-- DIRECTED_PASS_CREATE (R112): taken when the port's demand can be met. -/
def execDirectedPassCreate (p : Port) (s : State) : Result :=
  .next (awake (fun s => refreshItems (createDirected p s)) s)

end Sys2Proof.Machine
end

