-- ==== Sys2Proof/Machine/EventCommands.lean ====
section
/-! DEFINITION. Machine/EventCommands.lean: POP_EVENTS, EVENT_COUNT and the storing of events (R187 to R193). -/

namespace Sys2Proof.Machine

/-- A POP_EVENTS at the port's queue (R192). -/
def takePop (p : Port) (count : Nat) (s : State) : State :=
  if count = 0 ∨ 8 < count then answerNow p (refusal .badArgument 0x50) s
  else
    answerNow p (okAnswer 0x50 (popBytes count (s.queue p))) (s.setQueue p (popRecords count (s.queue p)))

/-- POP_EVENTS (R192). -/
def execPopEvents (p : Port) (rest : List Byte) (s : State) : Result :=
  .next (takeFrame p 0x50 rest (fun a s => takePop p (arg8 a 0).toNat s) s)

/-- EVENT_COUNT (R193). -/
def execEventCount (p : Port) (rest : List Byte) (s : State) : Result :=
  .next (takeFrame p 0x51 rest (fun _ s => answerNow p (okAnswer 0x51 (countBytes (s.queue p))) s) s)

/-- EVENT_STORE: the oldest storing event that waits at the port is taken (R187, R190). -/
def execEventStore (p : Port) (s : State) : Result := .next (awake (takeStoring p) s)

end Sys2Proof.Machine
end

