-- ==== Sys2Proof/Machine/ImageCommands.lean ====
section
/-! DEFINITION. Machine/ImageCommands.lean: READ_ENTRY, LATCH and the deadline expiries (R20, R24 to R26). -/

namespace Sys2Proof.Machine

/-- The READ_ENTRY answer (R24). -/
def readEntryAnswer (s : State) (index : Nat) : Answer :=
  match entryOfIndex index with
  | some x => okAnswer 0x20 (bytes32 s.timebase
      ++ entryBytes x.1 x.2 (chanEntry (s.moduleImage x.1) x.2).toEntryRecord)
  | none => refusal .badArgument 0x20

/-- READ_ENTRY (R24). -/
def execReadEntry (p : Port) (rest : List Byte) (s : State) : Result :=
  .next (takeFrame p 0x20 rest (fun a s => answerLater p (readEntryAnswer s (arg16 a 0).toNat) s) s)

/-- The arguments of a LATCH are good: the option byte is 00H or 01H and the run lies in 0..263 (R25, R217). -/
def latchArgsGood (first count : Nat) (option : Byte) : Bool :=
  (option = 0 || option = 1) && first ≤ 263 && 1 ≤ count && count ≤ 32 && first + count ≤ 264

/-- A LATCH at the Image (R25, R26). -/
def takeLatch (p : Port) (first count : Nat) (option : Byte) (s : State) : State :=
  if latchArgsGood first count option then
    let run := copyRun s first count
    if option = 1 && !coherent run then answerLater p (refusal .incoherent 0x21) s
    else
      let header : LatchHeader :=
        { instant := s.timebase, counter := s.image.counter, coherent := option = 1 }
      let s := s.setPort p { s.port p with hold := { copies := run, header := some header } }
      answerLater p (okAnswer 0x21 (headerBytes header run.length)) s
  else answerLater p (refusal .badArgument 0x21) s

/-- LATCH (R25). -/
def execLatch (p : Port) (rest : List Byte) (s : State) : Result :=
  .next (takeFrame p 0x21 rest (fun a s => takeLatch p (arg16 a 0).toNat (arg8 a 2).toNat (arg8 a 3) s) s)

/-- DEADLINE_EXPIRY (R20): taken when the timebase has reached the set's deadline. -/
def execDeadlineExpiry (m : Mod) (k : DeadlineKind) (s : State) : Result :=
  .next (awake (fun s => if s.deadlineDue m k then expireDeadline m k s else s) s)

end Sys2Proof.Machine
end

