-- ==== Sys2Proof/Machine/LimitCommands.lean ====
section
/-! DEFINITION. Machine/LimitCommands.lean: the events of the Limit Checker (R121, R129). -/

namespace Sys2Proof.Machine

/-- The receipt list without its oldest member. -/
def dropWork (s : State) : State := { s with limits := { s.limits with work := s.limits.work.tail } }

/-- RECEIPT_EVENT: the oldest of the list, when it is a receipt (R121). -/
def execReceiptEvent (s : State) : Result :=
  .next (awake (fun s => match s.limits.work with
    | .receipt m _ xs :: _ => takeReceipt m xs (dropWork s)
    | _ => s) s)

/-- SUM_CHECK_EVENT: the oldest of the list, when it is a sum check (R129). -/
def execSumCheckEvent (s : State) : Result :=
  .next (awake (fun s => match s.limits.work with
    | .sumCheck m c a :: _ => takeSumCheck m c a (dropWork s)
    | _ => s) s)

end Sys2Proof.Machine
end

