-- ==== Sys2Proof/Machine/ChainCommands.lean ====
section
/-! DEFINITION. Machine/ChainCommands.lean: CHAIN_RESTART, READ_MAP and the Chain Map's timers (R88, R95, R97, R98). -/

namespace Sys2Proof.Machine

/-- A CHAIN_RESTART: the token is checked first; from the holder the lease restarts and the restart begins (R97). -/
def takeChainRestart (p : Port) (s : State) : State :=
  if s.holds p then answerLater p (okAnswer 0x70 []) (refreshItems (beginRestart (restartLease s)))
  else answerLater p (refusal .noToken 0x70) s

/-- CHAIN_RESTART (R97). -/
def execChainRestart (p : Port) (rest : List Byte) (s : State) : Result :=
  .next (takeFrame p 0x70 rest (fun _ s => takeChainRestart p s) s)

/-- READ_MAP (R98). -/
def execReadMap (p : Port) (rest : List Byte) (s : State) : Result :=
  .next (takeFrame p 0x71 rest (fun _ s => answerLater p (okAnswer 0x71 (mapBytes s)) s) s)

/-- A link time set for an event has been reached. -/
def State.passed (s : State) : Option Nat → Bool
  | some t => t ≤ s.linkTime
  | none => false

/-- The release pause has expired: the next number is 1 and ASSIGN(1) is offered (R88). -/
def takePauseEnd (s : State) : State :=
  refreshItems (offer .assign (s.setMap { s.map with pauseEnd := none, nextNumber := 1 }))

/-- RELEASE_PAUSE_EXPIRY (R88). -/
def execReleasePauseExpiry (s : State) : Result :=
  .next (awake (fun s => if s.passed s.map.pauseEnd then takePauseEnd s else s) s)

/-- The DOWN retry timer has expired (R95). -/
def State.retryExpired (s : State) : Bool :=
  match s.map.retryDue with
  | some due => reached s.timebase due
  | none => false

/-- DOWN_RETRY_EXPIRY (R95): a chain restart begins. -/
def execDownRetryExpiry (s : State) : Result :=
  .next (awake (fun s => if s.retryExpired then refreshItems (beginRestart s) else s) s)

end Sys2Proof.Machine
end

