-- ==== Sys2Proof/Machine/SensingModule.lean ====
section
/-! DEFINITION. Machine/SensingModule.lean: what a sensing module does with the frames that reach it (R59 to R66), and
the passing of one down-lane frame along the chain. The measured values and the conversion times are the modules' own:
free values of Config (log entry 14). -/

namespace Sys2Proof.Machine

/-- A command frame as a module received it, less the start marker. -/
structure CommandFrame where
  node : Nat
  tag : BitVec 4
  verb : Nat
  payload : List Byte
  deriving DecidableEq, Repr

/-- The fields a module sees, and whether its check passes: the CRC-16 agrees, and the payload length is 0..2 and
agrees with the bytes before the CRC (R60, R221). Bits 3..2 of byte 2, which R221 has 0, are not read: the model's choice
(log entry 31). -/
def readCommand (body : List Byte) : CommandFrame × Bool :=
  let n := body.length - 2
  let covered := body.take n
  let lengthByte := covered.getD 1 0
  let payload := covered.drop 2
  ({ node := (covered.getD 0 0).toNat / 16, tag := (covered.getD 0 0).setWidth 4,
     verb := lengthByte.toNat / 16, payload := payload },
   decide (4 ≤ body.length) && bytes16 (crc16 covered) == body.drop n
     && decide (lengthByte.toNat % 4 ≤ 2) && lengthByte.toNat % 4 == payload.length)

/-- Both groups at NONE (R60, R61, R64, R66). -/
def noSamples (x : SensingModule) : SensingModule := { x with cells := .none, aux := .none }

/-- The descriptor that the module reports (section 3.2). -/
def descriptorBytes (x : SensingModule) : List Byte :=
  [BitVec.ofNat 8 x.cellCount, BitVec.ofNat 8 x.tempCount, BitVec.ofNat 8 x.revision]

/-- The status of a read of a group: OK, NOT_READY or NOT_CONVERTED (R65). -/
def readStatus (pos now : Nat) : SampleState → Byte
  | .none => 2
  | .converted since => if since + Config.conversionMicros pos ≤ now then 0 else 1

/-- The payload of READ_CELLS: the count, a value per channel, the open-wire mask (R65, R221). -/
def cellPayload (pos since : Nat) (x : SensingModule) : List Byte :=
  BitVec.ofNat 8 x.cellCount :: (List.range x.cellCount).flatMap (fun c => bytes16 (Config.cellReading pos since c))
    ++ bytes16 (Config.openCells pos since)

/-- The payload of READ_AUX: the count, a value per channel, the open-wire mask, block and die (R65, R221). -/
def auxPayload (pos since : Nat) (x : SensingModule) : List Byte :=
  BitVec.ofNat 8 x.tempCount :: (List.range x.tempCount).flatMap (fun c => bytes16 (Config.tempReading pos since c))
    ++ [(Config.openTemps pos since).setWidth 8] ++ bytes16 (Config.blockReading pos since)
    ++ bytes16 (Config.dieReading pos since)

/-- The answer to a read of a group, from its sample state (R65). -/
def readAnswer (pos now : Nat) (g : SampleState) (payload : Nat → List Byte) : Byte × List Byte :=
  match g with
  | .none => (2, [])
  | .converted since => if readStatus pos now g = 0 then (0, payload since) else (1, [])

/-- What a module makes of a frame: its state afterwards, and its answer if it sends one. -/
abbrev ModuleResult := SensingModule × Option (Byte × List Byte)

/-- A frame that passes the check and is not accepted: BAD_VERB to a unicast, nothing to a broadcast (R60). -/
def notAccepted (f : CommandFrame) (x : SensingModule) : ModuleResult :=
  (x, if f.node = 15 then none else some (3, []))

/-- RELEASE_ALL (R61). -/
def takeRelease (x : SensingModule) : ModuleResult :=
  ({ noSamples x with number := 0, switches := 0, passOpen := false }, none)

/-- ASSIGN to node 0 (R62). A module that already has the number answers again and changes nothing. -/
def takeAssign (f : CommandFrame) (x : SensingModule) : ModuleResult :=
  match f.payload with
  | [n] =>
    if f.node ≠ 0 ∨ n.toNat = 0 ∨ 12 < n.toNat then notAccepted f x
    else if x.number = n.toNat then (x, some (0, descriptorBytes x))
    else ({ noSamples x with number := n.toNat, passOpen := true }, some (0, descriptorBytes x))
  | _ => notAccepted f x

/-- PING changes nothing (R63). -/
def takePing (f : CommandFrame) (x : SensingModule) : ModuleResult :=
  if f.node = 15 then notAccepted f x else (x, some (0, descriptorBytes x))

/-- CONVERT abandons what runs and starts the groups its what names (R64). -/
def takeConvert (now : Nat) (f : CommandFrame) (x : SensingModule) : ModuleResult :=
  match f.payload with
  | [w] =>
    match whatCode .cells == w || whatCode .both == w, whatCode .aux == w || whatCode .both == w with
    | false, false => notAccepted f x
    | c, a =>
      ({ x with cells := if c then .converted now else .none, aux := if a then .converted now else .none },
       if f.node = 15 then none else some (0, []))
  | _ => notAccepted f x

/-- BALANCE_SET: a broadcast opens every switch whatever its mask; a unicast sets the switches, unless it names a
channel the module has not (R66). -/
def takeBalanceSet (f : CommandFrame) (x : SensingModule) : ModuleResult :=
  match f.payload with
  | [hi, lo] =>
    if f.node = 15 then ({ noSamples x with switches := 0 }, none)
    else if (hi ++ lo : BitVec 16).toNat < 2 ^ x.cellCount then
      ({ noSamples x with switches := hi ++ lo }, some (0, []))
    else notAccepted f x
  | _ => notAccepted f x

/-- A frame taken by a module (R60 to R66). Where its payload has not the length of its verb, ASSIGN, CONVERT and
BALANCE_SET are not accepted, and RELEASE_ALL, PING and the reads are taken; so is a RELEASE_ALL with a unicast node: the
model's choices (log entry 24). -/
def acceptFrame (pos now : Nat) (f : CommandFrame) (x : SensingModule) : ModuleResult :=
  match f.verb with
  | 1 => takeRelease x
  | 2 => takeAssign f x
  | 3 => takePing f x
  | 4 => takeConvert now f x
  | 5 => if f.node = 15 then notAccepted f x else (x, some (readAnswer pos now x.cells fun t => cellPayload pos t x))
  | 6 => if f.node = 15 then notAccepted f x else (x, some (readAnswer pos now x.aux fun t => auxPayload pos t x))
  | 7 => takeBalanceSet f x
  | _ => notAccepted f x

/-- An ASSIGN to node 0 carrying the module's own number (R59, R62). -/
def ownAssign (f : CommandFrame) (x : SensingModule) : Bool :=
  f.node = 0 && f.verb = 2 && x.number != 0 && f.payload == [BitVec.ofNat 8 x.number]

/-- The module takes the frame (R59). -/
def takes (f : CommandFrame) (x : SensingModule) : Bool :=
  f.node = 15 || (f.node = x.number) || ownAssign f x

/-- A frame that fails its check: both groups NONE, and BAD_CHECK_SEEN if its node field names the module (R60). -/
def seeBadCheck (f : CommandFrame) (x : SensingModule) : ModuleResult :=
  (noSamples x, if f.node = x.number then some (4, []) else none)

/-- The module forwards the frame to the next one (R59, R62). -/
def forwards (f : CommandFrame) (good : Bool) (x : SensingModule) : Bool := x.passOpen && !(good && ownAssign f x)

/-- One frame at one module (R59, R60). -/
def moduleStep (pos now : Nat) (f : CommandFrame) (good : Bool) (x : SensingModule) : ModuleResult :=
  if good then (if takes f x then acceptFrame pos now f x else (x, none)) else seeBadCheck f x

/-- Bits of the lane changed by noise, byte by byte. -/
def withNoise : List Byte → List Byte → List Byte
  | b :: bs, n :: ns => (b ^^^ n) :: withNoise bs ns
  | bs, _ => bs

/-- A frame along the chain, nearest module first; `body` is the frame less its start marker as it leaves the module
before, and `noise` is what the lane does to it hop by hop. The answers are in the order of the chain (R59). -/
def deliver (now : Nat) : Nat → List Byte → List (List Byte) → List SensingModule →
    List SensingModule × List (List Byte)
  | _, _, _, [] => ([], [])
  | pos, body, noise, x :: xs =>
    let body := withNoise body (noise.headD [])
    let (f, good) := readCommand body
    let (x', answer) := moduleStep pos now f good x
    let frames := (answer.map fun a => responseBytes f.node f.tag a.1 a.2).toList
    if forwards f good x then
      let (xs', more) := deliver now (pos + 1) body noise.tail xs
      (x' :: xs', frames ++ more)
    else (x' :: xs, frames)

/-- The frame that has left the down lane reaches the chain. -/
def deliverFrame (bytes : List Byte) (noise : List (List Byte)) (s : State) : State :=
  let r := deliver s.chainTime 0 bytes.tail noise s.chain
  { s with chain := r.1, upLane := s.upLane ++ r.2 }

end Sys2Proof.Machine
end

