-- ==== Sys2Proof/Machine/LinkCommands.lean ====
section
/-! DEFINITION. Machine/LinkCommands.lean: grants, the down lane, the up lane, timeouts and re-sends (R56, R67 to R77,
R102). -/

namespace Sys2Proof.Machine

/-- GRANT (R102). -/
def execGrant (s : State) : Result := .next (awake takeGrant s)

/-- The response window of the slot whose frame has ended starts (R67, R76). -/
def startWindow (now : Nat) (x : TxnSlot) : TxnSlot :=
  if x.tag.isSome then { x with windowEnd := some (now + x.window) } else x

/-- The frame on the lane has ended: the idle starts, a gap after a broadcast, the window of a unicast, the release pause
after RELEASE_ALL, and the chain receives the frame (R56, R67, R68, R88). -/
def endTransmission (f : Sending) (noise : List (List Byte)) (s : State) : State :=
  let now := s.linkTime
  let slots := match f.slot with
    | some i => tput s.link.slots i ((tget s.link.slots i).map (startWindow now))
    | none => s.link.slots
  let gap := if f.broadcast then some (now + Config.broadcastGap) else s.link.gapUntil
  let s := { s with link := { s.link with
    sending := none, idleUntil := some (now + Config.laneIdle), gapUntil := gap, slots := slots } }
  let s := if f.release then s.setMap { s.map with pauseEnd := some (now + Config.releasePause) } else s
  deliverFrame f.bytes noise s

/-- The frame on the lane, if its last bit has left (R67). -/
def State.transmissionDue (s : State) : Option Sending := s.link.sending.filter fun f => f.endAt ≤ s.linkTime

/-- FRAME_TRANSMISSION_END (R67). -/
def execFrameTransmissionEnd (noise : List (List Byte)) (s : State) : Result :=
  .next (awake (fun s => match s.transmissionDue with
    | some f => endTransmission f noise s
    | none => s) s)

/-- LINK_IDLE_END (R56). -/
def execLinkIdleEnd (s : State) : Result :=
  .next (awake (fun s =>
    if s.passed s.link.idleUntil then { s with link := { s.link with idleUntil := none } } else s) s)

/-- BROADCAST_GAP_END (R68). -/
def execBroadcastGapEnd (s : State) : Result :=
  .next (awake (fun s =>
    if s.passed s.link.gapUntil then { s with link := { s.link with gapUntil := none } } else s) s)

/-- The held slot that a good frame completes: its tag is held and its node is the slot's (R73). -/
def matchSlot (l : Link) (f : ResponseFrame) : Option (Fin 4) :=
  (List.finRange 4).find? fun i => match tget l.slots i with
    | some x => x.tag == some f.tag && x.node == f.node
    | none => false

/-- A slot joins the re-send queue without a tag (R73, R76). -/
def joinResend (i : Fin 4) (x : TxnSlot) (s : State) : State :=
  let s := s.setSlot i (some { x with tag := none, windowEnd := none })
  { s with link := { s.link with resendQueue := s.link.resendQueue ++ [i] } }

/-- A good frame completes its slot (R73). -/
def completeSlot (first : TakenFirst) (i : Fin 4) (x : TxnSlot) (f : ResponseFrame) (s : State) : State :=
  if f.status = 4 then
    if x.attemptsUsed < x.attemptLimit then joinResend i x s
    else releaseSlot first i x .failed s
  else releaseSlot first i x (.answered f.status f.payload) s

/-- A good frame is matched, or late (R73, R74). -/
def takeResponse (first : TakenFirst) (f : ResponseFrame) (s : State) : State :=
  match matchSlot s.link f with
  | some i => match s.slot i with
    | some x => completeSlot first i x f s
    | none => s
  | none => { s with link := { s.link with late := countUp s.link.late } }

/-- A bad frame is counted and dropped (R72). -/
def countBad (s : State) : State := { s with link := { s.link with badCrc := countUp s.link.badCrc } }

/-- The frame at the head of the up lane is over. -/
def upLaneOver (s : State) : State := { s with upLane := s.upLane.tail }

/-- RESPONSE_ARRIVAL (R72 to R75). -/
def execResponseArrival (bytes : List Byte) (first : TakenFirst) (s : State) : Result :=
  .next (awake (fun s => match receive bytes with
    | .noFrame => s
    | .bad => countBad s
    | .good f => refreshItems (takeResponse first f s)) (upLaneOver s))

/-- The slot's window end has been reached (R76). -/
def State.timeoutDue (s : State) (i : Fin 4) : Option TxnSlot :=
  (s.slot i).filter fun x => s.passed x.windowEnd

/-- A timed-out slot gives up its tag to quarantine, and joins the re-send queue if it may be sent again (R71, R76). -/
def timeoutSlot (i : Fin 4) (x : TxnSlot) (s : State) : State :=
  let s := { s with link := { s.link with quarantine := s.link.quarantine ++ quarantineTag s.linkTime x } }
  let x := { x with tag := none, windowEnd := none }
  if x.attemptsUsed < x.attemptLimit then joinResend i x s else s.setSlot i (some x)

/-- A timeout: the slot is to be re-sent or is released FAILED (R76). -/
def takeTimeout (first : TakenFirst) (i : Fin 4) (x : TxnSlot) (s : State) : State :=
  let s := timeoutSlot i x s
  if x.attemptsUsed < x.attemptLimit then s
  else releaseSlot first i { x with tag := none, windowEnd := none } .failed s

/-- RESPONSE_TIMEOUT (R76). -/
def execResponseTimeout (i : Fin 4) (first : TakenFirst) (s : State) : Result :=
  .next (awake (fun s => match s.timeoutDue i with
    | some x => refreshItems (takeTimeout first i x s)
    | none => s) s)

/-- The re-send that is possible now: the lane is quiet, a slot waits, and a tag can be drawn (R77). -/
def State.resendDue (s : State) : Option (Fin 4 × TxnSlot × BitVec 4 × List (Fin 4)) :=
  if laneQuiet s.link then
    match s.link.resendQueue, drawTag s.link with
    | i :: rest, some t => (s.slot i).map fun x => (i, x, t, rest)
    | _, _ => none
  else none

/-- The re-send of a slot; its originator is told of the sending, and a pass takes it as its CONVERT's instant (R34,
R77). -/
def takeResend (s : State) : State :=
  match s.resendDue with
  | some (i, x, t, rest) =>
    let s := resendSlot i x t rest s
    match x.role, x.owner with
    | .convert, .pass u => convertSent u s
    | _, _ => s
  | none => s

/-- RESEND (R77). -/
def execResend (s : State) : Result := .next (awake takeResend s)

/-- The tag's quarantine has ended (R71). -/
def State.quarantineDue (s : State) (t : BitVec 4) : Bool :=
  s.link.quarantine.any fun q => q.tag == t && q.endAt ≤ s.linkTime

/-- QUARANTINE_END (R71). -/
def execQuarantineEnd (t : BitVec 4) (s : State) : Result :=
  .next (awake (fun s =>
    if s.quarantineDue t then
      { s with link := { s.link with quarantine := s.link.quarantine.filter fun q => q.tag != t } }
    else s) s)

/-- UP_LANE_FELL_IDLE: a frame cut short is counted and dropped (R72). -/
def execUpLaneFellIdle (s : State) : Result := .next (awake (fun s => countBad s) (upLaneOver s))

end Sys2Proof.Machine
end

