-- ==== Sys2Proof/Machine/PassCommands.lean ====
section
/-! DEFINITION. Machine/PassCommands.lean: the events of the Sweep Engine and of the passes (R33 to R36, R43 to R54). -/

namespace Sys2Proof.Machine

/-- VISIT_DECISION (R49): taken when the visit under the pointer waits and its module is free. -/
def execVisitDecision (s : State) : Result :=
  .next (awake (fun s => match s.visitDue with
    | some m => refreshItems (decideVisit m s)
    | none => s) s)

/-- The reserved aligned pass can be created: no other pass exists (R43). -/
def State.alignedDue (s : State) : Bool := s.reserved && !s.anyPass

/-- ALIGNED_PASS_CREATE (R43). -/
def execAlignedPassCreate (s : State) : Result :=
  .next (awake (fun s => if s.alignedDue then refreshItems (createAligned s) else s) s)

/-- A pass's timer is over. -/
def clearTimer (t : Target) (s : State) : State := updatePass t (fun p => { p with timer := none }) s

/-- SETTLE_EXPIRY (R33): the CONVERT is offered. -/
def execSettleExpiry (t : Target) (s : State) : Result :=
  .next (awake (fun s =>
    if s.timerDue t .settle then refreshItems (offer (.passStep t .convert) (clearTimer t s)) else s) s)

/-- CONVERSION_WAIT_EXPIRY (R34): the pass enters READING and offers its first read. -/
def execConversionWaitExpiry (m : Mod) (s : State) : Result :=
  .next (awake (fun s =>
    if s.timerDue (.one m) .conversion then refreshItems (beginReading (.one m) m s) else s) s)

/-- The read that is repeated: READ_CELLS until it has renewed, READ_AUX after (R35, R36). -/
def repeatedRead (p : Pass) (x : Part) : PassAct :=
  if p.what = .aux then .readAux else if x.cellRenewal = 0 then .readCells else .readAux

/-- The same read is offered again (R36). -/
def offerReread (t : Target) (s : State) : State :=
  match s.passOf t with
  | some p => match servedPart p with
    | some x => offer (.passStep t (repeatedRead p x)) (clearTimer t s)
    | none => s
  | none => s

/-- REREAD_WAIT_EXPIRY (R36). -/
def execRereadWaitExpiry (t : Target) (s : State) : Result :=
  .next (awake (fun s => if s.timerDue t .reread then refreshItems (offerReread t s) else s) s)

/-- ALIGNED_WAIT_EXPIRY (R45): the participants are served in ascending module number. -/
def execAlignedWaitExpiry (s : State) : Result :=
  .next (awake (fun s =>
    if s.timerDue .all .conversion then refreshItems (serveNext (clearTimer .all s)) else s) s)

/-- A period boundary has been reached (R48). -/
def State.boundaryDue (s : State) : Option Tick := s.sweep.nextBoundary.filter fun b => reached s.timebase b

/-- A period boundary: the next is set one SWEEP_PERIOD later; the boundary starts a sweep, or records a pending start
and an overrun (R48). -/
def takeBoundary (b : Tick) (s : State) : State :=
  let s := s.setSweep { s.sweep with nextBoundary := some (b + ticksOf (s.settings.sweepPeriod * 10)) }
  match s.sweep.state with
  | .waiting => startSweep s
  | .running =>
    { s.setSweep { s.sweep with pendingStart := true } with
      link := { s.link with overruns := countUp s.link.overruns } }
  | .halted => s

/-- PERIOD_BOUNDARY (R48). -/
def execPeriodBoundary (s : State) : Result :=
  .next (awake (fun s => match s.boundaryDue with
    | some b => refreshItems (takeBoundary b s)
    | none => s) s)

end Sys2Proof.Machine
end

