-- ==== Sys2Proof/Machine/TokenCommands.lean ====
section
/-! DEFINITION. Machine/TokenCommands.lean: the requests of the Settings Table and Token block and the lease expiry (R203
to R211). -/

namespace Sys2Proof.Machine

/-- The token is granted or renewed, its lease from now (R207). -/
def grantToken (p : Port) (seconds : Nat) (s : State) : State :=
  let s := { s with token := .held p seconds (leaseEndFrom s.timebase seconds) }
  answerLater p (okAnswer 0x60 [portCode p, byteOf seconds]) s

/-- A TAKE_TOKEN (R207). -/
def takeTakeToken (p : Port) (seconds : Nat) (s : State) : State :=
  if seconds = 0 ∨ 60 < seconds then answerLater p (refusal .badArgument 0x60) s
  else
    match s.token with
    | .free => grantToken p seconds s
    | .held q _ _ => if q = p then grantToken p seconds s else answerLater p (refusal .heldElsewhere 0x60) s

/-- TAKE_TOKEN (R207). -/
def execTakeToken (p : Port) (rest : List Byte) (s : State) : Result :=
  .next (takeFrame p 0x60 rest (fun a s => takeTakeToken p (arg8 a 0).toNat s) s)

/-- A DROP_TOKEN (R208). -/
def takeDropToken (p : Port) (s : State) : State :=
  if s.holds p then answerLater p (okAnswer 0x61 []) { s with token := .free }
  else answerLater p (refusal .noToken 0x61) s

/-- DROP_TOKEN (R208). -/
def execDropToken (p : Port) (rest : List Byte) (s : State) : Result :=
  .next (takeFrame p 0x61 rest (fun _ s => takeDropToken p s) s)

/-- The module that an index names, module 1 for the settings that have no index. -/
def indexModule (index : Nat) : Mod := (modOfNumber index).getD 0

/-- The answer to an accepted SET: the value as stored, and for a T setting the remaining lease (R204, R220). -/
def setAnswer (code index : Byte) (v : Int) (lease : Nat) : Answer :=
  okAnswer 0x62 ([code, index] ++ bytes32 (BitVec.ofInt 32 v) ++ word16 lease)

/-- A SET, its checks in the order of R203. -/
def takeSet (p : Port) (code index : Byte) (v : Int) (s : State) : State :=
  match settingOf code with
  | none => answerLater p (refusal .badArgument 0x62) s
  | some k =>
    if !setIndexGood k index.toNat || !settingInRange k v then answerLater p (refusal .badArgument 0x62) s
    else if perPort k then answerLater p (setAnswer code index v 0) (acceptPerPort p k v s)
    else if !s.holds p then answerLater p (refusal .noToken 0x62) s
    else
      let lease := remainingLease (restartLease s)
      answerLater p (setAnswer code index v lease) (refreshItems (acceptShared (indexModule index.toNat) k v s))

/-- SET (R203). -/
def execSet (p : Port) (rest : List Byte) (s : State) : Result :=
  .next (takeFrame p 0x62 rest (fun a s => takeSet p (arg8 a 0) (arg8 a 1) (arg32 a 2) s) s)

/-- The value that a GET returns; the index names the port of a per-port setting (R205). -/
def getValue (s : State) (k : SettingId) (index : Nat) : Int :=
  let q := s.queue (if index = 1 then .A else .B)
  match k with
  | .subscribe => q.subscribe.toNat
  | .alertMask => q.alertMask.toNat
  | _ => settingValue s.settings (indexModule index) k

/-- The GET answer (R205). -/
def getAnswer (s : State) (code index : Byte) : Answer :=
  match settingOf code with
  | none => refusal .badArgument 0x63
  | some k =>
    if getIndexGood k index.toNat then
      okAnswer 0x63 ([code, index] ++ bytes32 (BitVec.ofInt 32 (getValue s k index.toNat)))
    else refusal .badArgument 0x63

/-- GET (R205). -/
def execGet (p : Port) (rest : List Byte) (s : State) : Result :=
  .next (takeFrame p 0x63 rest (fun a s => answerLater p (getAnswer s (arg8 a 0) (arg8 a 1)) s) s)

/-- LEASE_EXPIRY (R211): taken when the timebase has reached the lease end. -/
def execLeaseExpiry (s : State) : Result := .next (awake (fun s => if s.leaseDue then lapseToken s else s) s)

end Sys2Proof.Machine
end

