-- ==== Sys2Proof/Machine/Idle.lean ====
section
/-! DEFINITION. Machine/Idle.lean: what the KC24 does of itself while no command waits: the events whose condition holds,
and otherwise one microsecond of link time (R56; log entry 2). -/

namespace Sys2Proof.Machine

/-- The command, if its condition holds. -/
def whenDue (c : Bool) (i : Instr) : Option Instr := if c then some i else none

/-- An answer is on its way to the port (R165). -/
def State.answerWaits (s : State) (p : Port) : Bool :=
  match (s.port p).slot with
  | .preparing _ _ => true
  | .ready _ => false

/-- The events that follow at once from earlier ones: answers, storings, decisions, receipts and sum checks (R121, R139,
R165, R187). -/
def followingEvents (s : State) : List (Option Instr) :=
  [whenDue (s.answerWaits .A) (.portReceivesAnswer .A),
   whenDue (s.answerWaits .B) (.portReceivesAnswer .B),
   whenDue (!s.raised.a.isEmpty) (.eventStore .A),
   whenDue (!s.raised.b.isEmpty) (.eventStore .B),
   s.balance.handoffs.head?.map .balanceDecision,
   s.limits.work.head?.map fun w => match w with
     | .receipt _ _ _ => .receiptEvent
     | .sumCheck _ _ _ => .sumCheckEvent]

/-- In which order its two takers have the outcome of a slot's timeout, the manual leaving it open (R75; log entry
10). -/
def State.openOrder (s : State) (i : Fin 4) : TakenFirst :=
  match Config.outcomeOrder s.chainTime i.val with
  | 0 => .originator
  | 1 => .chainMap
  | 2 => .originatorAndGrant

/-- The events of the chain link in link time (R56, R67, R68, R71, R76, R77). -/
def linkEvents (s : State) : List (Option Instr) :=
  [s.transmissionDue.map fun _ => .frameTransmissionEnd (Config.laneNoise s.chainTime),
   whenDue (s.passed s.link.idleUntil) .linkIdleEnd,
   whenDue (s.passed s.link.gapUntil) .broadcastGapEnd,
   (s.link.quarantine.find? fun q => q.endAt ≤ s.linkTime).map fun q => .quarantineEnd q.tag]
    ++ (List.finRange 4).map (fun i => (s.timeoutDue i).map fun _ => .responseTimeout i (s.openOrder i))
    ++ [s.resendDue.map fun _ => .resend]

/-- The timers of one pass (R33, R34, R36, R45). -/
def passTimers (s : State) : List (Option Instr) :=
  (allMods.map fun m => whenDue (s.timerDue (.one m) .settle) (.settleExpiry (.one m)))
    ++ (allMods.map fun m => whenDue (s.timerDue (.one m) .conversion) (.conversionWaitExpiry m))
    ++ (allMods.map fun m => whenDue (s.timerDue (.one m) .reread) (.rereadWaitExpiry (.one m)))
    ++ [whenDue (s.timerDue .all .settle) (.settleExpiry .all),
        whenDue (s.timerDue .all .conversion) .alignedWaitExpiry,
        whenDue (s.timerDue .all .reread) (.rereadWaitExpiry .all)]

/-- The timers of the other blocks (R20, R48, R88, R95, R151, R154, R211). -/
def blockTimers (s : State) : List (Option Instr) :=
  [whenDue (s.passed s.map.pauseEnd) .releasePauseExpiry,
   whenDue s.retryExpired .downRetryExpiry,
   whenDue s.leaseDue .leaseExpiry]
    ++ (allMods.map fun m => whenDue (s.requestsDue m) (.requestExpiry m))
    ++ ([DeadlineKind.cells, .block, .slow].flatMap fun k =>
        allMods.map fun m => whenDue (s.deadlineDue m k) (.deadlineExpiry m k))
    ++ [s.boundaryDue.map fun _ => .periodBoundary, whenDue s.onTimerDue .onTimeTimerExpiry]

/-- What the Sweep Engine, the Directed Measurement Unit and the Chain Scheduler can take now (R43, R49, R102, R112). -/
def readyWork (s : State) : List (Option Instr) :=
  [s.visitDue.map fun _ => .visitDecision,
   (s.directedDue .A).map fun _ => .directedPassCreate .A,
   (s.directedDue .B).map fun _ => .directedPassCreate .B,
   whenDue s.alignedDue .alignedPassCreate,
   s.grantDue.map fun _ => .grant]

/-- The part's own event that is taken now, if one can be; none in device reset (log entry 2). -/
def State.ownEvent (s : State) : Option Instr :=
  if s.inReset then none
  else (followingEvents s ++ linkEvents s ++ passTimers s ++ blockTimers s ++ readyWork s).findSome? id

/-- One microsecond of link time; device reset holds it (R6, R56). -/
def advanceTime (s : State) : State := if s.inReset then s else { s with linkTime := s.linkTime + 1 }

end Sys2Proof.Machine
end

