-- ==== Sys2Proof/Machine/Dispatch.lean ====
section
/-! DEFINITION. Machine/Dispatch.lean: the meaning of each command, one arm per constructor. -/

namespace Sys2Proof.Machine

/-- The effect of a command on everything but the queue. -/
def exec (i : Instr) (s : State) : Host.Outcome State Fault Refusal :=
  match i with
  | .deviceReset => Sys2Proof.Machine.execDeviceReset s
  | .resetRelease => Sys2Proof.Machine.execResetRelease s
  | .frameStart p => Sys2Proof.Machine.execFrameStart p s
  | .frameEmpty p => Sys2Proof.Machine.execFrameEmpty p s
  | .frameDiscarded p => Sys2Proof.Machine.execFrameDiscarded p s
  | .unknownRequest p code => Sys2Proof.Machine.execUnknownRequest p code s
  | .nop p rest => Sys2Proof.Machine.execNop p rest s
  | .ident p rest => Sys2Proof.Machine.execIdent p rest s
  | .status p rest => Sys2Proof.Machine.execStatus p rest s
  | .sessionReset p rest => Sys2Proof.Machine.execSessionReset p rest s
  | .readEntry p rest => Sys2Proof.Machine.execReadEntry p rest s
  | .latch p rest => Sys2Proof.Machine.execLatch p rest s
  | .readHold p rest => Sys2Proof.Machine.execReadHold p rest s
  | .direct p rest => Sys2Proof.Machine.execDirect p rest s
  | .cancel p rest => Sys2Proof.Machine.execCancel p rest s
  | .balance p rest => Sys2Proof.Machine.execBalance p rest s
  | .unbalance p rest => Sys2Proof.Machine.execUnbalance p rest s
  | .inhibit p rest => Sys2Proof.Machine.execInhibit p rest s
  | .uninhibit p rest => Sys2Proof.Machine.execUninhibit p rest s
  | .readBalance p rest => Sys2Proof.Machine.execReadBalance p rest s
  | .clearBalanceTime p rest => Sys2Proof.Machine.execClearBalanceTime p rest s
  | .popEvents p rest => Sys2Proof.Machine.execPopEvents p rest s
  | .eventCount p rest => Sys2Proof.Machine.execEventCount p rest s
  | .takeToken p rest => Sys2Proof.Machine.execTakeToken p rest s
  | .dropToken p rest => Sys2Proof.Machine.execDropToken p rest s
  | .set p rest => Sys2Proof.Machine.execSet p rest s
  | .get p rest => Sys2Proof.Machine.execGet p rest s
  | .chainRestart p rest => Sys2Proof.Machine.execChainRestart p rest s
  | .readMap p rest => Sys2Proof.Machine.execReadMap p rest s
  | .grant => Sys2Proof.Machine.execGrant s
  | .frameTransmissionEnd noise => Sys2Proof.Machine.execFrameTransmissionEnd noise s
  | .linkIdleEnd => Sys2Proof.Machine.execLinkIdleEnd s
  | .broadcastGapEnd => Sys2Proof.Machine.execBroadcastGapEnd s
  | .responseArrival bytes first => Sys2Proof.Machine.execResponseArrival bytes first s
  | .responseTimeout slot first => Sys2Proof.Machine.execResponseTimeout slot first s
  | .resend => Sys2Proof.Machine.execResend s
  | .quarantineEnd tag => Sys2Proof.Machine.execQuarantineEnd tag s
  | .releasePauseExpiry => Sys2Proof.Machine.execReleasePauseExpiry s
  | .downRetryExpiry => Sys2Proof.Machine.execDownRetryExpiry s
  | .deadlineExpiry m k => Sys2Proof.Machine.execDeadlineExpiry m k s
  | .visitDecision => Sys2Proof.Machine.execVisitDecision s
  | .directedPassCreate p => Sys2Proof.Machine.execDirectedPassCreate p s
  | .alignedPassCreate => Sys2Proof.Machine.execAlignedPassCreate s
  | .settleExpiry t => Sys2Proof.Machine.execSettleExpiry t s
  | .conversionWaitExpiry m => Sys2Proof.Machine.execConversionWaitExpiry m s
  | .rereadWaitExpiry t => Sys2Proof.Machine.execRereadWaitExpiry t s
  | .alignedWaitExpiry => Sys2Proof.Machine.execAlignedWaitExpiry s
  | .periodBoundary => Sys2Proof.Machine.execPeriodBoundary s
  | .receiptEvent => Sys2Proof.Machine.execReceiptEvent s
  | .sumCheckEvent => Sys2Proof.Machine.execSumCheckEvent s
  | .balanceDecision m => Sys2Proof.Machine.execBalanceDecision m s
  | .requestExpiry m => Sys2Proof.Machine.execRequestExpiry m s
  | .onTimeTimerExpiry => Sys2Proof.Machine.execOnTimeTimerExpiry s
  | .eventStore p => Sys2Proof.Machine.execEventStore p s
  | .leaseExpiry => Sys2Proof.Machine.execLeaseExpiry s
  | .portReceivesAnswer p => Sys2Proof.Machine.execPortReceivesAnswer p s
  | .upLaneFellIdle => Sys2Proof.Machine.execUpLaneFellIdle s

end Sys2Proof.Machine
end

