-- ==== Sys2Proof/Machine/Step.lean ====
section
/-! DEFINITION. Machine/Step.lean: one step: the command at the front of the queue, or what the part does of itself. -/

namespace Sys2Proof.Machine

/-- Nothing is commanded: the part takes an event of its own that is due, or a microsecond passes (log entry 2). -/
def idleStep (s : State) : Host.Outcome State Fault Refusal :=
  match s.ownEvent with
  | some i => exec i s
  | none => .next (advanceTime s)

/-- One step of the KC24. -/
def step (s : State) : Host.Outcome State Fault Refusal :=
  match s.pending with
  | i :: rest => exec i { s with pending := rest }
  | [] => idleStep s

/-- The command that a table word spells, put at the front of the queue. The table gives no row any bits, so no word
spells one (log entry 3). -/
def State.withFetchWord (s : State) (nbits w : Nat) : State :=
  match decodeTableWord nbits w with
  | some i => { s with pending := i :: s.pending }
  | none => s

end Sys2Proof.Machine
end

