-- ==== Sys2Proof/WellFormed.lean ====
section
/-! DEFINITION. WellFormed.lean: the commands that the outside can send. Any bytes can stand in a host frame, so
only three commands have an operand that can be ill-formed. `exec` is total and gives the ill-formed ones a meaning
too. -/

namespace Sys2Proof

/-- An up-lane frame that arrives whole begins with its start marker and ends where its length says (R72, R221). -/
def wholeResponse (bytes : List Byte) : Bool :=
  match bytes with
  | start :: _ :: _ :: len :: rest =>
    start == 0x6A#8 && (Config.longestPayload < len.toNat || rest.length == len.toNat + 2)
  | _ => false

/-- The operands of a command are ones the outside can produce. -/
def Instr.wellFormed : Instr → Bool
  | .unknownRequest _ code => !requestCodes.contains code
  | .frameTransmissionEnd noise => noise.all fun hop => hop.length ≤ 6
  | .responseArrival bytes _ => wholeResponse bytes
  | _ => true

end Sys2Proof
end

