-- ==== Sys2Proof/Safety.lean ====
section
/-! DEFINITION. Safety.lean: the terms that claims use: the frames a host sends, the state that a request leaves at its
port, and the conditions that the manual says always hold. -/

namespace Sys2Proof

/-- The port, the code and the bytes after the code of a request command (R217). -/
def Instr.request : Instr → Option (Port × Byte × List Byte)
  | .nop p r => some (p, 0x10, r)
  | .ident p r => some (p, 0x11, r)
  | .status p r => some (p, 0x12, r)
  | .sessionReset p r => some (p, 0x13, r)
  | .readEntry p r => some (p, 0x20, r)
  | .latch p r => some (p, 0x21, r)
  | .readHold p r => some (p, 0x22, r)
  | .direct p r => some (p, 0x30, r)
  | .cancel p r => some (p, 0x31, r)
  | .balance p r => some (p, 0x40, r)
  | .unbalance p r => some (p, 0x41, r)
  | .inhibit p r => some (p, 0x42, r)
  | .uninhibit p r => some (p, 0x43, r)
  | .readBalance p r => some (p, 0x44, r)
  | .clearBalanceTime p r => some (p, 0x45, r)
  | .popEvents p r => some (p, 0x50, r)
  | .eventCount p r => some (p, 0x51, r)
  | .takeToken p r => some (p, 0x60, r)
  | .dropToken p r => some (p, 0x61, r)
  | .set p r => some (p, 0x62, r)
  | .get p r => some (p, 0x63, r)
  | .chainRestart p r => some (p, 0x70, r)
  | .readMap p r => some (p, 0x71, r)
  | _ => none

namespace Machine

/-! ## Frames -/

/-- What follows the code byte of a good frame: the arguments, their CRC-8 and any fill (R160, R164). -/
def goodRest (code : Byte) (args fill : List Byte) : List Byte := requestRest code args ++ fill

/-- A frame runs that clocks out an answer, the part is out of reset and the slot is READY: at its end the frame's bytes
are looked at (R160, R161, R166). -/
def State.frameEnding (s : State) (p : Port) : Bool :=
  !s.inReset && (match (s.port p).frame with
    | .running _ notReady => !notReady
    | _ => false)
  && (match (s.port p).slot with
    | .ready _ => true
    | .preparing _ _ => false)

/-- The request's frame has ended and its slot stands as given; nothing else of the port has changed. -/
def State.answered (p : Port) (slot : ResponseSlot) (s : State) : State :=
  s.setPort p { s.port p with frame := .idle, slot := slot }

/-- The slot that waits for the answer of a block (R165). -/
def waitsFor (a : Answer) : ResponseSlot := .preparing a.echo a

/-! ## Event queues (R188 to R194) -/

/-- A queue is as R189, R190, R194 and R220 have it; the line is released during device reset (R182). -/
structure QueueGood (inReset : Bool) (q : EventQueue) : Prop where
  size : q.records.length ≤ 32
  reserve : hasOverflow q = false → q.records.length ≤ 31
  newest : ∀ r ∈ q.records.dropLast, isOverflow r = false
  numbers : ∀ r ∈ q.records, 1 ≤ r.seq ∧ r.seq ≤ 65535
  next : 1 ≤ q.nextSeq ∧ q.nextSeq ≤ 65535
  subscribe : q.subscribe &&& ~~~everyKind = 0
  alertMask : q.alertMask &&& ~~~everyKind = 0
  line : q.alert = (!inReset && q.records.any (alerts q.alertMask))

/-- Both queues are good. -/
def QueueInv (s : State) : Prop := ∀ p, QueueGood s.inReset (s.queue p)

/-! ## Settings (R199, R200) -/

/-- Every shared setting holds a value in its range. -/
def SettingsInv (s : State) : Prop := ∀ m k, settingInRange k (settingValue s.settings m k) = true

/-! ## Tickets (R109) -/

/-- A port holds at most four live tickets, and their ids differ. -/
def TicketInv (s : State) : Prop :=
  ∀ p, (s.ticketQueue p).tickets.length ≤ 4 ∧ ((s.ticketQueue p).tickets.map (·.id)).Nodup

/-! ## Hold buffers (R25, R171) -/

/-- A hold buffer keeps at most 32 copies in ascending index order, and a header exactly when it keeps a copy. -/
structure HoldGood (h : HoldBuffer) : Prop where
  size : h.copies.length ≤ 32
  header : h.header = none ↔ h.copies = []
  ascending : h.copies.Pairwise fun x y => entryIndex x.module x.chan < entryIndex y.module y.chan

/-- Both hold buffers are good. -/
def HoldInv (s : State) : Prop := ∀ p, HoldGood (s.port p).hold

/-! ## Chain link (R69 to R71, R76, R77) -/

/-- The tags and the attempts of the outstanding-transaction table. -/
structure LinkGood (l : Link) : Prop where
  /-- No two held slots hold one tag (R70). -/
  tags : ∀ i j x y t, tget l.slots i = some x → tget l.slots j = some y → x.tag = some t → y.tag = some t → i = j
  /-- A tag in quarantine is held by no slot (R71). -/
  apart : ∀ i x t, tget l.slots i = some x → x.tag = some t → t ∉ l.quarantine.map (·.tag)
  /-- A tag stands in quarantine at most once (R71). -/
  once : (l.quarantine.map (·.tag)).Nodup
  /-- No slot is used beyond its attempt limit (R76, R77). -/
  attempts : ∀ i x, tget l.slots i = some x → 1 ≤ x.attemptsUsed ∧ x.attemptsUsed ≤ x.attemptLimit
  /-- Only a slot with a tag has a response window running (R76). -/
  window : ∀ i x, tget l.slots i = some x → x.tag = none → x.windowEnd = none
  /-- A slot waits for its re-send at most once, and without a tag (R77). -/
  queueOnce : l.resendQueue.Nodup
  waiting : ∀ i ∈ l.resendQueue, ∀ x, tget l.slots i = some x → x.tag = none ∧ x.attemptsUsed < x.attemptLimit

/-- The outstanding-transaction table is good. -/
def LinkInv (s : State) : Prop := LinkGood s.link

/-! ## Pack Image (R2 to R4, R7, R119) -/

/-- The range of a stored value (R2). -/
def valueInRange (ch : Chan) (v : Int) : Prop :=
  match ch with
  | .cell _ | .block => 0 ≤ v ∧ v ≤ 65535
  | .temp _ | .die => -400 ≤ v ∧ v ≤ 1500

/-- An entry is as R2, R3, R4 and R119 have it. -/
structure EntryGood (ch : Chan) (e : Entry) : Prop where
  cause : e.cause.isSome ↔ e.quality = .faulted
  unpopulated : e.quality = .unpopulated → e.renewal = 0
  instant : e.instant = none ↔ e.renewal = 0
  source : e.source = none ↔ e.renewal = 0
  never : e.renewal = 0 → e.balanced = false ∧ e.value = 0 ∧ e.quality ≠ .fresh ∧ e.quality ≠ .stale
  value : valueInRange ch e.value
  openWire : e.cause = some .sensorOpen → e.renewal ≠ 0 ∧ ch ≠ .block ∧ ch ≠ .die
  block : ch = .block → e.limit = .within ∧ e.streak = 0
  die : ch = .die → e.limit ≠ .low ∧ e.side ≠ .low
  streak : e.streak ≤ 8
  side : e.side = .none ↔ e.limit ≠ .within ∨ e.streak = 0

/-- Every setting is in range, and every entry is good. STREAK_LIMIT bounds the streaks. -/
structure ImageInv (s : State) : Prop where
  settings : SettingsInv s
  entries : ∀ m ch, EntryGood ch (chanEntry (s.moduleImage m) ch)

/-! ## Balance table (R136, R141) -/

/-- A module's balance table is as its latest decision left it. -/
structure BalanceGood (b : BalanceModule) : Prop where
  decided : b.decided = maskOf fun c => switchedOn (tget b.cells c).state
  idle : ∀ c, (tget b.cells c).state = .idle ↔ requested (tget b.cells c) = false
  held : ∀ c, (tget b.cells c).state = .held → b.hold = true
  on : ∀ c, (tget b.cells c).state = .on → b.hold = false

/-- Every module's balance table is good. -/
def BalanceInv (s : State) : Prop := ∀ m, BalanceGood (s.balanceOf m)

/-! ## Passes (R29, R43) -/

/-- At most one pass concerns a module: a single-module pass has its module as its one part, and an aligned pass stands
alone, with participants in ascending order. -/
structure PassInv (s : State) : Prop where
  single : ∀ m p, s.passOf (.one m) = some p → p.parts.map (·.module) = [m]
  aligned : ∀ p, s.passOf .all = some p → p.parts ≠ [] ∧ (p.parts.map (·.module)).Pairwise (· < ·)
  alone : ∀ m, (s.passOf .all).isSome → s.passOf (.one m) = none

/-- The ticket of the port rides on the pass: it is the one it was created for or one that joined (R114). -/
def ridesOn (p : Pass) (q : Port) (k : Ticket) : Bool := (p.owner.toList ++ p.joined).contains { port := q, id := k.id }

/-- The report of a ticket for a module whose pass stored these renewal numbers, 0 for none (R114). -/
def ticketReport (now : Tick) (m : Mod) (cells aux : BitVec 32) (k : Ticket) : Event :=
  let named := match k.what with
    | .cells => [cells]
    | .aux => [aux]
    | .both => [cells, aux]
  { kind := .directedDone, time := now, module := some m, ticket := some k.id,
    value := some ((named.map BitVec.toNat).foldl max 0),
    cause := some (if (0 : BitVec 32) ∈ named then .aborted else .done) }

/-- From `s` to `t` the single-module pass `p` of a module has ended, with these renewal numbers stored, while no ticket
was QUEUED: its record is gone and no other, its tickets have left their queues and are reported, and the visit it was made
for is over (R38, R53, R114). -/
structure PassEnded (m : Mod) (p : Pass) (cells aux : BitVec 32) (s t : State) : Prop where
  passes : ∀ u, t.passOf u = if u = .one m then none else s.passOf u
  tickets : ∀ q, t.ticketQueue q =
    { s.ticketQueue q with tickets := (s.ticketQueue q).tickets.filter fun k => !ridesOn p q k }
  reports : ∀ q, ∀ k ∈ (s.ticketQueue q).tickets, ridesOn p q k = true → k.module = m →
    ∃ es ∈ t.raised.get q, ticketReport s.timebase m cells aux k ∈ es
  others : p.origin = .directedA ∨ p.origin = .directedB → t.sweep = s.sweep
  nextVisit : p.origin = .sweepRolling → s.sweep.visit = .passing → s.sweep.pointer < s.map.n →
    t.sweep = { s.sweep with pointer := s.sweep.pointer + 1, visit := .deciding }
  lastVisit : p.origin = .sweepRolling → s.sweep.visit = .passing → s.map.n ≤ s.sweep.pointer →
    s.sweep.pendingStart = false → t.sweep = { s.sweep with state := .waiting, pointer := 1, visit := .idle }

/-- No ticket of either port waits for a pass (R110). -/
def NoTicketWaits (s : State) : Prop := ∀ q, ∀ k ∈ (s.ticketQueue q).tickets, k.state ≠ .queued

/-- From `s` to `t` the part of a module in the aligned pass `p` has ended with an outcome, while no ticket was QUEUED. The
part is DONE. The next waiting part, if there is one, is read; after the last the pass has ended: its tickets have left
their queues and are reported from the parts of their modules, and the sweep has ended with it unless a recovery PING of
the sweep is still out (R45, R46, R54, R114). -/
structure AlignedPartEnded (m : Mod) (o : PassOutcome) (p : Pass) (s t : State) : Prop where
  next : ∀ z, (p.parts.find? fun y => y.module ≠ m ∧ y.step = .waiting) = some z →
    t.aligned = some { p with
      step := .reading, timer := none,
      parts := p.parts.map fun y =>
        if y.module = m then { y with step := .done, outcome := some (y.outcome.getD o) }
        else if y.module = z.module then { y with step := .reading } else y }
    ∧ .passStep .all (if p.what = .aux then .readAux else .readCells) ∈ t.sched.items.map (·.kind)
    ∧ t.sweep = s.sweep ∧ t.tickets = s.tickets
  last : (∀ y ∈ p.parts, y.module ≠ m → y.step ≠ .waiting) →
    (∀ u, t.passOf u = if u = .all then none else s.passOf u)
    ∧ (∀ q, t.ticketQueue q =
      { s.ticketQueue q with tickets := (s.ticketQueue q).tickets.filter fun k => !ridesOn p q k })
    ∧ (∀ q, ∀ k ∈ (s.ticketQueue q).tickets, ridesOn p q k = true →
      ∀ y, (p.parts.find? fun y => y.module = k.module) = some y →
        ∃ es ∈ t.raised.get q, ticketReport s.timebase k.module y.cellRenewal y.auxRenewal k ∈ es)
    ∧ (p.origin = .sweepAligned → s.sweep.state = .running → s.sweep.mode = .aligned →
      let ended : Sweep := { s.sweep with
        alignedOpen := false, alignedAux := if p.what = .both then 0 else s.sweep.alignedAux }
      (s.sweep.pings ≠ [] → t.sweep = ended)
      ∧ (s.sweep.pings = [] → s.sweep.pendingStart = false →
        t.sweep = { ended with state := .waiting, pointer := 1, visit := .idle }))

/-! ## Records that a block raises (R187) -/

/-- The records that a block raises to a port in one event wait there as one storing event; no records, none. -/
def storing (es : List Event) : List (List Event) := if es = [] then [] else [es]

/-- The GROUP_STALE of one event of the Image about a module: one for each deadline set of which some channel is listed,
with the first listed (R12, R20). -/
def staleRecords (now : Tick) (m : Mod) (gone : List Chan) : List Event :=
  [DeadlineKind.cells, .slow, .block].flatMap fun k => ((gone.filter fun ch => deadlineOf ch = k).take 1).map fun ch =>
    { kind := .groupStale, time := now, module := some m, entry := some (m, ch) }

/-- The records of a group renewal, from the module's entries before to those after: SENSOR_OPEN for each entry that has
become FAULTED (SENSOR_OPEN), ascending; GROUP_RECOVERED with the lowest entry that is FRESH again; GROUP_STALE for the
deadline sets that have gone STALE (R12). -/
def renewalRecords (now : Tick) (m : Mod) (before after : ModuleImage) : List Event :=
  let record (k : EventKind) (ch : Chan) : Event := { kind := k, time := now, module := some m, entry := some (m, ch) }
  let wireOpen (x : ModuleImage) (ch : Chan) : Bool :=
    decide ((chanEntry x ch).quality = .faulted ∧ (chanEntry x ch).cause = some .sensorOpen)
  let returned (ch : Chan) : Bool := decide ((chanEntry after ch).quality = .fresh
    ∧ ((chanEntry before ch).quality = .stale ∨ (chanEntry before ch).quality = .faulted
      ∨ (chanEntry before ch).quality = .pending ∧ (chanEntry before ch).renewal ≠ 0))
  (allChans.filter fun ch => wireOpen after ch && !wireOpen before ch).map (record .sensorOpen)
    ++ ((allChans.filter returned).take 1).map (record .groupRecovered)
    ++ staleRecords now m (allChans.filter fun ch =>
      decide ((chanEntry after ch).quality = .stale ∧ (chanEntry before ch).quality ≠ .stale))

/-- The records that one event of the Balance Controller raises to a port about a module, from its table before to that
after: BALANCE_ENDED for the requests of the port that have ended, where the event names a cause for it; then, for each
block cause in order of precedence, BALANCE_BLOCKED for the cells that the port requests and that have become BLOCKED with
it, or are so and have become the port's (R142, R156). -/
def balanceRecords (now : Tick) (m : Mod) (p : Port) (ended : Option EventCause) (before after : BalanceModule) :
    List Event :=
  let asked (b : BalanceModule) (c : Fin 16) : Bool := ((tget b.cells c).request.get p).isSome
  let blocked (b : BalanceModule) (c : Fin 16) : Bool := match (tget b.cells c).state with
    | .blocked _ => true
    | _ => false
  let record (k : EventKind) (cause : EventCause) (cells : Fin 16 → Bool) : List Event :=
    if (List.finRange 16).any cells then
      [{ kind := k, time := now, module := some m, value := some (maskOf cells).toNat, cause := some cause }]
    else []
  (match ended with
    | some cause => record .balanceEnded cause fun c => asked before c && !asked after c
    | none => [])
  ++ [BlockCause.inhibited, .moduleDown, .moduleHot, .sum, .data, .cellLow].flatMap fun k =>
    record .balanceBlocked (.blocked k) fun c =>
      decide ((tget after.cells c).state = .blocked k) && asked after c && !(blocked before c && asked before c)

/-- The DIRECTED_DONE (RESTART) of a chain restart to a port: one for each of its tickets, in the order of their creation,
with the highest renewal number that the ticket's groups have in the pass it rode on (R114, R116). -/
def ticketRestarts (p : Port) (s : State) : List Event :=
  (s.ticketQueue p).tickets.map fun k =>
    let part : Option Part := (match k.state with
      | .queued => none
      | .joined u => s.passOf u
      | .running u => s.passOf u).bind fun x => x.parts.find? fun y => y.module = k.module
    { ticketReport s.timebase k.module ((part.map (·.cellRenewal)).getD 0) ((part.map (·.auxRenewal)).getD 0) k with
      cause := some .restart }

/-- The BALANCE_ENDED (RESTART) of a chain restart to a port, in ascending module order (R156, R157). -/
def requestRestarts (p : Port) (s : State) : List Event :=
  (List.finRange 12).flatMap fun m =>
    let asked (c : Fin 16) : Bool := ((tget (s.balanceOf m).cells c).request.get p).isSome
    if (List.finRange 16).any asked then
      [{ kind := .balanceEnded, time := s.timebase, module := some m, value := some (maskOf asked).toNat,
         cause := some .restart }]
    else []

/-! ## Enumeration (R15, R91) -/

/-- From `s` to `t` an enumeration has ended for a reason, with the N it had found. -/
structure EnumerationEnded (reason : EndReason) (s t : State) : Prop where
  map : t.map = { s.map with
    state := if s.map.n = 0 then .down else .running
    records := tmap s.map.records fun m r => if modNumber m ≤ s.map.n then r
      else { r with state := .absent, failures := 0, cellCount := 0, tempCount := 0, revision := 0 }
    endReason := some reason
    endInstant := some s.timebase
    nextNumber := 0
    retryDue := if s.map.n = 0 ∧ s.settings.autoRestart = true then some (s.timebase + 10000) else s.map.retryDue }
  entries : ∀ m ch,
    let e := chanEntry (s.moduleImage m) ch
    let qualifies : Bool := modNumber m ≤ s.map.n && match ch with
      | .cell c => decide (c.val < (s.record m).cellCount) && inMask (tget s.settings.populationMask m) c
      | .temp c => decide (c.val < (s.record m).tempCount)
      | _ => true
    chanEntry (t.moduleImage m) ch =
      if qualifies = true then
        if e.quality = .unpopulated ∨ e.quality = .faulted ∧ e.cause = some .restart
        then { e with quality := .pending, cause := none } else e
      else clearedEntry
  events : s.map.n ≠ 0 → ∀ q, ∃ es ∈ t.raised.get q,
    es = { kind := .chainReady, time := s.timebase, value := some s.map.n }
      :: ((if reason = .tooLong then
            [{ kind := .chainCountMismatch, time := s.timebase, value := some s.map.n, cause := some .tooLong }]
          else [])
        ++ if s.settings.expectedModules ≠ 0 ∧ s.settings.expectedModules ≠ s.map.n then
            [{ kind := .chainCountMismatch, time := s.timebase, value := some s.map.n, cause := some .expected }]
          else [])
  noSweep : s.map.n = 0 → t.sweep = s.sweep
  firstSweep : s.map.n ≠ 0 →
    t.sweep.nextBoundary = some (s.timebase + BitVec.ofNat 32 (s.settings.sweepPeriod * 10))
    ∧ t.sweep.state = .running ∧ t.sweep.mode = s.settings.sweepMode ∧ t.sweep.pointer = 1
    ∧ t.sweep.visit = if s.settings.sweepMode = .rolling then .deciding else .idle
  sums : ∀ m, tget t.limits.sums m = if modNumber m ≤ s.map.n then tget s.limits.sums m else .clear
  handedOff : ∀ m, s.map.n < modNumber m → tget s.limits.sums m = .mismatch → m ∈ t.balance.handoffs

/-! ## Sweep and chain (R47, R49, R82) -/

/-- The sweep state and pointer agree with the chain state and N. -/
structure SweepInv (s : State) : Prop where
  count : s.map.n ≤ 12
  running : s.map.state = .running → 1 ≤ s.map.n
  down : s.map.state = .down → s.map.n = 0
  halted : s.sweep.state = .halted ↔ s.map.state ≠ .running
  pointerHalted : s.sweep.state = .halted → s.sweep.pointer = 0
  pointerWaiting : s.sweep.state = .waiting → s.sweep.pointer = 1
  pointerRunning : s.sweep.state = .running → 1 ≤ s.sweep.pointer ∧ s.sweep.pointer ≤ s.map.n
  visit : s.sweep.visit ≠ .idle → s.sweep.state = .running ∧ s.sweep.mode = .rolling
  pointerAligned : s.sweep.state = .running → s.sweep.mode = .aligned → s.sweep.pointer = 1

end Machine

end Sys2Proof
end

