-- ==== Sys2Proof/Certificates/Slice0/Obligations.lean ====
section
/-! DEFINITION. Certificates/Slice0/Obligations.lean: what is claimed of the model, for the provers. A claim about a
request takes the end of a good frame that clocked out an answer (`State.frameEnding`), with any arguments and any fill;
claims about frames that fail a check, are discarded or are not begun by FRAME_START stand beside them. A block takes
the request that it answers in the step of the frame's end, and the answer waits in the slot (`waitsFor`): log entry 18.
An equation `t = { s with f := t.f, … }` says that only the fields it lists may differ. -/

open Sys2Proof Sys2Proof.Machine

/-! ## The queue of commands and the reset -/

/-- A step takes the command at the front of the queue, with the queue's rest. The queue of commands is the model's
choice: log entry 1. -/
def Obligations.StepTakesTheFrontCommand : Prop :=
  ∀ (c : Instr) (rest : List Instr) (s : State),
    step { s with pending := c :: rest } = exec c { s with pending := rest }

/-- With no command waiting the part takes an event of its own, or a microsecond passes; device reset holds link time.
This is the model's choice: log entry 2. -/
def Obligations.IdleStepLetsTimePass : Prop :=
  ∀ s : State, s.pending = [] →
    (∀ i, s.ownEvent = some i → step s = exec i s)
    ∧ (s.inReset = false → s.ownEvent = none → step s = .next { s with linkTime := s.linkTime + 1 })
    ∧ (s.inReset = true → step s = .next s)

/-- Every command has a next state, whatever state it finds, and leaves the commands that wait as they are: the KC24 is
never stopped by what it is sent. That a command whose event cannot happen changes nothing is the model's choice: log
entry 1. -/
def Obligations.EveryCommandCompletesAndLeavesTheQueue : Prop :=
  ∀ (i : Instr) (s : State), ∃ t, exec i s = .next t ∧ t.pending = s.pending

/-- DEVICE_RESET cuts off the frames on the ports and on the down lane, releases the alert lines and holds the part in
reset. Until RESET_RELEASE no command writes anything but the frames on the ports and what is on the up lane. That the
blocks stand until the release is the model's inference: log entry 13. -/
def Obligations.DeviceResetCutsFramesAndHolds : Prop :=
  (∀ s : State, s.inReset = false → ∃ t, exec .deviceReset s = .next t
    ∧ t = { s with inReset := true, ports := t.ports, queues := t.queues,
                   link := { s.link with sending := none, idleUntil := none, gapUntil := none } }
    ∧ ∀ p, (t.port p).slot = (s.port p).slot ∧ (t.port p).hold = (s.port p).hold
        ∧ (t.port p).frame = (if (s.port p).frame = .idle then .idle else .cut)
        ∧ t.queue p = { s.queue p with alert := false })
  ∧ ∀ (i : Instr) (s t : State), s.inReset = true → i ≠ .resetRelease → exec i s = .next t →
    t = { s with ports := t.ports, upLane := t.upLane }
    ∧ ∀ p, (t.port p).slot = (s.port p).slot ∧ (t.port p).hold = (s.port p).hold

/-- RESET_RELEASE gives every block its device-reset values and begins the automatic enumeration: the state is the one
after reset but for the commands that wait, the frames on the ports, and the chain with its time and what is on the up
lane. That the chain and the up lane stand is the model's choice: log entries 13 and 14; so are the values of the fields to
which the manual gives none at device reset, which are the sweep's mode, the next number, whether aux was due at the sweep's
start, and the model's own lists: log entry 15. -/
def Obligations.ResetReleaseGivesResetValues : Prop :=
  ∀ s : State, s.inReset = true → ∃ t, exec .resetRelease s = .next t
    ∧ t = { State.reset with pending := s.pending, chain := s.chain, upLane := s.upLane,
                             chainEpoch := s.chainEpoch + s.linkTime, ports := t.ports }
    ∧ t.inReset = false ∧ t.linkTime = 0 ∧ t.pending = s.pending ∧ t.chain = s.chain ∧ t.upLane = s.upLane
    ∧ (∀ m ch, chanEntry (t.moduleImage m) ch = clearedEntry) ∧ t.image.counter = 0
    ∧ (∀ u, t.passOf u = none) ∧ t.reserved = false ∧ t.sweep.state = .halted ∧ t.sweep.pointer = 0
    ∧ t.sweep.nextBoundary = none ∧ t.sweep.pendingStart = false ∧ t.sweep.alignedAux = 0 ∧ (∀ m, t.auxCount m = 0)
    ∧ t.sweep.visit = .idle ∧ t.sweep.pings = []
    ∧ t.link.sending = none ∧ t.link.idleUntil = none ∧ t.link.gapUntil = none ∧ (∀ i, t.slot i = none)
    ∧ t.link.lastTag = 15 ∧ t.link.quarantine = [] ∧ t.link.resendQueue = []
    ∧ t.link.retries = 0 ∧ t.link.badCrc = 0 ∧ t.link.late = 0 ∧ t.link.overruns = 0
    ∧ t.map.state = .enumerating ∧ t.map.n = 0 ∧ t.map.endReason = none ∧ t.map.endInstant = none
    ∧ t.map.retryDue = none ∧ (∀ m, t.record m = absentRecord)
    ∧ t.sched.items.map (·.kind) = [.release] ∧ t.sched.lastServed = .B
    ∧ t.limits.work = [] ∧ (∀ m, tget t.limits.sums m = .clear)
    ∧ (∀ m, (t.balanceOf m).decided = 0 ∧ (t.balanceOf m).commanded = .mask 0 ∧ (t.balanceOf m).hold = false
        ∧ ∀ c, tget (t.balanceOf m).cells c = resetCell)
    ∧ t.balance.onTimer = 10000 ∧ t.balance.handoffs = []
    ∧ t.settings = defaultSettings ∧ t.token = .free ∧ (∀ p, t.raised.get p = [])
    ∧ ∀ p, (t.ticketQueue p) = { tickets := [], lastId := 255 }
        ∧ (t.port p).slot = .ready { status := .resetDone, echo := 0, payload := [1] }
        ∧ (t.port p).hold = { copies := [], header := none } ∧ (t.port p).frame = (s.port p).frame
        ∧ t.queue p = { records := [], nextSeq := 1, subscribe := everyKind, alertMask := 0, alert := false }

/-! ## What always holds -/

/-- The state right after device reset satisfies every invariant below. -/
def Obligations.ResetSatisfiesTheInvariants : Prop :=
  QueueInv State.reset ∧ ImageInv State.reset ∧ TicketInv State.reset ∧ HoldInv State.reset ∧ LinkInv State.reset
    ∧ BalanceInv State.reset ∧ PassInv State.reset ∧ SweepInv State.reset

/-- Every step keeps both event queues good: at most 32 records, an OVERFLOW record only as the newest, the reserve
place for it alone, sequence numbers in 1..65535, and the alert line as the alert condition says. -/
def Obligations.StepsKeepTheEventQueues : Prop :=
  ∀ s t : State, QueueInv s → step s = .next t → QueueInv t

/-- Every step keeps every entry of the Pack Image good and every setting in its range. -/
def Obligations.StepsKeepTheImage : Prop :=
  ∀ s t : State, ImageInv s → step s = .next t → ImageInv t

/-- Every step keeps the ticket queues, at most four live tickets a port with different ids, and the hold buffers, at most
32 copies in ascending index order with a header exactly with them. -/
def Obligations.StepsKeepTicketsAndHoldBuffers : Prop :=
  ∀ s t : State, step s = .next t → (TicketInv s → TicketInv t) ∧ (HoldInv s → HoldInv t)

/-- Every step keeps the outstanding-transaction table: each tag held or quarantined at most once, no slot past its
attempt limit, and only a slot without a tag waits for a re-send. -/
def Obligations.StepsKeepTheTransactions : Prop :=
  ∀ s t : State, LinkInv s → step s = .next t → LinkInv t

/-- Every step keeps the balance table as its decisions leave it. -/
def Obligations.StepsKeepTheBalanceTable : Prop :=
  ∀ s t : State, BalanceInv s → step s = .next t → BalanceInv t

/-- Every step keeps at most one pass to a module, and an aligned pass alone. -/
def Obligations.StepsKeepOnePassPerModule : Prop :=
  ∀ s t : State, PassInv s → step s = .next t → PassInv t

/-- Every step keeps the sweep state and pointer in agreement with the chain state and N. -/
def Obligations.StepsKeepTheSweep : Prop :=
  ∀ s t : State, SweepInv s → step s = .next t → SweepInv t

/-! ## Frames at a port -/

/-- FRAME_START fixes what the frame clocks out from the slot: its answer, or NOT_READY while an answer is prepared.
During device reset the frame is one that is not taken. PORT_RECEIVES_ANSWER makes the slot READY with the answer that
its block made. -/
def Obligations.FramesClockOutTheSlot : Prop :=
  (∀ (p : Port) (echo : Byte) (a : Answer) (s : State), s.inReset = false → (s.port p).slot = .preparing echo a →
    exec (.portReceivesAnswer p) s = .next (s.setPort p { s.port p with slot := .ready a }))
  ∧ ∀ (p : Port) (s : State), (s.port p).frame = .idle →
    (∀ a, s.inReset = false → (s.port p).slot = .ready a → exec (.frameStart p) s = .next (s.setPort p
      { s.port p with frame := .running ([statusCode a.status, a.echo] ++ a.payload
          ++ [crc8 ([statusCode a.status, a.echo] ++ a.payload)]) false }))
    ∧ (∀ echo a, s.inReset = false → (s.port p).slot = .preparing echo a → exec (.frameStart p) s = .next (s.setPort p
      { s.port p with frame := .running [0x04, echo, crc8 [0x04, echo]] true }))
    ∧ (s.inReset = true → exec (.frameStart p) s = .next (s.setPort p { s.port p with frame := .cut }))

/-- FRAME_EMPTY, FRAME_DISCARDED after a NOT_READY output, and a NOP that passes its checks end the frame, leave the slot
as it stands, and change nothing else. -/
def Obligations.SomeFramesOnlyEnd : Prop :=
  ∀ (p : Port) (s : State),
    exec (.frameEmpty p) s = .next (s.setPort p { s.port p with frame := .idle })
    ∧ (∀ out, (s.port p).frame = .running out true →
        exec (.frameDiscarded p) s = .next (s.setPort p { s.port p with frame := .idle }))
    ∧ ∀ fill, s.frameEnding p = true →
        exec (.nop p (goodRest 0x10 [] fill)) s = .next (s.setPort p { s.port p with frame := .idle })

/-- A first byte that names no request is refused UNKNOWN_REQUEST, the byte echoed. A request whose frame is too short
for its arguments and CRC-8, or whose CRC-8 does not agree, is refused CHECK_ERROR by the port. No block is asked. -/
def Obligations.BadFramesAreRefused : Prop :=
  (∀ (p : Port) (code : Byte) (s : State), s.frameEnding p = true → code ∉ requestCodes →
    exec (.unknownRequest p code) s
      = .next (s.answered p (.ready { status := .unknownRequest, echo := code, payload := [] })))
  ∧ ∀ (i : Instr) (p : Port) (code : Byte) (rest : List Byte) (s : State),
    i.request = some (p, code, rest) → s.frameEnding p = true →
    (rest.length ≤ argumentBytes code
      ∨ ∃ c, rest[argumentBytes code]? = some c ∧ c ≠ crc8 (code :: rest.take (argumentBytes code))) →
    exec i s = .next (s.answered p (.ready { status := .checkError, echo := code, payload := [] }))

/-- A request is discarded, and its frame only ends, when the frame was cut off, when it clocked out NOT_READY, when
the slot still waits, and in device reset. Of a request on a port outside any frame this is the model's choice: log
entry 5. -/
def Obligations.UntakenRequestIsDiscarded : Prop :=
  ∀ (i : Instr) (p : Port) (code : Byte) (rest out : List Byte) (echo : Byte) (a : Answer) (s : State),
    i.request = some (p, code, rest) →
    (s.inReset = true ∨ (s.port p).frame = .cut ∨ (s.port p).frame = .running out true
      ∨ (s.port p).slot = .preparing echo a) →
    exec i s = .next (s.setPort p { s.port p with frame := .idle })

/-- A request on a port outside any frame stands for a whole frame: it does what it does at the end of the frame that
FRAME_START begins there. This is the model's choice: log entry 5. -/
def Obligations.RequestWithoutAFrameIsAWholeFrame : Prop :=
  ∀ (i : Instr) (p : Port) (s : State), (s.port p).frame = .idle →
    (∃ code rest, i.request = some (p, code, rest) ∨ i = .unknownRequest p code ∧ code ∉ requestCodes) →
    ∃ t, exec (.frameStart p) s = .next t ∧ exec i t = exec i s

/-- IDENT answers the part's identification at once, the same in every state. STATUS answers the fields of the blocks as
they stand. Neither changes anything else. That the fields are those of one instant is the model's choice: log entry 29. -/
def Obligations.IdentAndStatusAnswer : Prop :=
  ∀ (p : Port) (fill : List Byte) (s : State), s.frameEnding p = true →
    exec (.ident p (goodRest 0x11 [] fill)) s = .next (s.answered p (.ready
      { status := .ok, echo := 0x11,
        payload := [0x0C, 0x24, 0x01, if p = .A then 1 else 2, 12, 0x01, 0x08, 32, 32, 4, 4] }))
    ∧ exec (.status p (goodRest 0x12 [] fill)) s = .next (s.answered p (.ready
      { status := .ok, echo := 0x12,
        payload := [chainStateCode s.map.state, byteOf s.map.n, sweepStateCode s.sweep.state, byteOf s.sweep.pointer,
            (match s.token with | .free => 0 | .held q _ _ => portCode q)]
          ++ word16 (match s.token with | .free => 0 | .held _ _ due => ceilDiv (ticksLeft s.timebase due) 10)
          ++ [byteOf (s.queue p).records.length, byteOf (s.ticketQueue p).tickets.length]
          ++ word16 s.link.retries ++ word16 s.link.badCrc ++ word16 s.link.late ++ word16 s.link.overruns
          ++ bytes32 s.image.counter ++ bytes32 s.timebase }))

/-- SESSION_RESET returns the port's own state to its defaults, withdraws its tickets and balance claims, frees the token
if the port holds it, answers RESET_DONE (SESSION), and leaves the other port and the shared state as they are. A module
in which the port had a claim has its decision taken afresh, and no item but a balance update comes or goes. That the
decision offers and withdraws its update is the model's choice: log entry 27; that no update is offered while one of the
module is outstanding, as while a restore is, is the model's inference: log entry 16. -/
def Obligations.SessionResetWithdrawsThePortsClaims : Prop :=
  ∀ (p : Port) (fill : List Byte) (s : State), s.frameEnding p = true →
    ∃ t, exec (.sessionReset p (goodRest 0x13 [] fill)) s = .next t
      ∧ t = { s with ports := s.ports.set p
                       { frame := .idle, slot := .ready { status := .resetDone, echo := 0x13, payload := [2] },
                         hold := { copies := [], header := none } },
                     queues := s.queues.set p
                       { records := [], nextSeq := 1, subscribe := everyKind, alertMask := 0, alert := false },
                     tickets := s.tickets.set p { tickets := [], lastId := 255 },
                     token := t.token, balance := { s.balance with modules := t.balance.modules },
                     passes := t.passes, aligned := t.aligned,
                     raised := t.raised, sched := { s.sched with items := t.sched.items } }
      ∧ t.token = (match s.token with | .held q _ _ => if q = p then .free else s.token | .free => s.token)
      ∧ (∀ m c, (tget (t.balanceOf m).cells c).request
              = (tget (s.balanceOf m).cells c).request.set p none
            ∧ (tget (t.balanceOf m).cells c).inhibit = (tget (s.balanceOf m).cells c).inhibit.set p false
            ∧ (tget (t.balanceOf m).cells c).onTime = (tget (s.balanceOf m).cells c).onTime
            ∧ (t.balanceOf m).commanded = (s.balanceOf m).commanded ∧ (t.balanceOf m).hold = (s.balanceOf m).hold)
      ∧ (∀ m, t.balanceOf m =
          if ∃ c, (tget (s.balanceOf m).cells c).request.get p ≠ none ∨ (tget (s.balanceOf m).cells c).inhibit.get p = true
          then decideModule (s.decisionInput m) (s.moduleImage m) { s.balanceOf m with
            cells := tmap (s.balanceOf m).cells fun _ r =>
              { r with request := r.request.set p none, inhibit := r.inhibit.set p false } }
          else s.balanceOf m)
      ∧ (∀ k, (∀ m, k ≠ .update m) → (k ∈ t.sched.items.map (·.kind) ↔ k ∈ s.sched.items.map (·.kind)))
      ∧ (∀ m, .update m ∈ t.sched.items.map (·.kind) ↔
          (t.balanceOf m).commanded ≠ .mask (t.balanceOf m).decided
            ∧ ∀ i x, s.slot i = some x → x.node = modNumber m → x.role ≠ .restore ∧ x.role ≠ .update)
      ∧ ∀ u, t.passOf u = (s.passOf u).map fun x =>
          { x with owner := x.owner.filter fun r => r.port != p, joined := x.joined.filter fun r => r.port != p }

/-! ## Pack Image -/

/-- READ_ENTRY answers the timebase and the whole record of an index 0..263, as it stands, refuses a higher index
BAD_ARGUMENT, and writes neither the Image nor the hold buffer. That the block
takes the request in the step of the frame's end and the answer waits in the slot is the model's choice: log entry 18. -/
def Obligations.ReadEntryAnswersTheRecord : Prop :=
  ∀ (p : Port) (hi lo : Byte) (fill : List Byte) (s : State), s.frameEnding p = true →
    (∀ m ch, (hi ++ lo).toNat = entryIndex m ch →
      exec (.readEntry p (goodRest 0x20 [hi, lo] fill)) s = .next (s.answered p (waitsFor
        { status := .ok, echo := 0x20,
          payload := bytes32 s.timebase ++ entryBytes m ch (chanEntry (s.moduleImage m) ch).toEntryRecord })))
    ∧ (263 < (hi ++ lo).toNat →
      exec (.readEntry p (goodRest 0x20 [hi, lo] fill)) s = .next (s.answered p (waitsFor
        { status := .badArgument, echo := 0x20, payload := [] })))

/-- LATCH copies a run of entries into the port's hold buffer with the timebase and the renewal counter. With a bad
argument, or COHERENT while the run's FRESH entries do not share one instant, it is refused and leaves the buffer as it
was. That the block
takes the request in the step of the frame's end and the answer waits in the slot is the model's choice: log entry 18. -/
def Obligations.LatchCopiesARunOrRefuses : Prop :=
  ∀ (p : Port) (hi lo count option : Byte) (fill : List Byte) (s : State), s.frameEnding p = true →
    let first : Nat := (hi ++ lo).toNat
    let good : Prop := (option = 0 ∨ option = 1) ∧ 1 ≤ count.toNat ∧ count.toNat ≤ 32 ∧ first + count.toNat ≤ 264
    let run := copyRun s first count.toNat
    let whole : Prop := option = 0 ∨ ∀ c ∈ run, ∀ d ∈ run, c.record.quality = .fresh → d.record.quality = .fresh →
      c.record.instant = d.record.instant
    (good → run.map (fun c => entryIndex c.module c.chan) = (List.range count.toNat).map (first + ·))
    ∧ (∀ c ∈ run, c.record = (chanEntry (s.moduleImage c.module) c.chan).toEntryRecord)
    ∧ (good → whole → exec (.latch p (goodRest 0x21 [hi, lo, count, option] fill)) s = .next (s.setPort p
        { frame := .idle,
          hold := { copies := run,
                    header := some { instant := s.timebase, counter := s.image.counter, coherent := option = 1 } },
          slot := waitsFor { status := .ok, echo := 0x21,
                             payload := bytes32 s.timebase ++ bytes32 s.image.counter
                               ++ [count, if option = 1 then 1 else 0] } }))
    ∧ (¬good → exec (.latch p (goodRest 0x21 [hi, lo, count, option] fill)) s = .next (s.answered p (waitsFor
        { status := .badArgument, echo := 0x21, payload := [] })))
    ∧ (good → ¬whole → exec (.latch p (goodRest 0x21 [hi, lo, count, option] fill)) s = .next (s.answered p (waitsFor
        { status := .incoherent, echo := 0x21, payload := [] })))

/-- READ_HOLD answers the latch header and the copies of slots start, start + 1, … modulo the hold count, refuses bad
arguments, and changes no state. -/
def Obligations.ReadHoldReturnsTheCopies : Prop :=
  ∀ (p : Port) (start count : Byte) (fill : List Byte) (s : State), s.frameEnding p = true → HoldGood (s.port p).hold →
    ((s.port p).hold.copies = [] ∨ (s.port p).hold.copies.length ≤ start.toNat ∨ count = 0 ∨ 32 < count.toNat →
      exec (.readHold p (goodRest 0x22 [start, count] fill)) s = .next (s.answered p (.ready
        { status := .badArgument, echo := 0x22, payload := [] })))
    ∧ ∀ h, (s.port p).hold.header = some h → start.toNat < (s.port p).hold.copies.length →
      1 ≤ count.toNat → count.toNat ≤ 32 →
      ∃ run : List HoldCopy,
        (∀ i, i < count.toNat →
          run[i]? = (s.port p).hold.copies[(start.toNat + i) % (s.port p).hold.copies.length]?)
        ∧ run.length = count.toNat
        ∧ exec (.readHold p (goodRest 0x22 [start, count] fill)) s = .next (s.answered p (.ready
            { status := .ok, echo := 0x22,
              payload := bytes32 h.instant ++ bytes32 h.counter
                ++ [byteOf (s.port p).hold.copies.length, flagByte h.coherent]
                ++ run.flatMap fun c => entryBytes c.module c.chan c.record }))

/-- A group renewal advances the renewal counter, never to 0, and writes every populated entry of the group that has a
sample, with its instant, source and flag; the other group and the UNPOPULATED entries stand. Its records go to both ports
in one storing event, the valid samples to the Limit Checker as one receipt, and the module to the Balance Controller, for
the aux group where a quality has changed. The order of two GROUP_STALE of one renewal is the model's choice: log entry 8.
An OK to a pass's READ_CELLS
or READ_AUX with a sample for each channel renews the group from the samples of its payload, with the pass's instant and
origin and the part's flag, and is a success of the module; the pass reads on, restores what it quiesced, or ends. Where the
pass is aligned, the part ends, and the next participant is served, or the pass ends after the last. -/
def Obligations.RenewalWritesTheGroup : Prop :=
  (∀ (m : Mod) (g : Group) (samples : Chan → Option Sample) (info : RenewalInfo) (s : State),
    let t := renewGroup m g samples info s
    (t.image.counter = if s.image.counter = BitVec.allOnes 32 then 1 else s.image.counter + 1)
    ∧ t.image.counter ≠ 0
    ∧ (∀ k ch, k ≠ m ∨ groupOf ch ≠ g ∨ populated (chanEntry (s.moduleImage m) ch) = false ∨ samples ch = none →
        chanEntry (t.moduleImage k) ch = chanEntry (s.moduleImage k) ch)
    ∧ (∀ ch x, groupOf ch = g → populated (chanEntry (s.moduleImage m) ch) = true → samples ch = some x →
        let e := chanEntry (s.moduleImage m) ch
        let e' := chanEntry (t.moduleImage m) ch
        e'.instant = some info.instant ∧ e'.renewal = t.image.counter ∧ e'.source = some info.source
        ∧ e'.balanced = info.balanced ∧ e'.limit = e.limit ∧ e'.streak = e.streak ∧ e'.side = e.side
        ∧ (x.openWire = true → e'.quality = .faulted ∧ e'.cause = some .sensorOpen ∧ e'.value = e.value)
        ∧ (x.openWire = false → e'.value = storedValue ch x.value ∧ e'.cause = none
            ∧ e'.quality = if chanWindow s.settings ch ≤ age s.timebase info.instant then .stale else .fresh))
    ∧ (∀ q, t.raised.get q = s.raised.get q
        ++ storing (renewalRecords s.timebase m (s.moduleImage m) (t.moduleImage m)))
    ∧ t.limits.work = s.limits.work ++ (
        let valid := allChans.filterMap fun ch =>
          if groupOf ch = g && populated (chanEntry (s.moduleImage m) ch) then
            (samples ch).bind fun x => if x.openWire then none else some (ch, storedValue ch x.value)
          else none
        if valid = [] then [] else [.receipt m t.image.counter valid])
    ∧ t.balance.handoffs = s.balance.handoffs ++
        if g = .cells ∨ ∃ ch ∈ allChans,
            (chanEntry (s.moduleImage m) ch).quality ≠ (chanEntry (t.moduleImage m) ch).quality
        then [m] else [])
  ∧ ∀ (bytes : List Byte) (first : TakenFirst) (f : ResponseFrame) (i : Fin 4) (x : TxnSlot) (u : Target) (m : Mod)
      (p : Pass) (y : Part) (s : State), s.inReset = false → LinkInv s → receive bytes = .good f → f.status = 0 →
    s.slot i = some x → x.tag = some f.tag → x.node = f.node → x.node = modNumber m → x.owner = .pass u →
    s.passOf u = some p → (p.parts.find? fun z => z.module = m) = some y → s.health m = .active →
    (s.record m).mark = false →
    let word (k : Nat) : BitVec 16 := f.payload.getD k 0 ++ f.payload.getD (k + 1) 0
    let info : RenewalInfo := { instant := p.instant.getD 0, source := p.origin, balanced := y.balanced }
    -- `r` is the state with the group renewed; the answer changes nothing else but these
    let took (r t : State) : Prop := t = { r with
      upLane := s.upLane.tail, sched := t.sched, link := { s.link with slots := tput s.link.slots i none },
      map := { s.map with
        records := tput s.map.records m { s.record m with failures := 0, lastSuccess := some s.timebase } } }
    let restores : Prop := y.quiesced = true ∨ (s.balanceOf m).commanded ≠ .mask (s.balanceOf m).decided
    let restoring (q : Pass) : Pass := { q with
      step := if u = .all then q.step else .restoring, timer := none,
      parts := q.parts.map fun z => if z.module = m then { z with step := .restoring, outcome := none } else z }
    (x.role = .readCells → ∀ n, n = (s.record m).cellCount → f.payload.length = 3 + 2 * n →
      (f.payload.getD 0 0).toNat = n →
      let samples (ch : Chan) : Option Sample := match ch with
        | .cell c => if c.val < n then
            some { value := (word (1 + 2 * c.val)).toNat, openWire := (word (1 + 2 * n)).getLsbD c.val } else none
        | _ => none
      let r := renewGroup m .cells samples info s
      let p' : Pass := { p with parts := p.parts.map fun z => if z.module = m then { z with
        cellRenewal := r.image.counter, sawOpen := (List.range n).any fun c => (word (1 + 2 * n)).getLsbD c } else z }
      (p.what = .both → ∃ t, exec (.responseArrival bytes first) s = .next t ∧ took (r.setPass u (some p')) t
        ∧ .passStep u .readAux ∈ t.sched.items.map (·.kind))
      ∧ (p.what ≠ .both → restores → ∃ t, exec (.responseArrival bytes first) s = .next t
        ∧ took (r.setPass u (some (restoring p'))) t ∧ .passStep u .restore ∈ t.sched.items.map (·.kind))
      ∧ (p.what ≠ .both → ¬restores → u = .one m → TicketInv s → NoTicketWaits s →
        ∃ t, exec (.responseArrival bytes first) s = .next t ∧ t.image = r.image ∧ t.limits = r.limits
          ∧ PassEnded m p r.image.counter y.auxRenewal s t)
      ∧ (p.what ≠ .both → ¬restores → u = .all → TicketInv s → NoTicketWaits s →
        ∃ t, exec (.responseArrival bytes first) s = .next t ∧ t.image = r.image ∧ t.limits = r.limits
          ∧ AlignedPartEnded m .complete p' s t))
    ∧ (x.role = .readAux → ∀ n, n = (s.record m).tempCount → f.payload.length = 6 + 2 * n →
      (f.payload.getD 0 0).toNat = n →
      let samples (ch : Chan) : Option Sample := match ch with
        | .temp c => if c.val < n then
            some { value := (word (1 + 2 * c.val)).toInt, openWire := (f.payload.getD (1 + 2 * n) 0).getLsbD c.val }
            else none
        | .block => some { value := (word (2 + 2 * n)).toNat, openWire := false }
        | .die => some { value := (word (4 + 2 * n)).toInt, openWire := false }
        | _ => none
      let r := renewGroup m .aux samples info s
      let r' : State := { r with
        sweep := { s.sweep with auxCount := tput s.sweep.auxCount m 0 },
        limits := { r.limits with work := r.limits.work ++
          if p.what = .both ∧ y.cellRenewal ≠ 0 ∧ y.sawOpen = false
          then [.sumCheck m y.cellRenewal r.image.counter] else [] } }
      let p' : Pass := { p with parts := p.parts.map fun z => if z.module = m then { z with
        auxRenewal := r.image.counter } else z }
      (restores → ∃ t, exec (.responseArrival bytes first) s = .next t ∧ took (r'.setPass u (some (restoring p'))) t
        ∧ .passStep u .restore ∈ t.sched.items.map (·.kind))
      ∧ (¬restores → u = .one m → TicketInv s → NoTicketWaits s →
        ∃ t, exec (.responseArrival bytes first) s = .next t ∧ t.image = r.image ∧ t.limits = r'.limits
          ∧ PassEnded m p y.cellRenewal r.image.counter
              { s with sweep := { s.sweep with auxCount := tput s.sweep.auxCount m 0 } } t)
      ∧ (¬restores → u = .all → TicketInv s → NoTicketWaits s →
        ∃ t, exec (.responseArrival bytes first) s = .next t ∧ t.image = r.image ∧ t.limits = r'.limits
          ∧ AlignedPartEnded m .complete p'
              { s with sweep := { s.sweep with auxCount := tput s.sweep.auxCount m 0 } } t))

/-- DEADLINE_EXPIRY makes every FRESH entry of the set STALE, keeping its other fields, raises one GROUP_STALE with the
lowest of them to both ports, and hands the module to the Balance Controller; no other entry changes. -/
def Obligations.DeadlineMakesTheSetStale : Prop :=
  ∀ (m : Mod) (k : DeadlineKind) (s : State), s.inReset = false → s.deadlineDue m k = true →
    ∃ t, exec (.deadlineExpiry m k) s = .next t
      ∧ t = { s with image := { s.image with modules := t.image.modules }, raised := t.raised,
                     balance := { s.balance with handoffs := s.balance.handoffs ++ [m] } }
      ∧ (∀ j ch, chanEntry (t.moduleImage j) ch =
          if j = m ∧ deadlineOf ch = k ∧ (chanEntry (s.moduleImage j) ch).quality = .fresh
          then { chanEntry (s.moduleImage j) ch with quality := .stale }
          else chanEntry (s.moduleImage j) ch)
      ∧ ∃ low, deadlineOf low = k ∧ (chanEntry (s.moduleImage m) low).quality = .fresh
        ∧ (∀ ch, deadlineOf ch = k → (chanEntry (s.moduleImage m) ch).quality = .fresh →
          entryIndex m low ≤ entryIndex m ch)
        ∧ ∀ q, t.raised.get q = s.raised.get q ++ [[
          { kind := .groupStale, time := s.timebase, module := some m, entry := some (m, low) }]]

/-! ## Directed measurements -/

/-- An accepted DIRECT issues the next free id, and the ticket joins the pass that covers it or is QUEUED as the newest;
nothing else changes. -/
def Obligations.DirectIssuesATicket : Prop :=
  ∀ (p : Port) (n b : Byte) (w : What) (m : Mod) (fill : List Byte) (s : State), s.frameEnding p = true →
    whatOf b = some w → modOfNumber n.toNat = some m → n.toNat ≤ s.map.n → s.map.state ≠ .enumerating →
    (s.ticketQueue p).tickets.length < 4 →
    ∃ (id : BitVec 8) (t : State),
      exec (.direct p (goodRest 0x30 [n, b] fill)) s = .next t
      ∧ id ∉ (s.ticketQueue p).tickets.map (·.id)
      ∧ (∃ k : Nat, id = (s.ticketQueue p).lastId + 1 + BitVec.ofNat 8 k ∧ ∀ j, j < k →
          (s.ticketQueue p).lastId + 1 + BitVec.ofNat 8 j ∈ (s.ticketQueue p).tickets.map (·.id))
      ∧ t = { s with
          ports := s.ports.set p { s.port p with
            frame := .idle,
            slot := waitsFor { status := .ok, echo := 0x30,
                               payload := [id, if (s.joinable m w).isSome then 2 else 1] } },
          tickets := s.tickets.set p
            { tickets := (s.ticketQueue p).tickets ++
                [{ id := id, module := m, what := w,
                   state := match s.joinable m w with | some u => .joined u | none => .queued }],
              lastId := id },
          passes := t.passes,
          aligned := t.aligned }
      ∧ ∀ u, t.passOf u = if s.joinable m w = some u
          then (s.passOf u).map fun x => { x with joined := x.joined ++ [{ port := p, id := id }] }
          else s.passOf u

/-- CANCEL removes a QUEUED or JOINED ticket of the port without an event, and refuses a RUNNING one TOO_LATE and an
unknown id NO_TICKET. That the block
takes the request in the step of the frame's end and the answer waits in the slot is the model's choice: log entry 18. -/
def Obligations.CancelRemovesATicket : Prop :=
  ∀ (p : Port) (id : Byte) (fill : List Byte) (s : State), s.frameEnding p = true →
    ((∀ k ∈ (s.ticketQueue p).tickets, k.id ≠ id) → exec (.cancel p (goodRest 0x31 [id] fill)) s
      = .next (s.answered p (waitsFor { status := .noTicket, echo := 0x31, payload := [] })))
    ∧ ∀ k, (s.ticketQueue p).tickets.find? (fun k => k.id = id) = some k →
      (∀ u, k.state = .running u → exec (.cancel p (goodRest 0x31 [id] fill)) s
        = .next (s.answered p (waitsFor { status := .tooLate, echo := 0x31, payload := [] })))
      ∧ (k.state = .queued ∨ (∃ u, k.state = .joined u) →
        ∃ t, exec (.cancel p (goodRest 0x31 [id] fill)) s = .next t
          ∧ t = { s with
              ports := s.ports.set p { s.port p with
                frame := .idle, slot := waitsFor { status := .ok, echo := 0x31, payload := [1] } },
              tickets := s.tickets.set p { s.ticketQueue p with
                tickets := (s.ticketQueue p).tickets.filter fun k => k.id != id },
              passes := t.passes,
              aligned := t.aligned }
          ∧ ∀ u, t.passOf u = if k.state = .queued then s.passOf u else (s.passOf u).map fun x =>
              { x with owner := x.owner.filter fun r => !(r.port == p && r.id == id),
                       joined := x.joined.filter fun r => !(r.port == p && r.id == id) })

/-! ## Balancing -/

/-- An accepted BALANCE records the port's request with its end on each cell of the mask, takes the module's decision in
the same event, and answers the decided mask and the cells of the mask that are BLOCKED. -/
def Obligations.BalanceRecordsTheRequests : Prop :=
  ∀ (p : Port) (n mh ml sh sl : Byte) (m : Mod) (fill : List Byte) (s : State), s.frameEnding p = true →
    1 ≤ (sh ++ sl).toNat → (sh ++ sl).toNat ≤ 3600 → (mh ++ ml).toNat ≠ 0 → s.map.state ≠ .enumerating →
    modOfNumber n.toNat = some m → n.toNat ≤ s.map.n →
    (∀ c, inMask (mh ++ ml) c = true → populated (tget (s.moduleImage m).cell c) = true) →
    let due : Tick := s.timebase + BitVec.ofNat 32 ((sh ++ sl).toNat * 10000)
    let b := decideModule (s.decisionInput m) (s.moduleImage m)
      (onCells (mh ++ ml) (setRequest p (some due)) (s.balanceOf m))
    ∃ t, exec (.balance p (goodRest 0x40 [n, mh, ml, sh, sl] fill)) s = .next t
      ∧ t = { s with
          ports := s.ports.set p { s.port p with
            frame := .idle,
            slot := waitsFor
              { status := .ok, echo := 0x40,
                payload := bytes16 b.decided ++ bytes16 (maskOf fun c => inMask (mh ++ ml) c
                  && isBlocked (tget b.cells c).state) } },
          balance := { s.balance with modules := tput s.balance.modules m b },
          raised := t.raised,
          sched := t.sched }

/-- UNBALANCE withdraws the port's requests on the cells of the mask; INHIBIT sets and UNINHIBIT clears the port's marks.
Each takes the module's decision in the same event; the other port's claims stand. -/
def Obligations.ClaimsAreWithdrawnAndMarked : Prop :=
  ∀ (p : Port) (n mh ml : Byte) (m : Mod) (fill : List Byte) (s : State), s.frameEnding p = true →
    modOfNumber n.toNat = some m → n.toNat ≤ s.map.n → s.map.state ≠ .enumerating →
    let mask : CellMask := mh ++ ml
    let result (code : Byte) (payload : List Byte) (claims : BalanceModule) (t : State) : Prop :=
      t = { s with
        ports := s.ports.set p { s.port p with
          frame := .idle, slot := waitsFor { status := .ok, echo := code, payload := payload } },
        balance := { s.balance with
          modules := tput s.balance.modules m (decideModule (s.decisionInput m) (s.moduleImage m) claims) },
        raised := t.raised,
        sched := t.sched }
    (∃ t, exec (.unbalance p (goodRest 0x41 [n, mh, ml] fill)) s = .next t
      ∧ result 0x41 (bytes16 (maskOf fun c => inMask mask c && requestedBy p (tget (s.balanceOf m).cells c)))
          (onCells mask (setRequest p none) (s.balanceOf m)) t)
    ∧ (∃ t, exec (.inhibit p (goodRest 0x42 [n, mh, ml] fill)) s = .next t
      ∧ result 0x42 (bytes16 (inhibitedMask (onCells mask (setInhibit p true) (s.balanceOf m))))
          (onCells mask (setInhibit p true) (s.balanceOf m)) t)
    ∧ (∃ t, exec (.uninhibit p (goodRest 0x43 [n, mh, ml] fill)) s = .next t
      ∧ result 0x43 (bytes16 (inhibitedMask (onCells mask (setInhibit p false) (s.balanceOf m))))
          (onCells mask (setInhibit p false) (s.balanceOf m)) t)

/-- READ_BALANCE answers the module's records and changes nothing. CLEAR_BALANCE_TIME clears the ON times of the module,
or of all modules for module 0, for the token's holder alone, whose lease restarts. That the block takes the request in
the step of the frame's end and the answer waits in the slot is the model's choice: log entry 18; so are when an update
is pending, log entry 16, and the remaining seconds at the end instant itself, log entry 28. -/
def Obligations.BalanceTimesAreReadAndCleared : Prop :=
  ∀ (p : Port) (n : Byte) (fill : List Byte) (s : State), s.frameEnding p = true →
    let seconds : Option Tick → Nat
      | some due => ceilDiv (ticksLeft s.timebase due) 10000
      | none => 0
    let cell (r : CellRecord) : List Byte :=
      word16 (seconds r.request.a) ++ word16 (seconds r.request.b)
        ++ ([(if r.inhibit.a then 1 else 0) + (if r.inhibit.b then 2 else 0),
            (match r.state with | .idle => 0 | .waiting => 1 | .blocked _ => 2 | .on => 3 | .held => 4),
            (match r.state with
              | .blocked .inhibited => 0x40 | .blocked .moduleDown => 0x41 | .blocked .moduleHot => 0x42
              | .blocked .sum => 0x43 | .blocked .data => 0x44 | .blocked .cellLow => 0x45
              | _ => 0)] : List Byte)
        ++ bytes32 r.onTime
    let table (m : Mod) : List Byte :=
      n :: ((List.finRange 16).flatMap fun c => cell (tget (s.balanceOf m).cells c))
        ++ bytes16 (s.balanceOf m).decided
        ++ (match (s.balanceOf m).commanded with | .mask k => 0 :: bytes16 k | .unknown => [1, 0, 0])
        ++ [if (s.balanceOf m).hold then 1 else 0,
            if .update m ∈ s.sched.items.map (·.kind) then 1 else 0, byteOf s.settings.balanceCapacity]
    (∀ m, modOfNumber n.toNat = some m → exec (.readBalance p (goodRest 0x44 [n] fill)) s
      = .next (s.answered p (waitsFor { status := .ok, echo := 0x44, payload := table m })))
    ∧ (modOfNumber n.toNat = none → exec (.readBalance p (goodRest 0x44 [n] fill)) s
      = .next (s.answered p (waitsFor { status := .noModule, echo := 0x44, payload := [] })))
    ∧ (12 < n.toNat → exec (.clearBalanceTime p (goodRest 0x45 [n] fill)) s
      = .next (s.answered p (waitsFor { status := .badArgument, echo := 0x45, payload := [] })))
    ∧ (n.toNat ≤ 12 → s.holds p = false → exec (.clearBalanceTime p (goodRest 0x45 [n] fill)) s
      = .next (s.answered p (waitsFor { status := .noToken, echo := 0x45, payload := [] })))
    ∧ ∀ lease due, n.toNat ≤ 12 → s.token = .held p lease due →
      ∃ t, exec (.clearBalanceTime p (goodRest 0x45 [n] fill)) s = .next t
        ∧ t = { s with
            ports := s.ports.set p { s.port p with
              frame := .idle, slot := waitsFor { status := .ok, echo := 0x45, payload := [] } },
            token := .held p lease (s.timebase + BitVec.ofNat 32 (lease * 10000)),
            balance := { s.balance with modules := t.balance.modules } }
        ∧ ∀ m, t.balanceOf m = { s.balanceOf m with cells := (t.balanceOf m).cells }
            ∧ ∀ c, tget (t.balanceOf m).cells c = if n = 0 ∨ modNumber m = n.toNat
                then { tget (s.balanceOf m).cells c with onTime := 0 } else tget (s.balanceOf m).cells c

/-- A decision reads BALANCE_CAPACITY, the module's health, its sum state, its entries and its claims. A requested cell
with no block cause is a candidate; the candidates are ranked by value, equal values by channel, and the first
BALANCE_CAPACITY of them are chosen: ON, or HELD in a hold period. A cell is IDLE without a request, BLOCKED with the
first cause that applies, and WAITING when it is not chosen; the decided mask is the chosen cells. -/
def Obligations.DecisionRespectsBlocksAndCapacity : Prop :=
  (∀ (s : State) (m : Mod), s.decisionInput m =
    { capacity := s.settings.balanceCapacity,
      down := decide (s.health m = .suspect ∨ s.health m = .lost),
      mismatch := decide (tget s.limits.sums m = .mismatch) })
  ∧ ∀ (i : DecisionInput) (mi : ModuleImage) (b : BalanceModule),
    let d := decideModule i mi b
    let asked (c : Fin 16) : Bool := (tget b.cells c).request.a.isSome || (tget b.cells c).request.b.isSome
    let cause (c : Fin 16) : Option BlockCause :=
      if (tget b.cells c).inhibit.a ∨ (tget b.cells c).inhibit.b then some .inhibited
      else if i.down then some .moduleDown
      else if (∃ x, (tget mi.temp x).limit = .high) ∨ mi.die.limit = .high then some .moduleHot
      else if i.mismatch then some .sum
      else if (tget mi.cell c).quality ≠ .fresh then some .data
      else if (tget mi.cell c).limit = .low then some .cellLow
      else none
    let above (e c : Fin 16) : Bool := (tget mi.cell c).value < (tget mi.cell e).value
      ∨ (tget mi.cell e).value = (tget mi.cell c).value ∧ e.val < c.val
    let rank (c : Fin 16) : Nat := (List.finRange 16).countP fun e => asked e ∧ cause e = none ∧ above e c
    ((List.finRange 16).countP fun c => inMask d.decided c) ≤ i.capacity
    ∧ (∀ c, inMask d.decided c = true ↔ asked c = true ∧ cause c = none ∧ rank c < i.capacity)
    ∧ (∀ c, (tget d.cells c).state =
        if asked c then
          match cause c with
          | some k => .blocked k
          | none => if rank c < i.capacity then (if b.hold then .held else .on) else .waiting
        else .idle)
    ∧ (∀ c, (tget d.cells c).request = (tget b.cells c).request
        ∧ (tget d.cells c).inhibit = (tget b.cells c).inhibit ∧ (tget d.cells c).onTime = (tget b.cells c).onTime)
    ∧ d.commanded = b.commanded ∧ d.hold = b.hold
    ∧ ∀ c, inMask d.decided c = true →
        requested (tget b.cells c) = true ∧ (tget b.cells c).inhibit.a = false ∧ (tget b.cells c).inhibit.b = false
        ∧ i.down = false ∧ i.mismatch = false ∧ mi.die.limit ≠ .high ∧ (∀ x, (tget mi.temp x).limit ≠ .high)
        ∧ (tget mi.cell c).quality = .fresh ∧ (tget mi.cell c).limit ≠ .low
        ∧ ∀ e, requested (tget b.cells e) = true → blockCauseOf i mi e (tget b.cells e) = none →
            (tget mi.cell c).value < (tget mi.cell e).value → inMask d.decided e = true

/-- BALANCE_DECISION takes the module's oldest hand-off as a decision; REQUEST_EXPIRY ends the requests whose end has
been reached, and decides; no other module changes. Each raises to a port the BALANCE_BLOCKED of its decision, behind the
BALANCE_ENDED (EXPIRED) of the requests that have ended. ON_TIME_TIMER_EXPIRY adds one second, staying at FFFFFFFFH, to each
cell whose switch the module's commanded mask holds closed, adds nothing while it is UNKNOWN, and lets the timer run on
from its own instant. That BALANCE_DECISION decides without a hand-off too is the model's choice: log entry 1. That the
end of a request has been reached is read as a difference below 2³¹: the model's inference, log entry 4. -/
def Obligations.BalanceEventsDecideAndCount : Prop :=
  ∀ (m : Mod) (s : State), s.inReset = false →
    (∃ t, exec (.balanceDecision m) s = .next t
      ∧ t = { s with
          balance := { s.balance with
            modules := tput s.balance.modules m
              (decideModule (s.decisionInput m) (s.moduleImage m) (s.balanceOf m)),
            handoffs := s.balance.handoffs.erase m },
          raised := t.raised,
          sched := t.sched }
      ∧ ∀ q, t.raised.get q = s.raised.get q
          ++ storing (balanceRecords s.timebase m q none (s.balanceOf m) (t.balanceOf m)))
    ∧ (s.requestsDue m = true →
      ∃ t, exec (.requestExpiry m) s = .next t
        ∧ t = { s with balance := { s.balance with modules := t.balance.modules }, raised := t.raised,
                       sched := t.sched }
        ∧ (∀ k, k ≠ m → t.balanceOf k = s.balanceOf k)
        ∧ t.balanceOf m = decideModule (s.decisionInput m) (s.moduleImage m) { s.balanceOf m with
            cells := tmap (s.balanceOf m).cells fun _ r => { r with
              request := { a := r.request.a.filter fun due => !reached s.timebase due,
                           b := r.request.b.filter fun due => !reached s.timebase due } } }
        ∧ (∀ q, t.raised.get q = s.raised.get q
            ++ storing (balanceRecords s.timebase m q (some .expired) (s.balanceOf m) (t.balanceOf m)))
        ∧ ∀ c q, (tget (t.balanceOf m).cells c).request.get q =
            (((tget (s.balanceOf m).cells c).request.get q).filter fun due => !reached s.timebase due))
    ∧ (s.balance.onTimer ≤ s.ticks →
      ∃ t, exec .onTimeTimerExpiry s = .next t
        ∧ t = { s with balance := { s.balance with modules := t.balance.modules,
                                                   onTimer := s.balance.onTimer + 10000 } }
        ∧ ∀ k, t.balanceOf k = { s.balanceOf k with cells := (t.balanceOf k).cells }
            ∧ ∀ c, tget (t.balanceOf k).cells c = match (s.balanceOf k).commanded with
                | .mask closed => if inMask closed c = true
                    then { tget (s.balanceOf k).cells c with
                      onTime := if (tget (s.balanceOf k).cells c).onTime = BitVec.allOnes 32
                        then BitVec.allOnes 32 else (tget (s.balanceOf k).cells c).onTime + 1 }
                    else tget (s.balanceOf k).cells c
                | .unknown => tget (s.balanceOf k).cells c)

/-! ## Event queues -/

/-- POP_EVENTS removes the oldest records of the port's queue, as many as the count asks or the queue holds, answers them
in eight places, and judges the alert line afresh; a bad count is refused. -/
def Obligations.PopRemovesTheOldest : Prop :=
  ∀ (p : Port) (count : Byte) (fill : List Byte) (s : State), s.frameEnding p = true →
    (count = 0 ∨ 8 < count.toNat → exec (.popEvents p (goodRest 0x50 [count] fill)) s
      = .next (s.answered p (.ready { status := .badArgument, echo := 0x50, payload := [] })))
    ∧ (1 ≤ count.toNat → count.toNat ≤ 8 →
      let left := (s.queue p).records.drop count.toNat
      let out := (s.queue p).records.take count.toNat
      exec (.popEvents p (goodRest 0x50 [count] fill)) s
        = .next ((s.answered p (.ready
            { status := .ok, echo := 0x50,
              payload := [byteOf out.length, byteOf left.length] ++ out.flatMap eventBytes
                ++ List.replicate (18 * (8 - out.length)) 0 })).setQueue p
            { s.queue p with records := left, alert := left.any (alerts (s.queue p).alertMask) }))

/-- EVENT_COUNT answers the records held, the alerting records held, the OVERFLOW record's presence and dropped count,
the oldest and the next sequence number, and changes no state. -/
def Obligations.EventCountAnswersTheQueue : Prop :=
  ∀ (p : Port) (fill : List Byte) (s : State), s.frameEnding p = true →
    let q := s.queue p
    exec (.eventCount p (goodRest 0x51 [] fill)) s = .next (s.answered p (.ready
    { status := .ok, echo := 0x51,
      payload := [byteOf q.records.length, byteOf (q.records.countP (alerts q.alertMask)),
          if q.records.any isOverflow then 1 else 0]
        ++ word16 (match q.records.find? isOverflow with
            | some r => (r.event.value.getD 0).toNat
            | none => 0)
        ++ word16 (match q.records with
            | r :: _ => r.seq
            | [] => 0)
        ++ word16 q.nextSeq }))

/-- The storing of a record, by R190's table: outside SUBSCRIBE it is not stored; with fewer than 31 records it is
appended with the next sequence number; with 31 an OVERFLOW record takes the reserve; with an OVERFLOW record held, the
drop is counted in it. -/
def Obligations.StoringFollowsTheTable : Prop :=
  ∀ (now : Tick) (e : Event) (q : EventQueue),
    (q.subscribe.getLsbD (kindCode e.kind) = false → storeRecord now e q = q)
    ∧ (q.subscribe.getLsbD (kindCode e.kind) = true → (∀ r ∈ q.records, r.event.kind ≠ .overflow) →
      (q.records.length < 31 → storeRecord now e q =
        { q with records := q.records ++ [{ seq := q.nextSeq, event := e }],
                 nextSeq := if q.nextSeq = 65535 then 1 else q.nextSeq + 1 })
      ∧ (31 ≤ q.records.length → storeRecord now e q =
        { q with
          records := q.records ++
            [{ seq := q.nextSeq,
               event := { kind := .overflow, time := now, value := some 1, cause := some (.dropped e.kind) } }],
          nextSeq := if q.nextSeq = 65535 then 1 else q.nextSeq + 1 }))
    ∧ ∀ rs r n, q.subscribe.getLsbD (kindCode e.kind) = true → q.records = rs ++ [r] → r.event.kind = .overflow →
      (∀ x ∈ rs, x.event.kind ≠ .overflow) → r.event.value = some n →
      storeRecord now e q =
        { q with records := rs ++ [{ r with event := { r.event with value := some (min 65535 (n + 1)) } }] }

/-- EVENT_STORE takes the oldest storing event that waits at the port, record by record, and sets the alert line; the
other port's queue stands. That the storings of a port wait in one list is the model's choice: log entry 6. -/
def Obligations.EventStoreTakesTheOldest : Prop :=
  ∀ (p : Port) (es : List Event) (rest : List (List Event)) (s : State), s.inReset = false →
    s.raised.get p = es :: rest →
    let q := es.foldl (fun q e => storeRecord s.timebase e q) (s.queue p)
    exec (.eventStore p) s = .next { s with
      raised := s.raised.set p rest,
      queues := s.queues.set p { q with alert := q.records.any (alerts q.alertMask) } }

/-! ## Settings and token -/

/-- TAKE_TOKEN gives the FREE token to the port, or renews its own, with a lease of 1..60 seconds from now; it is
refused HELD_ELSEWHERE while the other port holds it, and BAD_ARGUMENT for another lease, the record left as it was.
LEASE_EXPIRY frees the token and raises one TOKEN_LAPSED, to the former holder alone. Neither changes a setting. That
an instant has been reached is read as a difference below 2³¹: the model's inference, log entry 4; that the block takes
the request in the step of the frame's end and the answer waits in the slot is the model's choice: log entry 18. -/
def Obligations.TokenIsTakenAndLapses : Prop :=
  ∀ (p : Port) (s : State),
    (∀ (n : Byte) (fill : List Byte), s.frameEnding p = true →
      (n = 0 ∨ 60 < n.toNat → exec (.takeToken p (goodRest 0x60 [n] fill)) s
        = .next (s.answered p (waitsFor { status := .badArgument, echo := 0x60, payload := [] })))
      ∧ (1 ≤ n.toNat → n.toNat ≤ 60 →
        (s.token = .free ∨ (∃ l d, s.token = .held p l d) → exec (.takeToken p (goodRest 0x60 [n] fill)) s
          = .next { s.answered p (waitsFor { status := .ok, echo := 0x60, payload := [if p = .A then 1 else 2, n] }) with
              token := .held p n.toNat (s.timebase + BitVec.ofNat 32 (n.toNat * 10000)) })
        ∧ ∀ q l d, q ≠ p → s.token = .held q l d → exec (.takeToken p (goodRest 0x60 [n] fill)) s
          = .next (s.answered p (waitsFor { status := .heldElsewhere, echo := 0x60, payload := [] }))))
    ∧ ∀ l d, s.inReset = false → s.token = .held p l d → (s.timebase - d).toNat < 2 ^ 31 →
      exec .leaseExpiry s = .next { s with
        token := .free,
        raised := s.raised.set p (s.raised.get p
          ++ [[{ kind := .tokenLapsed, time := s.timebase, port := some p }]]) }

/-- DROP_TOKEN from the holder frees the token with no event and no setting changed; from any other port, the token FREE
or not, it is refused NO_TOKEN and the record is left as it was. That the block
takes the request in the step of the frame's end and the answer waits in the slot is the model's choice: log entry 18. -/
def Obligations.DropTokenFreesTheToken : Prop :=
  ∀ (p : Port) (fill : List Byte) (s : State), s.frameEnding p = true →
    (∀ l d, s.token = .held p l d → exec (.dropToken p (goodRest 0x61 [] fill)) s
      = .next { s.answered p (waitsFor { status := .ok, echo := 0x61, payload := [] }) with token := .free })
    ∧ ((∀ l d, s.token ≠ .held p l d) → exec (.dropToken p (goodRest 0x61 [] fill)) s
      = .next (s.answered p (waitsFor { status := .noToken, echo := 0x61, payload := [] })))

/-- A SET from the token's holder stores the value of a shared setting and restarts the lease. FAST_WINDOW and SLOW_WINDOW
make the sets past the new window STALE; POPULATION_MASK populates and clears the cells whose bits change and drops the
requests of cleared ones; AUTO_RESTART starts or discards the DOWN retry timer, or begins a restart when every module is
LOST; BALANCE_CAPACITY has every decision taken afresh. Every other setting, and a write of the value held, does nothing
more than store. -/
def Obligations.SetStoresASharedSetting : Prop :=
  ∀ (p : Port) (code index b0 b1 b2 b3 : Byte) (k : SettingId) (l : Nat) (d : Tick) (fill : List Byte) (s : State),
    s.frameEnding p = true → settingOf code = some k → setIndexGood k index.toNat = true →
    settingInRange k ((b0 ++ b1) ++ (b2 ++ b3)).toInt = true → s.token = .held p l d → perPort k = false →
    let v : Int := ((b0 ++ b1) ++ (b2 ++ b3)).toInt
    let base (st : Settings) : State := { s with
      ports := s.ports.set p { s.port p with
        frame := .idle,
        slot := waitsFor (okAnswer 0x62 ([code, index, b0, b1, b2, b3]
          ++ word16 (ceilDiv (BitVec.ofNat 32 (l * 10000)).toNat 10))) },
      settings := st,
      token := .held p l (s.timebase + BitVec.ofNat 32 (l * 10000)) }
    let result (t : State) : Prop := exec (.set p (goodRest 0x62 [code, index, b0, b1, b2, b3] fill)) s = .next t
    (k ∉ [.fastWindow, .slowWindow, .populationMask, .autoRestart, .balanceCapacity] →
      ∃ t, result t ∧ t = { base (writeSetting 0 k v s.settings) with sched := t.sched }
        ∧ ∀ m, settingValue t.settings m k = v)
    ∧ (k = .fastWindow ∨ k = .slowWindow →
      let past (m : Mod) (ch : Chan) : Prop :=
        settingValue s.settings 0 k ≠ v ∧ (deadlineOf ch = .slow ↔ k = .slowWindow)
        ∧ (chanEntry (s.moduleImage m) ch).quality = .fresh
        ∧ ∃ x i, deadlineOf x = deadlineOf ch ∧ (chanEntry (s.moduleImage m) x).quality = .fresh
          ∧ (chanEntry (s.moduleImage m) x).instant = some i ∧ v * 10 ≤ (s.timebase - i).toNat
      ∃ t, result t ∧ t = { base (writeSetting 0 k v s.settings) with
          image := { s.image with modules := t.image.modules }, raised := t.raised,
          balance := { s.balance with handoffs := t.balance.handoffs }, sched := t.sched }
        ∧ settingValue t.settings 0 k = v
        ∧ ∀ m ch, (past m ch → chanEntry (t.moduleImage m) ch = { chanEntry (s.moduleImage m) ch with quality := .stale })
          ∧ (¬past m ch → chanEntry (t.moduleImage m) ch = chanEntry (s.moduleImage m) ch))
    ∧ (∀ m, k = .populationMask → modOfNumber index.toNat = some m →
      let old : CellMask := tget s.settings.populationMask m
      let new : CellMask := b2 ++ b3
      ∃ t, result t ∧ t = { base { s.settings with populationMask := tput s.settings.populationMask m new } with
          image := { s.image with modules := t.image.modules }, limits := { s.limits with work := t.limits.work },
          raised := t.raised, balance := t.balance, sched := t.sched }
        ∧ t.balance.onTimer = s.balance.onTimer
        ∧ (∀ j ch, (∀ c, j = m → ch = .cell c → inMask old c = inMask new c) →
            chanEntry (t.moduleImage j) ch = chanEntry (s.moduleImage j) ch)
        ∧ (∀ c, inMask old c = true → inMask new c = false → tget (t.moduleImage m).cell c = clearedEntry)
        ∧ (∀ c, inMask old c = false → inMask new c = true →
            let e := tget (s.moduleImage m).cell c
            tget (t.moduleImage m).cell c =
              if e.quality = .unpopulated ∧ s.map.state = .running ∧ modNumber m ≤ s.map.n ∧ c.val < (s.record m).cellCount
              then if s.health m = .lost then { e with quality := .faulted, cause := some .noResponse }
                else { e with quality := .pending }
              else e)
        ∧ (old = new → t.balance = s.balance ∧ t.limits = s.limits)
        ∧ (old ≠ new → (∀ n xs, .receipt m n xs ∈ t.limits.work → ∀ x ∈ xs,
              (chanEntry (t.moduleImage m) x.1).quality ≠ .unpopulated)
          ∧ ∀ j, t.balanceOf j = if j = m then decideModule (s.decisionInput m) (t.moduleImage m)
                { s.balanceOf m with cells := tmap (s.balanceOf m).cells fun c r =>
                  if (tget (t.moduleImage m).cell c).quality = .unpopulated
                  then { r with request := { a := none, b := none } } else r }
              else s.balanceOf j))
    ∧ (k = .autoRestart →
      let set : State := base { s.settings with autoRestart := v == 1 }
      ∃ t, result t
        ∧ (s.settings.autoRestart = (v == 1) → t = { set with sched := t.sched })
        ∧ (s.settings.autoRestart = true → v = 0 →
          t = { set with map := { s.map with retryDue := none }, sched := t.sched })
        ∧ (s.settings.autoRestart = false → v = 1 → s.map.state = .down →
          t = { set with map := { s.map with retryDue := some (s.timebase + 10000) }, sched := t.sched })
        ∧ (s.settings.autoRestart = false → v = 1 → s.map.state = .running → 1 ≤ s.map.n →
          (∀ m, modNumber m ≤ s.map.n → s.health m = .lost) →
          t.map.state = .enumerating ∧ t.map.n = 0 ∧ t.settings = set.settings ∧ t.token = set.token
          ∧ t.ports = set.ports ∧ t.sched.items.map (·.kind) = [.release])
        ∧ (s.settings.autoRestart = false → v = 1 → s.map.state ≠ .down →
          ¬(s.map.state = .running ∧ 1 ≤ s.map.n ∧ ∀ m, modNumber m ≤ s.map.n → s.health m = .lost) →
          t = { set with sched := t.sched }))
    ∧ (k = .balanceCapacity → ∃ t, result t
        ∧ t = { base { s.settings with balanceCapacity := v.toNat } with
            balance := { s.balance with modules := t.balance.modules }, raised := t.raised, sched := t.sched }
        ∧ ∀ m, t.balanceOf m = if s.settings.balanceCapacity = v then s.balanceOf m
            else decideModule { s.decisionInput m with capacity := v.toNat } (s.moduleImage m) (s.balanceOf m))

/-- A SET of SUBSCRIBE or ALERT_MASK writes the port's own set without the token, the alert line judged afresh. That the
block takes the request in the step of the frame's end and the answer waits in the slot is the model's choice: log entry 18. -/
def Obligations.SetWritesAPortsOwnSets : Prop :=
  ∀ (p : Port) (b0 b1 b2 b3 : Byte) (fill : List Byte) (s : State), s.frameEnding p = true →
    let v : BitVec 32 := (b0 ++ b1) ++ (b2 ++ b3)
    v &&& ~~~0x3FFFE#32 = 0 →
    exec (.set p (goodRest 0x62 [0x1C, 0, b0, b1, b2, b3] fill)) s
      = .next ((s.answered p (waitsFor (okAnswer 0x62 [0x1C, 0, b0, b1, b2, b3, 0, 0]))).setQueue p
          { s.queue p with subscribe := v })
    ∧ exec (.set p (goodRest 0x62 [0x1D, 0, b0, b1, b2, b3] fill)) s
      = .next ((s.answered p (waitsFor (okAnswer 0x62 [0x1D, 0, b0, b1, b2, b3, 0, 0]))).setQueue p
          { s.queue p with alertMask := v, alert := (s.queue p).records.any (alerts v) })

/-- The refusals of DIRECT, BALANCE and SET, each in its order, change nothing but the slot. A SET's identifier, index and
value are checked before the token. -/
def Obligations.RefusalsChangeOnlyTheSlot : Prop :=
  ∀ (p : Port) (fill : List Byte) (st : Status) (s : State), s.frameEnding p = true →
    (∀ n b : Byte,
      (whatOf b = none ∧ st = .badArgument
        ∨ (whatOf b).isSome ∧ s.map.state = .enumerating ∧ st = .restarting
        ∨ (whatOf b).isSome ∧ s.map.state ≠ .enumerating ∧ (n = 0 ∨ s.map.n < n.toNat) ∧ st = .noModule
        ∨ (whatOf b).isSome ∧ s.map.state ≠ .enumerating ∧ n ≠ 0 ∧ n.toNat ≤ s.map.n
          ∧ 4 ≤ (s.ticketQueue p).tickets.length ∧ st = .queueFull) →
      exec (.direct p (goodRest 0x30 [n, b] fill)) s
        = .next (s.answered p (waitsFor { status := st, echo := 0x30, payload := [] })))
    ∧ (∀ n mh ml sh sl : Byte,
      let bad := (sh ++ sl).toNat = 0 ∨ 3600 < (sh ++ sl).toNat ∨ (mh ++ ml).toNat = 0
      (bad ∧ st = .badArgument
        ∨ ¬bad ∧ s.map.state = .enumerating ∧ st = .restarting
        ∨ ¬bad ∧ s.map.state ≠ .enumerating ∧ (n = 0 ∨ 12 < n.toNat ∨ s.map.n < n.toNat) ∧ st = .noModule
        ∨ ¬bad ∧ s.map.state ≠ .enumerating ∧ n.toNat ≤ s.map.n ∧ st = .badArgument
          ∧ ∃ m c, modOfNumber n.toNat = some m ∧ inMask (mh ++ ml) c = true
            ∧ populated (tget (s.moduleImage m).cell c) = false) →
      exec (.balance p (goodRest 0x40 [n, mh, ml, sh, sl] fill)) s
        = .next (s.answered p (waitsFor { status := st, echo := 0x40, payload := [] })))
    ∧ ∀ code index b0 b1 b2 b3 : Byte,
      (settingOf code = none ∧ st = .badArgument
        ∨ ∃ k, settingOf code = some k
          ∧ ((setIndexGood k index.toNat && settingInRange k ((b0 ++ b1) ++ (b2 ++ b3)).toInt) = false
              ∧ st = .badArgument
            ∨ setIndexGood k index.toNat = true ∧ settingInRange k ((b0 ++ b1) ++ (b2 ++ b3)).toInt = true
              ∧ k ∉ [.subscribe, .alertMask] ∧ (∀ l d, s.token ≠ .held p l d) ∧ st = .noToken)) →
      exec (.set p (goodRest 0x62 [code, index, b0, b1, b2, b3] fill)) s
        = .next (s.answered p (waitsFor { status := st, echo := 0x62, payload := [] }))

/-- GET answers the setting, the index and the value as it stands, from either port, without the token; it changes no
state and does not restart the lease. A bad identifier or index is refused. That the block
takes the request in the step of the frame's end and the answer waits in the slot is the model's choice: log entry 18. -/
def Obligations.GetAnswersTheValue : Prop :=
  ∀ (p : Port) (code index : Byte) (fill : List Byte) (s : State), s.frameEnding p = true →
    ((∀ k, settingOf code = some k → getIndexGood k index.toNat = false) →
      exec (.get p (goodRest 0x63 [code, index] fill)) s
        = .next (s.answered p (waitsFor { status := .badArgument, echo := 0x63, payload := [] })))
    ∧ ∀ k v, settingOf code = some k →
      (k = .populationMask ∧ (∃ m, modOfNumber index.toNat = some m ∧ v = settingValue s.settings m k)
        ∨ k = .subscribe ∧ (index = 1 ∧ v = (s.queue .A).subscribe.toNat ∨ index = 2 ∧ v = (s.queue .B).subscribe.toNat)
        ∨ k = .alertMask ∧ (index = 1 ∧ v = (s.queue .A).alertMask.toNat ∨ index = 2 ∧ v = (s.queue .B).alertMask.toNat)
        ∨ k ∉ [.populationMask, .subscribe, .alertMask] ∧ index = 0 ∧ v = settingValue s.settings 0 k) →
      exec (.get p (goodRest 0x63 [code, index] fill)) s
        = .next (s.answered p (waitsFor (okAnswer 0x63 ([code, index] ++ bytes32 (BitVec.ofInt 32 v)))))

/-! ## Chain Map -/

/-- A chain restart, by CHAIN_RESTART from the token's holder or by DOWN_RETRY_EXPIRY: the chain is ENUMERATING with no
module, every populated entry is FAULTED (RESTART), passes, tickets, transactions and balance requests are gone, each
port's tickets and requests are reported to it, and RELEASE_ALL is the one item offered. That an instant has been reached
is read as a difference below 2³¹: the model's inference, log entry 4; that the tickets are reported by one event, and
ahead of the requests, is the model's choice: log entries 9 and 6. -/
def Obligations.ChainRestartEndsEverythingOnTheChain : Prop :=
  ∀ s : State,
    let restarted (t : State) : Prop :=
      t.map.state = .enumerating ∧ t.map.n = 0 ∧ t.map.retryDue = none ∧ (∀ m, t.health m = .absent)
      ∧ (∀ m ch, chanEntry (t.moduleImage m) ch =
          if populated (chanEntry (s.moduleImage m) ch)
          then { chanEntry (s.moduleImage m) ch with quality := .faulted, cause := some .restart }
          else chanEntry (s.moduleImage m) ch)
      ∧ t.image.counter = s.image.counter ∧ t.linkTime = s.linkTime
      ∧ (∀ u, t.passOf u = none) ∧ t.reserved = false ∧ t.sweep.state = .halted ∧ t.sweep.pointer = 0
      ∧ t.sweep.nextBoundary = none ∧ (∀ q, (t.ticketQueue q).tickets = [])
      ∧ (∀ i, t.slot i = none) ∧ t.link.resendQueue = [] ∧ t.sched.items.map (·.kind) = [.release]
      ∧ (∀ m, (t.balanceOf m).commanded = .mask 0 ∧ (t.balanceOf m).hold = false
          ∧ ∀ c, requested (tget (t.balanceOf m).cells c) = false
            ∧ (tget (t.balanceOf m).cells c).inhibit = (tget (s.balanceOf m).cells c).inhibit
            ∧ (tget (t.balanceOf m).cells c).onTime = (tget (s.balanceOf m).cells c).onTime)
      ∧ (∀ q, t.raised.get q = s.raised.get q ++ storing (ticketRestarts q s) ++ storing (requestRestarts q s))
      ∧ t.settings = s.settings ∧ t.limits = s.limits ∧ t.queues = s.queues ∧ t.chain = s.chain
    (∀ p fill l d, s.frameEnding p = true → s.token = .held p l d →
      ∃ t, exec (.chainRestart p (goodRest 0x70 [] fill)) s = .next t ∧ restarted t
        ∧ t.token = .held p l (s.timebase + BitVec.ofNat 32 (l * 10000))
        ∧ t.ports = s.ports.set p { s.port p with
            frame := .idle, slot := waitsFor { status := .ok, echo := 0x70, payload := [] } })
    ∧ (∀ p fill, s.frameEnding p = true → (∀ l d, s.token ≠ .held p l d) →
      exec (.chainRestart p (goodRest 0x70 [] fill)) s
        = .next (s.answered p (waitsFor { status := .noToken, echo := 0x70, payload := [] })))
    ∧ ∀ due, s.inReset = false → s.map.retryDue = some due → (s.timebase - due).toNat < 2 ^ 31 →
      ∃ t, exec .downRetryExpiry s = .next t ∧ restarted t ∧ t.token = s.token ∧ t.ports = s.ports

/-- READ_MAP answers the map as it stands, in every chain state, and changes nothing. -/
def Obligations.ReadMapAnswersTheMap : Prop :=
  ∀ (p : Port) (fill : List Byte) (s : State), s.frameEnding p = true →
    exec (.readMap p (goodRest 0x71 [] fill)) s = .next (s.answered p (waitsFor (okAnswer 0x71
      ([chainStateCode s.map.state, byteOf s.map.n, endReasonCode s.map.endReason]
        ++ bytes32 (s.map.endInstant.getD 0)
        ++ word16 (match s.map.retryDue with
            | some due => ceilDiv (ticksLeft s.timebase due) 10
            | none => 0xFFFF)
        ++ (List.finRange 12).flatMap fun m =>
          let r := s.record m
          [byteOf (modNumber m),
           (match r.state with | .absent => 0 | .active => 1 | .suspect => 2 | .lost => 3),
           byteOf r.cellCount, byteOf r.tempCount, byteOf r.revision, byteOf r.failures,
           (if r.lastSuccess.isSome then 1 else 0) + (if (s.balanceOf m).commanded = .unknown then 2 else 0)
             + (if r.mark then 4 else 0)]
          ++ bytes32 (r.lastSuccess.getD 0)
          ++ bytes16 (match (s.balanceOf m).commanded with | .mask k => k | .unknown => 0)))))

/-! ## Chain link -/

/-- GRANT takes the lane when it is free and some item is grantable, and does nothing otherwise. The item it takes is
grantable and no grantable item comes before it: by rung, on one rung by the port not served last, then by the ready
instant, then by the module number. That a GRANT without a grantable item does nothing is the model's choice: log entry 1;
that ready instants are those of link time, and that every tie goes to the lower module number, is the model's inference:
log entry 17. The item leaves the scheduler. RELEASE_ALL is broadcast without a slot or a tag; an
enumeration step, a stand-alone update, a recovery PING or a pass's read fills the lowest free slot, draws the next free
tag and puts the command frame on the lane. -/
def Obligations.GrantSendsTheChosenItem : Prop :=
  ∀ s : State, s.inReset = false →
    let rung (k : ItemKind) : Nat := match k with
      | .release | .assign | .probe => 1
      | .update m => if (match (s.balanceOf m).commanded with
          | .unknown => true
          | .mask on => on &&& ~~~(s.balanceOf m).decided != 0) then 2 else 6
      | .passStep u .first => match s.passOf u with
          | some x => if x.origin = .directedA ∨ x.origin = .directedB then 5
              else if x.parts.any (fun y => s.urgentModule y.module) then 4 else 7
          | none => 7
      | .passStep _ _ => 3
      | .ping m => if s.sweep.visit = .pinging ∧ s.sweep.pointer = modNumber m
          ∧ ∃ k, modNumber m < modNumber k ∧ modNumber k ≤ s.map.n ∧ s.urgentModule k = true then 4 else 8
    let servedLast (k : ItemKind) : Nat := match k with
      | .passStep u .first => match s.passOf u with
          | some x => if x.origin = directedOrigin s.sched.lastServed then 1 else 0
          | none => 0
      | _ => 0
    let ready (it : WorkItem) : Nat := it.readySince.getD s.linkTime
    let notAfter (it jt : WorkItem) : Prop :=
      rung it.kind < rung jt.kind ∨ rung it.kind = rung jt.kind ∧
        (servedLast it.kind < servedLast jt.kind ∨ servedLast it.kind = servedLast jt.kind ∧
          (ready it < ready jt ∨ ready it = ready jt ∧ itemNumber it.kind ≤ itemNumber jt.kind))
    let free : Prop := s.link.sending = none ∧ s.link.idleUntil = none ∧ s.link.gapUntil = none
      ∧ s.link.resendQueue = []
    ((¬free ∨ ∀ jt ∈ s.sched.items, grantable s jt = false) → exec .grant s = .next s)
    ∧ (free → (∃ jt ∈ s.sched.items, grantable s jt = true) → ∃ it, s.grantDue = some it)
    ∧ ∀ it, s.grantDue = some it →
      free ∧ it ∈ s.sched.items ∧ grantable s it = true
      ∧ (∀ jt ∈ s.sched.items, grantable s jt = true → notAfter it jt)
      ∧ (∃ t, exec .grant s = .next t ∧ it.kind ∉ t.sched.items.map (·.kind))
      ∧ (it.kind = .release → ∃ t, exec .grant s = .next t
        ∧ t = { s with
            sched := t.sched,
            link := { s.link with
              sending := some { bytes := commandBytes 15 1 0 .empty, endAt := s.linkTime + 20, slot := none,
                                broadcast := true, release := true } } })
      ∧ ∀ role owner node verb payload i tag,
        (it.kind = .assign ∧ role = .assign ∧ owner = .enumeration ∧ node = 0 ∧ verb = 2
            ∧ payload = .number s.map.nextNumber
          ∨ it.kind = .probe ∧ role = .probe ∧ owner = .enumeration ∧ node = 0 ∧ verb = 3 ∧ payload = .empty
          ∨ (∃ m, it.kind = .update m ∧ role = .update ∧ owner = .balance ∧ node = modNumber m ∧ verb = 7
            ∧ payload = .mask (s.balanceOf m).decided)
          ∨ (∃ m, it.kind = .ping m ∧ role = .ping ∧ owner = .sweep ∧ node = modNumber m ∧ verb = 3
            ∧ payload = .empty)
          ∨ ∃ u x y, s.passOf u = some x ∧ (x.parts.find? fun z => z.step = .reading ∨ z.step = .restoring) = some y
            ∧ owner = .pass u ∧ node = modNumber y.module ∧ payload = .empty
            ∧ (it.kind = .passStep u .readCells ∧ role = .readCells ∧ verb = 5
              ∨ it.kind = .passStep u .readAux ∧ role = .readAux ∧ verb = 6)) →
        freeSlot s.link = some i → drawTag s.link = some tag →
        ∃ t, exec .grant s = .next t
          ∧ t = { s with sched := t.sched, link := { s.link with
              lastTag := tag,
              slots := tput s.link.slots i (some
                { tag := some tag, node := node, role := role, owner := owner, payload := payload,
                  sendInstant := s.timebase, windowEnd := none, window := s.settings.responseWindow * 10,
                  attemptLimit := 1 + s.settings.retryLimit, attemptsUsed := 1 }),
              sending := some
                { bytes := commandBytes node verb tag payload,
                  endAt := s.linkTime + 4 * (commandBytes node verb tag payload).length, slot := some i,
                  broadcast := false, release := false } } }
          ∧ tagBusy s.link tag = false ∧ s.slot i = none

/-- The grants of a pass's quiesce, CONVERT and restore. The first grant of a pass quiesces when the mode is QUIESCE and a
module's commanded mask is not known to be empty, and converts otherwise; a directed pass makes its port the one served
last. A quiesce of one module begins its hold period; the broadcast quiesces every participant that is not LOST, its
commanded mask empty and its hold period begun, and the settle timer starts or the CONVERT is offered at once. A CONVERT
takes the conversion instant at the sending, and a broadcast one starts the wait. A restore ends the hold period first and
carries the decided mask after that. That a LOST participant's mask counts for the quiesce decision, and that LOST
participants are neither quiesced nor held, is the model's inference: log entry 11. -/
def Obligations.ConvertGrantTakesTheInstant : Prop :=
  ∀ (u : Target) (act : PassAct) (x : Pass) (it : WorkItem) (s : State), s.inReset = false →
    s.grantDue = some it → it.kind = .passStep u act → s.passOf u = some x →
    let quiesces : Prop := x.quiesce = true ∧ ∃ y ∈ x.parts, (s.balanceOf y.module).commanded ≠ .mask 0
    let converts : Prop := act = .convert ∨ act = .first ∧ ¬quiesces
    let served (t : State) : Prop :=
      t.sched.lastServed = if act = .first ∧ x.origin = .directedA then .A
        else if act = .first ∧ x.origin = .directedB then .B else s.sched.lastServed
    let converting : Pass := { x with
      step := .converting, instant := some s.timebase,
      parts := x.parts.map fun y => { y with
        balanced := !y.quiesced && (s.balanceOf y.module).commanded != .mask 0 } }
    let decided (m : Mod) (b : BalanceModule) : BalanceModule := decideModule (s.decisionInput m) (s.moduleImage m) b
    let broadcast (verb : Nat) (p : Payload) : Link := { s.link with
      sending := some { bytes := commandBytes 15 verb 0 p, endAt := s.linkTime + 4 * (commandBytes 15 verb 0 p).length,
                        slot := none, broadcast := true, release := false } }
    (∀ (i : Fin 4) (tag : BitVec 4), freeSlot s.link = some i → drawTag s.link = some tag →
      let unicast (m : Mod) (role : Role) (verb : Nat) (p : Payload) : Link := { s.link with
        lastTag := tag,
        slots := tput s.link.slots i (some
          { tag := some tag, node := modNumber m, role := role, owner := .pass u, payload := p,
            sendInstant := s.timebase, windowEnd := none, window := s.settings.responseWindow * 10,
            attemptLimit := 1 + s.settings.retryLimit, attemptsUsed := 1 }),
        sending := some { bytes := commandBytes (modNumber m) verb tag p,
                          endAt := s.linkTime + 4 * (commandBytes (modNumber m) verb tag p).length,
                          slot := some i, broadcast := false, release := false } }
      (∀ m, u = .one m → converts → ∃ t, exec .grant s = .next t ∧ served t
        ∧ t = { s with sched := t.sched, link := unicast m .convert 4 (.what x.what),
                       passes := tput s.passes m (some converting) })
      ∧ (∀ m, u = .one m → act = .first → quiesces → ∃ t, exec .grant s = .next t ∧ served t
        ∧ t = { s with
            sched := t.sched, link := unicast m .quiesce 7 (.mask 0),
            passes := tput s.passes m (some { x with
              step := .quiescing,
              parts := x.parts.map fun y => if y.module = m then { y with quiesced := true } else y }),
            balance := { s.balance with
              modules := tput s.balance.modules m (decided m { s.balanceOf m with hold := true }) },
            raised := t.raised })
      ∧ ∀ y, act = .restore → (x.parts.find? fun z => z.step = .reading ∨ z.step = .restoring) = some y →
        let b := s.balanceOf y.module
        let b' := if b.hold then decided y.module { b with hold := false } else b
        ∃ t, exec .grant s = .next t ∧ served t
          ∧ t = { s with
              sched := t.sched, link := unicast y.module .restore 7 (.mask b'.decided),
              balance := { s.balance with modules := tput s.balance.modules y.module b' }, raised := t.raised })
    ∧ (u = .all → converts → ∃ t, exec .grant s = .next t ∧ served t
      ∧ t = { s with
          sched := t.sched, link := broadcast 4 (.what x.what),
          aligned := some { converting with
            timer := some { kind := .conversion, due := s.timebase + BitVec.ofNat 32 x.waitTicks } } })
    ∧ (u = .all → act = .first → quiesces → (x.parts.map (·.module)).Nodup → ∃ t, exec .grant s = .next t ∧ served t
      ∧ t = { s with
          sched := t.sched, link := broadcast 7 (.mask 0),
          aligned := some { x with
            step := .settling,
            timer := if x.settleTicks = 0 then none
              else some { kind := .settle, due := s.timebase + BitVec.ofNat 32 x.settleTicks },
            parts := x.parts.map fun y => if s.health y.module ≠ .lost then { y with quiesced := true } else y },
          balance := { s.balance with modules := t.balance.modules }, raised := t.raised }
      ∧ (∀ m, t.balanceOf m =
          if (∃ y ∈ x.parts, y.module = m) ∧ s.health m ≠ .lost
          then decided m { s.balanceOf m with commanded := .mask 0, hold := true } else s.balanceOf m)
      ∧ (x.settleTicks = 0 → .passStep .all .convert ∈ t.sched.items.map (·.kind)))

/-- The end of a frame's transmission starts the lane's idle and the window of a unicast's slot, or the gap of a
broadcast and the pause of RELEASE_ALL, and the chain receives the frame. What the modules do with the frame is the
model's chain: log entry 14. -/
def Obligations.TransmissionEndStartsTheTimers : Prop :=
  ∀ (f : Sending) (noise : List (List Byte)) (s : State), s.inReset = false → s.link.sending = some f →
    f.endAt ≤ s.linkTime →
    ∃ t, exec (.frameTransmissionEnd noise) s = .next t
      ∧ t = { s with link := t.link, map := { s.map with pauseEnd := t.map.pauseEnd }, chain := t.chain,
                     upLane := t.upLane }
      ∧ t.link = { s.link with sending := none, idleUntil := some (s.linkTime + 2), gapUntil := t.link.gapUntil,
                               slots := t.link.slots }
      ∧ t.link.gapUntil = (if f.broadcast then some (s.linkTime + 20) else s.link.gapUntil)
      ∧ t.map.pauseEnd = (if f.release then some (s.linkTime + 1000) else s.map.pauseEnd)
      ∧ (∀ i, some i ≠ f.slot → t.slot i = s.slot i)
      ∧ (∀ i x, f.slot = some i → s.slot i = some x → x.tag ≠ none →
          t.slot i = some { x with windowEnd := some (s.linkTime + x.window) })
      ∧ (t.chain, t.upLane) = ((deliver (s.chainEpoch + s.linkTime) 0 f.bytes.tail noise s.chain).1,
          s.upLane ++ (deliver (s.chainEpoch + s.linkTime) 0 f.bytes.tail noise s.chain).2)

/-- LINK_IDLE_END, BROADCAST_GAP_END, QUARANTINE_END and RELEASE_PAUSE_EXPIRY, each at its instant, end what they name:
the lane is idle no longer, the gap is over, the tag can be drawn again, ASSIGN(1) is offered. -/
def Obligations.LinkTimersEnd : Prop :=
  ∀ (s : State) (at_ : Nat), s.inReset = false → at_ ≤ s.linkTime →
    (s.link.idleUntil = some at_ →
      exec .linkIdleEnd s = .next { s with link := { s.link with idleUntil := none } })
    ∧ (s.link.gapUntil = some at_ →
      exec .broadcastGapEnd s = .next { s with link := { s.link with gapUntil := none } })
    ∧ (∀ tag, { tag := tag, endAt := at_ } ∈ s.link.quarantine →
      exec (.quarantineEnd tag) s = .next { s with link := { s.link with
        quarantine := s.link.quarantine.filter fun q => q.tag != tag } })
    ∧ (s.map.pauseEnd = some at_ →
      ∃ t, exec .releasePauseExpiry s = .next t
        ∧ t = { s with map := { s.map with pauseEnd := none, nextNumber := 1 }, sched := t.sched }
        ∧ .assign ∈ t.sched.items.map (·.kind))

/-- A bad frame on the up lane is counted and dropped; a good frame that matches no held slot is counted late; one that
says BAD_CHECK_SEEN of a slot with attempts left puts it in the re-send queue without a tag. A lane that fell idle in
mid-frame counts a bad frame. Bytes in which no frame begins are dropped and not counted: the model's choice, log entry
12. What the frame that completes a slot does is stated with the outcomes. -/
def Obligations.ArrivalsAreCountedOrMatched : Prop :=
  ∀ (bytes : List Byte) (first : TakenFirst) (s : State), s.inReset = false →
    exec .upLaneFellIdle s = .next { s with
      upLane := s.upLane.tail, link := { s.link with badCrc := min 65535 (s.link.badCrc + 1) } }
    ∧ (receive bytes = .bad → exec (.responseArrival bytes first) s = .next { s with
      upLane := s.upLane.tail, link := { s.link with badCrc := min 65535 (s.link.badCrc + 1) } })
    ∧ (receive bytes = .noFrame → exec (.responseArrival bytes first) s = .next { s with upLane := s.upLane.tail })
    ∧ ∀ f, receive bytes = .good f →
      ((∀ i x, s.slot i = some x → x.tag = some f.tag → x.node ≠ f.node) →
        ∃ t, exec (.responseArrival bytes first) s = .next t
          ∧ t = { s with upLane := s.upLane.tail, sched := t.sched,
                         link := { s.link with late := min 65535 (s.link.late + 1) } })
      ∧ ∀ i x, LinkInv s → s.slot i = some x → x.tag = some f.tag → x.node = f.node → f.status = 4 →
        x.attemptsUsed < x.attemptLimit →
        ∃ t, exec (.responseArrival bytes first) s = .next t
          ∧ t = { s with upLane := s.upLane.tail, sched := t.sched, link := { s.link with
              slots := tput s.link.slots i (some { x with tag := none, windowEnd := none }),
              resendQueue := s.link.resendQueue ++ [i] } }

/-- The OK to a stand-alone balance update frees its slot and makes the mask of that sending the module's commanded mask; as
a success it makes the module ACTIVE, with MODULE_FOUND if it was LOST, unless its descriptor mark is set, in whichever order
the two blocks take it. Any other status leaves the mask UNKNOWN and is one failure of the module. Of a single-module pass, an
OK to the quiesce empties the commanded mask and starts the settle timer or offers the CONVERT at once, an OK to the CONVERT
starts the wait, and an OK to the restore makes its mask the commanded one and ends the pass, or the part of an aligned pass.
A transaction of a pass that is answered as failed, a read that is NOT_CONVERTED, NOT_READY again or short of samples among
them, is one failure of the module and no success, a quiesce or restore then leaving the mask UNKNOWN; what was quiesced is
restored, and otherwise the pass, or the part, ends ABORTED; a loss by that failure ends the pass too. That a BAD_VERB to a
read, and an OK of another length, are failures is the model's choice: log entries 23, 12 and 22. -/
def Obligations.UpdateAnsweredSetsTheCommandedMask : Prop :=
  (∀ (bytes : List Byte) (first : TakenFirst) (f : ResponseFrame) (i : Fin 4) (x : TxnSlot) (m : Mod) (k : CellMask)
    (s : State), s.inReset = false → LinkInv s → receive bytes = .good f → f.status = 0 →
    s.slot i = some x → x.tag = some f.tag → x.node = f.node → x.node = modNumber m → x.role = .update →
    x.owner = .balance → x.payload = .mask k → s.health m ≠ .absent →
    let r := s.record m
    ∃ t, exec (.responseArrival bytes first) s = .next t
      ∧ t = { s with
          upLane := s.upLane.tail,
          sched := t.sched,
          link := { s.link with slots := tput s.link.slots i none },
          balance := {
            modules := tput s.balance.modules m { s.balanceOf m with commanded := .mask k },
            onTimer := s.balance.onTimer,
            handoffs := s.balance.handoffs ++ if r.mark = false ∧ r.state ≠ .active then [m] else [] },
          raised := t.raised,
          map := { s.map with
            records := tput s.map.records m (if r.mark = true then r
              else { r with state := .active, failures := 0, lastSuccess := some s.timebase }) } }
      ∧ ∀ q, t.raised.get q = s.raised.get q ++ storing (if r.mark = false ∧ r.state = .lost
          then [{ kind := .moduleFound, time := s.timebase, module := some m }] else []))
  ∧ (∀ (bytes : List Byte) (first : TakenFirst) (f : ResponseFrame) (i : Fin 4) (x : TxnSlot) (m : Mod) (s : State),
    s.inReset = false → LinkInv s → receive bytes = .good f → f.status ≠ 0 → f.status ≠ 4 →
    s.slot i = some x → x.tag = some f.tag → x.node = f.node → x.node = modNumber m → x.role = .update →
    x.owner = .balance → s.health m ≠ .absent →
    let count := min 7 ((s.record m).failures + 1)
    let newlyLost : Prop := s.health m ≠ .lost ∧ s.settings.lostThreshold ≤ count
    let lastOne : Prop := s.settings.autoRestart = true ∧ s.map.state = .running ∧ 1 ≤ s.map.n
      ∧ ∀ k, modNumber k ≤ s.map.n → k ≠ m → s.health k = .lost
    ¬(newlyLost ∧ lastOne) → ∃ t, exec (.responseArrival bytes first) s = .next t
      ∧ t.slot i = none ∧ (t.balanceOf m).commanded = .unknown
      ∧ t.map = { s.map with
          records := tput s.map.records m { s.record m with
            failures := count,
            state := if s.health m = .lost ∨ s.settings.lostThreshold ≤ count then .lost else .suspect } }
      ∧ (newlyLost → ∀ q, [{ kind := .moduleLost, time := s.timebase, module := some m }] ∈ t.raised.get q)
      ∧ (¬newlyLost →
        t = { s with
          upLane := s.upLane.tail,
          sched := t.sched,
          link := { s.link with slots := tput s.link.slots i none },
          balance := {
            modules := tput s.balance.modules m { s.balanceOf m with commanded := .unknown },
            onTimer := s.balance.onTimer,
            handoffs := s.balance.handoffs ++ if s.health m = .active then [m] else [] },
          raised := t.raised,
          map := t.map }
        ∧ ∀ q, t.raised.get q = s.raised.get q ++ storing (if s.health m = .active
            then [{ kind := .moduleSuspect, time := s.timebase, module := some m, value := some count }] else [])))
  ∧ (∀ (bytes : List Byte) (first : TakenFirst) (f : ResponseFrame) (i : Fin 4) (x : TxnSlot) (m : Mod) (p : Pass)
      (y : Part) (s : State), s.inReset = false → LinkInv s → receive bytes = .good f →
    s.slot i = some x → x.tag = some f.tag → x.node = f.node → x.node = modNumber m → x.owner = .pass (.one m) →
    s.passOf (.one m) = some p → p.parts = [y] → y.module = m → s.health m = .active → (s.record m).mark = false →
    let success : ChainMap := { s.map with
      records := tput s.map.records m { s.record m with failures := 0, lastSuccess := some s.timebase } }
    let took (p' : Pass) (b : BalanceModule) (c : ChainMap) (t : State) : Prop := t = { s with
      upLane := s.upLane.tail, sched := t.sched, link := { s.link with slots := tput s.link.slots i none },
      passes := tput s.passes m (some p'),
      balance := { s.balance with modules := tput s.balance.modules m b, handoffs := t.balance.handoffs },
      map := c, raised := t.raised }
    (x.role = .quiesce → f.status = 0 → ∃ t, exec (.responseArrival bytes first) s = .next t
      ∧ took { p with
            step := .settling,
            timer := if p.settleTicks = 0 then none
              else some { kind := .settle, due := s.timebase + BitVec.ofNat 32 p.settleTicks } }
          { s.balanceOf m with commanded := .mask 0 } success t
      ∧ t.balance.handoffs = s.balance.handoffs ∧ t.raised = s.raised
      ∧ (p.settleTicks = 0 → .passStep (.one m) .convert ∈ t.sched.items.map (·.kind)))
    ∧ (x.role = .convert → f.status = 0 → ∃ t, exec (.responseArrival bytes first) s = .next t
      ∧ took { p with timer := some { kind := .conversion, due := s.timebase + BitVec.ofNat 32 p.waitTicks } }
          (s.balanceOf m) success t
      ∧ t.balance.handoffs = s.balance.handoffs ∧ t.raised = s.raised)
    ∧ (∀ k, x.role = .restore → f.status = 0 → x.payload = .mask k → TicketInv s → NoTicketWaits s →
      ∃ t, exec (.responseArrival bytes first) s = .next t ∧ (t.balanceOf m).commanded = .mask k ∧ t.map = success
        ∧ t.image = s.image ∧ t.slot i = none ∧ PassEnded m p y.cellRenewal y.auxRenewal s t))
  ∧ ∀ (bytes : List Byte) (first : TakenFirst) (f : ResponseFrame) (i : Fin 4) (x : TxnSlot) (u : Target) (m : Mod)
      (p : Pass) (y : Part) (s : State), s.inReset = false → LinkInv s → receive bytes = .good f → f.status ≠ 4 →
    s.slot i = some x → x.tag = some f.tag → x.node = f.node → x.node = modNumber m → x.owner = .pass u →
    s.passOf u = some p → (p.parts.find? fun z => z.module = m) = some y →
    (∀ k, x.role = .restore → f.status = 0 → x.payload = .mask k → u = .all → s.health m = .active →
      (s.record m).mark = false → TicketInv s → NoTicketWaits s →
      ∃ t, exec (.responseArrival bytes first) s = .next t ∧ (t.balanceOf m).commanded = .mask k
        ∧ t.slot i = none ∧ t.image = s.image ∧ AlignedPartEnded m .complete p s t
        ∧ t.map = { s.map with
            records := tput s.map.records m { s.record m with failures := 0, lastSuccess := some s.timebase } })
    ∧ (let again (done : Bool) : Prop := f.status = 2 ∨ f.status = 3 ∨ f.status = 1 ∧ done = true
      let short (length count : Nat) : Prop := f.status = 0 ∧ (f.payload.length ≠ length ∨ (f.payload.getD 0 0).toNat ≠ count)
      let c := (s.record m).cellCount
      let k := (s.record m).tempCount
      ((x.role = .quiesce ∨ x.role = .convert ∨ x.role = .restore) ∧ f.status ≠ 0
        ∨ x.role = .readCells ∧ (again y.rereadCells ∨ short (3 + 2 * c) c)
        ∨ x.role = .readAux ∧ (again y.rereadAux ∨ short (6 + 2 * k) k)) →
      first ≠ .originatorAndGrant → s.health m = .active ∨ s.health m = .suspect →
      let count := min 7 ((s.record m).failures + 1)
      let lastOne : Prop := s.settings.autoRestart = true ∧ s.map.state = .running ∧ 1 ≤ s.map.n
        ∧ ∀ k, modNumber k ≤ s.map.n → k ≠ m → s.health k = .lost
      let failed : ChainMap := { s.map with
        records := tput s.map.records m { s.record m with
          failures := count, state := if s.settings.lostThreshold ≤ count then .lost else .suspect } }
      let aborted : Pass := { p with
        parts := p.parts.map fun z => if z.module = m then { z with outcome := some .aborted } else z }
      (y.quiesced = true → x.role ≠ .restore → count < s.settings.lostThreshold →
        ∃ t, exec (.responseArrival bytes first) s = .next t
          ∧ t = { s.setPass u (some { aborted with
                step := if u = .all then p.step else .restoring, timer := none,
                parts := aborted.parts.map fun z => if z.module = m then { z with step := .restoring } else z }) with
              upLane := s.upLane.tail, sched := t.sched, link := { s.link with slots := tput s.link.slots i none },
              balance := {
                modules := tput s.balance.modules m { s.balanceOf m with
                  commanded := if x.role = .quiesce then .unknown else (s.balanceOf m).commanded },
                onTimer := s.balance.onTimer,
                handoffs := s.balance.handoffs ++ if s.health m = .active then [m] else [] },
              map := failed, raised := t.raised }
          ∧ (∀ q, t.raised.get q = s.raised.get q ++ storing (if s.health m = .active
              then [{ kind := .moduleSuspect, time := s.timebase, module := some m, value := some count }] else []))
          ∧ .passStep u .restore ∈ t.sched.items.map (·.kind))
      ∧ (y.quiesced = false ∨ x.role = .restore → count < s.settings.lostThreshold → TicketInv s → NoTicketWaits s →
        ∃ t, exec (.responseArrival bytes first) s = .next t ∧ t.map = failed ∧ t.image = s.image
          ∧ (x.role = .quiesce ∨ x.role = .restore → (t.balanceOf m).commanded = .unknown)
          ∧ (u = .one m → PassEnded m p y.cellRenewal y.auxRenewal s t)
          ∧ (u = .all → AlignedPartEnded m .aborted (if x.role = .restore then aborted else p) s t))
      ∧ (u = .one m → s.settings.lostThreshold ≤ count → ¬lastOne → PassInv s → TicketInv s → NoTicketWaits s →
        ∃ t, exec (.responseArrival bytes first) s = .next t ∧ t.map = failed
          ∧ (∀ q, [{ kind := .moduleLost, time := s.timebase, module := some m }] ∈ t.raised.get q)
          ∧ PassEnded m p y.cellRenewal y.auxRenewal s t))

/-- A successful ASSIGN records the module as ACTIVE with its descriptor, counts it in N, makes its qualifying entries
PENDING and offers the next step; the Image's other entries stand. An ASSIGN that fails or describes no module ends the
enumeration, and so does the length probe, whether it is answered or not. With modules found the chain is then RUNNING,
CHAIN_READY is raised, and CHAIN_COUNT_MISMATCH with it where the chain is too long or not as long as expected, and the
first sweep starts; with none it is DOWN. That an OK whose payload is not three bytes describes no module either is the
model's inference: log entry 12. -/
def Obligations.AssignRecordsTheModule : Prop :=
  (∀ (bytes : List Byte) (first : TakenFirst) (f : ResponseFrame) (i : Fin 4) (x : TxnSlot) (m : Mod) (c k r : Byte)
    (s : State), s.inReset = false → LinkInv s → receive bytes = .good f → f.status = 0 → f.payload = [c, k, r] →
    1 ≤ c.toNat → c.toNat ≤ 16 → k.toNat ≤ 4 →
    s.slot i = some x → x.tag = some f.tag → x.node = f.node → x.node = 0 → x.role = .assign →
    x.owner = .enumeration → s.map.state = .enumerating → s.map.nextNumber = modNumber m →
    ∃ t, exec (.responseArrival bytes first) s = .next t
      ∧ t = { s with upLane := s.upLane.tail, sched := t.sched, image := { s.image with modules := t.image.modules },
                     link := { s.link with slots := tput s.link.slots i none },
                     balance := { s.balance with handoffs := t.balance.handoffs },
                     map := { s.map with
                       n := modNumber m,
                       nextNumber := if modNumber m < 12 then modNumber m + 1 else 0,
                       records := tput s.map.records m { s.record m with
                         state := .active, failures := 0, lastSuccess := none, cellCount := c.toNat,
                         tempCount := k.toNat, revision := r.toNat } } }
      ∧ (if modNumber m < 12 then .assign else .probe) ∈ t.sched.items.map (·.kind)
      ∧ ∀ j ch, chanEntry (t.moduleImage j) ch =
          if j = m ∧ (chanEntry (s.moduleImage j) ch).quality = .unpopulated
            ∧ (match ch with
              | .cell a => decide (a.val < c.toNat) && inMask (tget s.settings.populationMask m) a
              | .temp a => decide (a.val < k.toNat)
              | _ => true) = true
          then { chanEntry (s.moduleImage j) ch with quality := .pending }
          else chanEntry (s.moduleImage j) ch)
  ∧ ∀ (i : Fin 4) (first : TakenFirst) (x : TxnSlot) (reason : EndReason) (s : State), s.inReset = false →
    s.slot i = some x → x.node = 0 → x.owner = .enumeration → s.map.state = .enumerating →
    (∀ bytes f, LinkInv s → receive bytes = .good f → x.tag = some f.tag → x.node = f.node → f.status ≠ 4 →
      (x.role = .probe ∧ reason = .tooLong
        ∨ x.role = .assign ∧ f.status ≠ 0 ∧ reason = .assignFailed
        ∨ x.role = .assign ∧ f.status = 0 ∧ reason = .badDescriptor
          ∧ ∀ c k r : Byte, f.payload = [c, k, r] → c.toNat = 0 ∨ 16 < c.toNat ∨ 4 < k.toNat) →
      ∃ t, exec (.responseArrival bytes first) s = .next t ∧ t.slot i = none ∧ EnumerationEnded reason s t)
    ∧ ∀ e, x.windowEnd = some e → e ≤ s.linkTime → x.attemptLimit ≤ x.attemptsUsed →
      (x.role = .probe ∧ reason = .full ∨ x.role = .assign ∧ reason = .assignFailed) →
      ∃ t, exec (.responseTimeout i first) s = .next t ∧ EnumerationEnded reason s t

/-- A response window that runs out quarantines the slot's tag for twice its window, and the slot waits for its re-send
while attempts are left. At the attempt limit the transaction has failed: the slot is released, the failure is counted,
and the module is SUSPECT or, at LOST_THRESHOLD, LOST, its entries FAULTED (NO_RESPONSE), the loss reported and its pass
ended; a BALANCE_SET that has failed leaves the commanded mask UNKNOWN. When the loss is that of the last module and
AUTO_RESTART is ON, a chain restart begins. -/
def Obligations.TimeoutQuarantinesTheTag : Prop :=
  ∀ (i : Fin 4) (first : TakenFirst) (x : TxnSlot) (tag : BitVec 4) (e : Nat) (s : State), s.inReset = false →
    s.slot i = some x → x.tag = some tag → x.windowEnd = some e → e ≤ s.linkTime →
    (x.attemptsUsed < x.attemptLimit →
      ∃ t, exec (.responseTimeout i first) s = .next t
        ∧ t = { s with sched := t.sched, link := { s.link with
            slots := tput s.link.slots i (some { x with tag := none, windowEnd := none }),
            resendQueue := s.link.resendQueue ++ [i],
            quarantine := s.link.quarantine ++ [{ tag := tag, endAt := s.linkTime + 2 * x.window }] } })
    ∧ ∀ m, x.attemptLimit ≤ x.attemptsUsed → x.node = modNumber m → x.owner ≠ .enumeration → s.health m ≠ .absent →
      let count := min 7 ((s.record m).failures + 1)
      let newlyLost : Prop := s.health m ≠ .lost ∧ s.settings.lostThreshold ≤ count
      let lastOne : Prop := s.settings.autoRestart = true ∧ s.map.state = .running ∧ 1 ≤ s.map.n
        ∧ ∀ k, modNumber k ≤ s.map.n → k ≠ m → s.health k = .lost
      (newlyLost → lastOne → ∃ t, exec (.responseTimeout i first) s = .next t ∧ t.map.state = .enumerating
        ∧ (∀ k, t.health k = .absent) ∧ t.sched.items.map (·.kind) = [.release])
      ∧ (¬(newlyLost ∧ lastOne) → ∃ t, exec (.responseTimeout i first) s = .next t
        ∧ t.link.quarantine = s.link.quarantine ++ [{ tag := tag, endAt := s.linkTime + 2 * x.window }]
        ∧ t.map = { s.map with
            records := tput s.map.records m { s.record m with
              failures := count,
              state := if s.health m = .lost ∨ s.settings.lostThreshold ≤ count then .lost else .suspect } }
        ∧ (∀ k ch, chanEntry (t.moduleImage k) ch =
            let old := chanEntry (s.moduleImage k) ch
            if newlyLost ∧ k = m ∧ (old.quality = .pending ∨ old.quality = .fresh ∨ old.quality = .stale)
            then { old with quality := .faulted, cause := some .noResponse } else old)
        ∧ (newlyLost → ∀ q, [{ kind := .moduleLost, time := s.timebase, module := some m }] ∈ t.raised.get q)
        ∧ (s.health m = .active → ¬newlyLost → ∀ q,
            [{ kind := .moduleSuspect, time := s.timebase, module := some m, value := some count }] ∈ t.raised.get q)
        ∧ (first ≠ .originatorAndGrant → t.slot i = none
          ∧ (x.owner = .balance → (t.balanceOf m).commanded = .unknown)
          ∧ (∀ p y, x.owner = .pass (.one m) → s.passOf (.one m) = some p → p.parts = [y] → y.module = m →
            (x.role = .quiesce ∨ x.role = .restore → (t.balanceOf m).commanded = .unknown)
            ∧ (newlyLost → PassInv s → TicketInv s → NoTicketWaits s →
              PassEnded m p y.cellRenewal y.auxRenewal s t))))

/-- RESEND sends the slot at the head of the re-send queue again under a fresh tag, counts a retry, and takes a
BALANCE_SET's mask afresh. The re-send of a pass's CONVERT is its new conversion instant. -/
def Obligations.ResendUsesAFreshTag : Prop :=
  ∀ (i : Fin 4) (x : TxnSlot) (tag : BitVec 4) (rest : List (Fin 4)) (s : State), s.inReset = false →
    s.link.sending = none → s.link.idleUntil = none → s.link.gapUntil = none → s.link.resendQueue = i :: rest →
    drawTag s.link = some tag → s.slot i = some x →
    ∃ payload, (∀ m, (x.role = .restore ∨ x.role = .update) → x.node = modNumber m →
        payload = .mask (s.balanceOf m).decided)
      ∧ (x.role ≠ .restore ∧ x.role ≠ .update → payload = x.payload)
      ∧ (let sent : State := { s with link := { s.link with
          lastTag := tag,
          resendQueue := rest,
          retries := min 65535 (s.link.retries + 1),
          slots := tput s.link.slots i (some { x with
            tag := some tag, payload := payload, sendInstant := s.timebase, windowEnd := none,
            attemptsUsed := x.attemptsUsed + 1 }),
          sending := some
            { bytes := commandBytes x.node (verbCode x.role) tag payload,
              endAt := s.linkTime + 4 * (commandBytes x.node (verbCode x.role) tag payload).length, slot := some i,
              broadcast := false, release := false } } }
        (x.role ≠ .convert ∨ (∀ u, x.owner ≠ .pass u) → exec .resend s = .next sent)
        ∧ ∀ u p, x.role = .convert → x.owner = .pass u → s.passOf u = some p →
          exec .resend s = .next (sent.setPass u (some { p with
            step := .converting, instant := some s.timebase,
            parts := p.parts.map fun y => { y with
              balanced := !y.quiesced && (s.balanceOf y.module).commanded != .mask 0 } })))

/-- Chain frames are read as they were sent: the KC24 finds the frame of any answer that a module sends good, and a module
reads the node, tag, verb and payload of any command frame back and finds its check good. -/
def Obligations.ChainFramesReadBack : Prop :=
  (∀ (node : Nat) (tag : BitVec 4) (status : Byte) (payload : List Byte), node < 16 → status.toNat ≤ 4 →
    payload.length ≤ 35 →
    receive (responseBytes node tag status payload)
      = .good { node := node, tag := tag, status := status, payload := payload })
  ∧ ∀ (node verb : Nat) (tag : BitVec 4) (p : Payload), node < 16 → verb < 16 →
    readCommand (commandBytes node verb tag p).tail
      = ({ node := node, tag := tag, verb := verb, payload := payloadBytes p }, true)

/-! ## Passes and the sweep -/

/-- VISIT_DECISION counts the module's aux cadence, and offers a recovery PING for a LOST module, or creates the rolling
pass, BOTH when aux is due, for a module whose visit is not skipped; a visit that is skipped ends in the same event. An
answered recovery PING ends its visit or leaves the aligned sweep's PINGs. An OK with the recorded descriptor makes the
module ACTIVE, with MODULE_FOUND if it was LOST, and is discarded while the descriptor mark is set; another descriptor sets
the mark and is a failure, and so is any other status. That an OK whose payload is not three bytes has another descriptor
is the model's inference: log entry 12. -/
def Obligations.VisitDecisionBeginsTheVisit : Prop :=
  (∀ (m : Mod) (s : State), s.inReset = false → s.visitDue = some m →
    let s1 : State := { s with sweep := { s.sweep with
      auxCount := tput s.sweep.auxCount m (min 8 (tget s.sweep.auxCount m + 1)) } }
    (s.health m = .lost → ∃ t, exec .visitDecision s = .next t
      ∧ t = { s with sweep := { s1.sweep with visit := .pinging }, sched := t.sched }
      ∧ .ping m ∈ t.sched.items.map (·.kind))
    ∧ (s.health m ≠ .lost → s1.skipVisit m = false → ∃ t, exec .visitDecision s = .next t
      ∧ t = { s with
          sweep := { s1.sweep with visit := .passing },
          sched := t.sched,
          passes := tput s.passes m (some (newPass s.settings (if s1.auxDue m then .both else .cells)
            .sweepRolling none [m])) }
      ∧ .passStep (.one m) .first ∈ t.sched.items.map (·.kind))
    ∧ (s.health m ≠ .lost → s1.skipVisit m = true → ∃ t, exec .visitDecision s = .next t
      ∧ t = { s with sweep := t.sweep, reserved := t.reserved, sched := t.sched }
      ∧ (s.sweep.pointer < s.map.n →
        t.sweep = { s1.sweep with pointer := s.sweep.pointer + 1, visit := .deciding } ∧ t.reserved = s.reserved)
      ∧ (s.map.n ≤ s.sweep.pointer → s.sweep.pendingStart = false →
        t.sweep = { s1.sweep with state := .waiting, pointer := 1, visit := .idle } ∧ t.reserved = s.reserved)
      ∧ (s.map.n ≤ s.sweep.pointer → s.sweep.pendingStart = true →
        t.sweep.state = .running ∧ t.sweep.mode = s.settings.sweepMode ∧ t.sweep.pointer = 1
        ∧ t.sweep.pendingStart = false ∧ (t.reserved = true ↔ s.reserved = true ∨ s.settings.sweepMode = .aligned))))
  ∧ ∀ (bytes : List Byte) (first : TakenFirst) (f : ResponseFrame) (i : Fin 4) (x : TxnSlot) (m : Mod) (s : State),
    s.inReset = false → LinkInv s → receive bytes = .good f → f.status ≠ 4 →
    s.slot i = some x → x.tag = some f.tag → x.node = f.node → x.node = modNumber m → x.role = .ping →
    x.owner = .sweep → s.health m ≠ .absent →
    let r := s.record m
    let same : Prop := ∃ c k v : Byte, f.payload = [c, k, v]
      ∧ c.toNat = r.cellCount ∧ k.toNat = r.tempCount ∧ v.toNat = r.revision
    let left : List Mod := s.sweep.pings.filter fun k => k ≠ m
    -- from `s` to `t` the record has become `r'`, and the visit or the PING is over
    let ended (r' : ModuleRecord) (t : State) : Prop :=
      t = { s with
        upLane := s.upLane.tail, sched := t.sched, link := { s.link with slots := tput s.link.slots i none },
        map := { s.map with records := tput s.map.records m r' },
        sweep := t.sweep, reserved := t.reserved, raised := t.raised,
        balance := { s.balance with handoffs := t.balance.handoffs } }
      ∧ (s.sweep.state = .running → s.sweep.mode = .rolling → s.sweep.visit = .pinging →
        s.sweep.pointer = modNumber m →
        (s.sweep.pointer < s.map.n →
          t.sweep = { s.sweep with pointer := s.sweep.pointer + 1, visit := .deciding })
        ∧ (s.map.n ≤ s.sweep.pointer → s.sweep.pendingStart = false →
          t.sweep = { s.sweep with state := .waiting, pointer := 1, visit := .idle }))
      ∧ (s.sweep.state = .running → s.sweep.mode = .aligned →
        ((s.sweep.alignedOpen = true ∨ left ≠ []) → t.sweep = { s.sweep with pings := left })
        ∧ (s.sweep.alignedOpen = false → left = [] → s.sweep.pendingStart = false →
          t.sweep = { s.sweep with pings := [], state := .waiting, pointer := 1, visit := .idle }))
    let quiet (t : State) : Prop := t.raised = s.raised ∧ t.balance.handoffs = s.balance.handoffs
    (f.status = 0 → same → r.mark = false → ∃ t, exec (.responseArrival bytes first) s = .next t
      ∧ ended { r with state := .active, failures := 0, lastSuccess := some s.timebase } t
      ∧ t.balance.handoffs = s.balance.handoffs ++ (if r.state = .active then [] else [m])
      ∧ ∀ q, t.raised.get q = s.raised.get q ++ storing (if r.state = .lost
          then [{ kind := .moduleFound, time := s.timebase, module := some m }] else []))
    ∧ (f.status = 0 → same → r.mark = true → ∃ t, exec (.responseArrival bytes first) s = .next t ∧ ended r t ∧ quiet t)
    ∧ (f.status = 0 → ¬same → r.state = .lost → ∃ t, exec (.responseArrival bytes first) s = .next t
      ∧ ended { r with mark := true, failures := min 7 (r.failures + 1) } t ∧ quiet t)
    ∧ (f.status ≠ 0 → r.state = .lost → ∃ t, exec (.responseArrival bytes first) s = .next t
      ∧ ended { r with failures := min 7 (r.failures + 1) } t ∧ quiet t)

/-- DIRECTED_PASS_CREATE makes the port's head ticket RUNNING and creates its pass with the settings it captures.
ALIGNED_PASS_CREATE, when the reserved pass can be created, makes one aligned pass with a part for every module 1..N that
is not LOST, ascending. Each offers the pass's first item. -/
def Obligations.PassesAreCreated : Prop :=
  ∀ s : State, s.inReset = false →
    (∀ (p : Port) (k : Ticket), s.directedDue p = some k →
      ∃ t, exec (.directedPassCreate p) s = .next t
        ∧ t = { s with passes := tput s.passes k.module (some
                  (newPass s.settings k.what (directedOrigin p) (some { port := p, id := k.id }) [k.module])),
                       tickets := s.tickets.set p { s.ticketQueue p with
                         tickets := (s.ticketQueue p).tickets.map fun j =>
                           if j.id = k.id then { j with state := .running (.one k.module) } else j },
                       sched := t.sched }
        ∧ .passStep (.one k.module) .first ∈ t.sched.items.map (·.kind)
        ∧ k.state = .queued ∧ s.passOf (.one k.module) = none ∧ s.passOf .all = none)
    ∧ (s.reserved = true → s.anyPass = false → s.participants ≠ [] →
      ∃ t, exec .alignedPassCreate s = .next t
        ∧ t = { s with reserved := false, aligned := t.aligned, sched := t.sched }
        ∧ .passStep .all .first ∈ t.sched.items.map (·.kind)
        ∧ ∃ w, t.aligned = some (newPass s.settings w .sweepAligned none s.participants)
          ∧ (w = .both ∨ w = .cells)
          ∧ ∀ m, m ∈ s.participants ↔ modNumber m ≤ s.map.n ∧ s.health m ≠ .lost)

/-- The timers of a pass, each at its instant: SETTLE_EXPIRY offers the CONVERT, CONVERSION_WAIT_EXPIRY and
ALIGNED_WAIT_EXPIRY begin to read the first module, REREAD_WAIT_EXPIRY offers the same read again. That wait is started by
the first NOT_READY to a read, which marks the verb's re-read used and is no notice of the module's health. That an instant
has been reached is read as a difference below 2³¹: the model's inference, log entry 4. -/
def Obligations.PassTimersOfferTheNextStep : Prop :=
  (∀ (u : Target) (m : Mod) (x : Pass) (y : Part) (due : Tick) (s : State), s.inReset = false →
    s.passOf u = some x → (s.timebase - due).toNat < 2 ^ 31 →
    let offered (x' : Pass) (act : PassAct) (t : State) : Prop :=
      t = { s.setPass u (some x') with sched := t.sched } ∧ .passStep u act ∈ t.sched.items.map (·.kind)
    (x.timer = some { kind := .settle, due := due } →
      ∃ t, exec (.settleExpiry u) s = .next t ∧ offered { x with timer := none } .convert t)
    ∧ (u = .one m → x.timer = some { kind := .conversion, due := due } →
      ∃ t, exec (.conversionWaitExpiry m) s = .next t
        ∧ offered { x with step := .reading, timer := none, parts := x.parts.map fun z =>
            if z.module = m then { z with step := .reading } else z }
          (if x.what = .aux then .readAux else .readCells) t)
    ∧ (u = .all → x.timer = some { kind := .conversion, due := due } →
      (x.parts.find? fun z => z.step = .waiting) = some y →
      ∃ t, exec .alignedWaitExpiry s = .next t
        ∧ offered { x with step := .reading, timer := none, parts := x.parts.map fun z =>
            if z.module = y.module then { z with step := .reading } else z }
          (if x.what = .aux then .readAux else .readCells) t)
    ∧ (x.timer = some { kind := .reread, due := due } →
      (x.parts.find? fun z => z.step = .reading ∨ z.step = .restoring) = some y →
      ∃ t, exec (.rereadWaitExpiry u) s = .next t
        ∧ offered { x with timer := none }
          (if x.what = .aux ∨ y.cellRenewal ≠ 0 then .readAux else .readCells) t))
  ∧ ∀ (bytes : List Byte) (first : TakenFirst) (f : ResponseFrame) (i : Fin 4) (x : TxnSlot) (u : Target) (m : Mod)
      (p : Pass) (y : Part) (s : State), s.inReset = false → LinkInv s → receive bytes = .good f → f.status = 1 →
    s.slot i = some x → x.tag = some f.tag → x.node = f.node → x.node = modNumber m → x.owner = .pass u →
    s.passOf u = some p → (p.parts.find? fun z => z.module = m) = some y →
    (x.role = .readCells ∧ y.rereadCells = false ∨ x.role = .readAux ∧ y.rereadAux = false) →
    ∃ t, exec (.responseArrival bytes first) s = .next t
      ∧ t = { s.setPass u (some { p with
          timer := some { kind := .reread, due := s.timebase + BitVec.ofNat 32 p.waitTicks },
          parts := p.parts.map fun z => if z.module = m then { z with
            rereadCells := z.rereadCells || x.role = .readCells,
            rereadAux := z.rereadAux || x.role = .readAux } else z }) with
          upLane := s.upLane.tail, sched := t.sched, link := { s.link with slots := tput s.link.slots i none } }

/-- PERIOD_BOUNDARY sets the next boundary one SWEEP_PERIOD later; while WAITING it starts a sweep in the mode that
SWEEP_MODE gives, and while a sweep runs it records a pending start and an overrun. That an instant has been reached is
read as a difference below 2³¹: the model's inference, log entry 4. -/
def Obligations.BoundaryStartsOrCountsAnOverrun : Prop :=
  ∀ (b : Tick) (s : State), s.inReset = false → s.sweep.nextBoundary = some b → (s.timebase - b).toNat < 2 ^ 31 →
    let next : Tick := b + BitVec.ofNat 32 (s.settings.sweepPeriod * 10)
    (s.sweep.state = .running → ∃ t, exec .periodBoundary s = .next t
      ∧ t = { s with sweep := { s.sweep with nextBoundary := some next, pendingStart := true }, sched := t.sched,
                     link := { s.link with overruns := min 65535 (s.link.overruns + 1) } })
    ∧ (s.sweep.state = .waiting → ∃ t, exec .periodBoundary s = .next t
      ∧ t = { s with sweep := t.sweep, reserved := t.reserved, sched := t.sched }
      ∧ t.sweep.nextBoundary = some next ∧ t.sweep.state = .running ∧ t.sweep.mode = s.settings.sweepMode
      ∧ t.sweep.pointer = 1 ∧ t.sweep.pendingStart = false
      ∧ t.sweep.visit = (if s.settings.sweepMode = .rolling then .deciding else .idle)
      ∧ (s.settings.sweepMode = .aligned → t.reserved = true))

/-! ## Limits -/

/-- The judgement of a sample of a CELL, TEMP or DIE entry: in WITHIN a sample on the far side of its kind's threshold
counts, and crosses at STREAK_LIMIT or at once under STREAK_BYPASS; in HIGH or LOW a sample back by the hysteresis counts
and clears at STREAK_LIMIT; any other sample takes the streak to 0. Thresholds and differences are exact. On both far
sides at once the HIGH side alone counts. A BLOCK entry is passed over. -/
def Obligations.JudgementCountsStreaks : Prop :=
  ∀ (st : Settings) (ch : Chan) (v : Int) (e : Entry),
    let high : Option (LimitKind × Int × Int) := match ch with
      | .cell _ => some (.ov, st.cellOv, st.hystCell)
      | .temp _ => some (.th, st.tempHigh, st.hystTemp)
      | .die => some (.dh, st.dieHigh, st.hystTemp)
      | .block => none
    let low : Option (LimitKind × Int × Int) := match ch with
      | .cell _ => some (.uv, st.cellUv, st.hystCell)
      | .temp _ => some (.tl, st.tempLow, st.hystTemp)
      | .die => none
      | .block => none
    let bypass (k : LimitKind) : Bool := st.streakBypass.getLsbD
      (match k with | .ov => 0 | .uv => 1 | .th => 2 | .tl => 3 | .dh => 4)
    let counted (k : LimitKind) (l : LimitState) (sd : StreakSide) : Verdict :=
      let n := if e.side = sd then e.streak + 1 else 1
      if bypass k = true ∨ st.streakLimit ≤ n
      then { entry := { e with limit := l, streak := 0, side := .none }, event := some (.limitCrossed, k) }
      else { entry := { e with streak := n, side := sd }, event := none }
    let cleared (k : LimitKind) : Verdict :=
      if st.streakLimit ≤ e.streak + 1
      then { entry := { e with limit := .within, streak := 0, side := .none }, event := some (.limitCleared, k) }
      else { entry := { e with streak := e.streak + 1 }, event := none }
    (ch = .block → judge st ch v e = { entry := e, event := none })
    ∧ (e.limit = .within → ∀ k top h, high = some (k, top, h) → top < v → judge st ch v e = counted k .high .high)
    ∧ (e.limit = .within → (∀ k top h, high = some (k, top, h) → v ≤ top) →
        ∀ k bottom h, low = some (k, bottom, h) → v < bottom → judge st ch v e = counted k .low .low)
    ∧ (ch ≠ .block → e.limit = .within → (∀ k top h, high = some (k, top, h) → v ≤ top) →
        (∀ k bottom h, low = some (k, bottom, h) → bottom ≤ v) →
        judge st ch v e = { entry := { e with streak := 0, side := .none }, event := none })
    ∧ (e.limit = .high → ∀ k top h, high = some (k, top, h) →
        judge st ch v e = if v ≤ top - h then cleared k else { entry := { e with streak := 0 }, event := none })
    ∧ (e.limit = .low → ∀ k bottom h, low = some (k, bottom, h) →
        judge st ch v e = if bottom + h ≤ v then cleared k else { entry := { e with streak := 0 }, event := none })

/-- RECEIPT_EVENT judges each entry the oldest receipt lists, and raises LIMIT_CROSSED and LIMIT_CLEARED to both ports in
ascending index order. SUM_CHECK_EVENT compares the cell sum of a module whose cells and block are FRESH from one pass with
its BLOCK value, and raises SUM_MISMATCH or SUM_CLEARED with the difference where the sum state changes. A change of a limit
or sum state is handed to the Balance Controller. Neither touches another module's entries. -/
def Obligations.LimitEventsTakeTheOldest : Prop :=
  ∀ (m : Mod) (rest : List LimitWork) (s : State), s.inReset = false →
    (∀ n xs, s.limits.work = .receipt m n xs :: rest → ∃ t, exec .receiptEvent s = .next t
      ∧ t = { s with limits := { s.limits with work := rest }, raised := t.raised,
                     image := { s.image with modules := t.image.modules },
                     balance := { s.balance with handoffs := t.balance.handoffs } }
      ∧ (∀ k ch, chanEntry (t.moduleImage k) ch = if k = m then (match sampleOf xs ch with
          | some v => (judge s.settings ch v (chanEntry (s.moduleImage k) ch)).entry
          | none => chanEntry (s.moduleImage k) ch) else chanEntry (s.moduleImage k) ch)
      ∧ (∀ q, t.raised.get q = s.raised.get q ++ storing (allChans.flatMap fun ch => match sampleOf xs ch with
          | some v => match (judge s.settings ch v (chanEntry (s.moduleImage m) ch)).event with
            | some (kind, k) => [{ kind := kind, time := s.timebase, module := some m, entry := some (m, ch),
                                   value := some v, cause := some (.limit k) }]
            | none => []
          | none => []))
      ∧ t.balance.handoffs = s.balance.handoffs ++
          if ∃ ch ∈ allChans, (chanEntry (t.moduleImage m) ch).limit ≠ (chanEntry (s.moduleImage m) ch).limit then [m] else [])
    ∧ ∀ c a, s.limits.work = .sumCheck m c a :: rest →
      let difference : Int := (((populatedCells (s.moduleImage m)).map fun e => e.value).sum + 10) / 20
        - (s.moduleImage m).block.value
      ∃ t, exec .sumCheckEvent s = .next t
      ∧ t = { s with limits := { work := rest, sums := t.limits.sums }, raised := t.raised,
                     balance := { s.balance with handoffs := t.balance.handoffs } }
      ∧ (∀ k, k ≠ m → tget t.limits.sums k = tget s.limits.sums k)
      ∧ tget t.limits.sums m = (if sumCheckMade (s.moduleImage m) c a = true
          then (if s.settings.sumTolerance < difference.natAbs then .mismatch else .clear)
          else tget s.limits.sums m)
      ∧ (∀ q, t.raised.get q = s.raised.get q ++ storing (if tget t.limits.sums m = tget s.limits.sums m then [] else
          [{ kind := if tget t.limits.sums m = .mismatch then .sumMismatch else .sumCleared, time := s.timebase,
             module := some m, value := some difference }]))
      ∧ t.balance.handoffs = s.balance.handoffs ++
          if tget t.limits.sums m = tget s.limits.sums m then [] else [m]
end

