-- ==== Sys2Proof/Laws/Tables.lean ====
section
/-! SUPPORT. Laws/Tables.lean: reading a table, a pair of ports and a mask after they are written. -/

namespace Sys2Proof

@[simp] theorem tget_tput {α : Type} {n : Nat} (v : Vector α n) (i j : Fin n) (x : α) :
    tget (tput v i x) j = if i = j then x else tget v j := by
  simp only [tget, tput, Vector.getElem_set, Fin.ext_iff]

theorem tget_tput_same {α : Type} {n : Nat} (v : Vector α n) (i : Fin n) (x : α) : tget (tput v i x) i = x := by simp

@[simp] theorem tget_tbuild {α : Type} {n : Nat} (f : Fin n → α) (i : Fin n) :
    tget (tbuild f : Vector α n) i = f i := by
  simp [tget, tbuild]

@[simp] theorem tget_tmap {α : Type} {n : Nat} (v : Vector α n) (f : Fin n → α → α) (i : Fin n) :
    tget (tmap v f) i = f i (tget v i) := by
  simp [tmap]

/-- Two tables that read the same are the same. -/
theorem table_ext {α : Type} {n : Nat} {v w : Vector α n} (h : ∀ i, tget v i = tget w i) : v = w := by
  ext i hi
  exact h ⟨i, hi⟩

/-- Writing back what is read changes nothing. -/
@[simp] theorem tput_tget {α : Type} {n : Nat} (v : Vector α n) (i : Fin n) : tput v i (tget v i) = v := by
  apply table_ext
  intro j
  simp only [tget_tput]
  split <;> simp_all

/-- The channels of a fold that sets bits. -/
theorem maskFold_getLsbD (f : Fin 16 → Bool) (c : Fin 16) (l : List (Fin 16)) (acc : CellMask) :
    (l.foldl (fun acc c => if f c then acc ||| BitVec.twoPow 16 c.val else acc) acc).getLsbD c.val
      = (acc.getLsbD c.val || l.any fun d => d == c && f d) := by
  induction l generalizing acc with
  | nil => simp
  | cons d l ih =>
    simp only [List.foldl_cons, List.any_cons, ih]
    have hb : decide (c.val = d.val) = (d == c) := by
      by_cases hd : d = c
      · simp [hd]
      · have hne : ¬(c.val = d.val) := fun h => hd (Fin.ext h.symm)
        simp [hd, hne]
    cases f d <;> simp [hb, Bool.or_assoc]

/-- A channel stands in a mask that names it. -/
@[simp] theorem inMask_maskOf (f : Fin 16 → Bool) (c : Fin 16) : inMask (maskOf f) c = f c := by
  have h : inMask (maskOf f) c = _ := maskFold_getLsbD f c (List.finRange 16) 0#16
  rw [h]
  cases hf : f c with
  | true => simpa using hf
  | false => simp [hf]

/-- Two masks with the same channels are the same. -/
theorem mask_ext {a b : CellMask} (h : ∀ c, inMask a c = inMask b c) : a = b := by
  apply BitVec.eq_of_getLsbD_eq
  intro i hi
  exact h ⟨i, hi⟩

namespace Machine

@[simp] theorem PerPort.get_set_same {α : Type} (x : PerPort α) (p : Port) (v : α) : (x.set p v).get p = v := by
  cases p <;> rfl

theorem PerPort.get_set {α : Type} (x : PerPort α) (p q : Port) (v : α) :
    (x.set p v).get q = if p = q then v else x.get q := by
  cases p <;> cases q <;> rfl

theorem PerPort.get_set_other {α : Type} (x : PerPort α) {p q : Port} (v : α) (h : p ≠ q) :
    (x.set p v).get q = x.get q := by
  cases p <;> cases q <;> first | rfl | exact absurd rfl h

@[simp] theorem PerPort.set_set {α : Type} (x : PerPort α) (p : Port) (v w : α) : (x.set p v).set p w = x.set p w := by
  cases p <;> rfl

@[simp] theorem PerPort.set_get {α : Type} (x : PerPort α) (p : Port) : x.set p (x.get p) = x := by
  cases p <;> rfl

@[simp] theorem PerPort.get_A {α : Type} (x : PerPort α) : x.get .A = x.a := rfl

@[simp] theorem PerPort.get_B {α : Type} (x : PerPort α) : x.get .B = x.b := rfl

end Machine

end Sys2Proof
end

