-- ==== Sys2Proof/Laws/State.lean ====
section
/-! SUPPORT. Laws/State.lean: each field of State after each of its updates. -/

namespace Sys2Proof.Machine

/-! ## State.setPort -/

@[simp] theorem State.setPort_pending (p : Port) (h : HostPort) (s : State) : (s.setPort p h).pending = s.pending :=
  rfl
@[simp] theorem State.setPort_inReset (p : Port) (h : HostPort) (s : State) : (s.setPort p h).inReset = s.inReset :=
  rfl
@[simp] theorem State.setPort_linkTime (p : Port) (h : HostPort) (s : State) : (s.setPort p h).linkTime = s.linkTime :=
  rfl
@[simp] theorem State.setPort_chainEpoch (p : Port) (h : HostPort) (s : State) : (s.setPort p h).chainEpoch = s.chainEpoch :=
  rfl
@[simp] theorem State.setPort_image (p : Port) (h : HostPort) (s : State) : (s.setPort p h).image = s.image := rfl
@[simp] theorem State.setPort_passes (p : Port) (h : HostPort) (s : State) : (s.setPort p h).passes = s.passes := rfl
@[simp] theorem State.setPort_aligned (p : Port) (h : HostPort) (s : State) : (s.setPort p h).aligned = s.aligned :=
  rfl
@[simp] theorem State.setPort_reserved (p : Port) (h : HostPort) (s : State) : (s.setPort p h).reserved = s.reserved :=
  rfl
@[simp] theorem State.setPort_sweep (p : Port) (h : HostPort) (s : State) : (s.setPort p h).sweep = s.sweep := rfl
@[simp] theorem State.setPort_link (p : Port) (h : HostPort) (s : State) : (s.setPort p h).link = s.link := rfl
@[simp] theorem State.setPort_map (p : Port) (h : HostPort) (s : State) : (s.setPort p h).map = s.map := rfl
@[simp] theorem State.setPort_sched (p : Port) (h : HostPort) (s : State) : (s.setPort p h).sched = s.sched := rfl
@[simp] theorem State.setPort_tickets (p : Port) (h : HostPort) (s : State) : (s.setPort p h).tickets = s.tickets :=
  rfl
@[simp] theorem State.setPort_limits (p : Port) (h : HostPort) (s : State) : (s.setPort p h).limits = s.limits := rfl
@[simp] theorem State.setPort_balance (p : Port) (h : HostPort) (s : State) : (s.setPort p h).balance = s.balance :=
  rfl
@[simp] theorem State.setPort_settings (p : Port) (h : HostPort) (s : State) : (s.setPort p h).settings = s.settings :=
  rfl
@[simp] theorem State.setPort_token (p : Port) (h : HostPort) (s : State) : (s.setPort p h).token = s.token := rfl
@[simp] theorem State.setPort_queues (p : Port) (h : HostPort) (s : State) : (s.setPort p h).queues = s.queues := rfl
@[simp] theorem State.setPort_raised (p : Port) (h : HostPort) (s : State) : (s.setPort p h).raised = s.raised := rfl
@[simp] theorem State.setPort_chain (p : Port) (h : HostPort) (s : State) : (s.setPort p h).chain = s.chain := rfl
@[simp] theorem State.setPort_upLane (p : Port) (h : HostPort) (s : State) : (s.setPort p h).upLane = s.upLane := rfl

/-! ## State.setQueue -/

@[simp] theorem State.setQueue_pending (p : Port) (q : EventQueue) (s : State) : (s.setQueue p q).pending = s.pending :=
  rfl
@[simp] theorem State.setQueue_inReset (p : Port) (q : EventQueue) (s : State) : (s.setQueue p q).inReset = s.inReset :=
  rfl
@[simp] theorem State.setQueue_linkTime (p : Port) (q : EventQueue) (s : State) : (s.setQueue p q).linkTime = s.linkTime :=
  rfl
@[simp] theorem State.setQueue_chainEpoch (p : Port) (q : EventQueue) (s : State) : (s.setQueue p q).chainEpoch = s.chainEpoch :=
  rfl
@[simp] theorem State.setQueue_image (p : Port) (q : EventQueue) (s : State) : (s.setQueue p q).image = s.image := rfl
@[simp] theorem State.setQueue_passes (p : Port) (q : EventQueue) (s : State) : (s.setQueue p q).passes = s.passes :=
  rfl
@[simp] theorem State.setQueue_aligned (p : Port) (q : EventQueue) (s : State) : (s.setQueue p q).aligned = s.aligned :=
  rfl
@[simp] theorem State.setQueue_reserved (p : Port) (q : EventQueue) (s : State) : (s.setQueue p q).reserved = s.reserved :=
  rfl
@[simp] theorem State.setQueue_sweep (p : Port) (q : EventQueue) (s : State) : (s.setQueue p q).sweep = s.sweep := rfl
@[simp] theorem State.setQueue_link (p : Port) (q : EventQueue) (s : State) : (s.setQueue p q).link = s.link := rfl
@[simp] theorem State.setQueue_map (p : Port) (q : EventQueue) (s : State) : (s.setQueue p q).map = s.map := rfl
@[simp] theorem State.setQueue_sched (p : Port) (q : EventQueue) (s : State) : (s.setQueue p q).sched = s.sched := rfl
@[simp] theorem State.setQueue_tickets (p : Port) (q : EventQueue) (s : State) : (s.setQueue p q).tickets = s.tickets :=
  rfl
@[simp] theorem State.setQueue_limits (p : Port) (q : EventQueue) (s : State) : (s.setQueue p q).limits = s.limits :=
  rfl
@[simp] theorem State.setQueue_balance (p : Port) (q : EventQueue) (s : State) : (s.setQueue p q).balance = s.balance :=
  rfl
@[simp] theorem State.setQueue_settings (p : Port) (q : EventQueue) (s : State) : (s.setQueue p q).settings = s.settings :=
  rfl
@[simp] theorem State.setQueue_token (p : Port) (q : EventQueue) (s : State) : (s.setQueue p q).token = s.token := rfl
@[simp] theorem State.setQueue_ports (p : Port) (q : EventQueue) (s : State) : (s.setQueue p q).ports = s.ports := rfl
@[simp] theorem State.setQueue_raised (p : Port) (q : EventQueue) (s : State) : (s.setQueue p q).raised = s.raised :=
  rfl
@[simp] theorem State.setQueue_chain (p : Port) (q : EventQueue) (s : State) : (s.setQueue p q).chain = s.chain := rfl
@[simp] theorem State.setQueue_upLane (p : Port) (q : EventQueue) (s : State) : (s.setQueue p q).upLane = s.upLane :=
  rfl

/-! ## State.setRecord -/

@[simp] theorem State.setRecord_pending (m : Mod) (r : ModuleRecord) (s : State) : (s.setRecord m r).pending = s.pending :=
  rfl
@[simp] theorem State.setRecord_inReset (m : Mod) (r : ModuleRecord) (s : State) : (s.setRecord m r).inReset = s.inReset :=
  rfl
@[simp] theorem State.setRecord_linkTime (m : Mod) (r : ModuleRecord) (s : State) : (s.setRecord m r).linkTime = s.linkTime :=
  rfl
@[simp] theorem State.setRecord_chainEpoch (m : Mod) (r : ModuleRecord) (s : State) : (s.setRecord m r).chainEpoch = s.chainEpoch :=
  rfl
@[simp] theorem State.setRecord_image (m : Mod) (r : ModuleRecord) (s : State) : (s.setRecord m r).image = s.image :=
  rfl
@[simp] theorem State.setRecord_passes (m : Mod) (r : ModuleRecord) (s : State) : (s.setRecord m r).passes = s.passes :=
  rfl
@[simp] theorem State.setRecord_aligned (m : Mod) (r : ModuleRecord) (s : State) : (s.setRecord m r).aligned = s.aligned :=
  rfl
@[simp] theorem State.setRecord_reserved (m : Mod) (r : ModuleRecord) (s : State) : (s.setRecord m r).reserved = s.reserved :=
  rfl
@[simp] theorem State.setRecord_sweep (m : Mod) (r : ModuleRecord) (s : State) : (s.setRecord m r).sweep = s.sweep :=
  rfl
@[simp] theorem State.setRecord_link (m : Mod) (r : ModuleRecord) (s : State) : (s.setRecord m r).link = s.link := rfl
@[simp] theorem State.setRecord_sched (m : Mod) (r : ModuleRecord) (s : State) : (s.setRecord m r).sched = s.sched :=
  rfl
@[simp] theorem State.setRecord_tickets (m : Mod) (r : ModuleRecord) (s : State) : (s.setRecord m r).tickets = s.tickets :=
  rfl
@[simp] theorem State.setRecord_limits (m : Mod) (r : ModuleRecord) (s : State) : (s.setRecord m r).limits = s.limits :=
  rfl
@[simp] theorem State.setRecord_balance (m : Mod) (r : ModuleRecord) (s : State) : (s.setRecord m r).balance = s.balance :=
  rfl
@[simp] theorem State.setRecord_settings (m : Mod) (r : ModuleRecord) (s : State) : (s.setRecord m r).settings = s.settings :=
  rfl
@[simp] theorem State.setRecord_token (m : Mod) (r : ModuleRecord) (s : State) : (s.setRecord m r).token = s.token :=
  rfl
@[simp] theorem State.setRecord_ports (m : Mod) (r : ModuleRecord) (s : State) : (s.setRecord m r).ports = s.ports :=
  rfl
@[simp] theorem State.setRecord_queues (m : Mod) (r : ModuleRecord) (s : State) : (s.setRecord m r).queues = s.queues :=
  rfl
@[simp] theorem State.setRecord_raised (m : Mod) (r : ModuleRecord) (s : State) : (s.setRecord m r).raised = s.raised :=
  rfl
@[simp] theorem State.setRecord_chain (m : Mod) (r : ModuleRecord) (s : State) : (s.setRecord m r).chain = s.chain :=
  rfl
@[simp] theorem State.setRecord_upLane (m : Mod) (r : ModuleRecord) (s : State) : (s.setRecord m r).upLane = s.upLane :=
  rfl

/-! ## State.setModuleImage -/

@[simp] theorem State.setModuleImage_pending (m : Mod) (x : ModuleImage) (s : State) : (s.setModuleImage m x).pending = s.pending :=
  rfl
@[simp] theorem State.setModuleImage_inReset (m : Mod) (x : ModuleImage) (s : State) : (s.setModuleImage m x).inReset = s.inReset :=
  rfl
@[simp] theorem State.setModuleImage_linkTime (m : Mod) (x : ModuleImage) (s : State) : (s.setModuleImage m x).linkTime = s.linkTime :=
  rfl
@[simp] theorem State.setModuleImage_chainEpoch (m : Mod) (x : ModuleImage) (s : State) : (s.setModuleImage m x).chainEpoch = s.chainEpoch :=
  rfl
@[simp] theorem State.setModuleImage_passes (m : Mod) (x : ModuleImage) (s : State) : (s.setModuleImage m x).passes = s.passes :=
  rfl
@[simp] theorem State.setModuleImage_aligned (m : Mod) (x : ModuleImage) (s : State) : (s.setModuleImage m x).aligned = s.aligned :=
  rfl
@[simp] theorem State.setModuleImage_reserved (m : Mod) (x : ModuleImage) (s : State) : (s.setModuleImage m x).reserved = s.reserved :=
  rfl
@[simp] theorem State.setModuleImage_sweep (m : Mod) (x : ModuleImage) (s : State) : (s.setModuleImage m x).sweep = s.sweep :=
  rfl
@[simp] theorem State.setModuleImage_link (m : Mod) (x : ModuleImage) (s : State) : (s.setModuleImage m x).link = s.link :=
  rfl
@[simp] theorem State.setModuleImage_map (m : Mod) (x : ModuleImage) (s : State) : (s.setModuleImage m x).map = s.map :=
  rfl
@[simp] theorem State.setModuleImage_sched (m : Mod) (x : ModuleImage) (s : State) : (s.setModuleImage m x).sched = s.sched :=
  rfl
@[simp] theorem State.setModuleImage_tickets (m : Mod) (x : ModuleImage) (s : State) : (s.setModuleImage m x).tickets = s.tickets :=
  rfl
@[simp] theorem State.setModuleImage_limits (m : Mod) (x : ModuleImage) (s : State) : (s.setModuleImage m x).limits = s.limits :=
  rfl
@[simp] theorem State.setModuleImage_balance (m : Mod) (x : ModuleImage) (s : State) : (s.setModuleImage m x).balance = s.balance :=
  rfl
@[simp] theorem State.setModuleImage_settings (m : Mod) (x : ModuleImage) (s : State) : (s.setModuleImage m x).settings = s.settings :=
  rfl
@[simp] theorem State.setModuleImage_token (m : Mod) (x : ModuleImage) (s : State) : (s.setModuleImage m x).token = s.token :=
  rfl
@[simp] theorem State.setModuleImage_ports (m : Mod) (x : ModuleImage) (s : State) : (s.setModuleImage m x).ports = s.ports :=
  rfl
@[simp] theorem State.setModuleImage_queues (m : Mod) (x : ModuleImage) (s : State) : (s.setModuleImage m x).queues = s.queues :=
  rfl
@[simp] theorem State.setModuleImage_raised (m : Mod) (x : ModuleImage) (s : State) : (s.setModuleImage m x).raised = s.raised :=
  rfl
@[simp] theorem State.setModuleImage_chain (m : Mod) (x : ModuleImage) (s : State) : (s.setModuleImage m x).chain = s.chain :=
  rfl
@[simp] theorem State.setModuleImage_upLane (m : Mod) (x : ModuleImage) (s : State) : (s.setModuleImage m x).upLane = s.upLane :=
  rfl

/-! ## State.setPass -/

@[simp] theorem State.setPass_pending (t : Target) (p : Option Pass) (s : State) : (s.setPass t p).pending = s.pending :=
  by cases t <;> rfl
@[simp] theorem State.setPass_inReset (t : Target) (p : Option Pass) (s : State) : (s.setPass t p).inReset = s.inReset :=
  by cases t <;> rfl
@[simp] theorem State.setPass_linkTime (t : Target) (p : Option Pass) (s : State) : (s.setPass t p).linkTime = s.linkTime :=
  by cases t <;> rfl
@[simp] theorem State.setPass_chainEpoch (t : Target) (p : Option Pass) (s : State) : (s.setPass t p).chainEpoch = s.chainEpoch :=
  by cases t <;> rfl
@[simp] theorem State.setPass_image (t : Target) (p : Option Pass) (s : State) : (s.setPass t p).image = s.image :=
  by cases t <;> rfl
@[simp] theorem State.setPass_reserved (t : Target) (p : Option Pass) (s : State) : (s.setPass t p).reserved = s.reserved :=
  by cases t <;> rfl
@[simp] theorem State.setPass_sweep (t : Target) (p : Option Pass) (s : State) : (s.setPass t p).sweep = s.sweep :=
  by cases t <;> rfl
@[simp] theorem State.setPass_link (t : Target) (p : Option Pass) (s : State) : (s.setPass t p).link = s.link :=
  by cases t <;> rfl
@[simp] theorem State.setPass_map (t : Target) (p : Option Pass) (s : State) : (s.setPass t p).map = s.map :=
  by cases t <;> rfl
@[simp] theorem State.setPass_sched (t : Target) (p : Option Pass) (s : State) : (s.setPass t p).sched = s.sched :=
  by cases t <;> rfl
@[simp] theorem State.setPass_tickets (t : Target) (p : Option Pass) (s : State) : (s.setPass t p).tickets = s.tickets :=
  by cases t <;> rfl
@[simp] theorem State.setPass_limits (t : Target) (p : Option Pass) (s : State) : (s.setPass t p).limits = s.limits :=
  by cases t <;> rfl
@[simp] theorem State.setPass_balance (t : Target) (p : Option Pass) (s : State) : (s.setPass t p).balance = s.balance :=
  by cases t <;> rfl
@[simp] theorem State.setPass_settings (t : Target) (p : Option Pass) (s : State) : (s.setPass t p).settings = s.settings :=
  by cases t <;> rfl
@[simp] theorem State.setPass_token (t : Target) (p : Option Pass) (s : State) : (s.setPass t p).token = s.token :=
  by cases t <;> rfl
@[simp] theorem State.setPass_ports (t : Target) (p : Option Pass) (s : State) : (s.setPass t p).ports = s.ports :=
  by cases t <;> rfl
@[simp] theorem State.setPass_queues (t : Target) (p : Option Pass) (s : State) : (s.setPass t p).queues = s.queues :=
  by cases t <;> rfl
@[simp] theorem State.setPass_raised (t : Target) (p : Option Pass) (s : State) : (s.setPass t p).raised = s.raised :=
  by cases t <;> rfl
@[simp] theorem State.setPass_chain (t : Target) (p : Option Pass) (s : State) : (s.setPass t p).chain = s.chain :=
  by cases t <;> rfl
@[simp] theorem State.setPass_upLane (t : Target) (p : Option Pass) (s : State) : (s.setPass t p).upLane = s.upLane :=
  by cases t <;> rfl

/-! ## State.setBalance -/

@[simp] theorem State.setBalance_pending (m : Mod) (b : BalanceModule) (s : State) : (s.setBalance m b).pending = s.pending :=
  rfl
@[simp] theorem State.setBalance_inReset (m : Mod) (b : BalanceModule) (s : State) : (s.setBalance m b).inReset = s.inReset :=
  rfl
@[simp] theorem State.setBalance_linkTime (m : Mod) (b : BalanceModule) (s : State) : (s.setBalance m b).linkTime = s.linkTime :=
  rfl
@[simp] theorem State.setBalance_chainEpoch (m : Mod) (b : BalanceModule) (s : State) : (s.setBalance m b).chainEpoch = s.chainEpoch :=
  rfl
@[simp] theorem State.setBalance_image (m : Mod) (b : BalanceModule) (s : State) : (s.setBalance m b).image = s.image :=
  rfl
@[simp] theorem State.setBalance_passes (m : Mod) (b : BalanceModule) (s : State) : (s.setBalance m b).passes = s.passes :=
  rfl
@[simp] theorem State.setBalance_aligned (m : Mod) (b : BalanceModule) (s : State) : (s.setBalance m b).aligned = s.aligned :=
  rfl
@[simp] theorem State.setBalance_reserved (m : Mod) (b : BalanceModule) (s : State) : (s.setBalance m b).reserved = s.reserved :=
  rfl
@[simp] theorem State.setBalance_sweep (m : Mod) (b : BalanceModule) (s : State) : (s.setBalance m b).sweep = s.sweep :=
  rfl
@[simp] theorem State.setBalance_link (m : Mod) (b : BalanceModule) (s : State) : (s.setBalance m b).link = s.link :=
  rfl
@[simp] theorem State.setBalance_map (m : Mod) (b : BalanceModule) (s : State) : (s.setBalance m b).map = s.map := rfl
@[simp] theorem State.setBalance_sched (m : Mod) (b : BalanceModule) (s : State) : (s.setBalance m b).sched = s.sched :=
  rfl
@[simp] theorem State.setBalance_tickets (m : Mod) (b : BalanceModule) (s : State) : (s.setBalance m b).tickets = s.tickets :=
  rfl
@[simp] theorem State.setBalance_limits (m : Mod) (b : BalanceModule) (s : State) : (s.setBalance m b).limits = s.limits :=
  rfl
@[simp] theorem State.setBalance_settings (m : Mod) (b : BalanceModule) (s : State) : (s.setBalance m b).settings = s.settings :=
  rfl
@[simp] theorem State.setBalance_token (m : Mod) (b : BalanceModule) (s : State) : (s.setBalance m b).token = s.token :=
  rfl
@[simp] theorem State.setBalance_ports (m : Mod) (b : BalanceModule) (s : State) : (s.setBalance m b).ports = s.ports :=
  rfl
@[simp] theorem State.setBalance_queues (m : Mod) (b : BalanceModule) (s : State) : (s.setBalance m b).queues = s.queues :=
  rfl
@[simp] theorem State.setBalance_raised (m : Mod) (b : BalanceModule) (s : State) : (s.setBalance m b).raised = s.raised :=
  rfl
@[simp] theorem State.setBalance_chain (m : Mod) (b : BalanceModule) (s : State) : (s.setBalance m b).chain = s.chain :=
  rfl
@[simp] theorem State.setBalance_upLane (m : Mod) (b : BalanceModule) (s : State) : (s.setBalance m b).upLane = s.upLane :=
  rfl

/-! ## State.setMap -/

@[simp] theorem State.setMap_pending (c : ChainMap) (s : State) : (s.setMap c).pending = s.pending := rfl
@[simp] theorem State.setMap_inReset (c : ChainMap) (s : State) : (s.setMap c).inReset = s.inReset := rfl
@[simp] theorem State.setMap_linkTime (c : ChainMap) (s : State) : (s.setMap c).linkTime = s.linkTime := rfl
@[simp] theorem State.setMap_chainEpoch (c : ChainMap) (s : State) : (s.setMap c).chainEpoch = s.chainEpoch := rfl
@[simp] theorem State.setMap_image (c : ChainMap) (s : State) : (s.setMap c).image = s.image := rfl
@[simp] theorem State.setMap_passes (c : ChainMap) (s : State) : (s.setMap c).passes = s.passes := rfl
@[simp] theorem State.setMap_aligned (c : ChainMap) (s : State) : (s.setMap c).aligned = s.aligned := rfl
@[simp] theorem State.setMap_reserved (c : ChainMap) (s : State) : (s.setMap c).reserved = s.reserved := rfl
@[simp] theorem State.setMap_sweep (c : ChainMap) (s : State) : (s.setMap c).sweep = s.sweep := rfl
@[simp] theorem State.setMap_link (c : ChainMap) (s : State) : (s.setMap c).link = s.link := rfl
@[simp] theorem State.setMap_sched (c : ChainMap) (s : State) : (s.setMap c).sched = s.sched := rfl
@[simp] theorem State.setMap_tickets (c : ChainMap) (s : State) : (s.setMap c).tickets = s.tickets := rfl
@[simp] theorem State.setMap_limits (c : ChainMap) (s : State) : (s.setMap c).limits = s.limits := rfl
@[simp] theorem State.setMap_balance (c : ChainMap) (s : State) : (s.setMap c).balance = s.balance := rfl
@[simp] theorem State.setMap_settings (c : ChainMap) (s : State) : (s.setMap c).settings = s.settings := rfl
@[simp] theorem State.setMap_token (c : ChainMap) (s : State) : (s.setMap c).token = s.token := rfl
@[simp] theorem State.setMap_ports (c : ChainMap) (s : State) : (s.setMap c).ports = s.ports := rfl
@[simp] theorem State.setMap_queues (c : ChainMap) (s : State) : (s.setMap c).queues = s.queues := rfl
@[simp] theorem State.setMap_raised (c : ChainMap) (s : State) : (s.setMap c).raised = s.raised := rfl
@[simp] theorem State.setMap_chain (c : ChainMap) (s : State) : (s.setMap c).chain = s.chain := rfl
@[simp] theorem State.setMap_upLane (c : ChainMap) (s : State) : (s.setMap c).upLane = s.upLane := rfl

/-! ## State.setSweep -/

@[simp] theorem State.setSweep_pending (w : Sweep) (s : State) : (s.setSweep w).pending = s.pending := rfl
@[simp] theorem State.setSweep_inReset (w : Sweep) (s : State) : (s.setSweep w).inReset = s.inReset := rfl
@[simp] theorem State.setSweep_linkTime (w : Sweep) (s : State) : (s.setSweep w).linkTime = s.linkTime := rfl
@[simp] theorem State.setSweep_chainEpoch (w : Sweep) (s : State) : (s.setSweep w).chainEpoch = s.chainEpoch := rfl
@[simp] theorem State.setSweep_image (w : Sweep) (s : State) : (s.setSweep w).image = s.image := rfl
@[simp] theorem State.setSweep_passes (w : Sweep) (s : State) : (s.setSweep w).passes = s.passes := rfl
@[simp] theorem State.setSweep_aligned (w : Sweep) (s : State) : (s.setSweep w).aligned = s.aligned := rfl
@[simp] theorem State.setSweep_reserved (w : Sweep) (s : State) : (s.setSweep w).reserved = s.reserved := rfl
@[simp] theorem State.setSweep_link (w : Sweep) (s : State) : (s.setSweep w).link = s.link := rfl
@[simp] theorem State.setSweep_map (w : Sweep) (s : State) : (s.setSweep w).map = s.map := rfl
@[simp] theorem State.setSweep_sched (w : Sweep) (s : State) : (s.setSweep w).sched = s.sched := rfl
@[simp] theorem State.setSweep_tickets (w : Sweep) (s : State) : (s.setSweep w).tickets = s.tickets := rfl
@[simp] theorem State.setSweep_limits (w : Sweep) (s : State) : (s.setSweep w).limits = s.limits := rfl
@[simp] theorem State.setSweep_balance (w : Sweep) (s : State) : (s.setSweep w).balance = s.balance := rfl
@[simp] theorem State.setSweep_settings (w : Sweep) (s : State) : (s.setSweep w).settings = s.settings := rfl
@[simp] theorem State.setSweep_token (w : Sweep) (s : State) : (s.setSweep w).token = s.token := rfl
@[simp] theorem State.setSweep_ports (w : Sweep) (s : State) : (s.setSweep w).ports = s.ports := rfl
@[simp] theorem State.setSweep_queues (w : Sweep) (s : State) : (s.setSweep w).queues = s.queues := rfl
@[simp] theorem State.setSweep_raised (w : Sweep) (s : State) : (s.setSweep w).raised = s.raised := rfl
@[simp] theorem State.setSweep_chain (w : Sweep) (s : State) : (s.setSweep w).chain = s.chain := rfl
@[simp] theorem State.setSweep_upLane (w : Sweep) (s : State) : (s.setSweep w).upLane = s.upLane := rfl

/-! ## State.setAuxCount -/

@[simp] theorem State.setAuxCount_pending (m : Mod) (n : Nat) (s : State) : (s.setAuxCount m n).pending = s.pending :=
  rfl
@[simp] theorem State.setAuxCount_inReset (m : Mod) (n : Nat) (s : State) : (s.setAuxCount m n).inReset = s.inReset :=
  rfl
@[simp] theorem State.setAuxCount_linkTime (m : Mod) (n : Nat) (s : State) : (s.setAuxCount m n).linkTime = s.linkTime :=
  rfl
@[simp] theorem State.setAuxCount_chainEpoch (m : Mod) (n : Nat) (s : State) : (s.setAuxCount m n).chainEpoch = s.chainEpoch :=
  rfl
@[simp] theorem State.setAuxCount_image (m : Mod) (n : Nat) (s : State) : (s.setAuxCount m n).image = s.image := rfl
@[simp] theorem State.setAuxCount_passes (m : Mod) (n : Nat) (s : State) : (s.setAuxCount m n).passes = s.passes :=
  rfl
@[simp] theorem State.setAuxCount_aligned (m : Mod) (n : Nat) (s : State) : (s.setAuxCount m n).aligned = s.aligned :=
  rfl
@[simp] theorem State.setAuxCount_reserved (m : Mod) (n : Nat) (s : State) : (s.setAuxCount m n).reserved = s.reserved :=
  rfl
@[simp] theorem State.setAuxCount_link (m : Mod) (n : Nat) (s : State) : (s.setAuxCount m n).link = s.link := rfl
@[simp] theorem State.setAuxCount_map (m : Mod) (n : Nat) (s : State) : (s.setAuxCount m n).map = s.map := rfl
@[simp] theorem State.setAuxCount_sched (m : Mod) (n : Nat) (s : State) : (s.setAuxCount m n).sched = s.sched := rfl
@[simp] theorem State.setAuxCount_tickets (m : Mod) (n : Nat) (s : State) : (s.setAuxCount m n).tickets = s.tickets :=
  rfl
@[simp] theorem State.setAuxCount_limits (m : Mod) (n : Nat) (s : State) : (s.setAuxCount m n).limits = s.limits :=
  rfl
@[simp] theorem State.setAuxCount_balance (m : Mod) (n : Nat) (s : State) : (s.setAuxCount m n).balance = s.balance :=
  rfl
@[simp] theorem State.setAuxCount_settings (m : Mod) (n : Nat) (s : State) : (s.setAuxCount m n).settings = s.settings :=
  rfl
@[simp] theorem State.setAuxCount_token (m : Mod) (n : Nat) (s : State) : (s.setAuxCount m n).token = s.token := rfl
@[simp] theorem State.setAuxCount_ports (m : Mod) (n : Nat) (s : State) : (s.setAuxCount m n).ports = s.ports := rfl
@[simp] theorem State.setAuxCount_queues (m : Mod) (n : Nat) (s : State) : (s.setAuxCount m n).queues = s.queues :=
  rfl
@[simp] theorem State.setAuxCount_raised (m : Mod) (n : Nat) (s : State) : (s.setAuxCount m n).raised = s.raised :=
  rfl
@[simp] theorem State.setAuxCount_chain (m : Mod) (n : Nat) (s : State) : (s.setAuxCount m n).chain = s.chain := rfl
@[simp] theorem State.setAuxCount_upLane (m : Mod) (n : Nat) (s : State) : (s.setAuxCount m n).upLane = s.upLane :=
  rfl

/-! ## State.setTickets -/

@[simp] theorem State.setTickets_pending (p : Port) (q : TicketQueue) (s : State) : (s.setTickets p q).pending = s.pending :=
  rfl
@[simp] theorem State.setTickets_inReset (p : Port) (q : TicketQueue) (s : State) : (s.setTickets p q).inReset = s.inReset :=
  rfl
@[simp] theorem State.setTickets_linkTime (p : Port) (q : TicketQueue) (s : State) : (s.setTickets p q).linkTime = s.linkTime :=
  rfl
@[simp] theorem State.setTickets_chainEpoch (p : Port) (q : TicketQueue) (s : State) : (s.setTickets p q).chainEpoch = s.chainEpoch :=
  rfl
@[simp] theorem State.setTickets_image (p : Port) (q : TicketQueue) (s : State) : (s.setTickets p q).image = s.image :=
  rfl
@[simp] theorem State.setTickets_passes (p : Port) (q : TicketQueue) (s : State) : (s.setTickets p q).passes = s.passes :=
  rfl
@[simp] theorem State.setTickets_aligned (p : Port) (q : TicketQueue) (s : State) : (s.setTickets p q).aligned = s.aligned :=
  rfl
@[simp] theorem State.setTickets_reserved (p : Port) (q : TicketQueue) (s : State) : (s.setTickets p q).reserved = s.reserved :=
  rfl
@[simp] theorem State.setTickets_sweep (p : Port) (q : TicketQueue) (s : State) : (s.setTickets p q).sweep = s.sweep :=
  rfl
@[simp] theorem State.setTickets_link (p : Port) (q : TicketQueue) (s : State) : (s.setTickets p q).link = s.link :=
  rfl
@[simp] theorem State.setTickets_map (p : Port) (q : TicketQueue) (s : State) : (s.setTickets p q).map = s.map := rfl
@[simp] theorem State.setTickets_sched (p : Port) (q : TicketQueue) (s : State) : (s.setTickets p q).sched = s.sched :=
  rfl
@[simp] theorem State.setTickets_limits (p : Port) (q : TicketQueue) (s : State) : (s.setTickets p q).limits = s.limits :=
  rfl
@[simp] theorem State.setTickets_balance (p : Port) (q : TicketQueue) (s : State) : (s.setTickets p q).balance = s.balance :=
  rfl
@[simp] theorem State.setTickets_settings (p : Port) (q : TicketQueue) (s : State) : (s.setTickets p q).settings = s.settings :=
  rfl
@[simp] theorem State.setTickets_token (p : Port) (q : TicketQueue) (s : State) : (s.setTickets p q).token = s.token :=
  rfl
@[simp] theorem State.setTickets_ports (p : Port) (q : TicketQueue) (s : State) : (s.setTickets p q).ports = s.ports :=
  rfl
@[simp] theorem State.setTickets_queues (p : Port) (q : TicketQueue) (s : State) : (s.setTickets p q).queues = s.queues :=
  rfl
@[simp] theorem State.setTickets_raised (p : Port) (q : TicketQueue) (s : State) : (s.setTickets p q).raised = s.raised :=
  rfl
@[simp] theorem State.setTickets_chain (p : Port) (q : TicketQueue) (s : State) : (s.setTickets p q).chain = s.chain :=
  rfl
@[simp] theorem State.setTickets_upLane (p : Port) (q : TicketQueue) (s : State) : (s.setTickets p q).upLane = s.upLane :=
  rfl

/-! ## State.setSlot -/

@[simp] theorem State.setSlot_pending (i : Fin 4) (x : Option TxnSlot) (s : State) : (s.setSlot i x).pending = s.pending :=
  rfl
@[simp] theorem State.setSlot_inReset (i : Fin 4) (x : Option TxnSlot) (s : State) : (s.setSlot i x).inReset = s.inReset :=
  rfl
@[simp] theorem State.setSlot_linkTime (i : Fin 4) (x : Option TxnSlot) (s : State) : (s.setSlot i x).linkTime = s.linkTime :=
  rfl
@[simp] theorem State.setSlot_chainEpoch (i : Fin 4) (x : Option TxnSlot) (s : State) : (s.setSlot i x).chainEpoch = s.chainEpoch :=
  rfl
@[simp] theorem State.setSlot_image (i : Fin 4) (x : Option TxnSlot) (s : State) : (s.setSlot i x).image = s.image :=
  rfl
@[simp] theorem State.setSlot_passes (i : Fin 4) (x : Option TxnSlot) (s : State) : (s.setSlot i x).passes = s.passes :=
  rfl
@[simp] theorem State.setSlot_aligned (i : Fin 4) (x : Option TxnSlot) (s : State) : (s.setSlot i x).aligned = s.aligned :=
  rfl
@[simp] theorem State.setSlot_reserved (i : Fin 4) (x : Option TxnSlot) (s : State) : (s.setSlot i x).reserved = s.reserved :=
  rfl
@[simp] theorem State.setSlot_sweep (i : Fin 4) (x : Option TxnSlot) (s : State) : (s.setSlot i x).sweep = s.sweep :=
  rfl
@[simp] theorem State.setSlot_map (i : Fin 4) (x : Option TxnSlot) (s : State) : (s.setSlot i x).map = s.map := rfl
@[simp] theorem State.setSlot_sched (i : Fin 4) (x : Option TxnSlot) (s : State) : (s.setSlot i x).sched = s.sched :=
  rfl
@[simp] theorem State.setSlot_tickets (i : Fin 4) (x : Option TxnSlot) (s : State) : (s.setSlot i x).tickets = s.tickets :=
  rfl
@[simp] theorem State.setSlot_limits (i : Fin 4) (x : Option TxnSlot) (s : State) : (s.setSlot i x).limits = s.limits :=
  rfl
@[simp] theorem State.setSlot_balance (i : Fin 4) (x : Option TxnSlot) (s : State) : (s.setSlot i x).balance = s.balance :=
  rfl
@[simp] theorem State.setSlot_settings (i : Fin 4) (x : Option TxnSlot) (s : State) : (s.setSlot i x).settings = s.settings :=
  rfl
@[simp] theorem State.setSlot_token (i : Fin 4) (x : Option TxnSlot) (s : State) : (s.setSlot i x).token = s.token :=
  rfl
@[simp] theorem State.setSlot_ports (i : Fin 4) (x : Option TxnSlot) (s : State) : (s.setSlot i x).ports = s.ports :=
  rfl
@[simp] theorem State.setSlot_queues (i : Fin 4) (x : Option TxnSlot) (s : State) : (s.setSlot i x).queues = s.queues :=
  rfl
@[simp] theorem State.setSlot_raised (i : Fin 4) (x : Option TxnSlot) (s : State) : (s.setSlot i x).raised = s.raised :=
  rfl
@[simp] theorem State.setSlot_chain (i : Fin 4) (x : Option TxnSlot) (s : State) : (s.setSlot i x).chain = s.chain :=
  rfl
@[simp] theorem State.setSlot_upLane (i : Fin 4) (x : Option TxnSlot) (s : State) : (s.setSlot i x).upLane = s.upLane :=
  rfl

/-! ## handOff -/

@[simp] theorem handOff_pending (m : Mod) (s : State) : (handOff m s).pending = s.pending := rfl
@[simp] theorem handOff_inReset (m : Mod) (s : State) : (handOff m s).inReset = s.inReset := rfl
@[simp] theorem handOff_linkTime (m : Mod) (s : State) : (handOff m s).linkTime = s.linkTime := rfl
@[simp] theorem handOff_chainEpoch (m : Mod) (s : State) : (handOff m s).chainEpoch = s.chainEpoch := rfl
@[simp] theorem handOff_image (m : Mod) (s : State) : (handOff m s).image = s.image := rfl
@[simp] theorem handOff_passes (m : Mod) (s : State) : (handOff m s).passes = s.passes := rfl
@[simp] theorem handOff_aligned (m : Mod) (s : State) : (handOff m s).aligned = s.aligned := rfl
@[simp] theorem handOff_reserved (m : Mod) (s : State) : (handOff m s).reserved = s.reserved := rfl
@[simp] theorem handOff_sweep (m : Mod) (s : State) : (handOff m s).sweep = s.sweep := rfl
@[simp] theorem handOff_link (m : Mod) (s : State) : (handOff m s).link = s.link := rfl
@[simp] theorem handOff_map (m : Mod) (s : State) : (handOff m s).map = s.map := rfl
@[simp] theorem handOff_sched (m : Mod) (s : State) : (handOff m s).sched = s.sched := rfl
@[simp] theorem handOff_tickets (m : Mod) (s : State) : (handOff m s).tickets = s.tickets := rfl
@[simp] theorem handOff_limits (m : Mod) (s : State) : (handOff m s).limits = s.limits := rfl
@[simp] theorem handOff_settings (m : Mod) (s : State) : (handOff m s).settings = s.settings := rfl
@[simp] theorem handOff_token (m : Mod) (s : State) : (handOff m s).token = s.token := rfl
@[simp] theorem handOff_ports (m : Mod) (s : State) : (handOff m s).ports = s.ports := rfl
@[simp] theorem handOff_queues (m : Mod) (s : State) : (handOff m s).queues = s.queues := rfl
@[simp] theorem handOff_raised (m : Mod) (s : State) : (handOff m s).raised = s.raised := rfl
@[simp] theorem handOff_chain (m : Mod) (s : State) : (handOff m s).chain = s.chain := rfl
@[simp] theorem handOff_upLane (m : Mod) (s : State) : (handOff m s).upLane = s.upLane := rfl

/-! ## setCommanded -/

@[simp] theorem setCommanded_pending (m : Mod) (c : Commanded) (s : State) : (setCommanded m c s).pending = s.pending :=
  rfl
@[simp] theorem setCommanded_inReset (m : Mod) (c : Commanded) (s : State) : (setCommanded m c s).inReset = s.inReset :=
  rfl
@[simp] theorem setCommanded_linkTime (m : Mod) (c : Commanded) (s : State) : (setCommanded m c s).linkTime = s.linkTime :=
  rfl
@[simp] theorem setCommanded_chainEpoch (m : Mod) (c : Commanded) (s : State) : (setCommanded m c s).chainEpoch = s.chainEpoch :=
  rfl
@[simp] theorem setCommanded_image (m : Mod) (c : Commanded) (s : State) : (setCommanded m c s).image = s.image := rfl
@[simp] theorem setCommanded_passes (m : Mod) (c : Commanded) (s : State) : (setCommanded m c s).passes = s.passes :=
  rfl
@[simp] theorem setCommanded_aligned (m : Mod) (c : Commanded) (s : State) : (setCommanded m c s).aligned = s.aligned :=
  rfl
@[simp] theorem setCommanded_reserved (m : Mod) (c : Commanded) (s : State) : (setCommanded m c s).reserved = s.reserved :=
  rfl
@[simp] theorem setCommanded_sweep (m : Mod) (c : Commanded) (s : State) : (setCommanded m c s).sweep = s.sweep := rfl
@[simp] theorem setCommanded_link (m : Mod) (c : Commanded) (s : State) : (setCommanded m c s).link = s.link := rfl
@[simp] theorem setCommanded_map (m : Mod) (c : Commanded) (s : State) : (setCommanded m c s).map = s.map := rfl
@[simp] theorem setCommanded_sched (m : Mod) (c : Commanded) (s : State) : (setCommanded m c s).sched = s.sched := rfl
@[simp] theorem setCommanded_tickets (m : Mod) (c : Commanded) (s : State) : (setCommanded m c s).tickets = s.tickets :=
  rfl
@[simp] theorem setCommanded_limits (m : Mod) (c : Commanded) (s : State) : (setCommanded m c s).limits = s.limits :=
  rfl
@[simp] theorem setCommanded_settings (m : Mod) (c : Commanded) (s : State) : (setCommanded m c s).settings = s.settings :=
  rfl
@[simp] theorem setCommanded_token (m : Mod) (c : Commanded) (s : State) : (setCommanded m c s).token = s.token := rfl
@[simp] theorem setCommanded_ports (m : Mod) (c : Commanded) (s : State) : (setCommanded m c s).ports = s.ports := rfl
@[simp] theorem setCommanded_queues (m : Mod) (c : Commanded) (s : State) : (setCommanded m c s).queues = s.queues :=
  rfl
@[simp] theorem setCommanded_raised (m : Mod) (c : Commanded) (s : State) : (setCommanded m c s).raised = s.raised :=
  rfl
@[simp] theorem setCommanded_chain (m : Mod) (c : Commanded) (s : State) : (setCommanded m c s).chain = s.chain := rfl
@[simp] theorem setCommanded_upLane (m : Mod) (c : Commanded) (s : State) : (setCommanded m c s).upLane = s.upLane :=
  rfl

/-! ## offer -/

@[simp] theorem offer_pending (k : ItemKind) (s : State) : (offer k s).pending = s.pending := rfl
@[simp] theorem offer_inReset (k : ItemKind) (s : State) : (offer k s).inReset = s.inReset := rfl
@[simp] theorem offer_linkTime (k : ItemKind) (s : State) : (offer k s).linkTime = s.linkTime := rfl
@[simp] theorem offer_chainEpoch (k : ItemKind) (s : State) : (offer k s).chainEpoch = s.chainEpoch := rfl
@[simp] theorem offer_image (k : ItemKind) (s : State) : (offer k s).image = s.image := rfl
@[simp] theorem offer_passes (k : ItemKind) (s : State) : (offer k s).passes = s.passes := rfl
@[simp] theorem offer_aligned (k : ItemKind) (s : State) : (offer k s).aligned = s.aligned := rfl
@[simp] theorem offer_reserved (k : ItemKind) (s : State) : (offer k s).reserved = s.reserved := rfl
@[simp] theorem offer_sweep (k : ItemKind) (s : State) : (offer k s).sweep = s.sweep := rfl
@[simp] theorem offer_link (k : ItemKind) (s : State) : (offer k s).link = s.link := rfl
@[simp] theorem offer_map (k : ItemKind) (s : State) : (offer k s).map = s.map := rfl
@[simp] theorem offer_tickets (k : ItemKind) (s : State) : (offer k s).tickets = s.tickets := rfl
@[simp] theorem offer_limits (k : ItemKind) (s : State) : (offer k s).limits = s.limits := rfl
@[simp] theorem offer_balance (k : ItemKind) (s : State) : (offer k s).balance = s.balance := rfl
@[simp] theorem offer_settings (k : ItemKind) (s : State) : (offer k s).settings = s.settings := rfl
@[simp] theorem offer_token (k : ItemKind) (s : State) : (offer k s).token = s.token := rfl
@[simp] theorem offer_ports (k : ItemKind) (s : State) : (offer k s).ports = s.ports := rfl
@[simp] theorem offer_queues (k : ItemKind) (s : State) : (offer k s).queues = s.queues := rfl
@[simp] theorem offer_raised (k : ItemKind) (s : State) : (offer k s).raised = s.raised := rfl
@[simp] theorem offer_chain (k : ItemKind) (s : State) : (offer k s).chain = s.chain := rfl
@[simp] theorem offer_upLane (k : ItemKind) (s : State) : (offer k s).upLane = s.upLane := rfl

/-! ## withdraw -/

@[simp] theorem withdraw_pending (g : ItemKind → Bool) (s : State) : (withdraw g s).pending = s.pending := rfl
@[simp] theorem withdraw_inReset (g : ItemKind → Bool) (s : State) : (withdraw g s).inReset = s.inReset := rfl
@[simp] theorem withdraw_linkTime (g : ItemKind → Bool) (s : State) : (withdraw g s).linkTime = s.linkTime := rfl
@[simp] theorem withdraw_chainEpoch (g : ItemKind → Bool) (s : State) : (withdraw g s).chainEpoch = s.chainEpoch :=
  rfl
@[simp] theorem withdraw_image (g : ItemKind → Bool) (s : State) : (withdraw g s).image = s.image := rfl
@[simp] theorem withdraw_passes (g : ItemKind → Bool) (s : State) : (withdraw g s).passes = s.passes := rfl
@[simp] theorem withdraw_aligned (g : ItemKind → Bool) (s : State) : (withdraw g s).aligned = s.aligned := rfl
@[simp] theorem withdraw_reserved (g : ItemKind → Bool) (s : State) : (withdraw g s).reserved = s.reserved := rfl
@[simp] theorem withdraw_sweep (g : ItemKind → Bool) (s : State) : (withdraw g s).sweep = s.sweep := rfl
@[simp] theorem withdraw_link (g : ItemKind → Bool) (s : State) : (withdraw g s).link = s.link := rfl
@[simp] theorem withdraw_map (g : ItemKind → Bool) (s : State) : (withdraw g s).map = s.map := rfl
@[simp] theorem withdraw_tickets (g : ItemKind → Bool) (s : State) : (withdraw g s).tickets = s.tickets := rfl
@[simp] theorem withdraw_limits (g : ItemKind → Bool) (s : State) : (withdraw g s).limits = s.limits := rfl
@[simp] theorem withdraw_balance (g : ItemKind → Bool) (s : State) : (withdraw g s).balance = s.balance := rfl
@[simp] theorem withdraw_settings (g : ItemKind → Bool) (s : State) : (withdraw g s).settings = s.settings := rfl
@[simp] theorem withdraw_token (g : ItemKind → Bool) (s : State) : (withdraw g s).token = s.token := rfl
@[simp] theorem withdraw_ports (g : ItemKind → Bool) (s : State) : (withdraw g s).ports = s.ports := rfl
@[simp] theorem withdraw_queues (g : ItemKind → Bool) (s : State) : (withdraw g s).queues = s.queues := rfl
@[simp] theorem withdraw_raised (g : ItemKind → Bool) (s : State) : (withdraw g s).raised = s.raised := rfl
@[simp] theorem withdraw_chain (g : ItemKind → Bool) (s : State) : (withdraw g s).chain = s.chain := rfl
@[simp] theorem withdraw_upLane (g : ItemKind → Bool) (s : State) : (withdraw g s).upLane = s.upLane := rfl

/-! ## refreshItems -/

@[simp] theorem refreshItems_pending (s : State) : (refreshItems s).pending = s.pending := rfl
@[simp] theorem refreshItems_inReset (s : State) : (refreshItems s).inReset = s.inReset := rfl
@[simp] theorem refreshItems_linkTime (s : State) : (refreshItems s).linkTime = s.linkTime := rfl
@[simp] theorem refreshItems_chainEpoch (s : State) : (refreshItems s).chainEpoch = s.chainEpoch := rfl
@[simp] theorem refreshItems_image (s : State) : (refreshItems s).image = s.image := rfl
@[simp] theorem refreshItems_passes (s : State) : (refreshItems s).passes = s.passes := rfl
@[simp] theorem refreshItems_aligned (s : State) : (refreshItems s).aligned = s.aligned := rfl
@[simp] theorem refreshItems_reserved (s : State) : (refreshItems s).reserved = s.reserved := rfl
@[simp] theorem refreshItems_sweep (s : State) : (refreshItems s).sweep = s.sweep := rfl
@[simp] theorem refreshItems_link (s : State) : (refreshItems s).link = s.link := rfl
@[simp] theorem refreshItems_map (s : State) : (refreshItems s).map = s.map := rfl
@[simp] theorem refreshItems_tickets (s : State) : (refreshItems s).tickets = s.tickets := rfl
@[simp] theorem refreshItems_limits (s : State) : (refreshItems s).limits = s.limits := rfl
@[simp] theorem refreshItems_balance (s : State) : (refreshItems s).balance = s.balance := rfl
@[simp] theorem refreshItems_settings (s : State) : (refreshItems s).settings = s.settings := rfl
@[simp] theorem refreshItems_token (s : State) : (refreshItems s).token = s.token := rfl
@[simp] theorem refreshItems_ports (s : State) : (refreshItems s).ports = s.ports := rfl
@[simp] theorem refreshItems_queues (s : State) : (refreshItems s).queues = s.queues := rfl
@[simp] theorem refreshItems_raised (s : State) : (refreshItems s).raised = s.raised := rfl
@[simp] theorem refreshItems_chain (s : State) : (refreshItems s).chain = s.chain := rfl
@[simp] theorem refreshItems_upLane (s : State) : (refreshItems s).upLane = s.upLane := rfl

/-! ## endFrame -/

@[simp] theorem endFrame_pending (p : Port) (s : State) : (endFrame p s).pending = s.pending := rfl
@[simp] theorem endFrame_inReset (p : Port) (s : State) : (endFrame p s).inReset = s.inReset := rfl
@[simp] theorem endFrame_linkTime (p : Port) (s : State) : (endFrame p s).linkTime = s.linkTime := rfl
@[simp] theorem endFrame_chainEpoch (p : Port) (s : State) : (endFrame p s).chainEpoch = s.chainEpoch := rfl
@[simp] theorem endFrame_image (p : Port) (s : State) : (endFrame p s).image = s.image := rfl
@[simp] theorem endFrame_passes (p : Port) (s : State) : (endFrame p s).passes = s.passes := rfl
@[simp] theorem endFrame_aligned (p : Port) (s : State) : (endFrame p s).aligned = s.aligned := rfl
@[simp] theorem endFrame_reserved (p : Port) (s : State) : (endFrame p s).reserved = s.reserved := rfl
@[simp] theorem endFrame_sweep (p : Port) (s : State) : (endFrame p s).sweep = s.sweep := rfl
@[simp] theorem endFrame_link (p : Port) (s : State) : (endFrame p s).link = s.link := rfl
@[simp] theorem endFrame_map (p : Port) (s : State) : (endFrame p s).map = s.map := rfl
@[simp] theorem endFrame_sched (p : Port) (s : State) : (endFrame p s).sched = s.sched := rfl
@[simp] theorem endFrame_tickets (p : Port) (s : State) : (endFrame p s).tickets = s.tickets := rfl
@[simp] theorem endFrame_limits (p : Port) (s : State) : (endFrame p s).limits = s.limits := rfl
@[simp] theorem endFrame_balance (p : Port) (s : State) : (endFrame p s).balance = s.balance := rfl
@[simp] theorem endFrame_settings (p : Port) (s : State) : (endFrame p s).settings = s.settings := rfl
@[simp] theorem endFrame_token (p : Port) (s : State) : (endFrame p s).token = s.token := rfl
@[simp] theorem endFrame_queues (p : Port) (s : State) : (endFrame p s).queues = s.queues := rfl
@[simp] theorem endFrame_raised (p : Port) (s : State) : (endFrame p s).raised = s.raised := rfl
@[simp] theorem endFrame_chain (p : Port) (s : State) : (endFrame p s).chain = s.chain := rfl
@[simp] theorem endFrame_upLane (p : Port) (s : State) : (endFrame p s).upLane = s.upLane := rfl

/-! ## answerNow -/

@[simp] theorem answerNow_pending (p : Port) (a : Answer) (s : State) : (answerNow p a s).pending = s.pending := rfl
@[simp] theorem answerNow_inReset (p : Port) (a : Answer) (s : State) : (answerNow p a s).inReset = s.inReset := rfl
@[simp] theorem answerNow_linkTime (p : Port) (a : Answer) (s : State) : (answerNow p a s).linkTime = s.linkTime :=
  rfl
@[simp] theorem answerNow_chainEpoch (p : Port) (a : Answer) (s : State) : (answerNow p a s).chainEpoch = s.chainEpoch :=
  rfl
@[simp] theorem answerNow_image (p : Port) (a : Answer) (s : State) : (answerNow p a s).image = s.image := rfl
@[simp] theorem answerNow_passes (p : Port) (a : Answer) (s : State) : (answerNow p a s).passes = s.passes := rfl
@[simp] theorem answerNow_aligned (p : Port) (a : Answer) (s : State) : (answerNow p a s).aligned = s.aligned := rfl
@[simp] theorem answerNow_reserved (p : Port) (a : Answer) (s : State) : (answerNow p a s).reserved = s.reserved :=
  rfl
@[simp] theorem answerNow_sweep (p : Port) (a : Answer) (s : State) : (answerNow p a s).sweep = s.sweep := rfl
@[simp] theorem answerNow_link (p : Port) (a : Answer) (s : State) : (answerNow p a s).link = s.link := rfl
@[simp] theorem answerNow_map (p : Port) (a : Answer) (s : State) : (answerNow p a s).map = s.map := rfl
@[simp] theorem answerNow_sched (p : Port) (a : Answer) (s : State) : (answerNow p a s).sched = s.sched := rfl
@[simp] theorem answerNow_tickets (p : Port) (a : Answer) (s : State) : (answerNow p a s).tickets = s.tickets := rfl
@[simp] theorem answerNow_limits (p : Port) (a : Answer) (s : State) : (answerNow p a s).limits = s.limits := rfl
@[simp] theorem answerNow_balance (p : Port) (a : Answer) (s : State) : (answerNow p a s).balance = s.balance := rfl
@[simp] theorem answerNow_settings (p : Port) (a : Answer) (s : State) : (answerNow p a s).settings = s.settings :=
  rfl
@[simp] theorem answerNow_token (p : Port) (a : Answer) (s : State) : (answerNow p a s).token = s.token := rfl
@[simp] theorem answerNow_queues (p : Port) (a : Answer) (s : State) : (answerNow p a s).queues = s.queues := rfl
@[simp] theorem answerNow_raised (p : Port) (a : Answer) (s : State) : (answerNow p a s).raised = s.raised := rfl
@[simp] theorem answerNow_chain (p : Port) (a : Answer) (s : State) : (answerNow p a s).chain = s.chain := rfl
@[simp] theorem answerNow_upLane (p : Port) (a : Answer) (s : State) : (answerNow p a s).upLane = s.upLane := rfl

/-! ## answerLater -/

@[simp] theorem answerLater_pending (p : Port) (a : Answer) (s : State) : (answerLater p a s).pending = s.pending :=
  rfl
@[simp] theorem answerLater_inReset (p : Port) (a : Answer) (s : State) : (answerLater p a s).inReset = s.inReset :=
  rfl
@[simp] theorem answerLater_linkTime (p : Port) (a : Answer) (s : State) : (answerLater p a s).linkTime = s.linkTime :=
  rfl
@[simp] theorem answerLater_chainEpoch (p : Port) (a : Answer) (s : State) : (answerLater p a s).chainEpoch = s.chainEpoch :=
  rfl
@[simp] theorem answerLater_image (p : Port) (a : Answer) (s : State) : (answerLater p a s).image = s.image := rfl
@[simp] theorem answerLater_passes (p : Port) (a : Answer) (s : State) : (answerLater p a s).passes = s.passes := rfl
@[simp] theorem answerLater_aligned (p : Port) (a : Answer) (s : State) : (answerLater p a s).aligned = s.aligned :=
  rfl
@[simp] theorem answerLater_reserved (p : Port) (a : Answer) (s : State) : (answerLater p a s).reserved = s.reserved :=
  rfl
@[simp] theorem answerLater_sweep (p : Port) (a : Answer) (s : State) : (answerLater p a s).sweep = s.sweep := rfl
@[simp] theorem answerLater_link (p : Port) (a : Answer) (s : State) : (answerLater p a s).link = s.link := rfl
@[simp] theorem answerLater_map (p : Port) (a : Answer) (s : State) : (answerLater p a s).map = s.map := rfl
@[simp] theorem answerLater_sched (p : Port) (a : Answer) (s : State) : (answerLater p a s).sched = s.sched := rfl
@[simp] theorem answerLater_tickets (p : Port) (a : Answer) (s : State) : (answerLater p a s).tickets = s.tickets :=
  rfl
@[simp] theorem answerLater_limits (p : Port) (a : Answer) (s : State) : (answerLater p a s).limits = s.limits := rfl
@[simp] theorem answerLater_balance (p : Port) (a : Answer) (s : State) : (answerLater p a s).balance = s.balance :=
  rfl
@[simp] theorem answerLater_settings (p : Port) (a : Answer) (s : State) : (answerLater p a s).settings = s.settings :=
  rfl
@[simp] theorem answerLater_token (p : Port) (a : Answer) (s : State) : (answerLater p a s).token = s.token := rfl
@[simp] theorem answerLater_queues (p : Port) (a : Answer) (s : State) : (answerLater p a s).queues = s.queues := rfl
@[simp] theorem answerLater_raised (p : Port) (a : Answer) (s : State) : (answerLater p a s).raised = s.raised := rfl
@[simp] theorem answerLater_chain (p : Port) (a : Answer) (s : State) : (answerLater p a s).chain = s.chain := rfl
@[simp] theorem answerLater_upLane (p : Port) (a : Answer) (s : State) : (answerLater p a s).upLane = s.upLane := rfl

/-! ## raiseTo -/

@[simp] theorem raiseTo_pending (p : Port) (es : List Event) (s : State) : (raiseTo p es s).pending = s.pending :=
  by unfold raiseTo; split <;> rfl
@[simp] theorem raiseTo_inReset (p : Port) (es : List Event) (s : State) : (raiseTo p es s).inReset = s.inReset :=
  by unfold raiseTo; split <;> rfl
@[simp] theorem raiseTo_linkTime (p : Port) (es : List Event) (s : State) : (raiseTo p es s).linkTime = s.linkTime :=
  by unfold raiseTo; split <;> rfl
@[simp] theorem raiseTo_chainEpoch (p : Port) (es : List Event) (s : State) : (raiseTo p es s).chainEpoch = s.chainEpoch :=
  by unfold raiseTo; split <;> rfl
@[simp] theorem raiseTo_image (p : Port) (es : List Event) (s : State) : (raiseTo p es s).image = s.image :=
  by unfold raiseTo; split <;> rfl
@[simp] theorem raiseTo_passes (p : Port) (es : List Event) (s : State) : (raiseTo p es s).passes = s.passes :=
  by unfold raiseTo; split <;> rfl
@[simp] theorem raiseTo_aligned (p : Port) (es : List Event) (s : State) : (raiseTo p es s).aligned = s.aligned :=
  by unfold raiseTo; split <;> rfl
@[simp] theorem raiseTo_reserved (p : Port) (es : List Event) (s : State) : (raiseTo p es s).reserved = s.reserved :=
  by unfold raiseTo; split <;> rfl
@[simp] theorem raiseTo_sweep (p : Port) (es : List Event) (s : State) : (raiseTo p es s).sweep = s.sweep :=
  by unfold raiseTo; split <;> rfl
@[simp] theorem raiseTo_link (p : Port) (es : List Event) (s : State) : (raiseTo p es s).link = s.link :=
  by unfold raiseTo; split <;> rfl
@[simp] theorem raiseTo_map (p : Port) (es : List Event) (s : State) : (raiseTo p es s).map = s.map :=
  by unfold raiseTo; split <;> rfl
@[simp] theorem raiseTo_sched (p : Port) (es : List Event) (s : State) : (raiseTo p es s).sched = s.sched :=
  by unfold raiseTo; split <;> rfl
@[simp] theorem raiseTo_tickets (p : Port) (es : List Event) (s : State) : (raiseTo p es s).tickets = s.tickets :=
  by unfold raiseTo; split <;> rfl
@[simp] theorem raiseTo_limits (p : Port) (es : List Event) (s : State) : (raiseTo p es s).limits = s.limits :=
  by unfold raiseTo; split <;> rfl
@[simp] theorem raiseTo_balance (p : Port) (es : List Event) (s : State) : (raiseTo p es s).balance = s.balance :=
  by unfold raiseTo; split <;> rfl
@[simp] theorem raiseTo_settings (p : Port) (es : List Event) (s : State) : (raiseTo p es s).settings = s.settings :=
  by unfold raiseTo; split <;> rfl
@[simp] theorem raiseTo_token (p : Port) (es : List Event) (s : State) : (raiseTo p es s).token = s.token :=
  by unfold raiseTo; split <;> rfl
@[simp] theorem raiseTo_ports (p : Port) (es : List Event) (s : State) : (raiseTo p es s).ports = s.ports :=
  by unfold raiseTo; split <;> rfl
@[simp] theorem raiseTo_queues (p : Port) (es : List Event) (s : State) : (raiseTo p es s).queues = s.queues :=
  by unfold raiseTo; split <;> rfl
@[simp] theorem raiseTo_chain (p : Port) (es : List Event) (s : State) : (raiseTo p es s).chain = s.chain :=
  by unfold raiseTo; split <;> rfl
@[simp] theorem raiseTo_upLane (p : Port) (es : List Event) (s : State) : (raiseTo p es s).upLane = s.upLane :=
  by unfold raiseTo; split <;> rfl

/-! ## raiseBoth -/

@[simp] theorem raiseBoth_pending (es : List Event) (s : State) : (raiseBoth es s).pending = s.pending :=
  by simp [raiseBoth]
@[simp] theorem raiseBoth_inReset (es : List Event) (s : State) : (raiseBoth es s).inReset = s.inReset :=
  by simp [raiseBoth]
@[simp] theorem raiseBoth_linkTime (es : List Event) (s : State) : (raiseBoth es s).linkTime = s.linkTime :=
  by simp [raiseBoth]
@[simp] theorem raiseBoth_chainEpoch (es : List Event) (s : State) : (raiseBoth es s).chainEpoch = s.chainEpoch :=
  by simp [raiseBoth]
@[simp] theorem raiseBoth_image (es : List Event) (s : State) : (raiseBoth es s).image = s.image :=
  by simp [raiseBoth]
@[simp] theorem raiseBoth_passes (es : List Event) (s : State) : (raiseBoth es s).passes = s.passes :=
  by simp [raiseBoth]
@[simp] theorem raiseBoth_aligned (es : List Event) (s : State) : (raiseBoth es s).aligned = s.aligned :=
  by simp [raiseBoth]
@[simp] theorem raiseBoth_reserved (es : List Event) (s : State) : (raiseBoth es s).reserved = s.reserved :=
  by simp [raiseBoth]
@[simp] theorem raiseBoth_sweep (es : List Event) (s : State) : (raiseBoth es s).sweep = s.sweep :=
  by simp [raiseBoth]
@[simp] theorem raiseBoth_link (es : List Event) (s : State) : (raiseBoth es s).link = s.link := by simp [raiseBoth]
@[simp] theorem raiseBoth_map (es : List Event) (s : State) : (raiseBoth es s).map = s.map := by simp [raiseBoth]
@[simp] theorem raiseBoth_sched (es : List Event) (s : State) : (raiseBoth es s).sched = s.sched :=
  by simp [raiseBoth]
@[simp] theorem raiseBoth_tickets (es : List Event) (s : State) : (raiseBoth es s).tickets = s.tickets :=
  by simp [raiseBoth]
@[simp] theorem raiseBoth_limits (es : List Event) (s : State) : (raiseBoth es s).limits = s.limits :=
  by simp [raiseBoth]
@[simp] theorem raiseBoth_balance (es : List Event) (s : State) : (raiseBoth es s).balance = s.balance :=
  by simp [raiseBoth]
@[simp] theorem raiseBoth_settings (es : List Event) (s : State) : (raiseBoth es s).settings = s.settings :=
  by simp [raiseBoth]
@[simp] theorem raiseBoth_token (es : List Event) (s : State) : (raiseBoth es s).token = s.token :=
  by simp [raiseBoth]
@[simp] theorem raiseBoth_ports (es : List Event) (s : State) : (raiseBoth es s).ports = s.ports :=
  by simp [raiseBoth]
@[simp] theorem raiseBoth_queues (es : List Event) (s : State) : (raiseBoth es s).queues = s.queues :=
  by simp [raiseBoth]
@[simp] theorem raiseBoth_chain (es : List Event) (s : State) : (raiseBoth es s).chain = s.chain :=
  by simp [raiseBoth]
@[simp] theorem raiseBoth_upLane (es : List Event) (s : State) : (raiseBoth es s).upLane = s.upLane :=
  by simp [raiseBoth]

/-! ## decideFrom -/

@[simp] theorem decideFrom_pending (m : Mod) (e : Option EventCause) (b c : BalanceModule) (s : State) : (decideFrom m e b c s).pending = s.pending :=
  by simp [decideFrom]
@[simp] theorem decideFrom_inReset (m : Mod) (e : Option EventCause) (b c : BalanceModule) (s : State) : (decideFrom m e b c s).inReset = s.inReset :=
  by simp [decideFrom]
@[simp] theorem decideFrom_linkTime (m : Mod) (e : Option EventCause) (b c : BalanceModule) (s : State) : (decideFrom m e b c s).linkTime = s.linkTime :=
  by simp [decideFrom]
@[simp] theorem decideFrom_chainEpoch (m : Mod) (e : Option EventCause) (b c : BalanceModule) (s : State) : (decideFrom m e b c s).chainEpoch = s.chainEpoch :=
  by simp [decideFrom]
@[simp] theorem decideFrom_image (m : Mod) (e : Option EventCause) (b c : BalanceModule) (s : State) : (decideFrom m e b c s).image = s.image :=
  by simp [decideFrom]
@[simp] theorem decideFrom_passes (m : Mod) (e : Option EventCause) (b c : BalanceModule) (s : State) : (decideFrom m e b c s).passes = s.passes :=
  by simp [decideFrom]
@[simp] theorem decideFrom_aligned (m : Mod) (e : Option EventCause) (b c : BalanceModule) (s : State) : (decideFrom m e b c s).aligned = s.aligned :=
  by simp [decideFrom]
@[simp] theorem decideFrom_reserved (m : Mod) (e : Option EventCause) (b c : BalanceModule) (s : State) : (decideFrom m e b c s).reserved = s.reserved :=
  by simp [decideFrom]
@[simp] theorem decideFrom_sweep (m : Mod) (e : Option EventCause) (b c : BalanceModule) (s : State) : (decideFrom m e b c s).sweep = s.sweep :=
  by simp [decideFrom]
@[simp] theorem decideFrom_link (m : Mod) (e : Option EventCause) (b c : BalanceModule) (s : State) : (decideFrom m e b c s).link = s.link :=
  by simp [decideFrom]
@[simp] theorem decideFrom_map (m : Mod) (e : Option EventCause) (b c : BalanceModule) (s : State) : (decideFrom m e b c s).map = s.map :=
  by simp [decideFrom]
@[simp] theorem decideFrom_sched (m : Mod) (e : Option EventCause) (b c : BalanceModule) (s : State) : (decideFrom m e b c s).sched = s.sched :=
  by simp [decideFrom]
@[simp] theorem decideFrom_tickets (m : Mod) (e : Option EventCause) (b c : BalanceModule) (s : State) : (decideFrom m e b c s).tickets = s.tickets :=
  by simp [decideFrom]
@[simp] theorem decideFrom_limits (m : Mod) (e : Option EventCause) (b c : BalanceModule) (s : State) : (decideFrom m e b c s).limits = s.limits :=
  by simp [decideFrom]
@[simp] theorem decideFrom_settings (m : Mod) (e : Option EventCause) (b c : BalanceModule) (s : State) : (decideFrom m e b c s).settings = s.settings :=
  by simp [decideFrom]
@[simp] theorem decideFrom_token (m : Mod) (e : Option EventCause) (b c : BalanceModule) (s : State) : (decideFrom m e b c s).token = s.token :=
  by simp [decideFrom]
@[simp] theorem decideFrom_ports (m : Mod) (e : Option EventCause) (b c : BalanceModule) (s : State) : (decideFrom m e b c s).ports = s.ports :=
  by simp [decideFrom]
@[simp] theorem decideFrom_queues (m : Mod) (e : Option EventCause) (b c : BalanceModule) (s : State) : (decideFrom m e b c s).queues = s.queues :=
  by simp [decideFrom]
@[simp] theorem decideFrom_chain (m : Mod) (e : Option EventCause) (b c : BalanceModule) (s : State) : (decideFrom m e b c s).chain = s.chain :=
  by simp [decideFrom]
@[simp] theorem decideFrom_upLane (m : Mod) (e : Option EventCause) (b c : BalanceModule) (s : State) : (decideFrom m e b c s).upLane = s.upLane :=
  by simp [decideFrom]

/-! ## takeDecision -/

@[simp] theorem takeDecision_pending (m : Mod) (s : State) : (takeDecision m s).pending = s.pending :=
  by simp [takeDecision]
@[simp] theorem takeDecision_inReset (m : Mod) (s : State) : (takeDecision m s).inReset = s.inReset :=
  by simp [takeDecision]
@[simp] theorem takeDecision_linkTime (m : Mod) (s : State) : (takeDecision m s).linkTime = s.linkTime :=
  by simp [takeDecision]
@[simp] theorem takeDecision_chainEpoch (m : Mod) (s : State) : (takeDecision m s).chainEpoch = s.chainEpoch :=
  by simp [takeDecision]
@[simp] theorem takeDecision_image (m : Mod) (s : State) : (takeDecision m s).image = s.image :=
  by simp [takeDecision]
@[simp] theorem takeDecision_passes (m : Mod) (s : State) : (takeDecision m s).passes = s.passes :=
  by simp [takeDecision]
@[simp] theorem takeDecision_aligned (m : Mod) (s : State) : (takeDecision m s).aligned = s.aligned :=
  by simp [takeDecision]
@[simp] theorem takeDecision_reserved (m : Mod) (s : State) : (takeDecision m s).reserved = s.reserved :=
  by simp [takeDecision]
@[simp] theorem takeDecision_sweep (m : Mod) (s : State) : (takeDecision m s).sweep = s.sweep :=
  by simp [takeDecision]
@[simp] theorem takeDecision_link (m : Mod) (s : State) : (takeDecision m s).link = s.link := by simp [takeDecision]
@[simp] theorem takeDecision_map (m : Mod) (s : State) : (takeDecision m s).map = s.map := by simp [takeDecision]
@[simp] theorem takeDecision_sched (m : Mod) (s : State) : (takeDecision m s).sched = s.sched :=
  by simp [takeDecision]
@[simp] theorem takeDecision_tickets (m : Mod) (s : State) : (takeDecision m s).tickets = s.tickets :=
  by simp [takeDecision]
@[simp] theorem takeDecision_limits (m : Mod) (s : State) : (takeDecision m s).limits = s.limits :=
  by simp [takeDecision]
@[simp] theorem takeDecision_settings (m : Mod) (s : State) : (takeDecision m s).settings = s.settings :=
  by simp [takeDecision]
@[simp] theorem takeDecision_token (m : Mod) (s : State) : (takeDecision m s).token = s.token :=
  by simp [takeDecision]
@[simp] theorem takeDecision_ports (m : Mod) (s : State) : (takeDecision m s).ports = s.ports :=
  by simp [takeDecision]
@[simp] theorem takeDecision_queues (m : Mod) (s : State) : (takeDecision m s).queues = s.queues :=
  by simp [takeDecision]
@[simp] theorem takeDecision_chain (m : Mod) (s : State) : (takeDecision m s).chain = s.chain :=
  by simp [takeDecision]
@[simp] theorem takeDecision_upLane (m : Mod) (s : State) : (takeDecision m s).upLane = s.upLane :=
  by simp [takeDecision]

/-! ## setHold -/

@[simp] theorem setHold_pending (m : Mod) (on : Bool) (s : State) : (setHold m on s).pending = s.pending :=
  by simp [setHold]
@[simp] theorem setHold_inReset (m : Mod) (on : Bool) (s : State) : (setHold m on s).inReset = s.inReset :=
  by simp [setHold]
@[simp] theorem setHold_linkTime (m : Mod) (on : Bool) (s : State) : (setHold m on s).linkTime = s.linkTime :=
  by simp [setHold]
@[simp] theorem setHold_chainEpoch (m : Mod) (on : Bool) (s : State) : (setHold m on s).chainEpoch = s.chainEpoch :=
  by simp [setHold]
@[simp] theorem setHold_image (m : Mod) (on : Bool) (s : State) : (setHold m on s).image = s.image :=
  by simp [setHold]
@[simp] theorem setHold_passes (m : Mod) (on : Bool) (s : State) : (setHold m on s).passes = s.passes :=
  by simp [setHold]
@[simp] theorem setHold_aligned (m : Mod) (on : Bool) (s : State) : (setHold m on s).aligned = s.aligned :=
  by simp [setHold]
@[simp] theorem setHold_reserved (m : Mod) (on : Bool) (s : State) : (setHold m on s).reserved = s.reserved :=
  by simp [setHold]
@[simp] theorem setHold_sweep (m : Mod) (on : Bool) (s : State) : (setHold m on s).sweep = s.sweep :=
  by simp [setHold]
@[simp] theorem setHold_link (m : Mod) (on : Bool) (s : State) : (setHold m on s).link = s.link := by simp [setHold]
@[simp] theorem setHold_map (m : Mod) (on : Bool) (s : State) : (setHold m on s).map = s.map := by simp [setHold]
@[simp] theorem setHold_sched (m : Mod) (on : Bool) (s : State) : (setHold m on s).sched = s.sched :=
  by simp [setHold]
@[simp] theorem setHold_tickets (m : Mod) (on : Bool) (s : State) : (setHold m on s).tickets = s.tickets :=
  by simp [setHold]
@[simp] theorem setHold_limits (m : Mod) (on : Bool) (s : State) : (setHold m on s).limits = s.limits :=
  by simp [setHold]
@[simp] theorem setHold_settings (m : Mod) (on : Bool) (s : State) : (setHold m on s).settings = s.settings :=
  by simp [setHold]
@[simp] theorem setHold_token (m : Mod) (on : Bool) (s : State) : (setHold m on s).token = s.token :=
  by simp [setHold]
@[simp] theorem setHold_ports (m : Mod) (on : Bool) (s : State) : (setHold m on s).ports = s.ports :=
  by simp [setHold]
@[simp] theorem setHold_queues (m : Mod) (on : Bool) (s : State) : (setHold m on s).queues = s.queues :=
  by simp [setHold]
@[simp] theorem setHold_chain (m : Mod) (on : Bool) (s : State) : (setHold m on s).chain = s.chain :=
  by simp [setHold]
@[simp] theorem setHold_upLane (m : Mod) (on : Bool) (s : State) : (setHold m on s).upLane = s.upLane :=
  by simp [setHold]

/-! ## What the updates write -/

@[simp] theorem State.setPort_ports (p : Port) (h : HostPort) (s : State) : (s.setPort p h).ports = s.ports.set p h := rfl

@[simp] theorem State.setQueue_queues (p : Port) (q : EventQueue) (s : State) :
    (s.setQueue p q).queues = s.queues.set p q := rfl

@[simp] theorem State.setTickets_tickets (p : Port) (q : TicketQueue) (s : State) :
    (s.setTickets p q).tickets = s.tickets.set p q := rfl

@[simp] theorem State.setMap_map (c : ChainMap) (s : State) : (s.setMap c).map = c := rfl

@[simp] theorem State.setSweep_sweep (w : Sweep) (s : State) : (s.setSweep w).sweep = w := rfl

theorem State.record_setRecord (m k : Mod) (r : ModuleRecord) (s : State) :
    (s.setRecord m r).record k = if m = k then r else s.record k := by
  simp [State.setRecord, State.record]

theorem State.moduleImage_setModuleImage (m k : Mod) (x : ModuleImage) (s : State) :
    (s.setModuleImage m x).moduleImage k = if m = k then x else s.moduleImage k := by
  simp [State.setModuleImage, State.moduleImage]

theorem State.balanceOf_setBalance (m k : Mod) (b : BalanceModule) (s : State) :
    (s.setBalance m b).balanceOf k = if m = k then b else s.balanceOf k := by
  simp [State.setBalance, State.balanceOf]

theorem State.slot_setSlot (i j : Fin 4) (x : Option TxnSlot) (s : State) :
    (s.setSlot i x).slot j = if i = j then x else s.slot j := by
  simp [State.setSlot, State.slot]

@[simp] theorem State.passOf_setPass_same (t : Target) (p : Option Pass) (s : State) : (s.setPass t p).passOf t = p := by
  cases t <;> simp [State.setPass, State.passOf]

theorem State.passOf_setPass_other {t u : Target} (h : t ≠ u) (p : Option Pass) (s : State) :
    (s.setPass t p).passOf u = s.passOf u := by
  cases t <;> cases u <;> simp_all [State.setPass, State.passOf]

@[simp] theorem State.setPort_setPort (p : Port) (h k : HostPort) (s : State) :
    (s.setPort p h).setPort p k = s.setPort p k := by
  simp [State.setPort]

@[simp] theorem State.port_setPort_same (p : Port) (h : HostPort) (s : State) : (s.setPort p h).port p = h := by
  simp [State.port]

theorem State.port_setPort_other {p q : Port} (hq : p ≠ q) (h : HostPort) (s : State) :
    (s.setPort p h).port q = s.port q := by
  simp [State.port, PerPort.get_set_other _ _ hq]

@[simp] theorem State.queue_setQueue_same (p : Port) (q : EventQueue) (s : State) : (s.setQueue p q).queue p = q := by
  simp [State.queue]

@[simp] theorem State.ticketQueue_setTickets_same (p : Port) (q : TicketQueue) (s : State) :
    (s.setTickets p q).ticketQueue p = q := by
  simp [State.ticketQueue]

/-- What waits at the ports after a block raises records to one (R187). -/
theorem raiseTo_raised (p : Port) (es : List Event) (s : State) :
    (raiseTo p es s).raised = if es.isEmpty then s.raised else s.raised.set p (s.raised.get p ++ [es]) := by
  unfold raiseTo
  split <;> rfl

end Sys2Proof.Machine
end

