-- ==== Sys2Proof/Laws/Frames.lean ====
section
/-! SUPPORT. Laws/Frames.lean: which fields of State each shared operation can write; every other field stands. -/

namespace Sys2Proof.Machine

theorem foldl_frame {α : Type} {Q : State → State → Prop} (hr : ∀ s, Q s s) (ht : ∀ s t u, Q s t → Q t u → Q s u)
    {f : State → α → State} (hf : ∀ s a, Q s (f s a)) (l : List α) : ∀ s, Q s (l.foldl f s) := by
  induction l with
  | nil => exact hr
  | cons a l ih => exact fun s => ht _ _ _ (hf s a) (ih _)

/-! ## Image, limits, balance -/

theorem writeRenewal_eq (m : Mod) (g : Group) (xs : Chan → Option Sample) (info : RenewalInfo) (s : State) :
    ∃ i, writeRenewal m g xs info s = { s with image := i } := ⟨_, rfl⟩

theorem writeModule_eq (m : Mod) (f : Chan → Entry → Entry) (s : State) :
    ∃ i b, writeModule m f s = { s with image := i, balance := b } := by
  unfold writeModule
  dsimp only
  split <;> exact ⟨_, _, rfl⟩

theorem raiseTo_eq (p : Port) (es : List Event) (s : State) : ∃ r, raiseTo p es s = { s with raised := r } := by
  unfold raiseTo
  split <;> exact ⟨_, rfl⟩

theorem raiseEach_eq (es fs : List Event) (s : State) :
    ∃ r, raiseTo .B fs (raiseTo .A es s) = { s with raised := r } := by
  obtain ⟨r, hr⟩ := raiseTo_eq .A es s
  obtain ⟨q, hq⟩ := raiseTo_eq .B fs (raiseTo .A es s)
  exact ⟨q, by rw [hq, hr]⟩

theorem raiseBoth_eq (es : List Event) (s : State) : ∃ r, raiseBoth es s = { s with raised := r } :=
  raiseEach_eq es es s

theorem decideFrom_eq (m : Mod) (e : Option EventCause) (b c : BalanceModule) (s : State) :
    ∃ r, decideFrom m e b c s =
      { s.setBalance m (decideModule (s.decisionInput m) (s.moduleImage m) c) with raised := r } :=
  raiseEach_eq _ _ _

/-- The table of the decision's module is the decision; the other modules' tables stand. -/
theorem decideFrom_balanceOf (m k : Mod) (e : Option EventCause) (b c : BalanceModule) (s : State) :
    (decideFrom m e b c s).balanceOf k =
      if m = k then decideModule (s.decisionInput m) (s.moduleImage m) c else s.balanceOf k := by
  obtain ⟨r, hr⟩ := decideFrom_eq m e b c s
  rw [hr]
  exact State.balanceOf_setBalance m k _ s

/-! ## Link -/

theorem sendUnicast_eq (r : Role) (o : Owner) (n : Nat) (p : Payload) (s : State) :
    ∃ l, sendUnicast r o n p s = { s with link := l } := by
  unfold sendUnicast
  split
  · exact ⟨_, rfl⟩
  · exact ⟨_, rfl⟩

theorem resendSlot_eq (i : Fin 4) (x : TxnSlot) (t : BitVec 4) (rest : List (Fin 4)) (s : State) :
    ∃ l, resendSlot i x t rest s = { s with link := l } := ⟨_, rfl⟩

theorem joinResend_eq (i : Fin 4) (x : TxnSlot) (s : State) : ∃ l, joinResend i x s = { s with link := l } :=
  ⟨_, rfl⟩

theorem timeoutSlot_eq (i : Fin 4) (x : TxnSlot) (s : State) : ∃ l, timeoutSlot i x s = { s with link := l } := by
  unfold timeoutSlot
  dsimp only
  split <;> exact ⟨_, rfl⟩

/-! ## Sweep -/

theorem offers_eq {α : Type} (f : α → ItemKind) (l : List α) (s : State) :
    ∃ x, l.foldl (fun s a => offer (f a) s) s = { s with sched := x } := by
  induction l generalizing s with
  | nil => exact ⟨_, rfl⟩
  | cons a l ih => exact ih (offer (f a) s)

theorem startSweep_eq (s : State) :
    ∃ w r x, startSweep s = { s with sweep := w, reserved := r, sched := x }
      ∧ w.state = .running ∧ w.pointer = 1 ∧ w.mode = s.settings.sweepMode ∧ w.pendingStart = false
      ∧ w.visit = (if s.settings.sweepMode = .rolling then .deciding else .idle) := by
  unfold startSweep
  cases hm : s.settings.sweepMode with
  | rolling => exact ⟨_, _, _, rfl, rfl, rfl, rfl, rfl, rfl⟩
  | aligned =>
    dsimp only
    obtain ⟨x, hx⟩ := offers_eq (fun m => ItemKind.ping m) s.lostMods
      { s.setSweep { s.sweep with
          state := .running, mode := .aligned, pointer := 1, visit := .idle, pendingStart := false,
          alignedAux := cadenceUp s.sweep.alignedAux,
          alignedDue := decide (s.settings.auxCadence ≤ cadenceUp s.sweep.alignedAux),
          alignedOpen := true, pings := s.lostMods } with reserved := true }
    rw [hx]
    exact ⟨_, _, _, rfl, rfl, rfl, rfl, rfl, rfl⟩

theorem endSweep_eq (s : State) :
    ∃ w r x, endSweep s = { s with sweep := w, reserved := r, sched := x }
      ∧ (w.state = .waiting ∧ w.visit = .idle
        ∨ w.state = .running ∧ w.mode = s.settings.sweepMode
          ∧ w.visit = (if s.settings.sweepMode = .rolling then .deciding else .idle))
      ∧ w.pointer = 1 := by
  unfold endSweep
  split
  · obtain ⟨w, r, x, h, h1, h2, h3, -, h5⟩ := startSweep_eq s
    exact ⟨w, r, x, h, .inr ⟨h1, h3, h5⟩, h2⟩
  · exact ⟨_, _, _, rfl, .inl ⟨rfl, rfl⟩, rfl⟩

theorem endVisit_eq (s : State) : ∃ w r x, endVisit s = { s with sweep := w, reserved := r, sched := x } := by
  unfold endVisit
  split
  · exact ⟨_, _, _, rfl⟩
  · obtain ⟨w, r, x, h, -⟩ := endSweep_eq s
    exact ⟨w, r, x, h⟩

theorem endAlignedIfDone_eq (s : State) :
    ∃ w r x, endAlignedIfDone s = { s with sweep := w, reserved := r, sched := x } := by
  unfold endAlignedIfDone
  split
  · obtain ⟨w, r, x, h, -⟩ := endSweep_eq s
    exact ⟨w, r, x, h⟩
  · exact ⟨_, _, _, rfl⟩

/-! ## Chain Map -/

theorem recordModule_eq (m : Mod) (d : Nat × Nat × Nat) (s : State) : ∃ c, recordModule m d s = { s with map := c } :=
  ⟨_, rfl⟩

/-- The end of an enumeration at the map and the sweep (R47, R91, R95). -/
theorem startAfterEnd_closeMap_eq (reason : EndReason) (s : State) :
    ∃ c w r x, startAfterEnd (closeMap reason s) = { s with map := c, sweep := w, reserved := r, sched := x }
      ∧ c.n = s.map.n ∧ c.state = (if s.map.n = 0 then .down else .running)
      ∧ (if s.map.n = 0 then w = s.sweep
        else w.state = .running ∧ w.pointer = 1 ∧ w.mode = s.settings.sweepMode
          ∧ w.visit = if s.settings.sweepMode = .rolling then .deciding else .idle) := by
  unfold startAfterEnd
  have hn : (closeMap reason s).map.n = s.map.n := rfl
  by_cases h0 : s.map.n = 0
  · rw [hn, if_pos h0]
    by_cases ha : (closeMap reason s).settings.autoRestart
    · rw [if_pos ha]
      exact ⟨_, _, _, _, rfl, rfl, rfl, by rw [if_pos h0]; rfl⟩
    · rw [if_neg ha]
      exact ⟨_, _, _, _, rfl, rfl, rfl, by rw [if_pos h0]⟩
  · rw [hn, if_neg h0]
    obtain ⟨w, r, x, h, h1, h2, h3, -, h5⟩ := startSweep_eq ((closeMap reason s).setSweep { (closeMap reason s).sweep with
      nextBoundary := some ((closeMap reason s).timebase + ticksOf ((closeMap reason s).settings.sweepPeriod * 10)) })
    unfold startFirstSweep
    rw [h]
    exact ⟨_, _, _, _, rfl, rfl, rfl, by rw [if_neg h0]; exact ⟨h1, h2, h3, h5⟩⟩

/-! ## Ports -/

/-- The request of a good frame reaches its block with its arguments (R164). -/
theorem takeFrame_good (p : Port) (code : Byte) (args fill : List Byte) (act : List Byte → State → State) {s : State}
    (ht : s.frameTaken p = true) (hl : args.length = argumentBytes code) :
    takeFrame p code (requestRest code args ++ fill) act s = act args (endFrame p s) := by
  have h1 : (requestRest code args ++ fill).take (argumentBytes code) = args := by
    simp [requestRest, ← hl]
  have h2 : (requestRest code args ++ fill).drop (argumentBytes code) = crc8 (code :: args) :: fill := by
    simp [requestRest, ← hl]
  have h3 : frameGood code (requestRest code args ++ fill) = true := by
    simp [frameGood, h1, h2]
  unfold takeFrame
  rw [if_pos ht, if_pos h3, frameArgs, h1]

/-- The request of a frame that is not looked at is discarded (R161, R166). -/
theorem takeFrame_not_taken (p : Port) (code : Byte) (rest : List Byte) (act : List Byte → State → State) {s : State}
    (ht : s.frameTaken p = false) : takeFrame p code rest act s = endFrame p s := by
  simp [takeFrame, ht]

/-- A frame that fails its checks is refused (R164). -/
theorem takeFrame_bad (p : Port) (code : Byte) (rest : List Byte) (act : List Byte → State → State) {s : State}
    (ht : s.frameTaken p = true) (hg : frameGood code rest = false) :
    takeFrame p code rest act s = answerNow p (refusal .checkError code) (endFrame p s) := by
  simp [takeFrame, ht, hg]

end Sys2Proof.Machine
end

