-- ==== Sys2Proof/Laws/Operations.lean ====
section
/-! SUPPORT. Laws/Operations.lean: for each shared operation, what it does, said once: the index plan, the Image's writes,
tickets, claims, slots and tags, the scheduler's items, and a chain restart. -/

namespace Sys2Proof.Machine

/-! ## Answers (R165) -/

theorem answerNow_endFrame (p : Port) (a : Answer) (s : State) :
    answerNow p a (endFrame p s) = s.answered p (.ready a) := by
  simp [answerNow, endFrame, State.answered]

theorem answerLater_endFrame (p : Port) (a : Answer) (s : State) :
    answerLater p a (endFrame p s) = s.answered p (waitsFor a) := by
  simp [answerLater, endFrame, State.answered, waitsFor]

/-! ## The index plan (R1) -/

theorem entryOfIndex_entryIndex (m : Mod) (ch : Chan) : entryOfIndex (entryIndex m ch) = some (m, ch) := by
  cases ch with
  | cell c => revert m c; decide
  | temp c => revert m c; decide
  | block => revert m; decide
  | die => revert m; decide

theorem entryIndex_of_entryOfIndex {i : Nat} {x : Mod × Chan} (h : entryOfIndex i = some x) :
    entryIndex x.1 x.2 = i := by
  unfold entryOfIndex at h
  split at h
  · cases h; dsimp only [entryIndex]; omega
  · split at h
    · cases h; dsimp only [entryIndex]; omega
    · split at h
      · obtain rfl := Option.some.inj h
        show 240 + (i - 240) = i
        omega
      · split at h
        · obtain rfl := Option.some.inj h
          show 252 + (i - 252) = i
          omega
        · cases h

theorem entryOfIndex_isSome {i : Nat} (h : i < 264) : ∃ x, entryOfIndex i = some x := by
  unfold entryOfIndex
  by_cases h1 : i < 192
  · exact ⟨_, dif_pos h1⟩
  · rw [dif_neg h1]
    by_cases h2 : i < 240
    · exact ⟨_, dif_pos h2⟩
    · rw [dif_neg h2]
      by_cases h3 : i < 252
      · exact ⟨_, dif_pos h3⟩
      · rw [dif_neg h3]; exact ⟨_, dif_pos h⟩

theorem modOfNumber_modNumber (m : Mod) : modOfNumber (modNumber m) = some m := by
  unfold modOfNumber modNumber
  rw [dif_pos (by omega)]
  rfl

theorem modNumber_of_modOfNumber {n : Nat} {m : Mod} (h : modOfNumber n = some m) : modNumber m = n := by
  unfold modOfNumber at h
  split at h
  · cases h; unfold modNumber; dsimp only; omega
  · cases h

theorem filterMap_map_of_forall {α β γ : Type} (f : α → Option β) (g : β → γ) (k : α → γ) (l : List α)
    (h : ∀ a ∈ l, (f a).map g = some (k a)) : (l.filterMap f).map g = l.map k := by
  induction l with
  | nil => rfl
  | cons a l ih =>
    have := h a (by simp)
    cases hf : f a with
    | none => simp [hf] at this
    | some b => simp [hf] at this; simp [hf, this, ih fun a ha => h a (by simp [ha])]

/-- A run in 0..263 has one copy for each index, in ascending order (R25). -/
theorem copyRun_indices (s : State) (first count : Nat) (h : first + count ≤ 264) :
    (copyRun s first count).map (fun c => entryIndex c.module c.chan) = (List.range count).map (first + ·) := by
  unfold copyRun
  apply filterMap_map_of_forall
  intro i hi
  simp at hi
  obtain ⟨x, hx⟩ := entryOfIndex_isSome (i := first + i) (by omega)
  simp [hx, entryIndex_of_entryOfIndex hx]

/-- A run is coherent exactly when any two FRESH copies of it share one conversion instant (R26). -/
theorem coherent_iff (run : List HoldCopy) : coherent run = true ↔
    ∀ c ∈ run, ∀ d ∈ run, c.record.quality = .fresh → d.record.quality = .fresh →
      c.record.instant = d.record.instant := by
  unfold coherent
  constructor
  · intro h c hc d hd hcf hdf
    have mem (x : HoldCopy) (hx : x ∈ run) (hf : x.record.quality = .fresh) :
        x.record.instant ∈ (run.filter fun c => c.record.quality == .fresh).map fun c => c.record.instant :=
      List.mem_map.2 ⟨x, List.mem_filter.2 ⟨hx, by simp [hf]⟩, rfl⟩
    have hc := mem c hc hcf
    have hd := mem d hd hdf
    revert h hc hd
    generalize (run.filter fun c => c.record.quality == .fresh).map (fun c => c.record.instant) = l
    cases l with
    | nil => simp
    | cons t ts => grind
  · intro h
    have all : ∀ u ∈ (run.filter fun c => c.record.quality == .fresh).map (fun c => c.record.instant),
        ∀ v ∈ (run.filter fun c => c.record.quality == .fresh).map (fun c => c.record.instant), u = v := by
      grind
    revert all
    generalize (run.filter fun c => c.record.quality == .fresh).map (fun c => c.record.instant) = l
    cases l with
    | nil => simp
    | cons t ts => simp; grind

/-! ## The Image's writes -/

theorem chanEntry_mapEntries (f : Chan → Entry → Entry) (mi : ModuleImage) (ch : Chan) :
    chanEntry (mapEntries f mi) ch = f ch (chanEntry mi ch) := by
  cases ch <;> simp [chanEntry, mapEntries]

theorem chanEntry_setModuleImage (m k : Mod) (f : Chan → Entry → Entry) (ch : Chan) (s : State) :
    chanEntry ((s.setModuleImage m (mapEntries f (s.moduleImage m))).moduleImage k) ch =
      if m = k then f ch (chanEntry (s.moduleImage k) ch) else chanEntry (s.moduleImage k) ch := by
  simp only [State.moduleImage, State.setModuleImage, tget_tput]
  split
  · subst_vars; rw [chanEntry_mapEntries]
  · rfl

/-- An event at the Image rewrites the entries of its module alone (R12 to R21). -/
theorem chanEntry_writeModule (m : Mod) (f : Chan → Entry → Entry) (s : State) (k : Mod) (ch : Chan) :
    chanEntry ((writeModule m f s).moduleImage k) ch =
      if m = k then f ch (chanEntry (s.moduleImage k) ch) else chanEntry (s.moduleImage k) ch := by
  have : (writeModule m f s).moduleImage k = (s.setModuleImage m (mapEntries f (s.moduleImage m))).moduleImage k := by
    unfold writeModule
    dsimp only
    split <;> rfl
  rw [this, chanEntry_setModuleImage]

/-- What an event at the Image can write besides its entries: the hand-offs to the Balance Controller. -/
theorem writeModule_fields (m : Mod) (f : Chan → Entry → Entry) (s : State) :
    ∃ i b, writeModule m f s = { s with image := { s.image with modules := i }
                                        balance := { s.balance with handoffs := b } } := by
  unfold writeModule
  dsimp only
  split <;> exact ⟨_, _, rfl⟩

/-- A group renewal writes the Image as its writes say, whatever it raises and hands on (R10, R12). -/
theorem renewGroup_image (m : Mod) (g : Machine.Group) (samples : Chan → Option Sample) (info : RenewalInfo) (s : State) :
    (renewGroup m g samples info s).image = (writeRenewal m g samples info s).image := by
  unfold renewGroup handReceipt handOff
  dsimp only
  repeat' split
  all_goals simp only [raiseBoth_image]

/-- Deadline sets expire, each making its own FRESH entries STALE (R20, R21). -/
theorem foldl_expireSet (xs : List (Mod × DeadlineKind)) : ∀ s : State,
    let t := xs.foldl (fun s x => expireSet x.1 x.2 s) s
    (∃ i b, t = { s with image := { s.image with modules := i }, balance := { s.balance with handoffs := b } })
    ∧ ∀ m ch, chanEntry (t.moduleImage m) ch =
        if (m, deadlineOf ch) ∈ xs ∧ (chanEntry (s.moduleImage m) ch).quality = .fresh
        then { chanEntry (s.moduleImage m) ch with quality := .stale } else chanEntry (s.moduleImage m) ch := by
  induction xs with
  | nil => intro s; exact ⟨⟨_, _, rfl⟩, fun _ _ => by simp⟩
  | cons a xs ih =>
    intro s
    obtain ⟨⟨i, b, h1⟩, h2⟩ := ih (expireSet a.1 a.2 s)
    obtain ⟨i', b', hw⟩ := writeModule_fields a.1 (expireEntry a.2) s
    refine ⟨⟨i, b, ?_⟩, fun m ch => ?_⟩
    · simp only [List.foldl_cons]; rw [h1]; unfold expireSet; rw [hw]
    · simp only [List.foldl_cons]
      rw [h2]
      unfold expireSet
      rw [chanEntry_writeModule]
      obtain ⟨am, ak⟩ := a
      by_cases hm : am = m
      · subst hm
        by_cases hk : deadlineOf ch = ak
        · subst hk
          by_cases hq : (chanEntry (s.moduleImage am) ch).quality = .fresh <;> simp [expireEntry, hq]
        · simp [expireEntry, hk]
      · simp [hm, Ne.symm hm]

/-! ## Tickets (R109) -/

/-- The id that is issued belongs to no live ticket. -/
theorem nextId_not_live (q : TicketQueue) (h : q.tickets.length < 4) : nextId q ∉ q.tickets.map (·.id) := by
  unfold nextId
  cases hf : ((List.range 5).map fun k => q.lastId + 1 + BitVec.ofNat 8 k).find?
      (fun id => !q.tickets.any fun t => t.id = id) with
  | some id =>
    have := List.find?_some hf
    simp at this
    simp
    intro x hx; exact this x hx
  | none =>
    exfalso
    rw [List.find?_eq_none] at hf
    have hsub : ((List.range 5).map fun k => q.lastId + 1 + BitVec.ofNat 8 k) ⊆ q.tickets.map (·.id) := by
      intro id hid
      have := hf id hid
      simp at this
      obtain ⟨t, ht, rfl⟩ := this
      exact List.mem_map_of_mem ht
    have hnd : ((List.range 5).map fun k => q.lastId + 1 + BitVec.ofNat 8 k).Nodup := by
      generalize q.lastId + 1 = b
      rw [List.nodup_map_iff_inj_on List.nodup_range]
      intro x hx y hy hxy
      simp at hx hy
      have := (BitVec.add_right_inj b).1 hxy
      interval_cases x <;> interval_cases y <;> simp_all
    have := (List.Subperm.length_le (hnd.subperm hsub))
    simp at this
    omega

/-- The id that is issued is the first after the last one that no live ticket has. -/
theorem nextId_first (q : TicketQueue) (h : q.tickets.length < 4) :
    ∃ k : Nat, nextId q = q.lastId + 1 + BitVec.ofNat 8 k
      ∧ ∀ j, j < k → q.lastId + 1 + BitVec.ofNat 8 j ∈ q.tickets.map (·.id) := by
  have hn := nextId_not_live q h
  unfold nextId at *
  cases hf : ((List.range 5).map fun k => q.lastId + 1 + BitVec.ofNat 8 k).find?
      (fun id => !q.tickets.any fun t => t.id = id) with
  | none => rw [hf] at hn; exact ⟨0, by simp, by simp⟩
  | some id =>
    rw [List.find?_map] at hf
    obtain ⟨k, hk, rfl⟩ := Option.map_eq_some_iff.1 hf
    refine ⟨k, rfl, fun j hj => ?_⟩
    have := (List.find?_range_eq_some.1 hk).2.2 j hj
    simp at this
    simpa using this

/-! ## Claims and decisions (R141, R158) -/

theorem refreshItems_eq (s : State) : ∃ x, refreshItems s = { s with sched := x } := ⟨_, rfl⟩

/-- A cell that is ON or HELD after a decision was chosen by it, and the other way about. -/
theorem inMask_decideModule (i : DecisionInput) (mi : ModuleImage) (b : BalanceModule) (c : Fin 16) :
    inMask (decideModule i mi b).decided c = chosen i mi b c := by
  unfold decideModule
  rw [inMask_maskOf]
  unfold decideCell chosen candidate
  dsimp only
  cases hr : requested (tget b.cells c) with
  | false => simp [switchedOn]
  | true =>
    cases hb : blockCauseOf i mi c (tget b.cells c) with
    | some k => simp [switchedOn]
    | none =>
      simp only [if_true, Option.isNone_none, Bool.and_self, Bool.true_and]
      cases hk : decide (rankOf i mi b c < i.capacity) with
      | false => simp_all [switchedOn]
      | true => cases hh : b.hold <;> simp_all [switchedOn]

/-- A port's claims on a module are withdrawn, and no other module's table changes (R158). -/
theorem dropModuleClaims_fields (p : Port) (s : State) (m : Mod) :
    (∃ b r, dropModuleClaims p s m = { s with balance := { s.balance with modules := b }, raised := r })
    ∧ (∀ k, k ≠ m → (dropModuleClaims p s m).balanceOf k = s.balanceOf k)
    ∧ ∀ c, (tget ((dropModuleClaims p s m).balanceOf m).cells c).request
          = (tget (s.balanceOf m).cells c).request.set p none
        ∧ (tget ((dropModuleClaims p s m).balanceOf m).cells c).inhibit
          = (tget (s.balanceOf m).cells c).inhibit.set p false
        ∧ (tget ((dropModuleClaims p s m).balanceOf m).cells c).onTime = (tget (s.balanceOf m).cells c).onTime
        ∧ ((dropModuleClaims p s m).balanceOf m).commanded = (s.balanceOf m).commanded := by
  unfold dropModuleClaims
  dsimp only
  split
  · obtain ⟨r, hr⟩ := decideFrom_eq m none (s.balanceOf m)
      { s.balanceOf m with cells := tmap (s.balanceOf m).cells fun _ r => dropClaims p r } s
    refine ⟨⟨_, r, hr⟩, ?_, ?_⟩
    · intro k hk; rw [decideFrom_balanceOf, if_neg (Ne.symm hk)]
    · intro c; rw [decideFrom_balanceOf, if_pos rfl]
      simp [decideModule, dropClaims, setInhibit, setRequest]
  · next h =>
    refine ⟨⟨_, _, rfl⟩, fun _ _ => rfl, fun c => ?_⟩
    simp only [holdsClaim, List.any_eq_true, not_exists] at h
    have := h c
    simp [requestedBy] at this
    refine ⟨?_, ?_, rfl, rfl⟩
    · rw [← this.1, PerPort.set_get]
    · rw [← this.2, PerPort.set_get]

/-- A module's table after a port's claims on it are withdrawn: its decision is taken afresh if it had any (R158). -/
theorem dropModuleClaims_table (p : Port) (s : State) (m k : Mod) :
    (dropModuleClaims p s m).balanceOf k = if m = k ∧ holdsClaim p (s.balanceOf k) = true
      then decideModule (s.decisionInput k) (s.moduleImage k)
        { s.balanceOf k with cells := tmap (s.balanceOf k).cells fun _ r => dropClaims p r }
      else s.balanceOf k := by
  unfold dropModuleClaims
  dsimp only
  by_cases hm : m = k
  · subst hm
    by_cases hc : holdsClaim p (s.balanceOf m) = true
    · rw [if_pos hc, if_pos ⟨rfl, hc⟩, decideFrom_balanceOf, if_pos rfl]
    · rw [if_neg hc, if_neg (by simp [hc])]
  · rw [if_neg (c := m = k ∧ _) (fun h => hm h.1)]
    split
    · rw [decideFrom_balanceOf, if_neg hm]
    · rfl

/-- A port's claims withdrawn from a list of modules (R158). -/
theorem foldl_dropModuleClaims (p : Port) (ms : List Mod) : ∀ s : State, ms.Nodup →
    let t := ms.foldl (dropModuleClaims p) s
    (∃ b r, t = { s with balance := { s.balance with modules := b }, raised := r })
    ∧ ∀ k, t.balanceOf k = if k ∈ ms ∧ holdsClaim p (s.balanceOf k) = true
        then decideModule (s.decisionInput k) (s.moduleImage k)
          { s.balanceOf k with cells := tmap (s.balanceOf k).cells fun _ r => dropClaims p r }
        else s.balanceOf k := by
  induction ms with
  | nil => intro s _; exact ⟨⟨_, _, rfl⟩, fun k => by simp⟩
  | cons a ms ih =>
    intro s hn
    simp only [List.nodup_cons] at hn
    obtain ⟨⟨b, r, h1⟩, h2⟩ := ih (dropModuleClaims p s a) hn.2
    obtain ⟨⟨b', r', h1'⟩, -, -⟩ := dropModuleClaims_fields p s a
    refine ⟨⟨b, r, ?_⟩, fun k => ?_⟩
    · simp only [List.foldl_cons]; rw [h1, h1']
    · simp only [List.foldl_cons]
      have hi : (dropModuleClaims p s a).decisionInput k = s.decisionInput k := by rw [h1']; rfl
      have hg : (dropModuleClaims p s a).moduleImage k = s.moduleImage k := by rw [h1']; rfl
      rw [h2, hi, hg, dropModuleClaims_table]
      by_cases hk : a = k
      · subst hk; simp [hn.1]
      · simp [hk, Ne.symm hk]

/-! ## Slots, tags and sendings (R67 to R77) -/

theorem drawTag_free {l : Link} {t : BitVec 4} (h : drawTag l = some t) : tagBusy l t = false := by
  simpa using List.find?_some h

theorem freeSlot_free {l : Link} {i : Fin 4} (h : freeSlot l = some i) : tget l.slots i = none := by
  simpa using List.find?_some h

/-- A first sending fills the lowest free slot under a fresh tag and puts its frame on the lane (R67, R69, R70). -/
theorem sendUnicast_sends (role : Role) (owner : Owner) (node : Nat) (p : Payload) (i : Fin 4) (tag : BitVec 4)
    (s : State) (hi : freeSlot s.link = some i) (ht : drawTag s.link = some tag) :
    sendUnicast role owner node p s = { s with link := { s.link with
      lastTag := tag
      slots := tput s.link.slots i (some (newSlot s tag role owner node p))
      sending := some
        { bytes := commandBytes node (verbCode role) tag p
          endAt := s.linkTime + 4 * (commandBytes node (verbCode role) tag p).length
          slot := some i
          broadcast := false
          release := false } } } := by
  unfold sendUnicast
  rw [hi, ht]
  rfl

/-- A good frame that names no held slot matches none (R73, R74). -/
theorem matchSlot_none (l : Link) (f : ResponseFrame)
    (h : ∀ i x, tget l.slots i = some x → x.tag = some f.tag → x.node ≠ f.node) : matchSlot l f = none := by
  unfold matchSlot
  rw [List.find?_eq_none]
  intro i _
  cases hx : tget l.slots i with
  | none => simp
  | some x => simp; exact h i x hx

/-- A good frame completes the one slot that holds its tag, if the node agrees (R73). -/
theorem matchSlot_some {l : Link} (hl : LinkGood l) {f : ResponseFrame} {i : Fin 4} {x : TxnSlot}
    (hx : tget l.slots i = some x) (h : x.tag = some f.tag) (hn : x.node = f.node) : matchSlot l f = some i := by
  cases hm : matchSlot l f with
  | none =>
    exfalso
    unfold matchSlot at hm
    rw [List.find?_eq_none] at hm
    have := hm i (List.mem_finRange i)
    rw [hx] at this
    simp [h, hn] at this
  | some j =>
    have := List.find?_some hm
    cases hy : tget l.slots j with
    | none => rw [hy] at this; simp at this
    | some y =>
      rw [hy] at this
      simp at this
      rw [hl.tags i j x y f.tag hx hy h this.1]

/-! ## Work items (R100, R138) -/

theorem mem_offer (k : ItemKind) (s : State) : k ∈ (offer k s).sched.items.map (·.kind) := by simp [offer]

/-- Only balance updates come and go with the masks: every other item that is offered stands after the event. -/
theorem mem_refreshItems (k : ItemKind) (s : State) (h : k ∈ s.sched.items.map (·.kind)) (hn : ∀ m, k ≠ .update m) :
    k ∈ (refreshItems s).sched.items.map (·.kind) := by
  unfold refreshItems
  simp only [List.mem_map] at *
  obtain ⟨it, h1, rfl⟩ := h
  refine ⟨stampItem s it, ⟨it, ?_, rfl⟩, ?_⟩
  · simp only [List.mem_append, List.mem_filter]
    refine .inl ⟨h1, ?_⟩
    generalize it.kind = k at *
    cases k <;> first | rfl | trivial
  · unfold stampItem; split <;> rfl

/-- A module wants a balance update while its masks differ and no BALANCE_SET of it but a quiesce is on its way (R138,
R145). -/
theorem wantsUpdate_iff (s : State) (m : Mod) :
    s.wantsUpdate m = true ↔ (s.balanceOf m).commanded ≠ .mask (s.balanceOf m).decided
      ∧ ∀ i x, s.slot i = some x → x.node = modNumber m → x.role ≠ .restore ∧ x.role ≠ .update := by
  unfold State.wantsUpdate masksDiffer State.restoreOutstanding State.updateOutstanding heldSlots State.slot
  simp only [Bool.and_eq_true, bne_iff_ne, Bool.not_eq_true', List.any_eq_false, List.mem_filterMap, and_assoc,
    Bool.and_eq_true, beq_iff_eq, not_and]
  refine and_congr_right fun _ => ⟨fun h i x hx hn => ?_, fun h => ⟨?_, ?_⟩⟩
  · exact ⟨h.1 x ⟨i, List.mem_finRange i, hx⟩ hn, h.2 x ⟨i, List.mem_finRange i, hx⟩ hn⟩
  · rintro x ⟨i, -, hx⟩ hn; exact (h i x hx hn).1
  · rintro x ⟨i, -, hx⟩ hn; exact (h i x hx hn).2

/-- After an event a balance update is offered for exactly the modules that want one, and the items of every other kind
are those that were offered before (R138). -/
theorem mem_refreshItems_iff (k : ItemKind) (s : State) :
    k ∈ (refreshItems s).sched.items.map (·.kind) ↔ match k with
      | .update m => s.wantsUpdate m = true
      | _ => k ∈ s.sched.items.map (·.kind) := by
  have hs : ∀ it, (stampItem s it).kind = it.kind := by intro it; unfold stampItem; split <;> rfl
  unfold refreshItems
  simp only [List.map_map, List.mem_map, List.mem_append, List.mem_filter, Function.comp, hs]
  constructor
  · rintro ⟨it, h | ⟨m, h, rfl⟩, rfl⟩
    · cases hk : it.kind with
      | update m => simpa [hk] using h.2
      | _ => exact ⟨it, h.1, hk⟩
    · simpa using And.left (by simpa using h.2)
  · cases k with
    | update m =>
      intro h
      by_cases hk : ∃ it ∈ s.sched.items, it.kind = .update m
      · obtain ⟨it, hi, hk⟩ := hk
        exact ⟨it, .inl ⟨hi, by simpa [hk] using h⟩, hk⟩
      · refine ⟨_, .inr ⟨m, ⟨List.mem_finRange m, ?_⟩, rfl⟩, rfl⟩
        simp only [not_exists, not_and] at hk
        simp only [h, Bool.true_and, Bool.not_eq_true', List.any_eq_false, List.mem_filter, beq_iff_eq, and_imp]
        exact fun it hi _ => hk it hi
    | _ =>
      rintro ⟨it, hi, hk⟩
      exact ⟨it, .inl ⟨hi, by rw [hk]⟩, hk⟩

/-- While no module wants an update, the one item RELEASE_ALL stands alone (R107). -/
theorem refreshItems_release (s : State) (h : s.sched.items.map (·.kind) = [.release])
    (hb : ∀ m, (s.balanceOf m).commanded = .mask 0 ∧ (s.balanceOf m).decided = 0) :
    (refreshItems s).sched.items.map (·.kind) = [.release] := by
  have hw : ∀ m, s.wantsUpdate m = false := by
    intro m; simp [State.wantsUpdate, masksDiffer, (hb m).1, (hb m).2]
  unfold refreshItems
  rw [List.map_eq_singleton_iff] at h
  obtain ⟨a, hs, h⟩ := h
  simp [hw, h, hs]
  unfold stampItem; split <;> simp [h]

/-! ## A chain restart (R93) -/

theorem foldl_restartImage (ms : List Mod) : ∀ s : State, ms.Nodup →
    let t := ms.foldl (fun s m => writeModule m (fun _ => restartEntry) s) s
    (∃ i b, t = { s with image := { s.image with modules := i }, balance := { s.balance with handoffs := b } })
    ∧ ∀ m ch, chanEntry (t.moduleImage m) ch =
        if m ∈ ms then restartEntry (chanEntry (s.moduleImage m) ch) else chanEntry (s.moduleImage m) ch := by
  induction ms with
  | nil => intro s _; exact ⟨⟨_, _, rfl⟩, fun _ _ => rfl⟩
  | cons a ms ih =>
    intro s hn
    simp only [List.nodup_cons] at hn
    obtain ⟨⟨i, b, h1⟩, h2⟩ := ih (writeModule a (fun _ => restartEntry) s) hn.2
    obtain ⟨i', b', hw⟩ := writeModule_fields a (fun _ => restartEntry) s
    refine ⟨⟨i, b, ?_⟩, fun m ch => ?_⟩
    · simp only [List.foldl_cons]; rw [h1, hw]
    · simp only [List.foldl_cons]; rw [h2, chanEntry_writeModule]
      by_cases hm : a = m
      · subst hm; simp [hn.1]
      · simp [hm, Ne.symm hm]

/-- The decision taken for a list of modules, the claims of each rewritten first (R139, R157). -/
theorem foldl_decideFrom (claims : Mod → BalanceModule → BalanceModule) (ms : List Mod) : ∀ s : State, ms.Nodup →
    let t := ms.foldl (fun s m => decideFrom m none (s.balanceOf m) (claims m (s.balanceOf m)) s) s
    (∃ i r, t = { s with balance := { s.balance with modules := i }, raised := r })
    ∧ ∀ m, t.balanceOf m = if m ∈ ms
        then decideModule (s.decisionInput m) (s.moduleImage m) (claims m (s.balanceOf m)) else s.balanceOf m := by
  induction ms with
  | nil => intro s _; exact ⟨⟨_, _, rfl⟩, fun _ => rfl⟩
  | cons a ms ih =>
    intro s hn
    simp only [List.nodup_cons] at hn
    obtain ⟨⟨i, b, h1⟩, h2⟩ := ih (decideFrom a none (s.balanceOf a) (claims a (s.balanceOf a)) s) hn.2
    obtain ⟨r, hr⟩ := decideFrom_eq a none (s.balanceOf a) (claims a (s.balanceOf a)) s
    refine ⟨⟨i, b, ?_⟩, fun m => ?_⟩
    · simp only [List.foldl_cons]; rw [h1, hr]; rfl
    · simp only [List.foldl_cons]; rw [h2, decideFrom_balanceOf, hr]
      by_cases hm : a = m
      · subst hm; simp [hn.1]
      · simp [hm, Ne.symm hm]; rfl

/-- Putting the records that an event raises together changes nothing but what is raised (R187). -/
theorem asOneEvent_eq (act : State → State) (s : State) : ∃ r, asOneEvent act s = { act s with raised := r } := ⟨_, rfl⟩

/-- The decision of every module is taken afresh, and nothing else changes but what is raised (R139, R202). -/
theorem decideAll_fields (s : State) :
    (∃ i r, decideAll s = { s with balance := { s.balance with modules := i }, raised := r })
    ∧ ∀ m, (decideAll s).balanceOf m = decideModule (s.decisionInput m) (s.moduleImage m) (s.balanceOf m) := by
  obtain ⟨⟨i, r, h1⟩, h2⟩ := foldl_decideFrom (fun _ b => b) allMods s (List.nodup_finRange 12)
  obtain ⟨r', h3⟩ := asOneEvent_eq (fun s => allMods.foldl (fun s m => takeDecision m s) s) s
  have h4 : decideAll s = { s with balance := { s.balance with modules := i }, raised := r' } :=
    h3.trans (congrArg (fun t : State => { t with raised := r' }) h1)
  refine ⟨⟨i, r', h4⟩, fun m => ?_⟩
  have := h2 m
  rw [if_pos (show m ∈ allMods from List.mem_finRange m), h1] at this
  rw [h4]
  exact this

theorem restartTickets_fields (p : Port) (s : State) :
    ∃ r, restartTickets p s =
      { s with tickets := s.tickets.set p { s.ticketQueue p with tickets := [] }, raised := r } := by
  unfold restartTickets
  dsimp only
  obtain ⟨r, hr⟩ := raiseTo_eq p ((s.ticketQueue p).tickets.map fun t =>
    doneEvent s.timebase true ((match t.state with
      | .queued => none
      | .joined u => s.passOf u
      | .running u => s.passOf u : Option Pass).bind fun x => partOf x t.module) t)
    (s.setTickets p { s.ticketQueue p with tickets := [] })
  exact ⟨r, hr⟩

/-- The restarts of the map, the passes, the sweep, the link and the items: a chain restart but for the tickets, the
claims and the image (R93). -/
def chainPart (s : State) : State := schedRestart (linkRestart (sweepRestart (passRestart (mapRestart s))))

theorem chainPart_image (s : State) : (chainPart s).image = s.image := by
  simp only [chainPart, schedRestart, offer_image, linkRestart, sweepRestart, State.setSweep_image, passRestart,
    mapRestart, State.setMap_image]

theorem chainPart_balance (s : State) : (chainPart s).balance = s.balance := by
  simp only [chainPart, schedRestart, offer_balance, linkRestart, sweepRestart, State.setSweep_balance, passRestart,
    mapRestart, State.setMap_balance]

/-- They neither read nor write the tickets and the events raised. -/
theorem chainPart_tickets (tk : PerPort TicketQueue) (r : PerPort (List (List Event))) (s : State) :
    chainPart { s with tickets := tk, raised := r } = { chainPart s with tickets := tk, raised := r } := by
  unfold chainPart schedRestart linkRestart sweepRestart passRestart mapRestart offer State.setSweep State.setMap
  rfl

/-- What a chain restart writes: the map, the passes, the sweep, the link and the items as their blocks restart them, no
live ticket, every populated entry FAULTED (RESTART), and every module's claims as a decision leaves them (R93). -/
theorem beginRestart_fields (s : State) : ∃ tk r i b,
    beginRestart s = { schedRestart (linkRestart (sweepRestart (passRestart (mapRestart s)))) with
      tickets := tk, raised := r, image := { s.image with modules := i }, balance := b }
    ∧ (∀ p, (tk.get p).tickets = [])
    ∧ (∀ m ch, chanEntry (tget i m) ch = restartEntry (chanEntry (s.moduleImage m) ch))
    ∧ ∀ m, ∃ di mi, tget b.modules m = decideModule di mi (restartClaims (s.balanceOf m)) := by
  obtain ⟨ra, ha⟩ := restartTickets_fields .A s
  obtain ⟨rb, hb⟩ := restartTickets_fields .B (restartTickets .A s)
  let tk := (s.tickets.set .A { s.ticketQueue .A with tickets := [] }).set .B { s.ticketQueue .B with tickets := [] }
  have h0 : beginRestart s = balanceRestart (imageRestart { chainPart s with tickets := tk, raised := rb }) := by
    unfold beginRestart
    dsimp only
    rw [hb, ha]
    exact congrArg (fun v => balanceRestart (imageRestart v)) (chainPart_tickets tk rb s)
  change ∃ tk r i b, _ = { chainPart s with
      tickets := tk, raised := r, image := { s.image with modules := i }, balance := b } ∧ _
  have hi := chainPart_image s
  have hb := chainPart_balance s
  generalize chainPart s = u at h0 hi hb
  obtain ⟨⟨i, bh, h1⟩, h2⟩ := foldl_restartImage allMods { u with tickets := tk, raised := rb } (List.nodup_finRange 12)
  let s3 : State := { u with tickets := tk, raised := rb, image := { u.image with modules := i },
                             balance := { u.balance with handoffs := bh } }
  have h1 : imageRestart { u with tickets := tk, raised := rb } = s3 := h1
  let ended (p : Port) := allMods.flatMap fun m =>
    endedEvents s3.timebase m p .restart (s3.balanceOf m) (restartClaims (s3.balanceOf m))
  obtain ⟨r4, h4⟩ := raiseEach_eq (ended .A) (ended .B) s3
  obtain ⟨⟨i5, r5, h5⟩, h6⟩ := foldl_decideFrom (fun _ => restartClaims) allMods { s3 with raised := r4 } (List.nodup_finRange 12)
  have hb5 : balanceRestart s3 =
      { u with tickets := tk, raised := r5, image := { u.image with modules := i },
               balance := { u.balance with handoffs := bh, modules := i5 } } := by
    unfold balanceRestart; dsimp only; rw [h4, h5]
  refine ⟨tk, r5, i, _, by rw [h0, h1, hb5, hi], fun p => by cases p <;> rfl, fun m ch => ?_, fun m => ?_⟩
  · have := h2 m ch
    rw [if_pos (show m ∈ allMods from List.mem_finRange m)] at this
    unfold imageRestart at h1
    rw [h1] at this
    unfold State.moduleImage
    rw [← hi]
    exact this
  · have := h6 m
    rw [if_pos (show m ∈ allMods from List.mem_finRange m), h5] at this
    unfold State.balanceOf
    rw [← hb]
    exact ⟨_, _, this⟩

/-! ## Settings (R204) -/

/-- A shared setting without an index reads back as it was written, for a value in its range. -/
theorem settingValue_writeSetting (k : SettingId) (v : Int) (st : Settings) (hk : perPort k = false)
    (h : settingInRange k v = true) (j : Mod) (hj : k ≠ .populationMask) :
    settingValue (writeSetting 0 k v st) j k = v := by
  cases k
  case populationMask => exact absurd rfl hj
  case subscribe => cases hk
  case alertMask => cases hk
  all_goals
    simp only [settingInRange, settingRange, Bool.and_eq_true] at h
    have h1 := of_decide_eq_true h.1
    have h2 := of_decide_eq_true h.2
    clear h
    simp only [settingValue, writeSetting, beq_iff_eq, BitVec.toNat_ofNat]
  all_goals first
    | omega
    | (split <;> split <;> first | omega | (exfalso; simp_all))

end Sys2Proof.Machine
end

