-- ==== Sys2Proof/Laws/Grants.lean ====
section
/-! SUPPORT. Laws/Grants.lean: what a grant chooses and what it offers (R102 to R106). -/

namespace Sys2Proof.Machine

/-! ## The ladder -/

theorem keyBefore_trans : ∀ {a b c : List Nat}, keyBefore a b = true → keyBefore b c = true → keyBefore a c = true
  | x :: xs, y :: ys, z :: zs, h1, h2 => by
    unfold keyBefore at *
    simp only [Bool.or_eq_true, decide_eq_true_eq, Bool.and_eq_true, beq_iff_eq] at *
    rcases h1 with h1 | ⟨rfl, h1⟩ <;> rcases h2 with h2 | ⟨rfl, h2⟩
    · left; omega
    · exact .inl h1
    · exact .inl h2
    · exact .inr ⟨rfl, keyBefore_trans h1 h2⟩

theorem keyBefore_irrefl : ∀ a : List Nat, keyBefore a a = false
  | [] => rfl
  | x :: xs => by unfold keyBefore; simp [keyBefore_irrefl xs]

/-- Of two keys of one length, one stands on each side of a third that comes between. -/
theorem keyBefore_split : ∀ {a b c : List Nat}, a.length = b.length → keyBefore a c = true → keyBefore a b = true
    ∨ keyBefore b c = true
  | x :: xs, y :: ys, z :: zs, hl, h => by
    unfold keyBefore at *
    simp only [Bool.or_eq_true, decide_eq_true_eq, Bool.and_eq_true, beq_iff_eq] at *
    rcases h with h | ⟨rfl, h⟩
    · by_cases h' : x < y
      · exact .inl (.inl h')
      · exact .inr (.inl (by omega))
    · rcases Nat.lt_trichotomy x y with h' | rfl | h'
      · exact .inl (.inl h')
      · rcases keyBefore_split (by simpa using hl) h with h | h
        · exact .inl (.inr ⟨rfl, h⟩)
        · exact .inr (.inr ⟨rfl, h⟩)
      · exact .inr (.inl h')

theorem chooseItem_foldl (s : State) (l : List WorkItem) : ∀ b : WorkItem,
    ∃ it, l.foldl (fun best it => match best with
      | none => some it
      | some b => if keyBefore (itemKey s it) (itemKey s b) then some it else some b) (some b) = some it
    ∧ (it = b ∨ it ∈ l) ∧ keyBefore (itemKey s b) (itemKey s it) = false ∧ ∀ jt ∈ l,
        keyBefore (itemKey s jt) (itemKey s it) = false := by
  induction l with
  | nil => exact fun b => ⟨b, rfl, .inl rfl, keyBefore_irrefl _, by simp⟩
  | cons a l ih =>
    intro b
    simp only [List.foldl_cons]
    by_cases h : keyBefore (itemKey s a) (itemKey s b) = true
    · rw [if_pos h]
      obtain ⟨it, h1, h2, h3, h4⟩ := ih a
      refine ⟨it, h1, .inr ?_, ?_, ?_⟩
      · rcases h2 with rfl | h2 <;> simp_all
      · cases hb : keyBefore (itemKey s b) (itemKey s it) with
        | false => rfl
        | true => rw [keyBefore_trans h hb] at h3; cases h3
      · intro jt hj
        rcases List.mem_cons.mp hj with rfl | hj
        · exact h3
        · exact h4 _ hj
    · rw [if_neg h]
      obtain ⟨it, h1, h2, h3, h4⟩ := ih b
      refine ⟨it, h1, ?_, h3, ?_⟩
      · rcases h2 with rfl | h2
        · exact .inl rfl
        · exact .inr (List.mem_cons_of_mem _ h2)
      · intro jt hj
        rcases List.mem_cons.mp hj with rfl | hj
        · cases hb : keyBefore (itemKey s jt) (itemKey s it) with
          | false => rfl
          | true =>
            rcases keyBefore_split (a := itemKey s jt) (b := itemKey s b) rfl hb with hc | hc
            · exact absurd hc h
            · rw [hc] at h3; cases h3
        · exact h4 _ hj

/-- The chosen item is grantable, and no grantable item comes before it. -/
theorem chooseItem_first {s : State} {it : WorkItem} (h : chooseItem s = some it) :
    it ∈ s.sched.items ∧ grantable s it = true
    ∧ ∀ jt ∈ s.sched.items, grantable s jt = true → keyBefore (itemKey s jt) (itemKey s it) = false := by
  unfold chooseItem at h
  cases hl : s.sched.items.filter (grantable s) with
  | nil => rw [hl] at h; cases h
  | cons a l =>
    rw [hl] at h
    obtain ⟨jt, h1, h2, h3, h4⟩ := chooseItem_foldl s l a
    cases h.symm.trans h1
    have hm : ∀ jt, jt ∈ a :: l ↔ jt ∈ s.sched.items ∧ grantable s jt = true := fun jt =>
        by rw [← hl, List.mem_filter]
    have := (hm it).mp (by rcases h2 with rfl | h2 <;> simp_all)
    refine ⟨this.1, this.2, fun jt h5 h6 => ?_⟩
    rcases List.mem_cons.mp ((hm jt).mpr ⟨h5, h6⟩) with rfl | h7
    · exact h3
    · exact h4 _ h7

/-- Nothing is chosen exactly when nothing is grantable. -/
theorem chooseItem_none {s : State} : chooseItem s = none ↔ ∀ jt ∈ s.sched.items, grantable s jt = false := by
  unfold chooseItem
  cases hl : s.sched.items.filter (grantable s) with
  | nil => simpa using hl
  | cons a l =>
    obtain ⟨jt, h1, -⟩ := chooseItem_foldl s l a
    have ha : a ∈ s.sched.items ∧ grantable s a = true := List.mem_filter.mp (hl ▸ List.mem_cons_self)
    refine ⟨fun h => ?_, fun h => ?_⟩
    · cases h.symm.trans h1
    · rw [h a ha.1] at ha; cases ha.2

/-- GRANT with an item due. -/
theorem exec_grant (s : State) (hr : s.inReset = false) (it : WorkItem) (hg : s.grantDue = some it) : exec .grant s
    = .next (refreshItems (grantItem it.kind (withdraw (· == it.kind) s))) := by
  show Host.Outcome.next (if s.inReset = true then s else takeGrant s) = _
  rw [if_neg (by simp [hr])]; unfold takeGrant; rw [hg]

/-! ## What a grant offers -/

/-- The items of `t` are those of `s` and such as `X` allows. -/
def OnlyOffers (s : State) (X : ItemKind → Prop) (t : State) : Prop := ∀ k, k ∈ t.sched.items.map (·.kind) →
    k ∈ s.sched.items.map (·.kind) ∨ X k

theorem startSettle_offers (u : Target) (s : State) : OnlyOffers s (· = .passStep u .convert) (startSettle u s) := by
  intro k hk
  unfold startSettle at hk
  split at hk
  · split at hk
    · simp only [offer] at hk; rw [State.setPass_sched] at hk
      simp at hk
      rcases hk with hk | rfl
      · left; simpa using hk
      · exact .inr rfl
    · simp at hk; left; simpa using hk
  · exact .inl hk

theorem sendUnicast_sched (r o n p) (s : State) : (sendUnicast r o n p s).sched = s.sched := by
  obtain ⟨l, h⟩ := sendUnicast_eq r o n p s; rw [h]

theorem updatePass_sched (u f) (s : State) : (updatePass u f s).sched = s.sched := by
  unfold updatePass; split <;> simp

theorem quiesceAll_sched (l : List Mod) : ∀ s : State, (l.foldl (fun s m =>
    setHold m true (setCommanded m (.mask 0)
      (updatePass .all (updatePart m fun x => { x with quiesced := true }) s))) s).sched = s.sched := by
  induction l with
  | nil => intro s; rfl
  | cons a l ih =>
    intro s
    rw [List.foldl_cons, ih, setHold_sched]
    show (updatePass _ _ s).sched = _
    rw [updatePass_sched]

theorem sendConvert_sched (u p) (s : State) : (sendConvert u p s).sched = s.sched := by
  unfold sendConvert; split
  · unfold convertSent; rw [updatePass_sched, sendUnicast_sched]
  · unfold convertSent startWait; rw [updatePass_sched, updatePass_sched]; rfl

/-- A granted item offers no other, but for the quiesce of an aligned pass without a settle time, which offers the
CONVERT. -/
theorem grantItem_offers (k : ItemKind) (s : State) : OnlyOffers s
    (fun j => k = .passStep .all .first ∧ j = .passStep .all .convert) (grantItem k s) := by
  intro j hj
  have same : (grantItem k s).sched.items = s.sched.items → j ∈ s.sched.items.map (·.kind)
      ∨ (k = .passStep .all .first ∧ j = .passStep .all .convert) := fun h => .inl (by rw [← h]; exact hj)
  cases k with
  | release => exact same rfl
  | assign => exact same (by unfold grantItem; rw [sendUnicast_sched])
  | probe => exact same (by unfold grantItem; rw [sendUnicast_sched])
  | update m => exact same (by unfold grantItem; rw [sendUnicast_sched])
  | ping m => exact same (by unfold grantItem; rw [sendUnicast_sched])
  | passStep u act =>
    dsimp only [grantItem] at hj same
    unfold grantPassItem at hj same
    split at hj
    · exact .inl hj
    · next p hp =>
      simp only [hp] at same
      cases act with
      | convert => exact same (by dsimp only; rw [sendConvert_sched])
      | readCells => refine same ?_; dsimp only; split <;> first | rw [sendUnicast_sched] | rfl
      | readAux => refine same ?_; dsimp only; split <;> first | rw [sendUnicast_sched] | rfl
      | restore =>
        refine same ?_; dsimp only; split
        · unfold grantRestore; dsimp only; rw [sendUnicast_sched]; split <;> first | rw [setHold_sched] | rfl
        · rfl
      | first =>
        dsimp only at hj same
        have h1 : (servePort p.origin s).sched.items = s.sched.items := rfl
        have hg : grantFirst u p s = quiesceOrConvert u p (servePort p.origin s) := rfl
        generalize servePort p.origin s = s1 at hg h1
        unfold quiesceOrConvert at hg
        rw [hg] at hj same
        split at hj
        · next hq =>
          rw [if_pos hq] at same
          cases u with
          | one m =>
            refine same ?_
            dsimp only; unfold quiesceSent; rw [setHold_sched, updatePass_sched, sendUnicast_sched, h1]
          | all =>
            dsimp only at hj
            unfold quiesceSentAll at hj
            rcases startSettle_offers _ _ _ hj with h | h
            · rw [quiesceAll_sched] at h; left; rw [← h1]; exact h
            · exact .inr ⟨rfl, h⟩
        · next hq =>
          rw [if_neg hq] at same
          exact same (by rw [sendConvert_sched, h1])

end Sys2Proof.Machine
end

