-- ==== Sys2Proof/Laws/Passes.lean ====
section
/-! SUPPORT. Laws/Passes.lean: what the steps of passes, the sweep and the grants can write (R28 to R54, R102 to R112): never the
Image, the map, the settings, the ports or what is not theirs. -/

namespace Sys2Proof.Machine

/-- Only the passes, the sweep, the link, the items, the tickets, the balance tables and what is raised may differ. -/
structure PassesOnly (s t : State) : Prop where
  eq : t = { s with
    passes := t.passes, aligned := t.aligned, reserved := t.reserved, sweep := t.sweep,
    link := { s.link with slots := t.link.slots, lastTag := t.link.lastTag, sending := t.link.sending },
    sched := t.sched, tickets := t.tickets, balance := { s.balance with modules := t.balance.modules },
    raised := t.raised }

namespace PassesOnly

theorem refl (s : State) : PassesOnly s s := ⟨rfl⟩

theorem trans {s t u : State} (h1 : PassesOnly s t) (h2 : PassesOnly t u) : PassesOnly s u :=
  ⟨h2.eq.trans (congrArg (fun t : State => { t with
    passes := u.passes, aligned := u.aligned, reserved := u.reserved, sweep := u.sweep,
    link := { t.link with slots := u.link.slots, lastTag := u.link.lastTag, sending := u.link.sending },
    sched := u.sched, tickets := u.tickets, balance := { t.balance with modules := u.balance.modules },
    raised := u.raised }) h1.eq)⟩

theorem foldl {α : Type} {f : State → α → State} (h : ∀ s a, PassesOnly s (f s a)) (l : List α) :
    ∀ s, PassesOnly s (l.foldl f s) := by
  induction l with
  | nil => exact refl
  | cons a l ih => exact fun s => (h s a).trans (ih _)

theorem ite {c : Prop} [Decidable c] {s t u : State} (h1 : PassesOnly s t) (h2 : PassesOnly s u) :
    PassesOnly s (if c then t else u) := by split <;> assumption

theorem setPass (t : Target) (p : Option Pass) (s : State) : PassesOnly s (s.setPass t p) := by cases t <;> exact ⟨rfl⟩

theorem updatePass (t : Target) (f : Pass → Pass) (s : State) : PassesOnly s (updatePass t f s) := by
  unfold Machine.updatePass
  split
  · exact setPass _ _ _
  · exact refl s

theorem offer (k : ItemKind) (s : State) : PassesOnly s (offer k s) := ⟨rfl⟩

theorem withdraw (g : ItemKind → Bool) (s : State) : PassesOnly s (withdraw g s) := ⟨rfl⟩

theorem refreshItems (s : State) : PassesOnly s (refreshItems s) := ⟨rfl⟩

theorem setCommanded (m : Mod) (c : Commanded) (s : State) : PassesOnly s (setCommanded m c s) := ⟨rfl⟩

theorem raiseTo (p : Port) (es : List Event) (s : State) : PassesOnly s (raiseTo p es s) := by
  obtain ⟨r, h⟩ := raiseTo_eq p es s
  rw [h]; exact ⟨rfl⟩

theorem decideFrom (m : Mod) (e : Option EventCause) (b c : BalanceModule) (s : State) :
    PassesOnly s (decideFrom m e b c s) := by
  obtain ⟨r, h⟩ := decideFrom_eq m e b c s
  rw [h]; exact ⟨rfl⟩

theorem setHold (m : Mod) (on : Bool) (s : State) : PassesOnly s (setHold m on s) := decideFrom _ _ _ _ _

theorem startSettle (t : Target) (s : State) : PassesOnly s (startSettle t s) := by
  unfold Machine.startSettle
  split
  · exact ite ((setPass _ _ _).trans (offer _ _)) (setPass _ _ _)
  · exact refl s

theorem startWait (t : Target) (k : PassTimerKind) (s : State) : PassesOnly s (startWait t k s) := updatePass _ _ _

theorem convertSent (t : Target) (s : State) : PassesOnly s (convertSent t s) := updatePass _ _ _

theorem sendUnicast (r : Role) (o : Owner) (n : Nat) (p : Payload) (s : State) : PassesOnly s (sendUnicast r o n p s) := by
  unfold Machine.sendUnicast
  split
  · exact ⟨rfl⟩
  · exact refl s

theorem sendBroadcast (v : Nat) (p : Payload) (r : Bool) (s : State) : PassesOnly s (sendBroadcast v p r s) := ⟨rfl⟩

theorem quiesceSent (m : Mod) (s : State) : PassesOnly s (quiesceSent m s) := (updatePass _ _ _).trans (setHold _ _ _)

theorem quiesceSentAll (p : Pass) (s : State) : PassesOnly s (quiesceSentAll p s) :=
  (foldl (fun _ m => (updatePass .all _ _).trans ((setCommanded m _ _).trans (setHold m true _))) _ s).trans
    (startSettle _ _)

theorem sendConvert (t : Target) (p : Pass) (s : State) : PassesOnly s (sendConvert t p s) := by
  unfold Machine.sendConvert
  split
  · exact (sendUnicast _ _ _ _ _).trans (convertSent _ _)
  · exact (sendBroadcast _ _ _ _).trans ((convertSent _ _).trans (startWait _ _ _))

theorem quiesceOrConvert (t : Target) (p : Pass) (s : State) : PassesOnly s (quiesceOrConvert t p s) :=
  ite (by cases t with
    | one m => exact (sendUnicast _ _ _ _ _).trans (quiesceSent _ _)
    | all => exact (sendBroadcast _ _ _ _).trans (quiesceSentAll _ _)) (sendConvert _ _ _)

theorem servePort (o : Source) (s : State) : PassesOnly s (servePort o s) := ⟨rfl⟩

theorem grantFirst (t : Target) (p : Pass) (s : State) : PassesOnly s (grantFirst t p s) :=
  (servePort _ s).trans (quiesceOrConvert t p _)

theorem grantRestore (t : Target) (m : Mod) (s : State) : PassesOnly s (grantRestore t m s) :=
  (ite (setHold _ _ _) (refl s)).trans (sendUnicast _ _ _ _ _)

theorem grantPassItem (t : Target) (act : PassAct) (s : State) : PassesOnly s (grantPassItem t act s) := by
  unfold Machine.grantPassItem
  repeat' split
  all_goals first
    | exact refl s
    | exact grantFirst _ _ _
    | exact sendConvert _ _ _
    | exact sendUnicast _ _ _ _ _
    | exact grantRestore _ _ _

theorem grantItem (k : ItemKind) (s : State) : PassesOnly s (grantItem k s) := by
  unfold Machine.grantItem
  split
  all_goals first
    | exact sendBroadcast _ _ _ _
    | exact grantPassItem _ _ _
    | exact sendUnicast _ _ _ _ _

theorem takeGrant (s : State) : PassesOnly s (takeGrant s) := by
  unfold Machine.takeGrant
  split
  · exact (withdraw _ _).trans ((grantItem _ _).trans (refreshItems _))
  · exact refl s

theorem grantNow (s : State) : PassesOnly s (grantNow s) := (refreshItems s).trans (takeGrant _)

theorem createPass (t : Target) (p : Pass) (s : State) : PassesOnly s (createPass t p s) :=
  (setPass t _ s).trans (offer _ _)

theorem createDirected (p : Port) (s : State) : PassesOnly s (createDirected p s) := by
  unfold Machine.createDirected
  split
  · exact trans (t := s.setTickets p _) ⟨rfl⟩ (createPass _ _ _)
  · exact refl s

theorem reportTo (p : Port) (x : Pass) (s : State) : PassesOnly s (reportTo p x s) :=
  trans (t := s.setTickets p _) ⟨rfl⟩ (raiseTo _ _ _)

theorem orphanSlots (t : Target) (n : Option Nat) (s : State) : PassesOnly s (orphanSlots t n s) := ⟨rfl⟩

theorem endHolds (p : Pass) (s : State) : PassesOnly s (endHolds p s) :=
  foldl (fun _ _ => ite (setHold _ _ _) (refl _)) _ s

theorem endVisit (s : State) : PassesOnly s (endVisit s) := by
  obtain ⟨w, r, x, h⟩ := endVisit_eq s
  rw [h]; exact ⟨rfl⟩

theorem endAlignedIfDone (s : State) : PassesOnly s (endAlignedIfDone s) := by
  obtain ⟨w, r, x, h⟩ := endAlignedIfDone_eq s
  rw [h]; exact ⟨rfl⟩

theorem setSweep (w : Sweep) (s : State) : PassesOnly s (s.setSweep w) := ⟨rfl⟩

theorem sweepPassEnd (p : Pass) (s : State) : PassesOnly s (sweepPassEnd p s) := by
  unfold Machine.sweepPassEnd
  split
  · exact ite (endVisit s) (refl s)
  · exact (setSweep _ s).trans (endAlignedIfDone _)
  · exact refl s

theorem endPass (t : Target) (s : State) : PassesOnly s (endPass t s) := by
  unfold Machine.endPass
  split
  · exact refl s
  · next p _ =>
    exact (reportTo .A p s).trans ((reportTo .B p _).trans ((setPass t none _).trans ((orphanSlots t none _).trans
      ((withdraw _ _).trans ((endHolds p _).trans ((createDirected .A _).trans ((createDirected .B _).trans
        (sweepPassEnd p _))))))))

theorem beginReading (t : Target) (m : Mod) (s : State) : PassesOnly s (beginReading t m s) := by
  unfold Machine.beginReading
  split
  · exact (setPass _ _ _).trans (offer _ _)
  · exact refl s

theorem serveNext (s : State) : PassesOnly s (serveNext s) := by
  unfold Machine.serveNext
  split
  · exact refl s
  · split
    · exact beginReading _ _ _
    · exact endPass _ _

theorem partDone (t : Target) (m : Mod) (o : PassOutcome) (s : State) : PassesOnly s (partDone t m o s) := by
  unfold Machine.partDone
  dsimp only
  split
  · exact (updatePass _ _ _).trans (endPass _ _)
  · exact (updatePass _ _ _).trans (serveNext _)

theorem offerRestore (t : Target) (m : Mod) (o : Option PassOutcome) (s : State) : PassesOnly s (offerRestore t m o s) :=
  (updatePass _ _ _).trans (offer _ _)

theorem afterReads (t : Target) (m : Mod) (q : Bool) (s : State) : PassesOnly s (afterReads t m q s) :=
  ite (offerRestore _ _ _ _) (partDone _ _ _ _)

theorem abortPart (t : Target) (m : Mod) (q : Bool) (s : State) : PassesOnly s (abortPart t m q s) :=
  ite ((setCommanded _ _ _).trans (partDone _ _ _ _)) (ite (offerRestore _ _ _ _) (partDone _ _ _ _))

theorem alignedLoss (m : Mod) (p : Pass) (x : Part) (s : State) : PassesOnly s (alignedLoss m p x s) := by
  unfold Machine.alignedLoss
  extract_lets served s1 s2 s3 s4
  have h4 : PassesOnly s s4 := (setCommanded m .unknown s).trans ((orphanSlots .all _ _).trans
    ((setPass .all _ _).trans (ite (setHold m false _) (refl _))))
  clear_value s4
  exact h4.trans (ite ((withdraw _ _).trans ((updatePass _ _ _).trans (serveNext _))) (ite (endPass _ _) (refl _)))

theorem passLoss (m : Mod) (s : State) : PassesOnly s (passLoss m s) := by
  unfold Machine.passLoss
  split
  · exact (setCommanded _ _ _).trans ((updatePass _ _ _).trans (endPass _ _))
  · split
    · split
      · exact ite (refl s) (alignedLoss _ _ _ _)
      · exact refl s
    · exact refl s

theorem rereadLater (t : Target) (m : Mod) (c : Bool) (s : State) : PassesOnly s (rereadLater t m c s) :=
  (updatePass _ _ _).trans (startWait _ _ _)

/-! ## What this says of the fields -/

variable {s t : State} (h : PassesOnly s t)

include h

theorem image : t.image = s.image := by rw [h.eq]

theorem map : t.map = s.map := by rw [h.eq]

theorem limits : t.limits = s.limits := by rw [h.eq]

theorem settings : t.settings = s.settings := by rw [h.eq]

theorem ports : t.ports = s.ports := by rw [h.eq]

theorem quarantine : t.link.quarantine = s.link.quarantine := by rw [h.eq]

theorem linkTime : t.linkTime = s.linkTime := by rw [h.eq]

theorem moduleImage (m : Mod) : t.moduleImage m = s.moduleImage m := by unfold State.moduleImage; rw [h.image]

theorem record (m : Mod) : t.record m = s.record m := by unfold State.record; rw [h.map]

theorem health (m : Mod) : t.health m = s.health m := by unfold State.health; rw [h.record]

theorem timebase : t.timebase = s.timebase := by unfold State.timebase State.ticks; rw [h.linkTime]

end PassesOnly

end Sys2Proof.Machine
end

