-- ==== Sys2Proof/Laws/Endings.lean ====
section
/-! SUPPORT. Laws/Endings.lean: what the end of a pass (R38, R53, R114) and of an enumeration (R15, R91) leave. -/

namespace Sys2Proof.Machine

/-! ## Raised events -/

/-- Events are raised behind those that wait, and none is taken away. -/
def RaisedGrows (s t : State) : Prop := ∀ q, ∃ xs, t.raised.get q = s.raised.get q ++ xs

theorem RaisedGrows.refl (s : State) : RaisedGrows s s := fun _ => ⟨[], by simp⟩

theorem RaisedGrows.of_eq {s t : State} (h : t.raised = s.raised) : RaisedGrows s t := fun _ => ⟨[], by simp [h]⟩

theorem RaisedGrows.trans {s t u : State} (h1 : RaisedGrows s t) (h2 : RaisedGrows t u) : RaisedGrows s u := by
  intro q
  obtain ⟨a, ha⟩ := h1 q
  obtain ⟨b, hb⟩ := h2 q
  exact ⟨a ++ b, by rw [hb, ha, List.append_assoc]⟩

theorem RaisedGrows.mem {s t : State} (h : RaisedGrows s t) {q es} (hm : es ∈ s.raised.get q) :
    es ∈ t.raised.get q := by
  obtain ⟨a, ha⟩ := h q; rw [ha]; exact List.mem_append_left _ hm

theorem grows_raiseTo (p es) (s : State) : RaisedGrows s (raiseTo p es s) := by
  intro q
  unfold raiseTo
  split
  · exact ⟨[], by simp⟩
  · simp only [PerPort.get_set]
    split
    · next h => subst h; exact ⟨_, rfl⟩
    · exact ⟨[], by simp⟩

theorem grows_foldl {α} {f : State → α → State} (h : ∀ s a, RaisedGrows s (f s a)) (l : List α) : ∀ s,
    RaisedGrows s (l.foldl f s) := by
  induction l with
  | nil => exact RaisedGrows.refl
  | cons a l ih => exact fun s => (h s a).trans (ih _)

theorem grows_decideFrom (m e b c) (s : State) : RaisedGrows s (decideFrom m e b c s) :=
  (RaisedGrows.of_eq (s := s) (t := s.setBalance m (decideModule (s.decisionInput m) (s.moduleImage m) c)) rfl).trans
      ((grows_raiseTo _ _ _).trans (grows_raiseTo _ _ _))

theorem grows_setHold (m b) (s : State) : RaisedGrows s (setHold m b s) := grows_decideFrom _ _ _ _ _

theorem grows_endHolds (p) (s : State) : RaisedGrows s (endHolds p s) :=
  grows_foldl (fun s m => by split; exact grows_setHold _ _ _; exact RaisedGrows.refl _) _ s

theorem raiseBoth_get (es : List Event) (s : State) (h : es ≠ []) (q : Port) : (raiseBoth es s).raised.get q
    = s.raised.get q ++ [es] := by
  have : es.isEmpty = false := by simpa using h
  unfold raiseBoth raiseTo
  rw [this]
  cases q <;> rfl

/-! ## Tickets of a pass -/

theorem ridesOn_iff (p : Pass) (q : Port) (k : Ticket) : ridesOn p q k = (ridersOf q p).contains k.id := by
  rw [Bool.eq_iff_iff]
  simp only [ridesOn, ridersOf, List.contains_iff_mem, List.mem_map, List.mem_filter, decide_eq_true_eq]
  constructor
  · intro h; exact ⟨_, ⟨h, rfl⟩, rfl⟩
  · rintro ⟨⟨q', i⟩, ⟨h, rfl⟩, rfl⟩; exact h

/-- A report takes the tickets that rode on the pass out of the queue. -/
theorem reportTo_eq (q : Port) (x : Pass) (s : State) : ∃ r, reportTo q x s
    = { s with
        tickets := s.tickets.set q
          { s.ticketQueue q with tickets := (s.ticketQueue q).tickets.filter fun k => !ridesOn x q k }
        raised := r } := by
  unfold reportTo
  obtain ⟨r, hr⟩ := raiseTo_eq q
    ((ridersOf q x).filterMap fun id =>
      ((s.ticketQueue q).tickets.find? fun t => t.id = id).map fun t =>
        doneEvent s.timebase false (partOf x t.module) t)
    (s.setTickets q { s.ticketQueue q with
      tickets := (s.ticketQueue q).tickets.filter fun t => !(ridersOf q x).contains t.id })
  refine ⟨r, Eq.trans hr ?_⟩
  simp only [ridesOn_iff]; rfl

theorem find_ticket {l : List Ticket} (hn : (l.map (·.id)).Nodup) {k : Ticket} (hk : k ∈ l) :
    (l.find? fun t => t.id = k.id) = some k := by
  induction l with
  | nil => cases hk
  | cons a l ih =>
    simp only [List.map_cons, List.nodup_cons] at hn
    rcases List.mem_cons.mp hk with rfl | h
    · simp
    · rw [List.find?_cons]
      have : a.id ≠ k.id := fun he => hn.1 (he ▸ List.mem_map_of_mem h)
      simp [this]; simpa using ih hn.2 h

/-- The report of a ticket, from the part of its module. -/
theorem doneEvent_eq_report (now : Tick) (m : Mod) (x : Pass) (y : Part) (k : Ticket) (hp : partOf x m = some y)
    (hk : k.module = m) :
   doneEvent now false (partOf x k.module) k = ticketReport now m y.cellRenewal y.auxRenewal k := by
  unfold doneEvent ticketReport
  rw [hk, hp]
  have e1 : (0 : BitVec 32) = y.cellRenewal ↔ y.cellRenewal = 0 := eq_comm
  have e2 : (0 : BitVec 32) = y.auxRenewal ↔ y.auxRenewal = 0 := eq_comm
  by_cases h1 : y.cellRenewal = 0 <;> by_cases h2 : y.auxRenewal = 0 <;> cases k.what <;>
    simp [namedRenewals, highestRenewal, h1, h2, e1, e2]
  all_goals simp only [eq_comm (a := 0#32)]
  have e3 : ¬ (y.cellRenewal = 0#32) := h1
  have e4 : ¬ (y.auxRenewal = 0#32) := h2
  simp [e3, e4]

/-- A report raises the event of each ticket of the module that rode on the pass. -/
theorem reportTo_raises (q : Port) (m : Mod) (x : Pass) (y : Part) (s : State)
    (hi : ((s.ticketQueue q).tickets.map (·.id)).Nodup) (hp : partOf x m = some y) (k : Ticket)
  (hk : k ∈ (s.ticketQueue q).tickets) (hr : ridesOn x q k = true) (hm : k.module = m) :
   ∃ es ∈ (reportTo q x s).raised.get q, ticketReport s.timebase m y.cellRenewal y.auxRenewal k ∈ es := by
  rw [ridesOn_iff, List.contains_iff_mem] at hr
  unfold reportTo
  dsimp only
  generalize hes : ((ridersOf q x).filterMap fun id =>
      ((s.ticketQueue q).tickets.find? fun t => t.id = id).map fun t =>
          doneEvent s.timebase false (partOf x t.module) t) = es
  have hmem : ticketReport s.timebase m y.cellRenewal y.auxRenewal k ∈ es := by
    subst hes
    rw [List.mem_filterMap]
    exact ⟨k.id, hr, by rw [find_ticket hi hk, ← doneEvent_eq_report _ _ _ _ _ hp hm]; rfl⟩
  refine ⟨es, ?_, hmem⟩
  unfold raiseTo
  rw [if_neg (by intro h; rw [List.isEmpty_iff] at h; rw [h] at hmem; cases hmem)]
  simp [PerPort.get_set]

theorem headTicket_none {s : State} (h : NoTicketWaits s) (q : Port) : headTicket (s.ticketQueue q) = none := by
  unfold headTicket
  rw [List.find?_eq_none]
  intro k hk; simpa using h q k hk

theorem createDirected_none {s : State} (h : NoTicketWaits s) (q : Port) : createDirected q s = s := by
  unfold createDirected State.directedDue State.demand
  have : (if s.hasDirected q then none else headTicket (s.ticketQueue q)) = none :=
      by split; rfl; exact headTicket_none h q
  rw [this]; rfl

/-! ## The end of a pass -/

theorem endHolds_eq (p : Pass) (s : State) : (∃ b r, endHolds p s
    = { s with balance := { s.balance with modules := b }, raised := r })
   ∧ ∀ m, ((endHolds p s).balanceOf m).commanded = (s.balanceOf m).commanded := by
  unfold endHolds
  generalize p.parts.map (·.module) = l
  induction l generalizing s with
  | nil => exact ⟨⟨_, _, rfl⟩, fun _ => rfl⟩
  | cons a l ih =>
    rw [List.foldl_cons]
    by_cases h : (s.balanceOf a).hold = true
    · rw [if_pos h]
      obtain ⟨r, hr⟩ := decideFrom_eq a none (s.balanceOf a) { s.balanceOf a with hold := false } s
      have hb := fun k => decideFrom_balanceOf a k none (s.balanceOf a) { s.balanceOf a with hold := false } s
      obtain ⟨⟨b, r', h1⟩, h2⟩ := ih (setHold a false s)
      refine ⟨⟨b, r', h1.trans ?_⟩, fun m => (h2 m).trans ?_⟩
      · unfold setHold; rw [hr]; rfl
      · unfold setHold; rw [hb]; split
        · next h => subst h; rfl
        · rfl
    · rw [if_neg h]; exact ih s

/-- The end of a pass, up to the Sweep Engine's share, while no ticket is QUEUED. -/
theorem endPass_eq (u : Target) (p : Pass) (s : State) (hp : s.passOf u = some p) (ht : TicketInv s)
    (hn : NoTicketWaits s) :
    ∃ tk r b l x, endPass u s = sweepPassEnd p { s.setPass u none with
          tickets := tk
          raised := r
          link := { s.link with slots := l }
          sched := { s.sched with items := x }
          balance := { s.balance with modules := b } }
     ∧ l = tmap s.link.slots (fun _ x => x.map (orphanSlot u none))
     ∧ (∀ q, tk.get q = { s.ticketQueue q with tickets := (s.ticketQueue q).tickets.filter fun k => !ridesOn p q k })
     ∧ (∀ m y, partOf p m = some y → ∀ q, ∀ k ∈ (s.ticketQueue q).tickets, ridesOn p q k = true → k.module = m →
         ∃ es ∈ r.get q, ticketReport s.timebase m y.cellRenewal y.auxRenewal k ∈ es)
     ∧ (∀ q, ∃ xs, r.get q = s.raised.get q ++ xs)
     ∧ ∀ k, (tget b k).commanded = (s.balanceOf k).commanded := by
  obtain ⟨ra, ha⟩ := reportTo_eq .A p s
  have hA := fun m y => reportTo_raises .A m p y s (ht .A).2
  obtain ⟨rb, hb⟩ := reportTo_eq .B p (reportTo .A p s)
  have htq : (reportTo .A p s).ticketQueue .B = s.ticketQueue .B := by rw [ha]; rfl
  have htb : (reportTo .A p s).timebase = s.timebase := by rw [ha]; rfl
  have hB := fun m y => reportTo_raises .B m p y (reportTo .A p s) (by rw [htq]; exact (ht .B).2)
  rw [htq, htb] at hB
  rw [htq] at hb
  generalize hS : reportTo .B p (reportTo .A p s) = S at *
  generalize hwS : withdraw (isPassItem u) (orphanSlots u none (State.setPass u none S)) = W
  obtain ⟨⟨b, r, he⟩, hc⟩ := endHolds_eq p W
  have gA : RaisedGrows s (reportTo .A p s) := RaisedGrows.trans (t := s.setTickets .A _) (RaisedGrows.of_eq rfl)
      (grows_raiseTo _ _ _)
  have gB : RaisedGrows (reportTo .A p s) S := by
    rw [← hS]
    exact RaisedGrows.trans (t := (reportTo .A p s).setTickets .B _) (RaisedGrows.of_eq rfl) (grows_raiseTo _ _ _)
  have gW : RaisedGrows S W := RaisedGrows.of_eq (by rw [← hwS]; cases u <;> rfl)
  have gE := grows_endHolds p W
  have hS2 : S = { s with
      tickets := (s.tickets.set .A { s.ticketQueue .A with
          tickets := (s.ticketQueue .A).tickets.filter fun k => !ridesOn p .A k }).set .B { s.ticketQueue .B with
          tickets := (s.ticketQueue .B).tickets.filter fun k => !ridesOn p .B k }
      raised := rb } := by
    rw [hb, ha]
  have hraisedE : (endHolds p W).raised = r := by rw [he]
  have hN : NoTicketWaits (endHolds p W) := by
    have h1 : (endHolds p W).tickets = S.tickets := by rw [he, ← hwS]; cases u <;> rfl
    intro q k hk
    unfold State.ticketQueue at hk; rw [h1, hS2] at hk
    apply hn q
    cases q <;> exact List.mem_of_mem_filter hk
  refine ⟨S.tickets, r, b, _, (W.sched.items), ?_, rfl, ?_, ?_, ?_, ?_⟩
  · unfold endPass
    rw [hp]
    dsimp only
    rw [hS, hwS, createDirected_none hN .A, createDirected_none hN .B, he, ← hwS]
    congr 1
    rw [hS2]
    cases u <;> rfl
  · intro q; rw [hS2]; cases q <;> rfl
  · intro m y hy q k hk hr hm
    rw [← hraisedE]
    cases q
    · obtain ⟨es, h1, h2⟩ := hA m y hy k hk hr hm
      exact ⟨es, (gB.trans (gW.trans gE)).mem h1, h2⟩
    · obtain ⟨es, h1, h2⟩ := hB m y hy k hk hr hm
      exact ⟨es, (gW.trans gE).mem h1, h2⟩
  · rw [← hraisedE]; exact gA.trans (gB.trans (gW.trans gE))
  · intro k
    have := hc k
    rw [he] at this
    refine this.trans ?_
    rw [← hwS, hS2]; cases u <;> rfl

theorem sweepPassEnd_others {p : Pass} (h : p.origin = .directedA ∨ p.origin = .directedB) (s : State) :
    sweepPassEnd p s = s := by
  unfold sweepPassEnd; rcases h with h | h <;> rw [h]

theorem sweepPassEnd_rolling {p : Pass} (h : p.origin = .sweepRolling) (s : State) (hv : s.sweep.visit = .passing) :
    sweepPassEnd p s = endVisit s := by
  unfold sweepPassEnd; rw [h]; exact if_pos hv

theorem sweepPassEnd_eq (p : Pass) (s : State) : ∃ w r x, sweepPassEnd p s
    = { s with sweep := w, reserved := r, sched := x } := by
  unfold sweepPassEnd
  split
  · split
    · exact endVisit_eq s
    · exact ⟨_, _, _, rfl⟩
  · obtain ⟨w, r, x, h⟩ := endAlignedIfDone_eq (s.setSweep { s.sweep with
      alignedOpen := false, alignedAux := if p.what = .both then 0 else s.sweep.alignedAux })
    exact ⟨w, r, x, h⟩
  · exact ⟨_, _, _, rfl⟩

/-- What `endPass` does is what `PassEnded` says, from any state that agrees on what the end reads, and up to what it
does not write. -/
theorem endPass_passEnded (m : Mod) (p p0 : Pass) (y : Part) (s s0 t : State) (hp : s.passOf (.one m) = some p)
    (hy : partOf p m = some y) (ht : TicketInv s) (hn : NoTicketWaits s)
   (ho : p.owner = p0.owner) (hj : p.joined = p0.joined) (hor : p.origin = p0.origin)
   (hpass : ∀ u, u ≠ .one m → s.passOf u = s0.passOf u) (htk : s.tickets = s0.tickets) (hsw : s.sweep = s0.sweep)
       (hN : s.map.n = s0.map.n) (hlt : s.linkTime = s0.linkTime)
   (t1 : t.passes = (endPass (.one m) s).passes) (t2 : t.aligned = (endPass (.one m) s).aligned)
       (t3 : t.tickets = (endPass (.one m) s).tickets)
   (t4 : RaisedGrows (endPass (.one m) s) t) (t5 : t.sweep = (endPass (.one m) s).sweep) :
       PassEnded m p0 y.cellRenewal y.auxRenewal s0 t := by
  obtain ⟨tk, r, b, l, x, h, hl, h1, h2, h3, h4⟩ := endPass_eq (.one m) p s hp ht hn
  generalize hE : endPass (.one m) s = E at *
  generalize hM : ({ s.setPass (.one m) none with
      tickets := tk
      raised := r
      link := { s.link with slots := l }
      sched := { s.sched with items := x }
      balance := { s.balance with modules := b } } : State) = M at *
  obtain ⟨w, rs, sx, hw⟩ := sweepPassEnd_eq p M
  have hMs : M.sweep = s0.sweep := by rw [← hM, ← hsw]; rfl
  have hMn : M.map.n = s0.map.n := by rw [← hM, ← hN]; rfl
  have hr : ∀ q k, ridesOn p q k = ridesOn p0 q k := by intro q k; simp only [ridesOn, ho, hj]
  refine { passes := ?_, tickets := ?_, reports := ?_, others := ?_, nextVisit := ?_, lastVisit := ?_ }
  · intro u
    cases u with
    | one k =>
      show tget t.passes k = _
      rw [t1, h, hw, ← hM]
      show tget (tput s.passes m none) k = _
      rw [tget_tput]
      by_cases hk : m = k
      · subst hk; simp
      · rw [if_neg hk, if_neg (by intro h; cases h; exact hk rfl)]
        exact hpass (.one k) (by intro h; cases h; exact hk rfl)
    | all =>
      show t.aligned = _
      rw [t2, h, hw, ← hM, if_neg (by intro h; cases h)]
      exact hpass .all (by intro h; cases h)
  · intro q
    have e1 : t.ticketQueue q = tk.get q := by unfold State.ticketQueue; rw [t3, h, hw, ← hM]
    have e2 : s.ticketQueue q = s0.ticketQueue q := by unfold State.ticketQueue; rw [htk]
    rw [e1, h1, e2]
    simp only [hr]
  · intro q k hk hrk hm
    unfold State.ticketQueue at hk; rw [← htk] at hk
    rw [← hr] at hrk
    obtain ⟨es, e1, e2⟩ := h2 m y hy q k hk hrk hm
    refine ⟨es, t4.mem ?_, ?_⟩
    · rw [h, hw, ← hM]; exact e1
    · have : s0.timebase = s.timebase := by unfold State.timebase State.ticks; rw [hlt]
      rw [this]; exact e2
  · intro h'
    rw [t5, h, sweepPassEnd_others (by rw [hor]; exact h'), hMs]
  · intro a1 a2 a3
    rw [t5, h, sweepPassEnd_rolling (by rw [hor]; exact a1) _ (by rw [hMs]; exact a2)]
    unfold endVisit
    rw [if_pos (by rw [hMs, hMn]; exact a3), hMs]; rfl
  · intro a1 a2 a3 a4
    rw [t5, h, sweepPassEnd_rolling (by rw [hor]; exact a1) _ (by rw [hMs]; exact a2)]
    unfold endVisit
    rw [if_neg (by rw [hMs, hMn]; omega)]
    unfold endSweep
    rw [if_neg (by rw [hMs, a4]; decide), hMs]; rfl

theorem PassEnded.mono {m p a b s t u} (h : PassEnded m p a b s t) (e1 : u.passes = t.passes)
    (e2 : u.aligned = t.aligned) (e3 : u.tickets = t.tickets) (e4 : u.sweep = t.sweep) (g : RaisedGrows t u) :
        PassEnded m p a b s u := by
  have hp : ∀ v, u.passOf v = t.passOf v := by intro v; cases v <;> simp only [State.passOf, e1, e2]
  refine ⟨fun v => (hp v).trans (h.passes v), fun q => ?_, fun q k hk hr hm => ?_, fun ho => e4.trans (h.others ho),
      fun a b c => e4.trans (h.nextVisit a b c), fun a b c d => e4.trans (h.lastVisit a b c d)⟩
  · show u.tickets.get q = _; rw [e3]; exact h.tickets q
  · obtain ⟨es, h1, h2⟩ := h.reports q k hk hr hm
    exact ⟨es, g.mem h1, h2⟩

theorem partOf_map {p : Pass} {m : Mod} {y : Part} {f : Part → Part} (hf : ∀ z, (f z).module = z.module)
    (h : partOf p m = some y) (q : Pass) (hq : q.parts = p.parts) :
   partOf (updatePart m f q) m = some (f y) := by
  unfold partOf updatePart at *
  rw [hq]
  dsimp only
  have hy : y.module = m := by simpa using List.find?_some h
  generalize p.parts = l at h
  induction l with
  | nil => cases h
  | cons a l ih =>
    rw [List.map_cons]
    by_cases ha : a.module = m
    · rw [List.find?_cons_of_pos (by simpa using ha)] at h
      cases h
      rw [if_pos ha, List.find?_cons_of_pos (by simpa [hf] using ha)]
    · rw [List.find?_cons_of_neg (by simpa using ha)] at h
      rw [if_neg ha, List.find?_cons_of_neg (by simpa using ha)]
      exact ih h

theorem partDone_eq (m : Mod) (p : Pass) (y : Part) (o : PassOutcome) (S : State) (hp : S.passOf (.one m) = some p)
    (hy : partOf p m = some y) :
   ∃ p' y', partDone (.one m) m o S = endPass (.one m) { S with passes := tput S.passes m (some p') } ∧ partOf p' m
       = some y' ∧ y'.cellRenewal = y.cellRenewal ∧ y'.auxRenewal = y.auxRenewal
     ∧ p'.owner = p.owner ∧ p'.joined = p.joined ∧ p'.origin = p.origin := by
  refine ⟨updatePart m (fun x => { x with step := .done, outcome := some (x.outcome.getD o) }) p,
      { y with step := .done, outcome := some (y.outcome.getD o) }, ?_, partOf_map (by intro z; rfl) hy p rfl, rfl,
          rfl, rfl, rfl, rfl⟩
  unfold partDone updatePass
  rw [hp]; rfl

/-- From `s` to `B` the pass of the module has only moved on: its tickets, origin and stored renewal numbers stand. -/
structure PassKept (m : Mod) (p : Pass) (y : Part) (s B : State) : Prop where
  pass : ∃ p' y', B.passOf (.one m) = some p' ∧ partOf p' m = some y' ∧ y'.cellRenewal = y.cellRenewal
      ∧ y'.auxRenewal = y.auxRenewal ∧ p'.owner = p.owner ∧ p'.joined = p.joined ∧ p'.origin = p.origin
  others : ∀ u, u ≠ .one m → B.passOf u = s.passOf u
  tickets : B.tickets = s.tickets
  sweep : B.sweep = s.sweep
  n : B.map.n = s.map.n
  lt : B.linkTime = s.linkTime

theorem PassKept.self {m p y s} (hp : s.passOf (.one m) = some p) (hy : partOf p m = some y) : PassKept m p y s s :=
  ⟨⟨p, y, hp, hy, rfl, rfl, rfl, rfl, rfl⟩, fun _ _ => rfl, rfl, rfl, rfl, rfl⟩

theorem PassKept.of_eq {m p y s B C} (h : PassKept m p y s B) (e1 : C.passes = B.passes) (e2 : C.aligned = B.aligned)
    (e3 : C.tickets = B.tickets) (e4 : C.sweep = B.sweep) (e5 : C.map.n = B.map.n) (e6 : C.linkTime = B.linkTime) :
        PassKept m p y s C := by
  have hp : ∀ v, C.passOf v = B.passOf v := by intro v; cases v <;> simp only [State.passOf, e1, e2]
  exact ⟨by rw [hp]; exact h.pass, fun u hu => (hp u).trans (h.others u hu), e3.trans h.tickets, e4.trans h.sweep,
      e5.trans h.n, e6.trans h.lt⟩

theorem PassKept.upd {m p y s B} (h : PassKept m p y s B) (f : Pass → Pass)
    (hf : ∀ q z, partOf q m = some z → ∃ z', partOf (f q) m = some z' ∧ z'.cellRenewal = z.cellRenewal
        ∧ z'.auxRenewal = z.auxRenewal) (ho : ∀ q, (f q).owner = q.owner) (hj : ∀ q, (f q).joined = q.joined)
            (hr : ∀ q, (f q).origin = q.origin) : PassKept m p y s (updatePass (.one m) f B) := by
  obtain ⟨p', y', h1, h2, h3, h4, h5, h6, h7⟩ := h.pass
  obtain ⟨z, hz, a, b⟩ := hf p' y' h2
  have e : updatePass (.one m) f B = { B with passes := tput B.passes m (some (f p')) } :=
      by unfold updatePass; rw [h1]; rfl
  rw [e]
  refine ⟨⟨f p', z, ?_, hz, a.trans h3, b.trans h4, (ho _).trans h5, (hj _).trans h6, (hr _).trans h7⟩, fun u hu =>
      ?_, h.tickets, h.sweep, h.n, h.lt⟩
  · show tget (tput _ _ _) _ = _; simp
  · rw [← h.others u hu]
    cases u with
    | one k => show tget (tput _ _ _) _ = _; rw [tget_tput, if_neg (by intro h; subst h; exact hu rfl)]; rfl
    | all => rfl

theorem PassKept.endPass {m p y s B} (h : PassKept m p y s B) (ht : TicketInv s) (hn : NoTicketWaits s) :
    PassEnded m p y.cellRenewal y.auxRenewal s (endPass (.one m) B) := by
  obtain ⟨p', y', h1, h2, h3, h4, h5, h6, h7⟩ := h.pass
  rw [← h3, ← h4]
  have hq : ∀ q, B.ticketQueue q = s.ticketQueue q := fun q => by unfold State.ticketQueue; rw [h.tickets]
  exact endPass_passEnded m p' p y' B s _ h1 h2 (fun q => by rw [hq]; exact ht q)
      (fun q => by rw [hq]; exact hn q) h5 h6 h7 h.others h.tickets h.sweep h.n h.lt rfl rfl rfl
          (RaisedGrows.refl _) rfl

theorem PassKept.partDone {m p y s B} (h : PassKept m p y s B) (o) (ht : TicketInv s) (hn : NoTicketWaits s) :
    PassEnded m p y.cellRenewal y.auxRenewal s (partDone (.one m) m o B) := by
  refine (PassKept.upd (f := updatePart m fun x => { x with step := .done, outcome := some (x.outcome.getD o) }) h ?_
      (fun _ => rfl) (fun _ => rfl) (fun _ => rfl)).endPass ht hn
  intro q z hz
  exact ⟨_, partOf_map (by intro z; rfl) hz q rfl, rfl, rfl⟩

/-- The pass has moved on or has ended. -/
def KeptOrEnded (m : Mod) (p : Pass) (y : Part) (s B : State) : Prop := PassKept m p y s B
    ∨ PassEnded m p y.cellRenewal y.auxRenewal s B

theorem KeptOrEnded.abort {m p y s B} (h : PassKept m p y s B) (q : Bool) (ht : TicketInv s) (hn : NoTicketWaits s) :
    KeptOrEnded m p y s (abortPart (.one m) m q B) := by
  unfold abortPart
  split
  · exact .inr (PassKept.partDone (h.of_eq (C := setCommanded m .unknown B) rfl rfl rfl rfl rfl rfl) _ ht hn)
  · split
    · left
      unfold offerRestore
      refine PassKept.of_eq (h.upd (fun p => updatePart m (fun x => { x with
        step := .restoring
        outcome := some .aborted }) { p with
        step := if (.one m : Target) = .all then p.step else .restoring
        timer := none }) ?_ (fun _ => rfl) (fun _ => rfl) (fun _ => rfl)) rfl rfl rfl rfl rfl rfl
      intro q z hz
      exact ⟨_, partOf_map (by intro z; rfl) hz _ rfl, rfl, rfl⟩
    · exact .inr (h.partDone _ ht hn)

/-- After a FAILED outcome the pass has moved on or has ended. -/
theorem KeptOrEnded.outcome (first m p y s B) (x' : TxnSlot) (h : PassKept m p y s B) (ht : TicketInv s)
    (hn : NoTicketWaits s) : KeptOrEnded m p y s (passOutcome first (.one m) m x' .failed B) := by
  have h' := h.pass
  obtain ⟨p', y', h1, h2, -⟩ := h'
  unfold passOutcome
  rw [h1]; dsimp only; rw [h2]; dsimp only
  cases x'.role
  case quiesce => exact KeptOrEnded.abort (h.of_eq (C := setCommanded m .unknown B) rfl rfl rfl rfl rfl rfl) _ ht hn
  case restore =>
    right
    refine PassKept.partDone (PassKept.upd (f := updatePart m fun y => { y with outcome := some .aborted })
        (h.of_eq (C := setCommanded m .unknown B) rfl rfl rfl rfl rfl rfl) ?_ (fun _ => rfl) (fun _ => rfl)
            (fun _ => rfl)) _ ht hn
    intro q z hz
    exact ⟨_, partOf_map (by intro z; rfl) hz _ rfl, rfl, rfl⟩
  all_goals exact KeptOrEnded.abort h _ ht hn

/-! ## The end of a part of an aligned pass -/

/-- From `s` to `B` the aligned pass is `p`, and what its end reads stands. -/
structure AlignedKept (p : Pass) (s B : State) : Prop where
  pass : B.aligned = some p
  passes : B.passes = s.passes
  tickets : B.tickets = s.tickets
  sweep : B.sweep = s.sweep
  lt : B.linkTime = s.linkTime

theorem AlignedKept.of_eq {p s B C} (h : AlignedKept p s B) (e1 : C.aligned = B.aligned) (e2 : C.passes = B.passes)
    (e3 : C.tickets = B.tickets) (e4 : C.sweep = B.sweep) (e5 : C.linkTime = B.linkTime) : AlignedKept p s C :=
  ⟨e1.trans h.pass, e2.trans h.passes, e3.trans h.tickets, e4.trans h.sweep, e5.trans h.lt⟩

theorem AlignedPartEnded.mono {m o p s t v} (h : AlignedPartEnded m o p s t) (e1 : v.passes = t.passes)
    (e2 : v.aligned = t.aligned) (e3 : v.tickets = t.tickets) (e4 : v.sweep = t.sweep) (g : RaisedGrows t v)
    (gi : ∀ a, .passStep .all a ∈ t.sched.items.map (·.kind) → .passStep .all a ∈ v.sched.items.map (·.kind)) :
    AlignedPartEnded m o p s v := by
  have hp : ∀ w, v.passOf w = t.passOf w := by intro w; cases w <;> simp only [State.passOf, e1, e2]
  refine ⟨fun z hz => ?_, fun hl => ?_⟩
  · obtain ⟨h1, h2, h3, h4⟩ := h.next z hz
    exact ⟨e2.trans h1, gi _ h2, e4.trans h3, e3.trans h4⟩
  · obtain ⟨h1, h2, h3, h4⟩ := h.last hl
    refine ⟨fun w => (hp w).trans (h1 w), fun q => ?_, fun q k hk hr y hy => ?_, fun a b c => ?_⟩
    · show v.tickets.get q = _; rw [e3]; exact h2 q
    · obtain ⟨es, a, b⟩ := h3 q k hk hr y hy
      exact ⟨es, g.mem a, b⟩
    · obtain ⟨h5, h6⟩ := h4 a b c
      exact ⟨fun d => e4.trans (h5 d), fun d e => e4.trans (h6 d e)⟩

/-- The part of a pass whose module is another's is found as before, whatever is made of one module's part. -/
theorem partOf_updatePart {p : Pass} {m k : Mod} {y : Part} {f : Part → Part} (hf : ∀ z, (f z).module = z.module)
    (h : partOf p k = some y) : partOf (updatePart m f p) k = some (if k = m then f y else y) := by
  by_cases hk : k = m
  · subst hk; rw [if_pos rfl]; exact partOf_map hf h p rfl
  · rw [if_neg hk]
    unfold partOf updatePart at *
    dsimp only
    generalize p.parts = l at h
    induction l with
    | nil => cases h
    | cons a l ih =>
      rw [List.map_cons]
      have hm : (if a.module = m then f a else a).module = a.module := by split <;> simp [hf]
      by_cases ha : a.module = k
      · rw [List.find?_cons_of_pos (by simpa using ha)] at h
        cases h
        rw [List.find?_cons_of_pos (by simpa [hm] using ha), if_neg (by rw [ha]; exact hk)]
      · rw [List.find?_cons_of_neg (by simpa using ha)] at h
        rw [List.find?_cons_of_neg (by simpa [hm] using ha)]
        exact ih h

theorem find_waiting (m : Mod) (f : Part → Part) (hf : ∀ z, (f z).step = .done) (l : List Part) :
    (l.map fun y => if y.module = m then f y else y).find? (fun x => x.step = .waiting)
      = l.find? fun y => y.module ≠ m ∧ y.step = .waiting := by
  induction l with
  | nil => rfl
  | cons a l ih =>
    rw [List.map_cons, List.find?_cons, List.find?_cons, ih]
    by_cases ha : a.module = m
    · simp [ha, hf]
    · simp [ha]

/-- The aligned pass ends: what `AlignedPartEnded.last` says of it. -/
theorem AlignedKept.endPass {p s B} (h : AlignedKept p s B) (ht : TicketInv s) (hn : NoTicketWaits s) :
    let t := endPass .all B
    (∀ u, t.passOf u = if u = .all then none else s.passOf u)
    ∧ (∀ q, t.ticketQueue q =
      { s.ticketQueue q with tickets := (s.ticketQueue q).tickets.filter fun k => !ridesOn p q k })
    ∧ (∀ q, ∀ k ∈ (s.ticketQueue q).tickets, ridesOn p q k = true →
      ∀ y, (p.parts.find? fun y => y.module = k.module) = some y →
        ∃ es ∈ t.raised.get q, ticketReport s.timebase k.module y.cellRenewal y.auxRenewal k ∈ es)
    ∧ (p.origin = .sweepAligned → s.sweep.state = .running → s.sweep.mode = .aligned →
      let ended : Sweep := { s.sweep with
        alignedOpen := false, alignedAux := if p.what = .both then 0 else s.sweep.alignedAux }
      (s.sweep.pings ≠ [] → t.sweep = ended)
      ∧ (s.sweep.pings = [] → s.sweep.pendingStart = false →
        t.sweep = { ended with state := .waiting, pointer := 1, visit := .idle })) := by
  have hq : ∀ q, B.ticketQueue q = s.ticketQueue q := fun q => by unfold State.ticketQueue; rw [h.tickets]
  have htb : B.timebase = s.timebase := by unfold State.timebase State.ticks; rw [h.lt]
  obtain ⟨tk, r, b, l, x, hE, -, h1, h2, -, -⟩ :=
    endPass_eq .all p B h.pass (fun q => by rw [hq]; exact ht q) (fun q => by rw [hq]; exact hn q)
  dsimp only
  rw [hE]
  generalize hM : ({ B.setPass .all none with
      tickets := tk
      raised := r
      link := { B.link with slots := l }
      sched := { B.sched with items := x }
      balance := { B.balance with modules := b } } : State) = M
  obtain ⟨w, rs, sx, hw⟩ := sweepPassEnd_eq p M
  have hMs : M.sweep = s.sweep := by rw [← hM, ← h.sweep]; rfl
  refine ⟨fun u => ?_, fun q => ?_, fun q k hk hr y hy => ?_, fun a1 a2 a3 => ?_⟩
  · rw [hw, ← hM]
    cases u with
    | all => rfl
    | one k => rw [if_neg (by intro h; cases h)]; show tget B.passes k = _; rw [h.passes]; rfl
  · rw [hw, ← hM]
    show tk.get q = _
    rw [h1, hq]
  · rw [hw, ← hM, ← htb]
    exact h2 k.module y hy q k (by rw [hq]; exact hk) hr rfl
  · have e : sweepPassEnd p M = endAlignedIfDone (M.setSweep { M.sweep with
      alignedOpen := false, alignedAux := if p.what = .both then 0 else M.sweep.alignedAux }) := by
      unfold sweepPassEnd; rw [a1]
    rw [e]
    unfold endAlignedIfDone
    refine ⟨fun hp => ?_, fun hp hs => ?_⟩
    · rw [if_neg, hMs]; rfl
      rw [hMs]; rintro ⟨-, -, -, h⟩; exact hp (List.isEmpty_iff.mp h)
    · rw [if_pos ⟨by rw [hMs]; exact a2, by rw [hMs]; exact a3, rfl, by rw [hMs]; exact List.isEmpty_iff.mpr hp⟩]
      unfold endSweep
      rw [if_neg (by rw [hMs]; show ¬s.sweep.pendingStart = true; rw [hs]; decide), hMs]
      rfl

/-- A part that is done: the next is served, or the pass ends. -/
theorem AlignedKept.partDone {m p s B} (h : AlignedKept p s B) (o : PassOutcome) (ht : TicketInv s)
    (hn : NoTicketWaits s) : AlignedPartEnded m o p s (partDone .all m o B) := by
  let p' := updatePart m (fun x => { x with step := .done, outcome := some (x.outcome.getD o) }) p
  have e : Machine.partDone .all m o B = serveNext { B with aligned := some p' } := by
    unfold Machine.partDone updatePass
    rw [show B.passOf .all = some p from h.pass]; rfl
  have k : AlignedKept p' s { B with aligned := some p' } := ⟨rfl, h.passes, h.tickets, h.sweep, h.lt⟩
  rw [e]
  unfold serveNext
  dsimp only
  have hf : (p'.parts.find? fun x => x.step = .waiting) = p.parts.find? fun y => y.module ≠ m ∧ y.step = .waiting :=
    find_waiting m _ (fun _ => rfl) p.parts
  rw [hf]
  cases hz : p.parts.find? fun y => y.module ≠ m ∧ y.step = .waiting with
  | some z =>
    dsimp only
    have hzm : z.module ≠ m := by have := List.find?_some hz; simp at this; exact this.1
    refine ⟨fun z' hz' => ?_, fun hl => ?_⟩
    · rw [hz] at hz'; cases hz'
      unfold beginReading
      rw [show ({ B with aligned := some p' } : State).passOf .all = some p' from rfl]
      refine ⟨?_, ?_, h.sweep, h.tickets⟩
      · show some (updatePart z.module (fun x => { x with step := .reading })
          { p' with step := .reading, timer := none }) = _
        unfold updatePart
        congr 2
        show (p.parts.map _).map _ = _
        rw [List.map_map]
        apply List.map_congr_left
        intro y _
        by_cases hy : y.module = m
        · simp [hy, Ne.symm hzm]
        · simp [hy]
      · have : firstRead p'.what = if p.what = .aux then .readAux else .readCells := by
          show firstRead p.what = _
          cases p.what <;> rfl
        rw [← this]; exact mem_offer _ _
    · have := List.find?_some hz
      simp at this
      exact absurd this.2 (hl z (List.mem_of_find?_eq_some hz) this.1)
  | none =>
    dsimp only
    refine ⟨fun z' hz' => (by rw [hz] at hz'; cases hz'), fun _ => ?_⟩
    obtain ⟨h1, h2, h3, h4⟩ := k.endPass ht hn
    refine ⟨h1, h2, fun q kk hk hr y hy => ?_, h4⟩
    have hy' : partOf p kk.module = some y := hy
    obtain ⟨es, a, b⟩ := h3 q kk hk hr _ (partOf_updatePart (m := m)
      (f := fun x => { x with step := .done, outcome := some (x.outcome.getD o) }) (fun _ => rfl) hy')
    refine ⟨es, a, ?_⟩
    by_cases hm : kk.module = m
    · rw [if_pos hm] at b; exact b
    · rw [if_neg hm] at b; exact b

/-! ## The end of an enumeration -/

/-- The Image's share: every entry of every module. -/
theorem foldl_enumerationEnd (ms : List Mod) : ∀ s : State, ms.Nodup →
    let t := ms.foldl (fun s m => strikeReceipts m (writeModule m
        (fun ch e => enumerationEndEntry (s.qualifies m ch) e) s)) s
    (∃ i b w, t = { s with image := { s.image with modules := i }, balance := { s.balance with handoffs := b },
                           limits := { s.limits with work := w } })
    ∧ (∀ k, k ∈ s.balance.handoffs → k ∈ t.balance.handoffs)
    ∧ ∀ m ch, chanEntry (t.moduleImage m) ch =
        if m ∈ ms then enumerationEndEntry (s.qualifies m ch) (chanEntry (s.moduleImage m) ch) else chanEntry
            (s.moduleImage m) ch := by
  induction ms with
  | nil => intro s _; exact ⟨⟨_, _, _, rfl⟩, fun _ h => h, by simp⟩
  | cons a ms ih =>
    intro s hn
    rw [List.foldl_cons]
    obtain ⟨i0, b0, h0⟩ := writeModule_fields a (fun ch e => enumerationEndEntry (s.qualifies a ch) e) s
    have hE := chanEntry_writeModule a (fun ch e => enumerationEndEntry (s.qualifies a ch) e) s
    have hH : ∀ k, k ∈ s.balance.handoffs → k ∈ (writeModule a
        (fun ch e => enumerationEndEntry (s.qualifies a ch) e) s).balance.handoffs := by
      intro k hk; unfold writeModule; dsimp only; split
      · exact List.mem_append_left _ hk
      · exact hk
    generalize writeModule a (fun ch e => enumerationEndEntry (s.qualifies a ch) e) s = W at *
    obtain ⟨⟨i, b, w, h1⟩, h2, h3⟩ := ih (strikeReceipts a W) (List.nodup_cons.mp hn).2
    have hq : ∀ m ch, (strikeReceipts a W).qualifies m ch = s.qualifies m ch := by intro m ch; rw [h0]; rfl
    refine ⟨⟨i, b, w, h1.trans ?_⟩, fun k hk => h2 k (hH k hk), fun m ch => (h3 m ch).trans ?_⟩
    · rw [h0]; rfl
    · have : (strikeReceipts a W).moduleImage m = W.moduleImage m := rfl
      rw [this, hE, hq]
      by_cases hm : a = m
      · subst hm
        rw [if_neg (List.nodup_cons.mp hn).1]; simp
      · rw [if_neg hm]
        have : m ∈ a :: ms ↔ m ∈ ms := by simp [Ne.symm hm]
        simp only [this]

theorem foldl_dropUnpopulated (ms : List Mod) : ∀ s : State,
    let t := ms.foldl (fun s m => dropUnpopulated m s) s
    (∃ b r, t = { s with balance := { s.balance with modules := b }, raised := r }) ∧ RaisedGrows s t := by
  induction ms with
  | nil => intro s; exact ⟨⟨_, _, rfl⟩, RaisedGrows.refl s⟩
  | cons a ms ih =>
    intro s
    rw [List.foldl_cons]
    obtain ⟨r0, h0⟩ := decideFrom_eq a (some .unpopulated) (s.balanceOf a)
        (onCells (unpopulatedMask (s.moduleImage a)) dropRequests (s.balanceOf a)) s
    have hg : RaisedGrows s (dropUnpopulated a s) := grows_decideFrom _ _ _ _ _
    obtain ⟨⟨b, r, h1⟩, h2⟩ := ih (dropUnpopulated a s)
    refine ⟨⟨b, r, h1.trans ?_⟩, hg.trans h2⟩
    rw [show dropUnpopulated a s = _ from h0]; rfl

theorem foldl_handOff (ms : List Mod) : ∀ s : State, ms.foldl (fun s m => handOff m s) s
    = { s with balance := { s.balance with handoffs := s.balance.handoffs ++ ms } } := by
  induction ms with
  | nil => intro s; simp
  | cons a ms ih => intro s; rw [List.foldl_cons, ih]; simp [handOff]

theorem offers_sweep (l : List Mod) : ∀ s : State, (l.foldl (fun s m => offer (.ping m) s) s).sweep = s.sweep := by
  induction l with
  | nil => intro s; rfl
  | cons a l ih => intro s; rw [List.foldl_cons, ih]; rfl

/-- The map's and the sweep's share. -/
theorem startAfterEnd_closeMap_values (reason : EndReason) (s : State) : ∃ c w r x, startAfterEnd (closeMap reason s)
    = { s with map := c, sweep := w, reserved := r, sched := x }
   ∧ c = { s.map with
    state := if s.map.n = 0 then .down else .running
    records := tmap s.map.records (endRecord s.map.n)
    endReason := some reason
    endInstant := some s.timebase
    nextNumber := 0
    retryDue := if s.map.n = 0 ∧ s.settings.autoRestart = true then some (s.timebase + 10000) else s.map.retryDue }
   ∧ (s.map.n = 0 → w = s.sweep)
   ∧ (s.map.n ≠ 0 → w.nextBoundary = some (s.timebase + BitVec.ofNat 32 (s.settings.sweepPeriod * 10))
    ∧ w.state = .running ∧ w.mode = s.settings.sweepMode ∧ w.pointer = 1
    ∧ w.visit = if s.settings.sweepMode = .rolling then .deciding else .idle) := by
  unfold startAfterEnd
  by_cases h : s.map.n = 0
  · rw [if_pos (by exact h)]
    by_cases ha : s.settings.autoRestart = true
    · rw [if_pos (by exact ha)]
      refine ⟨_, _, _, _, rfl, ?_, fun _ => rfl, fun h' => absurd h h'⟩
      simp only [h, ha, true_and, if_true, and_self]
      have : s.map.n = 0 := h
      unfold closeMap State.setMap
      simp only [this]
      rfl
    · rw [if_neg (by exact ha)]
      refine ⟨_, _, _, _, rfl, ?_, fun _ => rfl, fun h' => absurd h h'⟩
      simp [h, ha]
  · rw [if_neg (by exact h)]
    unfold startFirstSweep
    generalize hS : (closeMap reason s).setSweep { (closeMap reason s).sweep with
      nextBoundary :=
        some ((closeMap reason s).timebase + ticksOf ((closeMap reason s).settings.sweepPeriod * 10)) } = S
    obtain ⟨w, r, x, h1, h2, h3, h4, -, h5⟩ := startSweep_eq S
    have hb : (startSweep S).sweep.nextBoundary = S.sweep.nextBoundary := by
      unfold startSweep
      split
      · rfl
      · dsimp only
        rw [offers_sweep]; rfl
    rw [h1] at hb
    refine ⟨(closeMap reason s).map, w, r, x, ?_, ?_, fun h' => absurd h' h, fun _ => ⟨?_, h2, ?_, h3, ?_⟩⟩
    · rw [h1, ← hS]; rfl
    · show ({ s.map with state := _, records := _, endReason := _, endInstant := _, nextNumber := _ } : ChainMap) = _
      simp [h]
    · exact hb.trans (by rw [← hS]; rfl)
    · rw [h4, ← hS]; rfl
    · rw [h5, ← hS]; rfl

/-- What `endEnumeration` does is what `EnumerationEnded` says. -/
theorem endEnumeration_ended (reason : EndReason) (s S : State) (hm : S.map = s.map) (hi : S.image = s.image)
    (hst : S.settings = s.settings) (hlt : S.linkTime = s.linkTime) (hsw : S.sweep = s.sweep)
        (hsum : S.limits.sums = s.limits.sums) :
   EnumerationEnded reason s (endEnumeration reason S) ∧ (endEnumeration reason S).link = S.link := by
  have htb : S.timebase = s.timebase := by unfold State.timebase State.ticks; rw [hlt]
  unfold endEnumeration
  obtain ⟨c, w, r, x, h1, hc, hw0, hw1⟩ := startAfterEnd_closeMap_values reason S
  rw [h1]
  rw [hm, htb, hst] at hc hw1
  rw [hm, hsw] at hw0
  generalize hA : ({ S with map := c, sweep := w, reserved := r, sched := x } : State) = A
  dsimp only
  have hAtb : A.timebase = s.timebase := by rw [← htb, ← hA]; rfl
  have hAst : A.settings = s.settings := by rw [← hst, ← hA]
  have hAn : A.map.n = s.map.n := by rw [← hA]; show c.n = _; rw [hc]
  rw [hAtb, hAst, hAn]
  generalize hE : enumerationEvents s.timebase s.settings s.map.n reason = E
  obtain ⟨rr, hB⟩ := raiseBoth_eq E A
  have hBg : E ≠ [] → ∀ q, E ∈ (raiseBoth E A).raised.get q := by
    intro h q
    have : E.isEmpty = false := by simpa using h
    unfold raiseBoth raiseTo; rw [this]; cases q <;> simp [PerPort.get, PerPort.set]
  generalize raiseBoth E A = B at *
  obtain ⟨⟨i, b, wk, hC⟩, hCh, hCe⟩ := foldl_enumerationEnd allMods B (List.nodup_finRange 12)
  change EnumerationEnded reason s (sumsEnumerationEnd (allMods.foldl (fun s m => dropUnpopulated m s)
      (allMods.foldl (fun s m =>
        strikeReceipts m (writeModule m (fun ch e => enumerationEndEntry (s.qualifies m ch) e) s)) B)))
    ∧ (sumsEnumerationEnd (allMods.foldl (fun s m => dropUnpopulated m s)
      (allMods.foldl (fun s m =>
        strikeReceipts m (writeModule m (fun ch e => enumerationEndEntry (s.qualifies m ch) e) s)) B))).link = _
  generalize hCC : allMods.foldl (fun s m => strikeReceipts m
      (writeModule m (fun ch e => enumerationEndEntry (s.qualifies m ch) e) s)) B = C at *
  obtain ⟨⟨bm, rd, hD⟩, hDg⟩ := foldl_dropUnpopulated allMods C
  dsimp only at hC hCe hCh hD hDg
  generalize allMods.foldl (fun s m => dropUnpopulated m s) C = D at *
  unfold sumsEnumerationEnd
  dsimp only
  rw [foldl_handOff]
  have hDm : D.map = c := by rw [hD, hC, hB, ← hA]
  have hDs : D.sweep = w := by rw [hD, hC, hB, ← hA]
  have hDl : D.limits.sums = s.limits.sums := by rw [hD, hC, hB, ← hA]; exact hsum
  have hDn : D.map.n = s.map.n := by rw [hDm, hc]
  have hDi : D.link = S.link := by rw [hD, hC, hB, ← hA]
  refine ⟨{ map := hDm.trans ?_, entries := ?_, events := ?_, noSweep := fun h => hDs.trans (hw0 h),
            firstSweep := fun h => ?_, sums := ?_, handedOff := ?_ }, hDi⟩
  · rw [hc]
    have : (endRecord s.map.n) = (fun m r => if modNumber m ≤ s.map.n then r
      else { r with state := .absent, failures := 0, cellCount := 0, tempCount := 0, revision := 0 }) := by
      funext m r; unfold endRecord; split <;> rfl
    rw [this]
  · intro m ch
    have h : chanEntry (D.moduleImage m) ch = chanEntry (C.moduleImage m) ch := by rw [hD]; rfl
    refine h.trans ?_
    rw [hCe m ch, if_pos (show m ∈ allMods from List.mem_finRange m)]
    have hBi : B.moduleImage m = s.moduleImage m := by unfold State.moduleImage; rw [hB, ← hA, ← hi]
    rw [hBi]
    have hq : B.qualifies m ch = (modNumber m ≤ s.map.n && match ch with
      | .cell c => decide (c.val < (s.record m).cellCount) && inMask (tget s.settings.populationMask m) c
      | .temp c => decide (c.val < (s.record m).tempCount)
      | _ => true) := by
      have e1 : B.map = c := by rw [hB, ← hA]
      have e2 : B.settings = s.settings := by rw [hB]; exact hAst
      unfold State.qualifies Machine.qualifies State.onChain State.record
      rw [e1, e2, hc]
      dsimp only
      by_cases hle : modNumber m ≤ s.map.n
      · have : tget (tmap s.map.records (endRecord s.map.n)) m = tget s.map.records m := by
          simp [endRecord, hle]
        rw [this]; cases ch <;> rfl
      · simp [hle]
    have enum : ∀ (Q : Bool) (e : Entry), enumerationEndEntry Q e = if Q = true then
        if e.quality = .unpopulated ∨ e.quality = .faulted ∧ e.cause = some .restart
        then { e with quality := .pending, cause := none } else e
      else clearedEntry := by
      intro Q e
      unfold enumerationEndEntry
      have : ((!populated e || (e.quality == .faulted && e.cause == some .restart)) = true)
          ↔ (e.quality = .unpopulated ∨ e.quality = .faulted ∧ e.cause = some .restart) := by simp [populated]
      simp only [this]; rfl
    rw [hq, enum]
    cases ch <;> rfl
  · intro hn q
    have hE' : E ≠ [] := by rw [← hE]; unfold enumerationEvents; rw [if_neg hn]; simp
    refine ⟨E, ?_, ?_⟩
    · show E ∈ D.raised.get q
      apply hDg.mem
      rw [hC]; exact hBg hE' q
    · rw [← hE]; unfold enumerationEvents; rw [if_neg hn]; simp
  · have := hw1 h
    rw [← hDs] at this
    exact this
  · intro m
    have hs : ∀ (L : List Mod) (v : Vector SumState 12),
        ({ ({ D with limits := { D.limits with sums := v } } : State) with balance :=
                     { D.balance with handoffs := L } } : State).limits.sums = v := fun _ _ => rfl
    refine (congrArg (fun v => tget v m) (hs _ _)).trans ?_
    rw [tget_tmap, hDl, hDn]
  · intro m h1 h2
    show m ∈ D.balance.handoffs ++ _
    apply List.mem_append_right
    rw [List.mem_filter]
    refine ⟨List.mem_finRange m, ?_⟩
    simp only [State.onChain, hDl, h2, hDn]
    simp; omega

end Sys2Proof.Machine
end

