-- ==== Sys2Proof/Laws/Losses.lean ====
section
/-! SUPPORT. Laws/Losses.lean: what the notices of R84 and R85, and the loss of a module, leave. -/

namespace Sys2Proof.Machine

/-! ## Successes -/

theorem successNotice_active (s A : State) (m : Mod) (hA : A.record m = s.record m) (hh : s.health m = .active)
    (hm : (s.record m).mark = false) :
   successNotice m A = A.setRecord m { s.record m with failures := 0, lastSuccess := some A.timebase } := by
  have hst : (s.record m).state = .active := hh
  unfold successNotice; rw [hA]; dsimp only
  rw [if_neg (by simp [hm]), hst]

theorem mapNotice_active (s A : State) (x : TxnSlot) (m : Mod) (pl : List Byte) (hx : x.node = modNumber m)
    (hr : x.role ≠ .ping) (hw : wrongSamples x (s.record m) pl = false)
   (hA : A.record m = s.record m) (hh : s.health m = .active) (hm : (s.record m).mark = false) :
   mapNotice x (.answered 0 pl) A = A.setRecord m { s.record m with failures := 0, lastSuccess :=
                                                                    some A.timebase } := by
  unfold mapNotice
  rw [hx, modOfNumber_modNumber]
  show (if x.role = .ping then pingNotice m pl A else if wrongSamples x
      (A.record m) pl then A else successNotice m A) = _
  rw [if_neg hr, hA, if_neg (by simp [hw])]
  exact successNotice_active s A m hA hh hm

theorem mapNotice_failing (x : TxnSlot) (st : Byte) (pl : List Byte) (S : State) (h : st ≠ 0) :
    mapNotice x (.answered st pl) S = S := by
  unfold mapNotice
  split
  · next h' => cases h'
  · next h' => cases h'; exact absurd rfl h
  · rfl

theorem wrongSamples_other {x : TxnSlot} {r : ModuleRecord} {pl : List Byte} (h1 : x.role ≠ .readCells)
    (h2 : x.role ≠ .readAux) : wrongSamples x r pl = false := by
  unfold wrongSamples; split <;> first | rfl | contradiction | skip
  all_goals simp_all

/-! ## What a failure never takes away -/

/-- Raised events stay, a slot stays free or held, a pass that ends leaves its slots behind, and an UNKNOWN mask stays
UNKNOWN. -/
structure LossKeeps (s t : State) : Prop where
  grows : RaisedGrows s t
  slots : ∀ i, t.slot i = s.slot i ∨ ∃ x, s.slot i = some x ∧ x.owner ≠ .balance ∧ t.slot i
      = some { x with owner := .gone }
  cmd : ∀ k, (s.balanceOf k).commanded = .unknown → (t.balanceOf k).commanded = .unknown

theorem LossKeeps.refl (s : State) : LossKeeps s s := ⟨RaisedGrows.refl s, fun _ => .inl rfl, fun _ h => h⟩

theorem LossKeeps.trans {s t u : State} (h1 : LossKeeps s t) (h2 : LossKeeps t u) : LossKeeps s u := by
  refine ⟨h1.grows.trans h2.grows, fun i => ?_, fun k h => h2.cmd k (h1.cmd k h)⟩
  rcases h2.slots i with h | ⟨x, hx, ob, h⟩ <;> rcases h1.slots i with h' | ⟨y, hy, ob', h'⟩
  · exact .inl (h.trans h')
  · exact .inr ⟨y, hy, ob', h.trans h'⟩
  · exact .inr ⟨x, h' ▸ hx, ob, h⟩
  · rw [h'] at hx; cases hx; exact .inr ⟨y, hy, ob', h⟩

theorem LossKeeps.none_of {s t : State} (h : LossKeeps s t) {i} (hi : s.slot i = none) : t.slot i = none := by
  rcases h.slots i with h | ⟨x, hx, ob, h⟩
  · rw [h]; exact hi
  · rw [hi] at hx; cases hx

theorem LossKeeps.same {s t : State} (h1 : t.raised = s.raised) (h2 : t.link.slots = s.link.slots)
    (h3 : t.balance.modules = s.balance.modules) : LossKeeps s t :=
  ⟨RaisedGrows.of_eq h1, fun i => .inl (by unfold State.slot; rw [h2]), fun k h =>
      by unfold State.balanceOf; rw [h3]; exact h⟩

theorem LossKeeps.ite {c : Prop} [Decidable c] {s t u : State} (h1 : LossKeeps s t) (h2 : LossKeeps s u) :
    LossKeeps s (if c then t else u) := by
  split <;> assumption

theorem LossKeeps.setPass (u p) (s : State) : LossKeeps s (s.setPass u p) := by cases u <;> exact same rfl rfl rfl

theorem LossKeeps.upd (u f) (s : State) : LossKeeps s (updatePass u f s) := by
  unfold updatePass; split
  · exact setPass _ _ _
  · exact refl s

theorem LossKeeps.offer (k) (s : State) : LossKeeps s (offer k s) := same rfl rfl rfl

theorem LossKeeps.withdraw (k) (s : State) : LossKeeps s (withdraw k s) := same rfl rfl rfl

theorem LossKeeps.refresh (s : State) : LossKeeps s (refreshItems s) := same rfl rfl rfl

theorem LossKeeps.setSweep (w) (s : State) : LossKeeps s (s.setSweep w) := same rfl rfl rfl

theorem LossKeeps.hand (m) (s : State) : LossKeeps s (handOff m s) := same rfl rfl rfl

theorem LossKeeps.setRecord (m r) (s : State) : LossKeeps s (s.setRecord m r) := same rfl rfl rfl

theorem LossKeeps.raiseTo (p es) (s : State) : LossKeeps s (raiseTo p es s) := by
  obtain ⟨r, h⟩ := raiseTo_eq p es s
  exact ⟨grows_raiseTo p es s, fun i => .inl (by rw [h]; rfl), fun k hk => by rw [h]; exact hk⟩

theorem LossKeeps.raiseBoth (es) (s : State) : LossKeeps s (raiseBoth es s) := (raiseTo _ _ _).trans (raiseTo _ _ _)

theorem LossKeeps.unknown (m) (s : State) : LossKeeps s (setCommanded m .unknown s) :=
  ⟨RaisedGrows.of_eq rfl, fun _ => .inl rfl, fun k h => by
    simp only [setCommanded, State.setBalance, State.balanceOf, tget_tput]; split
    · rfl
    · exact h⟩

theorem LossKeeps.unknown_is (m) (s : State) : ((setCommanded m .unknown s).balanceOf m).commanded = .unknown := by
  simp [setCommanded, State.setBalance, State.balanceOf]

theorem LossKeeps.hold (m b) (s : State) : LossKeeps s (setHold m b s) := by
  obtain ⟨r, h⟩ := decideFrom_eq m none (s.balanceOf m) { s.balanceOf m with hold := b } s
  refine ⟨grows_setHold m b s, fun i => ?_, fun k hk => ?_⟩
  · left; unfold setHold; rw [h]; rfl
  · unfold setHold; rw [decideFrom_balanceOf]; split
    · next e => subst e; exact hk
    · exact hk

theorem LossKeeps.foldl {α} {f : State → α → State} (h : ∀ s a, LossKeeps s (f s a)) (l : List α) : ∀ s,
    LossKeeps s (l.foldl f s) := by
  induction l with
  | nil => exact refl
  | cons a l ih => exact fun s => (h s a).trans (ih _)

theorem LossKeeps.orphan (u n) (s : State) : LossKeeps s (orphanSlots u n s) :=
  ⟨RaisedGrows.of_eq rfl, fun i => by
    simp only [State.slot, orphanSlots, tget_tmap]
    cases h : tget s.link.slots i with
    | none => left; rfl
    | some x =>
      show some (orphanSlot u n x) = some x ∨ ∃ z, some x = some z ∧ z.owner ≠ .balance ∧ some (orphanSlot u n x)
          = some { z with owner := .gone }
      unfold orphanSlot
      by_cases hc : x.owner = .pass u ∧ (n = none ∨ n = some x.node)
      · exact .inr ⟨x, rfl, (fun h : x.owner = .balance => by rw [hc.1] at h; cases h), congrArg some (if_pos hc)⟩
      · exact .inl (congrArg some (if_neg hc)), fun _ h => h⟩

theorem LossKeeps.report (q x) (s : State) : LossKeeps s (reportTo q x s) :=
    LossKeeps.trans (t := s.setTickets q _) (same rfl rfl rfl) (raiseTo _ _ _)

theorem LossKeeps.holds (p) (s : State) : LossKeeps s (endHolds p s) :=
    foldl (fun _ _ => ite (hold _ _ _) (refl _)) _ s

theorem LossKeeps.create (q) (s : State) : LossKeeps s (createDirected q s) := by
  unfold createDirected; split
  · exact LossKeeps.trans (t := s.setTickets q _) (same rfl rfl rfl) ((setPass _ _ _).trans (offer _ _))
  · exact refl s

theorem LossKeeps.endVisit (s : State) : LossKeeps s (endVisit s) := by
  obtain ⟨w, r, x, h⟩ := endVisit_eq s; rw [h]; exact same rfl rfl rfl

theorem LossKeeps.endAl (s : State) : LossKeeps s (endAlignedIfDone s) := by
  obtain ⟨w, r, x, h⟩ := endAlignedIfDone_eq s; rw [h]; exact same rfl rfl rfl

theorem LossKeeps.sweepEnd (p) (s : State) : LossKeeps s (sweepPassEnd p s) := by
  obtain ⟨w, r, x, h⟩ := sweepPassEnd_eq p s; rw [h]; exact same rfl rfl rfl

theorem LossKeeps.endPass (u) (s : State) : LossKeeps s (endPass u s) := by
  unfold Machine.endPass
  split
  · exact refl s
  · next p _ =>
    exact (report .A p s).trans ((report .B p _).trans ((setPass u none _).trans ((orphan u none _).trans
      ((withdraw _ _).trans ((holds p _).trans ((create .A _).trans ((create .B _).trans (sweepEnd p _))))))))

theorem LossKeeps.begin_ (u m) (s : State) : LossKeeps s (beginReading u m s) := by
  unfold beginReading; split
  · exact (setPass _ _ _).trans (offer _ _)
  · exact refl s

theorem LossKeeps.serve (s : State) : LossKeeps s (serveNext s) := by
  unfold serveNext; split
  · exact refl s
  · split
    · exact begin_ _ _ _
    · exact endPass _ _

theorem LossKeeps.partDone (u m o) (s : State) : LossKeeps s (partDone u m o s) := by
  unfold Machine.partDone; dsimp only; split
  · exact (upd _ _ _).trans (endPass _ _)
  · exact (upd _ _ _).trans (serve _)

theorem LossKeeps.offerRestore (u m o) (s : State) : LossKeeps s (offerRestore u m o s) :=
    (upd _ _ _).trans (offer _ _)

theorem LossKeeps.abort (u m q) (s : State) : LossKeeps s (abortPart u m q s) :=
  ite ((unknown _ _).trans (partDone _ _ _ _)) (ite (offerRestore _ _ _ _) (partDone _ _ _ _))

theorem LossKeeps.alLoss (m p x) (s : State) : LossKeeps s (alignedLoss m p x s) := by
  unfold alignedLoss
  extract_lets served s1 s2 s3 s4
  have h4 : LossKeeps s s4 := (unknown m s).trans ((orphan .all _ _).trans
      ((setPass .all _ _).trans (ite (hold m false _) (refl _))))
  clear_value s4
  exact h4.trans (ite ((withdraw _ _).trans ((upd _ _ _).trans (serve _))) (ite (endPass _ _) (refl _)))

theorem LossKeeps.passLoss (m) (s : State) : LossKeeps s (passLoss m s) := by
  unfold Machine.passLoss; split
  · exact (unknown _ _).trans ((upd _ _ _).trans (endPass _ _))
  · split
    · split
      · exact ite (refl s) (alLoss _ _ _ _)
      · exact refl s
    · exact refl s

theorem LossKeeps.write (m f) (s : State) : LossKeeps s (writeModule m f s) := by
  unfold writeModule; dsimp only; split <;> exact same rfl rfl rfl

theorem LossKeeps.imageLoss (m) (s : State) : LossKeeps s (imageLoss m s) := (raiseBoth _ _).trans (write _ _ _)

theorem LossKeeps.loss (m) (s : State) : LossKeeps s (moduleLoss m s) :=
    (imageLoss m s).trans ((passLoss _ _).trans (hand _ _))

/-! ## Failures -/

/-- The failure count after one more failure (R85). -/
def failureCount (s : State) (m : Mod) : Nat := min 7 ((s.record m).failures + 1)

/-- The failure makes the module LOST (R85). -/
abbrev NewlyLost (s : State) (m : Mod) : Prop := s.health m ≠ .lost ∧ s.settings.lostThreshold ≤ failureCount s m

/-- Every other module is LOST already, and a restart follows a loss of all (R94). -/
abbrev LastModule (s : State) (m : Mod) : Prop := s.settings.autoRestart = true ∧ s.map.state = .running
    ∧ 1 ≤ s.map.n ∧ ∀ k, modNumber k ≤ s.map.n → k ≠ m → s.health k = .lost

def failedRecord (s : State) (m : Mod) : ModuleRecord :=
    { s.record m with failures := failureCount s m, state := if s.health m = .lost
                      ∨ s.settings.lostThreshold ≤ failureCount s m then .lost else .suspect }

def failedMap (s : State) (m : Mod) : ChainMap := { s.map with records := tput s.map.records m (failedRecord s m) }

def lostEvent (s : State) (m : Mod) : Event := { kind := .moduleLost, time := s.timebase, module := some m }

def suspectEvent (s : State) (m : Mod) : Event := { kind := .moduleSuspect, time := s.timebase, module := some m,
                                                    value := some (failureCount s m : Nat) }

/-- The state at which a notice is taken has the map, the settings, the time and the Image of `s`. -/
structure SameMap (s A : State) : Prop where
  map : A.map = s.map
  settings : A.settings = s.settings
  linkTime : A.linkTime = s.linkTime
  image : A.image = s.image

/-- The loss of the module, the failure counted and the event raised. -/
def lossAfter (s : State) (m : Mod) (A : State) : State :=
    moduleLoss m (raiseBoth [lostEvent s m] (A.setRecord m (failedRecord s m)))

/-- A failure notice makes the module LOST, or counts and raises MODULE_SUSPECT at the first. -/
theorem failureNotice_cases (s A : State) (m : Mod) (h : SameMap s A) (ha : s.health m ≠ .absent) :
   (NewlyLost s m → failureNotice m A = autoRestart (lossAfter s m A))
   ∧ (¬NewlyLost s m → failureNotice m A = (if s.health m
       = .active then handOff m (raiseBoth [suspectEvent s m] (A.setRecord m (failedRecord s m))) else A.setRecord m
           (failedRecord s m))) := by
  have hr : A.record m = s.record m := by unfold State.record; rw [h.map]
  have ht : A.timebase = s.timebase := by unfold State.timebase State.ticks; rw [h.linkTime]
  unfold failureNotice lossAfter NewlyLost
  rw [hr, h.settings, ht]
  have hcnt : min 7 ((s.record m).failures + 1) = failureCount s m := rfl
  dsimp only
  rw [hcnt]
  have hh : (s.record m).state = s.health m := rfl
  by_cases hl : s.settings.lostThreshold ≤ failureCount s m
  · cases hs : s.health m with
    | absent => exact absurd hs ha
    | lost => rw [hs] at hh; rw [hh]; simp [failedRecord, hs]
    | active => rw [hs] at hh; rw [hh]; simp [failedRecord, hs, hl]; rfl
    | suspect => rw [hs] at hh; rw [hh]; simp [failedRecord, hs, hl]; rfl
  · cases hs : s.health m with
    | absent => exact absurd hs ha
    | lost => rw [hs] at hh; rw [hh]; simp [failedRecord, hs]
    | active => rw [hs] at hh; rw [hh]; simp [failedRecord, hs, hl]; rfl
    | suspect => rw [hs] at hh; rw [hh]; simp [failedRecord, hs, hl]

theorem imageLoss_eq (m : Mod) (S : State) : (∃ i b r, imageLoss m S
    = { S with image := { S.image with modules := i }, balance := { S.balance with handoffs := b }, raised := r })
   ∧ ∀ k ch, chanEntry ((imageLoss m S).moduleImage k) ch =
       if m = k then loseEntry (chanEntry (S.moduleImage k) ch) else chanEntry (S.moduleImage k) ch := by
  unfold imageLoss
  dsimp only
  generalize lossEvents S.timebase m _ = E
  obtain ⟨r, hr⟩ := raiseBoth_eq E S
  rw [hr]
  obtain ⟨i, b, hw⟩ := writeModule_fields m (fun _ => loseEntry) { S with raised := r }
  exact ⟨⟨i, b, r, hw⟩, fun k ch => chanEntry_writeModule m (fun _ => loseEntry) { S with raised := r } k ch⟩

/-- The loss up to the Image. -/
def imageLossAfter (s : State) (m : Mod) (A : State) : State :=
    imageLoss m (raiseBoth [lostEvent s m] (A.setRecord m (failedRecord s m)))

theorem imageLossAfter_eq (s A : State) (m : Mod) : ∃ i b r, imageLossAfter s m A
    = { A with map := { A.map with records := tput A.map.records m (failedRecord s m) }, image :=
               { A.image with modules := i }, balance := { A.balance with handoffs := b }, raised := r }
                   ∧ (∀ q, [lostEvent s m] ∈ r.get q) ∧ (∀ q, ∃ xs, r.get q = A.raised.get q ++ xs)
   ∧ ∀ k ch, chanEntry (tget i k) ch = if m = k then loseEntry (chanEntry (A.moduleImage k) ch) else chanEntry
       (A.moduleImage k) ch := by
  obtain ⟨r1, hr⟩ := raiseBoth_eq [lostEvent s m] (A.setRecord m (failedRecord s m))
  have hg := raiseBoth_get [lostEvent s m] (A.setRecord m (failedRecord s m)) (by simp)
  have kk := (LossKeeps.imageLoss m (raiseBoth [lostEvent s m] (A.setRecord m (failedRecord s m)))).grows
  obtain ⟨⟨i, b, r, h⟩, he⟩ := imageLoss_eq m (raiseBoth [lostEvent s m] (A.setRecord m (failedRecord s m)))
  have e : (imageLoss m (raiseBoth [lostEvent s m] (A.setRecord m (failedRecord s m)))).raised = r := by rw [h]
  refine ⟨i, b, r, ?_, fun q => ?_, fun q => ?_, fun k ch => ?_⟩
  · unfold imageLossAfter; rw [h, hr]; rfl
  · rw [← e]; apply kk.mem; rw [hg]; simp
  · obtain ⟨xs, hx⟩ := kk q
    rw [e, hg] at hx
    exact ⟨[[lostEvent s m]] ++ xs, by rw [hx, List.append_assoc]; rfl⟩
  · have := he k ch
    rw [hr] at this
    rw [h] at he
    refine (he k ch).trans ?_
    rw [hr]; rfl

theorem lossAfter_eq (s A : State) (m : Mod) : lossAfter s m A = handOff m (passLoss m (imageLossAfter s m A)) := rfl

/-- What a loss leaves. -/
structure LossDone (s A L : State) (m : Mod) : Prop where
  map : L.map = failedMap s m
  settings : L.settings = s.settings
  quarantine : L.link.quarantine = A.link.quarantine
  entries : ∀ k ch, chanEntry (L.moduleImage k) ch =
      if m = k then loseEntry (chanEntry (s.moduleImage k) ch) else chanEntry (s.moduleImage k) ch
  ev : ∀ q, [lostEvent s m] ∈ L.raised.get q
  k : LossKeeps A L

theorem lossDone (s A : State) (m : Mod) (h : SameMap s A) : LossDone s A (lossAfter s m A) m := by
  obtain ⟨i, b, r, hp, he, hg, hi⟩ := imageLossAfter_eq s A m
  have po : PassesOnly (imageLossAfter s m A) (passLoss m (imageLossAfter s m A)) := PassesOnly.passLoss m _
  have kk := LossKeeps.passLoss m (imageLossAfter s m A)
  have k0 : LossKeeps A (imageLossAfter s m A) := LossKeeps.trans (LossKeeps.setRecord m (failedRecord s m) A)
      ((LossKeeps.raiseBoth _ _).trans (LossKeeps.imageLoss _ _))
  rw [lossAfter_eq]
  generalize passLoss m (imageLossAfter s m A) = L at *
  refine ⟨?_, ?_, ?_, ?_, ?_, ?_⟩
  · show L.map = _
    rw [po.map, hp]
    show ({ A.map with records := tput A.map.records m (failedRecord s m) } : ChainMap) = _
    rw [h.map]; rfl
  · show L.settings = _
    rw [po.settings, hp]; exact h.settings
  · show L.link.quarantine = _
    rw [po.quarantine, hp]
  · intro k ch
    show chanEntry (L.moduleImage k) ch = _
    rw [po.moduleImage, hp]
    refine (hi k ch).trans ?_
    have : A.moduleImage k = s.moduleImage k := by unfold State.moduleImage; rw [h.image]
    rw [this]
  · intro q
    show _ ∈ L.raised.get q
    apply kk.grows.mem; rw [hp]; exact he q
  · exact k0.trans (kk.trans (LossKeeps.hand _ _))

theorem health_failedMap (s L : State) (m k : Mod) (hm : L.map = failedMap s m) : L.health k =
    if m = k then (failedRecord s m).state else s.health k := by
  unfold State.health State.record
  rw [hm]
  show (tget (tput s.map.records m (failedRecord s m)) k).state = _
  rw [tget_tput]; split <;> rfl

theorem allLost_failedMap (s L : State) (m : Mod) (hm : L.map = failedMap s m) (hst : L.settings = s.settings)
    (hn : NewlyLost s m) : (L.settings.autoRestart && L.allLost) = true ↔ LastModule s m := by
  have hl : (failedRecord s m).state = .lost := by simp [failedRecord, hn.2]
  unfold State.allLost LastModule
  have e1 : L.map.state = s.map.state := by rw [hm]; rfl
  have e2 : L.map.n = s.map.n := by rw [hm]; rfl
  simp only [Bool.and_eq_true, beq_iff_eq, decide_eq_true_eq, List.all_eq_true, Bool.or_eq_true, Bool.not_eq_true',
      State.onChain, decide_eq_false_iff_not, hst, e1, e2, and_assoc]
  refine and_congr_right fun _ => and_congr_right fun _ => and_congr_right fun _ => ?_
  constructor
  · intro h k hk hne
    rcases h k (List.mem_finRange k) with h | h
    · exact absurd hk h
    · rwa [health_failedMap s L m k hm, if_neg (Ne.symm hne)] at h
  · intro h k _
    by_cases hk : modNumber k ≤ s.map.n
    · right
      rw [health_failedMap s L m k hm]
      by_cases he : m = k
      · rw [if_pos he]; exact hl
      · rw [if_neg he]; exact h k hk (Ne.symm he)
    · exact .inl hk

/-- What a failure notice leaves when no restart begins. -/
structure FailureNoted (s A t : State) (m : Mod) : Prop where
  map : t.map = failedMap s m
  quarantine : t.link.quarantine = A.link.quarantine
  entries : ∀ k ch, chanEntry (t.moduleImage k) ch =
            let old := chanEntry (s.moduleImage k) ch
            if NewlyLost s m ∧ k = m ∧ (old.quality = .pending ∨ old.quality = .fresh ∨ old.quality = .stale)
            then { old with quality := .faulted, cause := some .noResponse } else old
  lost : NewlyLost s m → ∀ q, [lostEvent s m] ∈ t.raised.get q
  susp : s.health m = .active → ¬NewlyLost s m → ∀ q, [suspectEvent s m] ∈ t.raised.get q

theorem loseEntry_eq (e : Entry) : loseEntry e = if e.quality = .pending ∨ e.quality = .fresh ∨ e.quality
    = .stale then { e with quality := .faulted, cause := some .noResponse } else e := by
  unfold loseEntry; cases h : e.quality <;> simp

theorem failureNotice_noted (s A : State) (m : Mod) (h : SameMap s A) (ha : s.health m ≠ .absent)
    (hl : ¬(NewlyLost s m ∧ LastModule s m)) : FailureNoted s A (failureNotice m A) m := by
  obtain ⟨n1, n2⟩ := failureNotice_cases s A m h ha
  by_cases hn : NewlyLost s m
  · have f := lossDone s A m h
    have : failureNotice m A = lossAfter s m A := by
      rw [n1 hn]; unfold autoRestart
      rw [if_neg]
      intro hc
      exact hl ⟨hn, (allLost_failedMap s _ m f.map f.settings hn).mp hc⟩
    rw [this]
    refine ⟨f.map, f.quarantine, fun k ch => (f.entries k ch).trans ?_, fun _ => f.ev, fun _ h' => absurd hn h'⟩
    by_cases hk : m = k
    · subst hk
      rw [if_pos rfl, loseEntry_eq]
      by_cases hq : (chanEntry (s.moduleImage m) ch).quality = .pending ∨ (chanEntry (s.moduleImage m) ch).quality
          = .fresh ∨ (chanEntry (s.moduleImage m) ch).quality = .stale
      · rw [if_pos hq]; exact (if_pos ⟨hn, rfl, hq⟩).symm
      · rw [if_neg hq]; exact (if_neg (fun h => hq h.2.2)).symm
    · rw [if_neg hk, if_neg (fun h => hk h.2.1.symm)]
  · rw [n2 hn]
    have hent : ∀ t : State, t.image = s.image → ∀ k ch, chanEntry (t.moduleImage k) ch =
            let old := chanEntry (s.moduleImage k) ch
            if NewlyLost s m ∧ k = m ∧ (old.quality = .pending ∨ old.quality = .fresh ∨ old.quality = .stale)
            then { old with quality := .faulted, cause := some .noResponse } else old := by
      intro t ht k ch
      dsimp only
      rw [if_neg (fun h => hn h.1)]; unfold State.moduleImage; rw [ht]
    by_cases hac : s.health m = .active
    · rw [if_pos hac]
      obtain ⟨r, hr⟩ := raiseBoth_eq [suspectEvent s m] (A.setRecord m (failedRecord s m))
      have hg := raiseBoth_get [suspectEvent s m] (A.setRecord m (failedRecord s m)) (by simp)
      refine ⟨?_, ?_, hent _ ?_, fun h => absurd h hn, fun _ _ q => ?_⟩
      · rw [hr]
        show ({ A.map with records := tput A.map.records m (failedRecord s m) } : ChainMap) = _
        rw [h.map]
        rfl
      · rw [hr]; rfl
      · rw [hr]; exact h.image
      · show _ ∈ (raiseBoth _ _).raised.get q
        rw [hg]; simp
    · rw [if_neg hac]
      refine ⟨?_, rfl, hent _ h.image, fun h => absurd h hn, fun h => absurd h hac⟩
      show ({ A.map with records := tput A.map.records m (failedRecord s m) } : ChainMap) = _; rw [h.map]; rfl

theorem failureNotice_keeps (s A : State) (m : Mod) (h : SameMap s A) (ha : s.health m ≠ .absent)
    (hl : ¬(NewlyLost s m ∧ LastModule s m)) : LossKeeps A (failureNotice m A) := by
  obtain ⟨n1, n2⟩ := failureNotice_cases s A m h ha
  by_cases hn : NewlyLost s m
  · have f := lossDone s A m h
    have : failureNotice m A = lossAfter s m A := by
      rw [n1 hn]; unfold autoRestart
      rw [if_neg]
      intro hc
      exact hl ⟨hn, (allLost_failedMap s _ m f.map f.settings hn).mp hc⟩
    rw [this]; exact f.k
  · rw [n2 hn]
    exact LossKeeps.ite ((LossKeeps.setRecord _ _ _).trans ((LossKeeps.raiseBoth _ _).trans (LossKeeps.hand _ _)))
        (LossKeeps.setRecord _ _ _)

theorem failureNotice_loss (m s A) (h : SameMap s A) (hab : s.health m ≠ .absent)
    (hl : ¬(NewlyLost s m ∧ LastModule s m)) (hN : NewlyLost s m) : failureNotice m A = lossAfter s m A := by
  have f := lossDone s A m h
  rw [(failureNotice_cases s A m h hab).1 hN]; unfold autoRestart
  rw [if_neg]
  intro hc
  exact hl ⟨hN, (allLost_failedMap s _ m f.map f.settings hN).mp hc⟩

/-! ## Failures at the originator -/

theorem originatorOutcome_pass (first : TakenFirst) (u : Target) (m : Mod) (o : LinkOutcome) (x' : TxnSlot)
    (S : State) (hn : x'.node = modNumber m) (ho : x'.owner = .pass u) :
  originatorOutcome first x' o S = passOutcome first u m x' o S := by
  unfold originatorOutcome; rw [ho, hn, modOfNumber_modNumber]

theorem originatorOutcome_failed (first : TakenFirst) (x' : TxnSlot) (m : Mod) (S : State)
    (hn : x'.node = modNumber m) (ho : x'.owner ≠ .enumeration) :
   PassesOnly S (originatorOutcome first x' .failed S) ∧ LossKeeps S (originatorOutcome first x' .failed S) := by
  have hmask : ∀ S, PassesOnly S (maskOutcome m x' .failed S) ∧ LossKeeps S (maskOutcome m x' .failed S) := fun S =>
      ⟨PassesOnly.setCommanded _ _ _, LossKeeps.unknown _ _⟩
  unfold originatorOutcome
  rw [hn, modOfNumber_modNumber]
  cases hO : x'.owner with
  | enumeration => exact absurd hO ho
  | balance => exact hmask S
  | gone =>
    show PassesOnly S (orphanOutcome m x' .failed S) ∧ _
    unfold orphanOutcome
    split <;> first | exact hmask S | exact ⟨PassesOnly.refl S, LossKeeps.refl S⟩
  | sweep =>
    show PassesOnly S (pingOutcome m .failed S) ∧ LossKeeps S (pingOutcome m .failed S)
    unfold pingOutcome; dsimp only
    constructor
    · refine PassesOnly.ite (PassesOnly.ite (PassesOnly.endVisit _) (PassesOnly.refl _))
          ((PassesOnly.setSweep _ _).trans (PassesOnly.endAlignedIfDone _))
    · refine LossKeeps.ite (LossKeeps.ite (LossKeeps.endVisit _) (LossKeeps.refl _))
          ((LossKeeps.setSweep _ _).trans (LossKeeps.endAl _))
  | pass u =>
    show PassesOnly S (passOutcome first u m x' .failed S) ∧ LossKeeps S (passOutcome first u m x' .failed S)
    unfold passOutcome
    split
    · exact ⟨PassesOnly.refl S, LossKeeps.refl S⟩
    · split
      · exact ⟨PassesOnly.refl S, LossKeeps.refl S⟩
      · next y _ =>
        dsimp only
        have ab : ∀ S, PassesOnly S (takeFailure first m .failed (abortPart u m y.quiesced) S)
            ∧ LossKeeps S (takeFailure first m .failed (abortPart u m y.quiesced) S) :=
          fun S => ⟨PassesOnly.abortPart _ _ _ _, LossKeeps.abort _ _ _ _⟩
        have re : ∀ S, PassesOnly S (takeFailure first m .failed (fun s => partDone u m .aborted
              (updatePass u (updatePart m fun y => { y with outcome := some .aborted }) s)) S)
                  ∧ LossKeeps S (takeFailure first m .failed (fun s => partDone u m .aborted
              (updatePass u (updatePart m fun y => { y with outcome := some .aborted }) s)) S) :=
          fun S => ⟨(PassesOnly.updatePass _ _ _).trans (PassesOnly.partDone _ _ _ _),
              (LossKeeps.upd _ _ _).trans (LossKeeps.partDone _ _ _ _)⟩
        have pre : ∀ {T}, (PassesOnly (setCommanded m .unknown S) T ∧ LossKeeps (setCommanded m .unknown S) T) →
            PassesOnly S T ∧ LossKeeps S T :=
          fun h => ⟨(PassesOnly.setCommanded _ _ _).trans h.1, (LossKeeps.unknown _ _).trans h.2⟩
        split
        all_goals first
          | exact pre (ab _)
          | exact pre (re _)
          | exact ab _
          | (rename_i h; cases h)
          | (rename_i h _; cases h)
          | skip

theorem SameMap.mono (s A B : State) (h : SameMap s A) (po : PassesOnly A B) : SameMap s B :=
    ⟨po.map.trans h.map, po.settings.trans h.settings, po.linkTime.trans h.linkTime, po.image.trans h.image⟩

theorem mapNotice_failed (x' : TxnSlot) (m : Mod) (S : State) (hn : x'.node = modNumber m) : mapNotice x' .failed S
    = failureNotice m S := by
  unfold mapNotice; rw [hn, modOfNumber_modNumber]

/-- A quiesce, a restore or an update that FAILED leaves the commanded mask UNKNOWN. -/
theorem originatorOutcome_failed_mask (first : TakenFirst) (x' : TxnSlot) (m : Mod) (S : State)
    (hn : x'.node = modNumber m) (h : (x'.role = .quiesce ∨ x'.role = .restore) ∧ x'.owner = .pass (.one m)
        ∧ (∃ p y, S.passOf (.one m) = some p ∧ partOf p m = some y) ∨ x'.owner = .balance) :
   ((originatorOutcome first x' .failed S).balanceOf m).commanded = .unknown := by
  rcases h with ⟨hr, ho, p, y, hp, hy⟩ | ho
  · rw [originatorOutcome_pass first (.one m) m _ x' S hn ho]
    unfold passOutcome
    rw [hp]; dsimp only; rw [hy]; dsimp only
    rcases hr with hr | hr <;> rw [hr]
    · exact (LossKeeps.abort _ _ _ _).cmd m (LossKeeps.unknown_is m S)
    · exact ((LossKeeps.upd _ _ _).trans (LossKeeps.partDone _ _ _ _)).cmd m (LossKeeps.unknown_is m S)
  · unfold originatorOutcome; rw [ho, hn, modOfNumber_modNumber]
    exact LossKeeps.unknown_is m S

theorem orphanOutcome_failed_mask (first : TakenFirst) (x' : TxnSlot) (m : Mod) (S : State)
    (hn : x'.node = modNumber m) (hr : x'.role = .quiesce ∨ x'.role = .restore) (ho : x'.owner = .gone) :
   ((originatorOutcome first x' .failed S).balanceOf m).commanded = .unknown := by
  unfold originatorOutcome; rw [ho, hn, modOfNumber_modNumber]
  show ((orphanOutcome m x' .failed S).balanceOf m).commanded = _
  unfold orphanOutcome
  rcases hr with hr | hr <;> rw [hr] <;> exact LossKeeps.unknown_is m S

theorem passLoss_commanded (m : Mod) (p : Pass) (S : State) (hp : S.passOf (.one m) = some p) :
    ((handOff m (passLoss m S)).balanceOf m).commanded = .unknown := by
  have : ((passLoss m S).balanceOf m).commanded = .unknown := by
    unfold passLoss
    rw [hp]
    exact ((LossKeeps.upd _ _ _).trans (LossKeeps.endPass _ _)).cmd m (LossKeeps.unknown_is m _)
  generalize passLoss m S = L at *
  exact this

/-- The loss ends the pass of the module, if the failure has not ended it. -/
theorem lossAfter_passEnded (m p y s B) (ke : KeptOrEnded m p y s B) (hp : s.passOf (.one m) = some p)
    (pi : PassInv s) (ht : TicketInv s) (hn : NoTicketWaits s) :
   PassEnded m p y.cellRenewal y.auxRenewal s (lossAfter s m B) := by
  rw [lossAfter_eq]
  obtain ⟨i, b, r, hpre, -⟩ := imageLossAfter_eq s B m
  have g : RaisedGrows B (imageLossAfter s m B) := (LossKeeps.trans (LossKeeps.setRecord m (failedRecord s m) B)
      ((LossKeeps.raiseBoth _ _).trans (LossKeeps.imageLoss _ _))).grows
  have ke' : KeptOrEnded m p y s (imageLossAfter s m B) := by
    rw [hpre] at g ⊢
    rcases ke with h | h
    · exact .inl (h.of_eq rfl rfl rfl rfl rfl rfl)
    · exact .inr (PassEnded.mono h rfl rfl rfl rfl g)
  clear hpre
  generalize imageLossAfter s m B = P at *
  suffices h : PassEnded m p y.cellRenewal y.auxRenewal s (passLoss m P) from PassEnded.mono h rfl rfl rfl rfl
      (RaisedGrows.of_eq rfl)
  unfold passLoss
  rcases ke' with h | h
  · obtain ⟨p', y', h1, -⟩ := h.pass
    rw [h1]
    refine (PassKept.upd (f := updatePart m fun y => { y with outcome := some .aborted })
        (h.of_eq (C := setCommanded m .unknown P) rfl rfl rfl rfl rfl rfl) ?_ (fun _ => rfl) (fun _ => rfl)
            (fun _ => rfl)).endPass ht hn
    intro q z hz
    exact ⟨_, partOf_map (by intro z; rfl) hz _ rfl, rfl, rfl⟩
  · have e1 : P.passOf (.one m) = none := (h.passes _).trans (if_pos rfl)
    have e2 : P.aligned = none := by
      have := (h.passes .all).trans (if_neg (by intro h; cases h))
      refine this.trans ?_
      cases ha : s.passOf .all with
      | none => rfl
      | some a => have := pi.alone m (by rw [ha]; rfl); rw [hp] at this; cases this
    rw [e1, e2]; exact h

end Sys2Proof.Machine
end

