-- ==== Sys2Proof/Laws/Answers.lean ====
section
/-! SUPPORT. Laws/Answers.lean: what an answer leaves: the records that an event raises (R187), the notices of R85 and R86 in
full, and the release of the slot that the answer completes (R73, R75). -/

namespace Sys2Proof.Machine

/-! ## Raised records -/

@[simp] theorem storing_nil : storing [] = [] := rfl

theorem storing_cons (e : Event) (es : List Event) : storing (e :: es) = [e :: es] := rfl

theorem raiseTo_storing (p : Port) (es : List Event) (s : State) (q : Port) :
    (raiseTo p es s).raised.get q = s.raised.get q ++ if q = p then storing es else [] := by
  cases es with
  | nil => simp [raiseTo]
  | cons e es => simp only [raiseTo, List.isEmpty_cons, Bool.false_eq_true, if_false, PerPort.get_set, storing_cons, eq_comm (a := p)]
                 split
                 · next h => rw [h]
                 · simp

theorem raiseBoth_storing (es : List Event) (s : State) (q : Port) :
    (raiseBoth es s).raised.get q = s.raised.get q ++ storing es := by
  unfold raiseBoth
  rw [raiseTo_storing, raiseTo_storing]
  cases q <;> simp

/-! ## Notices -/

/-- The module's record after a success (R86). -/
def successRecord (s : State) (m : Mod) : ModuleRecord :=
  { s.record m with state := .active, failures := 0, lastSuccess := some s.timebase }

/-- The map after a success of the module. -/
def successMap (s : State) (m : Mod) : ChainMap :=
  { s.map with records := tput s.map.records m (successRecord s m) }

/-- A success notice that is applied writes the record, hands a change of state to the Balance Controller, and raises
MODULE_FOUND for a module that was LOST. -/
theorem successNotice_eq (m : Mod) (s : State) (hh : s.health m ≠ .absent) (hm : (s.record m).mark = false) :
    ∃ r, successNotice m s = { s with
        map := successMap s m
        balance := { s.balance with handoffs := s.balance.handoffs ++ if s.health m = .active then [] else [m] }
        raised := r }
      ∧ ∀ q, r.get q = s.raised.get q ++ storing (if s.health m = .lost
          then [{ kind := .moduleFound, time := s.timebase, module := some m }] else []) := by
  unfold successNotice
  dsimp only
  rw [if_neg (by simp [hm])]
  have hs : (s.record m).state = s.health m := rfl
  cases h : s.health m with
  | absent => exact absurd h hh
  | active => rw [hs, h]; exact ⟨s.raised, by simp [State.setRecord, successMap, successRecord], fun q => by simp⟩
  | suspect =>
    rw [hs, h]
    exact ⟨s.raised, rfl, fun q => by simp⟩
  | lost =>
    rw [hs, h]
    obtain ⟨r, hr⟩ := raiseBoth_eq [moduleEvent .moduleFound s.timebase m] (s.setRecord m (successRecord s m))
    have hg := raiseBoth_storing [moduleEvent .moduleFound s.timebase m] (s.setRecord m (successRecord s m))
    rw [hr] at hg
    refine ⟨r, ?_, hg⟩
    show handOff m (raiseBoth [moduleEvent .moduleFound s.timebase m] (s.setRecord m (successRecord s m))) = _
    rw [hr]; rfl

/-- A failure that does not make the module LOST is counted; a module that was ACTIVE becomes SUSPECT, is handed to the
Balance Controller, and MODULE_SUSPECT is raised. -/
theorem failureNotice_eq (m : Mod) (s : State) (hh : s.health m ≠ .absent) (hn : ¬NewlyLost s m) :
    ∃ r, failureNotice m s = { s with
        map := failedMap s m
        balance := { s.balance with handoffs := s.balance.handoffs ++ if s.health m = .active then [m] else [] }
        raised := r }
      ∧ ∀ q, r.get q = s.raised.get q ++ storing (if s.health m = .active then [suspectEvent s m] else []) := by
  have h := (failureNotice_cases s s m ⟨rfl, rfl, rfl, rfl⟩ hh).2 hn
  rw [h]
  by_cases ha : s.health m = .active
  · rw [if_pos ha, if_pos ha, if_pos ha]
    obtain ⟨r, hr⟩ := raiseBoth_eq [suspectEvent s m] (s.setRecord m (failedRecord s m))
    have hg := raiseBoth_storing [suspectEvent s m] (s.setRecord m (failedRecord s m))
    rw [hr] at hg ⊢
    exact ⟨r, rfl, hg⟩
  · rw [if_neg ha, if_neg ha, if_neg ha]
    exact ⟨s.raised, by simp [State.setRecord, failedMap], fun q => by simp⟩

/-! ## The release of a slot -/

theorem tput_tput_same {α : Type} {n : Nat} (v : Vector α n) (i : Fin n) (x y : α) : tput (tput v i x) i y = tput v i y := by
  apply table_ext; intro j; simp; split <;> rfl

/-- A good frame of a held slot, any status but BAD_CHECK_SEEN, releases it with the answer. -/
theorem responseArrival_releases (bytes : List Byte) (first : TakenFirst) (f : ResponseFrame) (i : Fin 4) (x : TxnSlot)
    (s : State) (hr : s.inReset = false) (hl : LinkInv s) (hf : receive bytes = .good f) (hx : s.slot i = some x)
    (ht : x.tag = some f.tag) (hn : x.node = f.node) (h4 : f.status ≠ 4) :
    exec (.responseArrival bytes first) s
      = .next (refreshItems (releaseSlot first i x (.answered f.status f.payload) (upLaneOver s))) := by
  have key : exec (.responseArrival bytes first) s = .next (refreshItems (takeResponse first f (upLaneOver s))) := by
    show Host.Outcome.next (if s.inReset = true then upLaneOver s else match receive bytes with
      | .noFrame => upLaneOver s
      | .bad => countBad (upLaneOver s)
      | .good f => refreshItems (takeResponse first f (upLaneOver s))) = _
    rw [if_neg (by simp [hr]), hf]
  rw [key]
  unfold takeResponse
  rw [show (upLaneOver s).link = s.link from rfl, matchSlot_some hl hx ht hn]
  dsimp only
  rw [show (upLaneOver s).slot i = s.slot i from rfl, hx]
  dsimp only
  unfold completeSlot
  rw [if_neg h4]

/-- The state with the slot of an answer free and the answer off the up lane. -/
def slotFreed (s : State) (i : Fin 4) : State :=
  { s with upLane := s.upLane.tail, link := { s.link with slots := tput s.link.slots i none } }

/-- The slot of an answer while the Chain Map takes its notice first. -/
def waitingSlot (x : TxnSlot) : TxnSlot := { x with tag := none, windowEnd := none }

/-- An answer is taken by its originator first and then by the Chain Map, whichever grant may follow a failure. -/
theorem releaseSlot_originator {first : TakenFirst} (hf : first ≠ .chainMap) (i : Fin 4) (x : TxnSlot) (st : Byte)
    (pl : List Byte) (s : State) : releaseSlot first i x (.answered st pl) (upLaneOver s)
      = mapNotice x (.answered st pl) (originatorOutcome first x (.answered st pl) (slotFreed s i)) := by
  cases first with
  | chainMap => exact absurd rfl hf
  | originator => rfl
  | originatorAndGrant => unfold releaseSlot; dsimp only; rw [if_neg (by intro h; cases h)]; rfl

/-- An answer is taken by the Chain Map first: its notice leaves the slots as they are and commutes with what it reads. -/
theorem releaseSlot_chainMap (i : Fin 4) (x : TxnSlot) (st : Byte) (pl : List Byte) (s : State)
    (h : ∀ l, ∃ M b r, mapNotice x (.answered st pl) { slotFreed s i with link := l } =
      { slotFreed s i with link := l, map := M, balance := b, raised := r }) :
    releaseSlot .chainMap i x (.answered st pl) (upLaneOver s)
      = originatorOutcome .chainMap (waitingSlot x) (.answered st pl)
          (State.setSlot i none (mapNotice x (.answered st pl)
            { slotFreed s i with link := { s.link with slots := tput s.link.slots i (some (waitingSlot x)) } })) := by
  unfold releaseSlot
  dsimp only
  rw [show State.setSlot i (some { x with tag := none, windowEnd := none }) (upLaneOver s)
    = { slotFreed s i with link := { s.link with slots := tput s.link.slots i (some (waitingSlot x)) } } from rfl]
  obtain ⟨M, b, r, e⟩ := h { s.link with slots := tput s.link.slots i (some (waitingSlot x)) }
  rw [e]
  generalize hA : ({ slotFreed s i with
                       link := { s.link with slots := tput s.link.slots i (some (waitingSlot x)) },
                       map := M, balance := b, raised := r } : State) = A
  have : A.slot i = some (waitingSlot x) := by rw [← hA]; simp [State.slot]
  rw [this]

end Sys2Proof.Machine
end

