-- ==== Sys2Proof/Laws/Closed.lean ====
section
/-! SUPPORT. Laws/Closed.lean: what a step can do, said once. Every command is built from the updates listed in `Closed`;
a property that each of them keeps is kept by `exec` and by `step` (`Closed.exec`, `Closed.step`). -/

namespace Sys2Proof.Machine

/-- How an event other than a renewal rewrites the entries of a module (R14 to R18, R20, R21, R121). -/
inductive EntryStep (s : State) : (Chan → Entry → Entry) → Prop
  | populate (q : Chan → Bool) :
      EntryStep s fun ch e => if !populated e && q ch then { e with quality := .pending } else e
  | enumerationEnd (q : Chan → Bool) : EntryStep s fun ch e => enumerationEndEntry (q ch) e
  | restart : EntryStep s fun _ => restartEntry
  | lose : EntryStep s fun _ => loseEntry
  | maskWrite (old new : CellMask) (q : Chan → Bool) (lost : Bool) :
      EntryStep s fun ch e => maskWriteEntry old new (q ch) lost ch e
  | expire (k : DeadlineKind) : EntryStep s (expireEntry k)
  | judge (xs : List (Chan × Int)) : EntryStep s (judgeEntry s.settings xs)

/-- The samples of a response, as R65 and R221 let them be: unsigned 16-bit CELL and BLOCK values, and no open-wire flag
on the block and die values (R2). -/
structure SamplesGood (samples : Chan → Option Sample) : Prop where
  cell : ∀ c x, samples (.cell c) = some x → 0 ≤ x.value ∧ x.value ≤ 65535
  block : ∀ x, samples .block = some x → 0 ≤ x.value ∧ x.value ≤ 65535 ∧ x.openWire = false
  die : ∀ x, samples .die = some x → x.openWire = false

/-- The two tables agree in the decision and in what it reads of the claims: only marks, ON times and the commanded mask
may differ. -/
structure SameDecision (b c : BalanceModule) : Prop where
  decided : c.decided = b.decided
  hold : c.hold = b.hold
  state : ∀ i, (tget c.cells i).state = (tget b.cells i).state
  request : ∀ i, (tget c.cells i).request = (tget b.cells i).request

/-- A new pass of a target may be created (R29, R43). -/
def mayCreate (s : State) : Target → Pass → Prop
  | .one m, p => s.moduleFree m = true ∧ p.parts.map (·.module) = [m]
  | .all, p => s.anyPass = false ∧ p.parts ≠ [] ∧ (p.parts.map (·.module)).Pairwise (· < ·)

/-- A property that every update of a command keeps. The queue and link time are left to `Closed.step`: no command writes
them but RESET_RELEASE. -/
structure Closed (P : State → Prop) : Prop where
  raised : ∀ s r, P s → P { s with raised := r }
  sched : ∀ s x, P s → P { s with sched := x }
  limits : ∀ s x, P s → P { s with limits := x }
  reserved : ∀ s x, P s → P { s with reserved := x }
  token : ∀ s x, P s → P { s with token := x }
  chain : ∀ s c u, P s → P { s with chain := c, upLane := u }
  entries : ∀ s m f, EntryStep s f → P s → P (s.setModuleImage m (mapEntries f (s.moduleImage m)))
  renew : ∀ s m g xs info, SamplesGood xs → P s → P (writeRenewal m g xs info s)
  decided : ∀ s m e b c, P s → P (decideFrom m e b c s)
  balance : ∀ s m c, SameDecision (s.balanceOf m) c → P s → P (s.setBalance m c)
  balanceAll : ∀ s f, (∀ m b, SameDecision b (f m b)) → P s → P (mapBalance f s)
  balanceClock : ∀ s l n, P s → P { s with balance := { s.balance with handoffs := l, onTimer := n } }
  passChange : ∀ s t p p', s.passOf t = some p → p'.parts.map (·.module) = p.parts.map (·.module) →
    P s → P (s.setPass t (some p'))
  passEnd : ∀ s t, P s → P (s.setPass t none)
  passNew : ∀ s t p, mayCreate s t p → P s → P (s.setPass t (some p))
  strike : ∀ s g, P s → P (strikeRefs g s)
  tickets : ∀ s p q, (q.tickets.map (·.id)).Sublist ((s.ticketQueue p).tickets.map (·.id)) →
    P s → P (s.setTickets p q)
  ticketNew : ∀ s p t, t.id = nextId (s.ticketQueue p) → (s.ticketQueue p).tickets.length < Config.ticketLimit →
    P s → P (s.setTickets p { tickets := (s.ticketQueue p).tickets ++ [t], lastId := t.id })
  sweep : ∀ s w, w.state = s.sweep.state → w.mode = s.sweep.mode → w.pointer = s.sweep.pointer →
    (w.visit = s.sweep.visit ∨ s.sweep.visit = .deciding ∧ s.sweep.state = .running) → P s → P (s.setSweep w)
  startSweep : ∀ s, s.sweep.state = .waiting → P s → P (startSweep s)
  endVisit : ∀ s, s.sweep.visit ≠ .idle → P s → P (endVisit s)
  endAligned : ∀ s, P s → P (endAlignedIfDone s)
  closeMap : ∀ s r, s.map.state = .enumerating → P s → P (startAfterEnd (closeMap r s))
  recordModule : ∀ s m d, s.map.state = .enumerating → P s → P (recordModule m d s)
  record : ∀ s m r, P s → P (s.setRecord m r)
  mapClock : ∀ s a b n, P s → P (s.setMap { s.map with retryDue := a, pauseEnd := b, nextNumber := n })
  restart : ∀ s, P s → P (linkRestart (sweepRestart (passRestart (mapRestart s))))
  orphan : ∀ s t n, P s → P (orphanSlots t n s)
  send : ∀ s r o n p, s.link.resendQueue = [] → P s → P (sendUnicast r o n p s)
  lane : ∀ s a b c, P s → P { s with link := { s.link with sending := a, idleUntil := b, gapUntil := c } }
  statistics : ∀ s a b c, P s → P { s with link := { s.link with badCrc := a, late := b, overruns := c } }
  window : ∀ s i now, P s →
    P { s with link := { s.link with slots := tput s.link.slots i ((tget s.link.slots i).map (startWindow now)) } }
  resend : ∀ s i x t rest, s.resendDue = some (i, x, t, rest) → P s → P (resendSlot i x t rest s)
  freeSlot : ∀ s i, P s → P (s.setSlot i none)
  untag : ∀ s i x, s.slot i = some x → P s → P (s.setSlot i (some { x with tag := none, windowEnd := none }))
  badCheck : ∀ s i x f, matchSlot s.link f = some i → s.slot i = some x → x.attemptsUsed < x.attemptLimit →
    P s → P (joinResend i x s)
  timeout : ∀ s i x, s.timeoutDue i = some x → P s → P (timeoutSlot i x s)
  quarantine : ∀ s g, P s → P { s with link := { s.link with quarantine := s.link.quarantine.filter g } }
  portSlot : ∀ s p f r, P s → P (s.setPort p { s.port p with frame := f, slot := r })
  latch : ∀ s p first count option h, latchArgsGood first count option = true → P s →
    P (s.setPort p { s.port p with hold := { copies := copyRun s first count, header := some h } })
  clearHold : ∀ s p r, P s → P (s.setPort p { s.port p with slot := r, hold := { copies := [], header := none } })
  store : ∀ s p, s.inReset = false → P s → P (takeStoring p s)
  pop : ∀ s p n, s.inReset = false → P s → P (s.setQueue p (popRecords n (s.queue p)))
  queueReset : ∀ s p, s.inReset = false → P s → P (s.setQueue p resetSessionQueue)
  portSetting : ∀ s p k v, s.inReset = false → perPort k = true → settingInRange k v = true → P s →
    P (acceptPerPort p k v s)
  settings : ∀ s m k v, perPort k = false → settingInRange k v = true → P s →
    P { s with settings := writeSetting m k v s.settings }
  deviceReset : ∀ s t, execDeviceReset s = .next t → P s → P t
  release : ∀ s t, execResetRelease s = .next t → P s → P t

namespace Closed

variable {P : State → Prop} (h : Closed P)

include h

/-! ## Ops -/

omit h in
theorem foldl {α : Type} {f : State → α → State} (hf : ∀ s a, P s → P (f s a)) (l : List α) :
    ∀ s, P s → P (l.foldl f s) := by
  induction l with
  | nil => exact fun s hs => hs
  | cons a l ih => exact fun s hs => ih _ (hf s a hs)

theorem raiseTo (p : Port) (es : List Event) {s : State} (hs : P s) : P (raiseTo p es s) := by
  unfold Machine.raiseTo
  split
  · exact hs
  · exact h.raised _ _ hs

theorem raiseBoth (es : List Event) {s : State} (hs : P s) : P (raiseBoth es s) := h.raiseTo _ _ (h.raiseTo _ _ hs)

theorem asOneEvent {act : State → State} {s : State} (hs : P (act s)) : P (asOneEvent act s) :=
  h.raised _ _ (h.raised _ _ hs)

theorem handOff (m : Mod) {s : State} (hs : P s) : P (handOff m s) :=
  h.balanceClock _ (s.balance.handoffs ++ [m]) s.balance.onTimer hs

theorem setCommanded (m : Mod) (c : Commanded) {s : State} (hs : P s) : P (setCommanded m c s) :=
  h.balance _ _ _ ⟨rfl, rfl, fun _ => rfl, fun _ => rfl⟩ hs

theorem offer (k : ItemKind) {s : State} (hs : P s) : P (offer k s) := h.sched _ _ hs

theorem withdraw (g : ItemKind → Bool) {s : State} (hs : P s) : P (withdraw g s) := h.sched _ _ hs

theorem refreshItems {s : State} (hs : P s) : P (refreshItems s) := h.sched _ _ hs

/-! ## Image -/

theorem writeModule (m : Mod) {f : Chan → Entry → Entry} {s : State} (hf : EntryStep s f) (hs : P s) :
    P (writeModule m f s) := by
  have := h.entries s m f hf hs
  unfold Machine.writeModule
  dsimp only
  split
  · exact h.handOff _ this
  · exact this

theorem handReceipt (m : Mod) (n : BitVec 32) (xs : List (Chan × Int)) {s : State} (hs : P s) :
    P (handReceipt m n xs s) := by
  unfold Machine.handReceipt
  split
  · exact hs
  · exact h.limits _ _ hs

theorem renewGroup (m : Mod) (g : Group) {samples : Chan → Option Sample} (info : RenewalInfo)
    (hx : SamplesGood samples) {s : State} (hs : P s) : P (renewGroup m g samples info s) := by
  unfold Machine.renewGroup
  dsimp only
  split
  · exact h.handOff _ (h.handReceipt _ _ _ (h.raiseBoth _ (h.renew _ _ _ _ _ hx hs)))
  · exact h.handReceipt _ _ _ (h.raiseBoth _ (h.renew _ _ _ _ _ hx hs))

theorem strikeReceipts (m : Mod) {s : State} (hs : P s) : P (strikeReceipts m s) := h.limits _ _ hs

theorem populateModule (m : Mod) {s : State} (hs : P s) : P (populateModule m s) :=
  h.writeModule m (.populate _) hs

theorem imageEnumerationEnd {s : State} (hs : P s) : P (imageEnumerationEnd s) :=
  Closed.foldl (fun _ m hs => h.strikeReceipts m (h.writeModule m (.enumerationEnd _) hs)) _ _ hs

theorem imageRestart {s : State} (hs : P s) : P (imageRestart s) :=
  Closed.foldl (fun _ m hs => h.writeModule m .restart hs) _ _ hs

theorem imageLoss (m : Mod) {s : State} (hs : P s) : P (imageLoss m s) :=
  h.writeModule m .lose (h.raiseBoth _ hs)

theorem imageMaskWrite (m : Mod) (old : CellMask) {s : State} (hs : P s) : P (imageMaskWrite m old s) :=
  h.strikeReceipts m (h.writeModule m (.maskWrite _ _ _ _) hs)

theorem expireSet (m : Mod) (k : DeadlineKind) {s : State} (hs : P s) : P (expireSet m k s) :=
  h.writeModule m (.expire k) hs

theorem expireDeadline (m : Mod) (k : DeadlineKind) {s : State} (hs : P s) : P (expireDeadline m k s) :=
  h.expireSet m k (h.raiseBoth _ hs)

theorem imageWindowWrite (w : WindowKind) {s : State} (hs : P s) : P (imageWindowWrite w s) := by
  unfold Machine.imageWindowWrite
  exact Closed.foldl (fun _ _ hs => h.expireSet _ _ hs) _ _ (h.raiseBoth _ hs)

/-! ## Limit Checker -/

theorem takeReceipt (m : Mod) (xs : List (Chan × Int)) {s : State} (hs : P s) : P (takeReceipt m xs s) := by
  have := h.raiseBoth (receiptEvents s.timebase s.settings m xs (s.moduleImage m)) (h.entries s m _ (.judge xs) hs)
  unfold Machine.takeReceipt
  dsimp only
  split
  · exact this
  · exact h.handOff _ this

theorem takeSumCheck (m : Mod) (c a : BitVec 32) {s : State} (hs : P s) : P (takeSumCheck m c a s) := by
  unfold Machine.takeSumCheck
  dsimp only
  repeat' split
  all_goals first
    | with_reducible exact hs
    | with_reducible exact h.handOff _ (h.limits _ _ (h.raiseBoth _ hs))

/-! ## Balance Controller -/

theorem takeDecision (m : Mod) {s : State} (hs : P s) : P (takeDecision m s) := h.decided _ _ _ _ _ hs

theorem decideAll {s : State} (hs : P s) : P (decideAll s) :=
  h.asOneEvent (Closed.foldl (fun _ m hs => h.takeDecision m hs) _ _ hs)

theorem setHold (m : Mod) (on : Bool) {s : State} (hs : P s) : P (setHold m on s) := h.decided _ _ _ _ _ hs

theorem dropUnpopulated (m : Mod) {s : State} (hs : P s) : P (dropUnpopulated m s) := by
  unfold Machine.dropUnpopulated
  exact h.decided _ _ _ _ _ hs

theorem expireModuleRequests (m : Mod) {s : State} (hs : P s) : P (expireModuleRequests m s) := by
  unfold Machine.expireModuleRequests
  exact h.decided _ _ _ _ _ hs

theorem dropModuleClaims (p : Port) (m : Mod) {s : State} (hs : P s) : P (dropModuleClaims p s m) := by
  unfold Machine.dropModuleClaims
  dsimp only
  split
  · exact h.decided _ _ _ _ _ hs
  · exact hs

theorem balanceSessionReset (p : Port) {s : State} (hs : P s) : P (balanceSessionReset p s) :=
  h.asOneEvent (Closed.foldl (fun _ m hs => h.dropModuleClaims p m hs) _ _ hs)

theorem balanceRestart {s : State} (hs : P s) : P (balanceRestart s) :=
  Closed.foldl (fun _ _ hs => h.decided _ _ _ _ _ hs) _ _ (h.raiseTo _ _ (h.raiseTo _ _ hs))

/-! ## Link -/

theorem putOnLane (bytes : List Byte) (slot : Option (Fin 4)) (b r : Bool) {s : State} (hs : P s) :
    P (putOnLane bytes slot b r s) := h.lane s _ _ _ hs

theorem sendBroadcast (v : Nat) (p : Payload) (r : Bool) {s : State} (hs : P s) : P (sendBroadcast v p r s) :=
  h.putOnLane _ _ _ _ hs

/-! ## Passes and sweeps -/

theorem createPass (t : Target) (p : Pass) {s : State} (hp : mayCreate s t p) (hs : P s) : P (createPass t p s) :=
  h.offer _ (h.passNew _ _ _ hp hs)

theorem setAuxCount (m : Mod) (n : Nat) {s : State} (hs : P s) : P (s.setAuxCount m n) :=
  h.sweep _ _ rfl rfl rfl (.inl rfl) hs

theorem updatePass (t : Target) {f : Pass → Pass} (hf : ∀ p, (f p).parts.map (·.module) = p.parts.map (·.module))
    {s : State} (hs : P s) : P (updatePass t f s) := by
  unfold Machine.updatePass
  split
  · next p hp => exact h.passChange _ _ _ _ hp (hf p) hs
  · exact hs

omit h in
theorem updatePart_modules (m : Mod) (f : Part → Part) (hf : ∀ x, (f x).module = x.module) (p : Pass) :
    (updatePart m f p).parts.map (·.module) = p.parts.map (·.module) := by
  simp only [updatePart, List.map_map]
  apply List.map_congr_left
  intro x _
  simp only [Function.comp]
  split <;> simp [hf]

theorem updatePassPart (t : Target) (m : Mod) {f : Part → Part} (hf : ∀ x, (f x).module = x.module) {s : State}
    (hs : P s) : P (Machine.updatePass t (updatePart m f) s) :=
  h.updatePass t (updatePart_modules m f hf) hs

/-! ## Directed Measurement Unit -/

omit h in
theorem setTicketState_ids (id : BitVec 8) (st : TicketState) (q : TicketQueue) :
    (setTicketState id st q).tickets.map (·.id) = q.tickets.map (·.id) := by
  simp only [setTicketState, List.map_map]
  apply List.map_congr_left
  intro t _
  simp only [Function.comp]
  split <;> rfl

omit h in
theorem directedDue_free {s : State} {p : Port} {t : Ticket} (ht : s.directedDue p = some t) :
    s.moduleFree t.module = true := by
  simp only [State.directedDue, Option.filter_eq_some_iff] at ht
  simp_all

theorem createDirected (p : Port) {s : State} (hs : P s) : P (createDirected p s) := by
  unfold Machine.createDirected
  split
  · next t ht =>
    refine h.createPass _ _ ⟨directedDue_free (s := s) ht, rfl⟩ (h.tickets _ _ _ ?_ hs)
    rw [setTicketState_ids]
  · exact hs

theorem reportTo (p : Port) (x : Pass) {s : State} (hs : P s) : P (reportTo p x s) :=
  h.raiseTo _ _ (h.tickets _ _ _ (List.Sublist.map _ List.filter_sublist) hs)

theorem restartTickets (p : Port) {s : State} (hs : P s) : P (restartTickets p s) :=
  h.raiseTo _ _ (h.tickets _ _ _ (List.nil_sublist _) hs)

theorem ticketsSessionReset (p : Port) {s : State} (hs : P s) : P (ticketsSessionReset p s) :=
  h.strike _ _ (h.tickets _ _ _ (List.nil_sublist _) hs)

theorem removeTicket (p : Port) (id : BitVec 8) {s : State} (hs : P s) : P (removeTicket p id s) :=
  h.tickets _ _ _ (List.Sublist.map _ List.filter_sublist) hs

theorem placeTicket (p : Port) (m : Mod) (w : What) {s : State}
    (hl : (s.ticketQueue p).tickets.length < Config.ticketLimit) (hs : P s) : P (placeTicket p m w s) := by
  unfold Machine.placeTicket
  dsimp only
  split
  all_goals first
    | with_reducible exact h.updatePass _ (by intro _; rfl) (h.ticketNew _ _ { id := _, module := _, what := _, state := _ } rfl hl hs)
    | with_reducible exact h.ticketNew _ _ { id := _, module := _, what := _, state := _ } rfl hl hs

/-! ## The steps of a pass -/

theorem startSettle (t : Target) {s : State} (hs : P s) : P (startSettle t s) := by
  unfold Machine.startSettle
  split
  · next p hp =>
    split
    · exact h.offer _ (h.passChange _ _ _ _ hp rfl hs)
    · exact h.passChange _ _ _ _ hp rfl hs
  · exact hs

theorem startWait (t : Target) (k : PassTimerKind) {s : State} (hs : P s) : P (startWait t k s) :=
  h.updatePass t (by intro _; rfl) hs

theorem convertSent (t : Target) {s : State} (hs : P s) : P (convertSent t s) :=
  h.updatePass t (fun p => by simp [Function.comp_def]) hs

theorem quiesceSent (m : Mod) {s : State} (hs : P s) : P (quiesceSent m s) :=
  h.setHold _ _ (h.updatePass _ (fun p =>
    updatePart_modules m (fun x => { x with quiesced := true }) (by intro _; rfl) { p with step := .quiescing }) hs)

theorem quiesceSentAll (p : Pass) {s : State} (hs : P s) : P (quiesceSentAll p s) :=
  h.startSettle _ (Closed.foldl
    (fun _ m hs => h.setHold m true (h.setCommanded _ _ (h.updatePassPart _ m (by intro _; rfl) hs))) _ _ hs)

theorem sendConvert (t : Target) (p : Pass) {s : State} (hq : s.link.resendQueue = []) (hs : P s) :
    P (sendConvert t p s) := by
  cases t with
  | one m => exact h.convertSent _ (h.send _ _ _ _ _ hq hs)
  | all => exact h.startWait _ _ (h.convertSent _ (h.sendBroadcast _ _ _ hs))

theorem quiesceOrConvert (t : Target) (p : Pass) {s : State} (hq : s.link.resendQueue = []) (hs : P s) :
    P (quiesceOrConvert t p s) := by
  unfold Machine.quiesceOrConvert
  by_cases hn : quiesceNeeded s p = true
  · rw [if_pos hn]
    cases t with
    | one m => exact h.quiesceSent m (h.send _ _ _ _ _ hq hs)
    | all => exact h.quiesceSentAll _ (h.sendBroadcast _ _ _ hs)
  · rw [if_neg hn]
    exact h.sendConvert _ _ hq hs

theorem grantFirst (t : Target) (p : Pass) {s : State} (hq : s.link.resendQueue = []) (hs : P s) :
    P (grantFirst t p s) :=
  h.quiesceOrConvert t p (s := servePort p.origin s) hq (h.sched _ _ hs)

theorem endHold (m : Mod) {s : State} (hs : P s) :
    P (if (s.balanceOf m).hold then Machine.setHold m false s else s) := by
  split
  · exact h.setHold _ _ hs
  · exact hs

theorem grantRestore (t : Target) (m : Mod) {s : State} (hq : s.link.resendQueue = []) (hs : P s) :
    P (grantRestore t m s) := by
  have hl : (if (s.balanceOf m).hold then Machine.setHold m false s else s).link.resendQueue = [] := by
    split
    · rw [setHold_link]
      exact hq
    · exact hq
  unfold Machine.grantRestore
  exact h.send _ _ _ _ _ hl (h.endHold m hs)

theorem grantPassItem (t : Target) (act : PassAct) {s : State} (hq : s.link.resendQueue = []) (hs : P s) :
    P (grantPassItem t act s) := by
  unfold Machine.grantPassItem
  repeat' split
  all_goals first
    | with_reducible exact hs
    | with_reducible exact h.grantFirst _ _ hq hs
    | with_reducible exact h.sendConvert _ _ hq hs
    | with_reducible exact h.grantRestore _ _ hq hs
    | with_reducible exact h.send _ _ _ _ _ hq hs

theorem beginReading (t : Target) (m : Mod) {s : State} (hs : P s) : P (beginReading t m s) := by
  unfold Machine.beginReading
  split
  · next p hp =>
    exact h.offer _ (h.passChange _ _ _ _ hp
      (updatePart_modules m (fun x => { x with step := .reading }) (by intro _; rfl) _) hs)
  · exact hs

/-! ## The end of a pass -/

theorem endHolds (p : Pass) {s : State} (hs : P s) : P (endHolds p s) :=
  Closed.foldl (fun _ m hs => h.endHold m hs) _ _ hs

theorem sweepPassEnd (p : Pass) {s : State} (hs : P s) : P (sweepPassEnd p s) := by
  unfold Machine.sweepPassEnd
  split
  · split
    · next hv => exact h.endVisit _ (by simp [hv]) hs
    · exact hs
  · exact h.endAligned _ (h.sweep _ _ rfl rfl rfl (.inl rfl) hs)
  · exact hs

theorem endPass (t : Target) {s : State} (hs : P s) : P (endPass t s) := by
  unfold Machine.endPass
  split
  · exact hs
  · exact h.sweepPassEnd _ (h.createDirected _ (h.createDirected _ (h.endHolds _ (h.withdraw _ (h.orphan _ _ _
      (h.passEnd _ _ (h.reportTo _ _ (h.reportTo _ _ hs))))))))

theorem serveNext {s : State} (hs : P s) : P (serveNext s) := by
  unfold Machine.serveNext
  split
  · exact hs
  · split
    · exact h.beginReading _ _ hs
    · exact h.endPass _ hs

theorem partDone (t : Target) (m : Mod) (o : PassOutcome) {s : State} (hs : P s) : P (partDone t m o s) := by
  unfold Machine.partDone
  dsimp only
  split
  · exact h.endPass _ (h.updatePassPart _ _ (by intro _; rfl) hs)
  · exact h.serveNext (h.updatePassPart _ _ (by intro _; rfl) hs)

theorem offerRestore (t : Target) (m : Mod) (o : Option PassOutcome) {s : State} (hs : P s) :
    P (offerRestore t m o s) :=
  h.offer _ (h.updatePass _ (by intro p; exact updatePart_modules m _ (by intro _; rfl) _) hs)

theorem afterReads (t : Target) (m : Mod) (q : Bool) {s : State} (hs : P s) : P (afterReads t m q s) := by
  unfold Machine.afterReads
  split
  · exact h.offerRestore _ _ _ hs
  · exact h.partDone _ _ _ hs

theorem abortPart (t : Target) (m : Mod) (q : Bool) {s : State} (hs : P s) : P (abortPart t m q s) := by
  unfold Machine.abortPart
  split
  · exact h.partDone _ _ _ (h.setCommanded _ _ hs)
  · split
    · exact h.offerRestore _ _ _ hs
    · exact h.partDone _ _ _ hs

theorem alignedLoss (m : Mod) (p : Pass) (x : Part) {s : State} (hp : s.aligned = some p) (hs : P s) :
    P (alignedLoss m p x s) := by
  have h1 : P ((Machine.orphanSlots .all (some (modNumber m)) (Machine.setCommanded m .unknown s)).setPass .all
      (some (updatePart m (fun x => { x with step := .done, outcome := some .aborted }) p))) :=
    h.passChange _ _ p _ hp (updatePart_modules m _ (by intro _; rfl) p) (h.orphan _ _ _ (h.setCommanded _ _ hs))
  have h2 := h.endHold m h1
  unfold Machine.alignedLoss
  dsimp only
  split
  · exact h.serveNext (h.updatePass _ (by intro _; rfl) (h.withdraw _ h2))
  · split
    · exact h.endPass _ h2
    · exact h2

theorem passLoss (m : Mod) {s : State} (hs : P s) : P (passLoss m s) := by
  unfold Machine.passLoss
  split
  · exact h.endPass _ (h.updatePassPart _ _ (by intro _; rfl) (h.setCommanded _ _ hs))
  · split
    · next p hp =>
      split
      · split
        · exact hs
        · exact h.alignedLoss _ _ _ hp hs
      · exact hs
    · exact hs

/-! ## Chain Map -/

theorem beginRestart {s : State} (hs : P s) : P (beginRestart s) := by
  have h1 := h.restart _ (h.restartTickets .B (h.restartTickets .A hs))
  unfold Machine.beginRestart schedRestart
  exact h.balanceRestart (h.imageRestart (h.offer _ (h.sched _ _ h1)))

theorem sumsEnumerationEnd {s : State} (hs : P s) : P (sumsEnumerationEnd s) :=
  Closed.foldl (fun _ m hs => h.handOff m hs) _ _ (h.limits _ _ hs)

theorem endEnumeration (r : EndReason) {s : State} (hm : s.map.state = .enumerating) (hs : P s) :
    P (endEnumeration r s) :=
  h.sumsEnumerationEnd (Closed.foldl (fun _ m hs => h.dropUnpopulated m hs) _ _
    (h.imageEnumerationEnd (h.raiseBoth _ (h.closeMap _ _ hm hs))))

theorem assignModule (m : Mod) (d : Nat × Nat × Nat) {s : State} (hm : s.map.state = .enumerating) (hs : P s) :
    P (assignModule m d s) :=
  h.offer _ (h.handOff _ (h.populateModule _ (h.recordModule _ _ _ hm hs)))

theorem enumerationOutcome (x : TxnSlot) (o : LinkOutcome) {s : State} (hs : P s) : P (enumerationOutcome x o s) := by
  unfold Machine.enumerationOutcome
  split
  · next hm =>
    unfold takeEnumerationStep
    repeat' split
    all_goals first
      | with_reducible exact h.endEnumeration _ hm hs
      | with_reducible exact h.assignModule _ _ hm hs
  · exact hs

theorem moduleLoss (m : Mod) {s : State} (hs : P s) : P (moduleLoss m s) :=
  h.handOff _ (h.passLoss _ (h.imageLoss _ hs))

theorem autoRestart {s : State} (hs : P s) : P (autoRestart s) := by
  unfold Machine.autoRestart
  split
  · exact h.beginRestart hs
  · exact hs

theorem failureNotice (m : Mod) {s : State} (hs : P s) : P (failureNotice m s) := by
  have lost : ∀ r, P (Machine.autoRestart (Machine.moduleLoss m
      (Machine.raiseBoth [moduleEvent .moduleLost s.timebase m] (s.setRecord m r)))) :=
    fun r => h.autoRestart (h.moduleLoss _ (h.raiseBoth _ (h.record _ _ _ hs)))
  unfold Machine.failureNotice
  dsimp only
  cases (s.record m).state
  · exact hs
  · exact iteInduction (fun _ => lost _) (fun _ => h.handOff _ (h.raiseBoth _ (h.record _ _ _ hs)))
  · exact iteInduction (fun _ => lost _) (fun _ => h.record _ _ _ hs)
  · exact h.record _ _ _ hs

theorem successNotice (m : Mod) {s : State} (hs : P s) : P (successNotice m s) := by
  unfold Machine.successNotice
  dsimp only
  repeat' split
  all_goals first
    | with_reducible exact hs
    | with_reducible exact h.record _ _ _ hs
    | with_reducible exact h.handOff _ (h.record _ _ _ hs)
    | with_reducible exact h.handOff _ (h.raiseBoth _ (h.record _ _ _ hs))

theorem pingNotice (m : Mod) (b : List Byte) {s : State} (hs : P s) : P (pingNotice m b s) := by
  unfold Machine.pingNotice
  repeat' split
  all_goals first
    | with_reducible exact hs
    | with_reducible exact h.successNotice _ hs
    | with_reducible exact h.failureNotice _ (h.record _ _ _ hs)

theorem mapNotice (x : TxnSlot) (o : LinkOutcome) {s : State} (hs : P s) : P (mapNotice x o s) := by
  unfold Machine.mapNotice
  repeat' split
  all_goals first
    | with_reducible exact hs
    | with_reducible exact h.failureNotice _ hs
    | with_reducible exact h.pingNotice _ _ hs
    | with_reducible exact h.successNotice _ hs

theorem grantItem (k : ItemKind) {s : State} (hq : s.link.resendQueue = []) (hs : P s) : P (grantItem k s) := by
  unfold Machine.grantItem
  split
  all_goals first
    | with_reducible exact h.sendBroadcast _ _ _ hs
    | with_reducible exact h.grantPassItem _ _ hq hs
    | with_reducible exact h.send _ _ _ _ _ hq hs

theorem takeGrant {s : State} (hs : P s) : P (takeGrant s) := by
  unfold Machine.takeGrant
  split
  · next it hi =>
    refine h.refreshItems (h.grantItem _ ?_ (h.withdraw _ hs))
    unfold State.grantDue at hi
    split at hi
    · next hl =>
      simp only [laneFree, Bool.and_eq_true, List.isEmpty_iff] at hl
      exact hl.2
    · cases hi
  · exact hs

theorem grantNow {s : State} (hs : P s) : P (grantNow s) := h.takeGrant (h.refreshItems hs)

theorem takeFailure (first : TakenFirst) (m : Mod) (o : LinkOutcome) {k : State → State}
    (hk : ∀ s, P s → P (k s)) {s : State} (hs : P s) : P (takeFailure first m o k s) := by
  unfold Machine.takeFailure
  dsimp only
  repeat' split
  all_goals first
    | with_reducible exact hk _ hs
    | with_reducible exact h.failureNotice _ (hk _ hs)
    | with_reducible exact h.failureNotice _ (h.grantNow (hk _ hs))
    | with_reducible exact h.failureNotice _ hs
    | with_reducible exact hk _ (h.failureNotice _ hs)

/-! ## Outcomes at a pass -/

omit h in
theorem cellSource_good {count : Nat} {payload : List Byte} {xs : List Sample}
    (hx : cellSamples count payload = some xs) : SamplesGood (cellSource xs) := by
  unfold cellSamples at hx
  split at hx
  · cases hx
    refine ⟨fun c x hc => ?_, by simp [cellSource], by simp [cellSource]⟩
    simp only [cellSource, List.getElem?_map, Option.map_eq_some_iff] at hc
    obtain ⟨i, -, rfl⟩ := hc
    have := (wordAt payload (1 + 2 * i)).isLt
    dsimp only
    omega
  · cases hx

omit h in
theorem auxSource_good {count : Nat} {payload : List Byte} {d : List Sample × Int × Int}
    (hx : auxSamples count payload = some d) : SamplesGood (auxSource d) := by
  unfold auxSamples at hx
  split at hx
  · cases hx
    refine ⟨by simp [auxSource], fun x hb => ?_, fun x hd => ?_⟩
    · cases hb
      have := (wordAt payload (2 + 2 * count)).isLt
      dsimp only
      refine ⟨?_, ?_, rfl⟩ <;> omega
    · cases hd
      rfl
  · cases hx

theorem cellsRead (t : Target) (m : Mod) (p : Pass) (x : Part) {xs : List Sample} (hx : SamplesGood (cellSource xs))
    {s : State} (hs : P s) : P (cellsRead t m p x xs s) := by
  have key : ∀ u : State, P u → P (if p.what = .both then Machine.offer (.passStep t .readAux) u
      else Machine.afterReads t m x.quiesced u) := by
    intro u hu
    split
    · exact h.offer _ hu
    · exact h.afterReads _ _ _ hu
  unfold Machine.cellsRead
  exact key _ (h.updatePassPart _ _ (by intro _; rfl) (h.renewGroup m .cells (renewalInfo p x) hx hs))

theorem auxRead (t : Target) (m : Mod) (p : Pass) (x : Part) {d : List Sample × Int × Int}
    (hx : SamplesGood (auxSource d)) {s : State} (hs : P s) : P (auxRead t m p x d s) := by
  have key : ∀ (u : State) (n : BitVec 32), P u → P (if p.what = .both ∧ x.cellRenewal ≠ 0 ∧ !x.sawOpen then
      { u with limits := { u.limits with work := u.limits.work ++ [.sumCheck m x.cellRenewal n] } } else u) := by
    intro u n hu
    split
    · exact h.limits _ _ hu
    · exact hu
  unfold Machine.auxRead
  exact h.afterReads _ _ _ (key _ _ (h.updatePassPart _ _ (by intro _; rfl)
    (h.setAuxCount m 0 (h.renewGroup m .aux (renewalInfo p x) hx hs))))

theorem rereadLater (t : Target) (m : Mod) (c : Bool) {s : State} (hs : P s) : P (rereadLater t m c s) :=
  h.startWait _ _ (h.updatePassPart _ _ (fun _ => by split <;> rfl) hs)

theorem passOutcome (first : TakenFirst) (t : Target) (m : Mod) (x : TxnSlot) (o : LinkOutcome) {s : State}
    (hs : P s) : P (passOutcome first t m x o s) := by
  have abort : ∀ q s, P s → P (Machine.takeFailure first m o (Machine.abortPart t m q) s) :=
    fun q s hs => h.takeFailure _ _ _ (fun _ hs => h.abortPart _ _ _ hs) hs
  unfold Machine.passOutcome
  dsimp only
  repeat' split
  all_goals first
    | with_reducible exact hs
    | with_reducible exact abort _ _ hs
    | with_reducible exact h.startSettle _ (h.setCommanded _ _ hs)
    | with_reducible exact abort _ _ (h.setCommanded _ _ hs)
    | with_reducible exact h.startWait _ _ hs
    | with_reducible exact h.cellsRead _ _ _ _ (cellSource_good (by assumption)) hs
    | with_reducible exact h.auxRead _ _ _ _ (auxSource_good (by assumption)) hs
    | with_reducible exact h.rereadLater _ _ _ hs
    | with_reducible exact h.partDone _ _ _ (h.setCommanded _ _ hs)
    | with_reducible exact h.partDone _ _ _ hs
    | exact h.takeFailure _ _ _ (fun _ hs =>
        h.partDone _ _ _ (h.updatePassPart _ _ (by intro _; rfl) hs)) (h.setCommanded _ _ hs)

theorem maskOutcome (m : Mod) (x : TxnSlot) (o : LinkOutcome) {s : State} (hs : P s) : P (maskOutcome m x o s) := by
  unfold Machine.maskOutcome
  split <;> exact h.setCommanded _ _ hs

theorem updateOutcome (m : Mod) (x : TxnSlot) (o : LinkOutcome) {s : State} (hs : P s) :
    P (updateOutcome m x o s) := by
  unfold Machine.updateOutcome
  repeat' split
  all_goals first
    | with_reducible exact h.maskOutcome _ _ _ hs
    | with_reducible exact h.failureNotice _ (h.maskOutcome _ _ _ hs)

theorem pingOutcome (m : Mod) (o : LinkOutcome) {s : State} (hs : P s) : P (pingOutcome m o s) := by
  have key : ∀ u : State, P u → P (if u.sweep.state = .running ∧ u.sweep.mode = .rolling then
      if u.sweep.visit = .pinging ∧ u.sweep.pointer = modNumber m then Machine.endVisit u else u
      else endAlignedIfDone (u.setSweep { u.sweep with pings := u.sweep.pings.filter fun k => k != m })) := by
    intro u hu
    split
    · split
      · next hv => exact h.endVisit _ (by simp [hv.1]) hu
      · exact hu
    · exact h.endAligned _ (h.sweep _ _ rfl rfl rfl (.inl rfl) hu)
  unfold Machine.pingOutcome
  refine key _ ?_
  split
  · exact hs
  · exact hs
  · exact h.failureNotice _ hs

theorem orphanOutcome (m : Mod) (x : TxnSlot) (o : LinkOutcome) {s : State} (hs : P s) : P (orphanOutcome m x o s) := by
  unfold Machine.orphanOutcome
  split
  all_goals first
    | with_reducible exact h.maskOutcome _ _ _ hs
    | with_reducible exact hs

theorem originatorOutcome (first : TakenFirst) (x : TxnSlot) (o : LinkOutcome) {s : State} (hs : P s) :
    P (originatorOutcome first x o s) := by
  unfold Machine.originatorOutcome
  split
  · exact h.enumerationOutcome _ _ hs
  · exact h.passOutcome _ _ _ _ _ hs
  · exact h.updateOutcome _ _ _ hs
  · exact h.pingOutcome _ _ hs
  · exact h.orphanOutcome _ _ _ hs
  · exact hs

theorem releaseSlot (first : TakenFirst) (i : Fin 4) (x : TxnSlot) (o : LinkOutcome) {s : State}
    (hx : s.slot i = some x) (hs : P s) : P (releaseSlot first i x o s) := by
  unfold Machine.releaseSlot
  split
  · exact h.mapNotice _ _ (h.originatorOutcome _ _ _ (h.freeSlot _ _ hs))
  · have := h.originatorOutcome .originatorAndGrant x o (h.freeSlot s i hs)
    exact h.mapNotice _ _ (iteInduction (fun _ => h.grantNow this) fun _ => this)
  · dsimp only
    have := h.mapNotice x o (h.untag _ _ _ hx hs)
    split
    · exact h.originatorOutcome _ _ _ (h.freeSlot _ _ this)
    · exact this

/-! ## Settings and token -/

theorem restartLease {s : State} (hs : P s) : P (restartLease s) := by
  unfold Machine.restartLease
  split
  · exact hs
  · exact h.token _ _ hs

theorem tokenSessionReset (p : Port) {s : State} (hs : P s) : P (tokenSessionReset p s) := by
  unfold Machine.tokenSessionReset
  split
  · exact h.token _ _ hs
  · exact hs

theorem lapseToken {s : State} (hs : P s) : P (lapseToken s) := by
  unfold Machine.lapseToken
  split
  · exact hs
  · exact h.raiseTo _ _ (h.token _ _ hs)

theorem startDownRetry {s : State} (hs : P s) : P (startDownRetry s) :=
  h.mapClock _ _ s.map.pauseEnd s.map.nextNumber hs

theorem settingEffect (m : Mod) (k : SettingId) (old : Settings) {s : State} (hs : P s) :
    P (settingEffect m k old s) := by
  unfold Machine.settingEffect
  dsimp only
  repeat' split
  all_goals first
    | with_reducible exact hs
    | with_reducible exact h.imageWindowWrite _ hs
    | with_reducible exact h.dropUnpopulated _ (h.imageMaskWrite _ _ hs)
    | with_reducible exact h.startDownRetry hs
    | with_reducible exact h.autoRestart hs
    | with_reducible exact h.mapClock _ none s.map.pauseEnd s.map.nextNumber hs
    | with_reducible exact h.decideAll hs

theorem acceptShared (m : Mod) (k : SettingId) (v : Int) {s : State} (hk : perPort k = false)
    (hv : settingInRange k v = true) (hs : P s) : P (acceptShared m k v s) :=
  h.settingEffect _ _ _ (h.restartLease (h.settings _ _ _ _ hk hv hs))

/-! ## Frames -/

theorem answerNow (p : Port) (a : Answer) {s : State} (hs : P s) : P (answerNow p a s) :=
  h.portSlot s p (s.port p).frame (.ready a) hs

theorem answerLater (p : Port) (a : Answer) {s : State} (hs : P s) : P (answerLater p a s) :=
  h.portSlot s p (s.port p).frame (.preparing a.echo a) hs

theorem endFrame (p : Port) {s : State} (hs : P s) : P (endFrame p s) :=
  h.portSlot s p .idle (s.port p).slot hs

theorem takeFrame (p : Port) (code : Byte) (rest : List Byte) {act : List Byte → State → State}
    (ha : ∀ a s, s.inReset = false → P s → P (act a s)) {s : State} (hs : P s) : P (takeFrame p code rest act s) := by
  unfold Machine.takeFrame
  split
  · next ht =>
    have hr : s.inReset = false := by
      simp only [State.frameTaken, Bool.and_eq_true, Bool.not_eq_true'] at ht
      exact ht.1.1
    split
    · exact ha _ _ hr (h.endFrame _ hs)
    · exact h.answerNow _ _ (h.endFrame _ hs)
  · exact h.endFrame _ hs

omit h in
theorem awake {act : State → State} {s : State} (ha : s.inReset = false → P s → P (act s)) (hs : P s) :
    P (awake act s) := by
  unfold Machine.awake
  split
  · exact hs
  · next hr => exact ha (by simpa using hr) hs

theorem resetSession (p : Port) {s : State} (hr : s.inReset = false) (hs : P s) : P (resetSession p s) :=
  h.refreshItems (h.tokenSessionReset _ (h.balanceSessionReset _ (h.ticketsSessionReset _
    (h.queueReset _ _ hr (h.clearHold _ _ _ hs)))))

theorem takeLatch (p : Port) (first count : Nat) (o : Byte) {s : State} (hs : P s) : P (takeLatch p first count o s) := by
  unfold Machine.takeLatch
  split
  · next hg =>
    dsimp only
    split
    · exact h.answerLater _ _ hs
    · exact h.answerLater _ _ (h.latch _ _ _ _ _ _ hg hs)
  · exact h.answerLater _ _ hs

theorem takeDirect (p : Port) (n : Nat) (w : Option What) {s : State} (hs : P s) : P (takeDirect p n w s) := by
  unfold Machine.takeDirect
  split
  · exact h.answerLater _ _ hs
  · have hr := ‹directRefusal _ _ _ _ = none›
    refine h.answerLater _ _ (h.placeTicket _ _ _ ?_ hs)
    unfold directRefusal at hr
    repeat' split at hr
    all_goals first
      | contradiction
      | exact Nat.lt_of_not_le (by assumption)
  · exact h.answerLater _ _ hs

theorem takeCancel (p : Port) (id : BitVec 8) {s : State} (hs : P s) : P (takeCancel p id s) := by
  unfold Machine.takeCancel
  repeat' split
  all_goals first
    | with_reducible exact h.answerLater _ _ hs
    | with_reducible exact h.answerLater _ _ (h.removeTicket _ _ hs)
    | with_reducible exact h.answerLater _ _ (h.strike _ _ (h.removeTicket _ _ hs))

theorem takeBalance (p : Port) (n : Nat) (k : CellMask) (c : Nat) {s : State} (hs : P s) : P (takeBalance p n k c s) := by
  unfold Machine.takeBalance
  dsimp only
  repeat' split
  all_goals first
    | with_reducible exact h.answerLater _ _ hs
    | with_reducible exact h.answerLater _ _ (h.refreshItems (h.decided _ _ _ _ _ hs))

theorem takeUnbalance (p : Port) (n : Nat) (k : CellMask) {s : State} (hs : P s) : P (takeUnbalance p n k s) := by
  unfold Machine.takeUnbalance
  dsimp only
  repeat' split
  all_goals first
    | with_reducible exact h.answerLater _ _ hs
    | with_reducible exact h.answerLater _ _ (h.refreshItems (h.decided _ _ _ _ _ hs))

omit h in
theorem setInhibit_same (p : Port) (on : Bool) (k : CellMask) (b : BalanceModule) :
    SameDecision b (onCells k (setInhibit p on) b) := by
  refine ⟨rfl, rfl, fun i => ?_, fun i => ?_⟩ <;> simp only [onCells, tget_tmap] <;> split <;> rfl

theorem takeInhibit (p : Port) (code : Byte) (on : Bool) (n : Nat) (k : CellMask) {s : State} (hs : P s) :
    P (takeInhibit p code on n k s) := by
  unfold Machine.takeInhibit
  dsimp only
  repeat' split
  all_goals first
    | with_reducible exact h.answerLater _ _ hs
    | with_reducible exact h.answerLater _ _ (h.refreshItems (h.decided _ _ _ _ _ hs))
    | with_reducible exact h.answerLater _ _ (h.balance _ _ _ (setInhibit_same _ _ _ _) hs)

omit h in
theorem clearOnTimes_same (b : BalanceModule) : SameDecision b (clearOnTimes b) := by
  refine ⟨rfl, rfl, fun i => ?_, fun i => ?_⟩ <;> simp only [clearOnTimes, tget_tmap]

omit h in
theorem countOnTime_same (b : BalanceModule) : SameDecision b (countOnTime b) := by
  unfold countOnTime
  split
  · refine ⟨rfl, rfl, fun i => ?_, fun i => ?_⟩ <;> simp only [onCells, tget_tmap] <;> split <;> rfl
  · exact ⟨rfl, rfl, fun _ => rfl, fun _ => rfl⟩

theorem takeClearTime (p : Port) (n : Nat) {s : State} (hs : P s) : P (takeClearTime p n s) := by
  unfold Machine.takeClearTime
  repeat' split
  · exact h.answerLater _ _ hs
  · exact h.answerLater _ _ hs
  · refine h.answerLater _ _ (h.balanceAll _ _ (fun m b => ?_) (h.restartLease hs))
    split
    · exact clearOnTimes_same b
    · exact ⟨rfl, rfl, fun _ => rfl, fun _ => rfl⟩

theorem takePop (p : Port) (n : Nat) {s : State} (hr : s.inReset = false) (hs : P s) : P (takePop p n s) := by
  unfold Machine.takePop
  split
  · exact h.answerNow _ _ hs
  · exact h.answerNow _ _ (h.pop _ _ _ hr hs)

theorem grantToken (p : Port) (n : Nat) {s : State} (hs : P s) : P (grantToken p n s) :=
  h.answerLater _ _ (h.token _ _ hs)

theorem takeTakeToken (p : Port) (n : Nat) {s : State} (hs : P s) : P (takeTakeToken p n s) := by
  unfold Machine.takeTakeToken
  repeat' split
  all_goals first
    | with_reducible exact h.answerLater _ _ hs
    | with_reducible exact h.grantToken _ _ hs

theorem takeDropToken (p : Port) {s : State} (hs : P s) : P (takeDropToken p s) := by
  unfold Machine.takeDropToken
  split
  · exact h.answerLater _ _ (h.token _ _ hs)
  · exact h.answerLater _ _ hs

theorem takeSet (p : Port) (code index : Byte) (v : Int) {s : State} (hr : s.inReset = false) (hs : P s) :
    P (takeSet p code index v s) := by
  unfold Machine.takeSet
  dsimp only
  split
  · exact h.answerLater _ _ hs
  · next k hk =>
    split
    · exact h.answerLater _ _ hs
    · next hg =>
      have hv : settingInRange k v = true := by simp_all
      split
      · next hp => exact h.answerLater _ _ (h.portSetting _ _ _ _ hr hp hv hs)
      · next hp =>
        split
        · exact h.answerLater _ _ hs
        · exact h.answerLater _ _ (h.refreshItems (h.acceptShared _ _ _ (by simpa using hp) hv hs))

theorem takeChainRestart (p : Port) {s : State} (hs : P s) : P (takeChainRestart p s) := by
  unfold Machine.takeChainRestart
  split
  · exact h.answerLater _ _ (h.refreshItems (h.beginRestart (h.restartLease hs)))
  · exact h.answerLater _ _ hs

/-! ## Link events -/

theorem endTransmission (f : Sending) (noise : List (List Byte)) {s : State} (hs : P s) :
    P (endTransmission f noise s) := by
  unfold Machine.endTransmission
  dsimp only
  refine h.chain _ _ _ ?_
  have key : ∀ i g, P { s with link := { s.link with
      sending := none, idleUntil := some (s.linkTime + Config.laneIdle), gapUntil := g, slots := match i with
        | some i => tput s.link.slots i ((tget s.link.slots i).map (startWindow s.linkTime))
        | none => s.link.slots } } := by
    intro i g
    cases i with
    | none => exact h.lane s none (some (s.linkTime + Config.laneIdle)) g hs
    | some i => exact h.lane _ none (some (s.linkTime + Config.laneIdle)) g (h.window _ i s.linkTime hs)
  split
  · exact h.mapClock _ s.map.retryDue _ s.map.nextNumber (key f.slot _)
  · exact key f.slot _

theorem takeResponse (first : TakenFirst) (f : ResponseFrame) {s : State} (hs : P s) : P (takeResponse first f s) := by
  unfold Machine.takeResponse
  split
  · next i hi =>
    split
    · next x hx =>
      unfold completeSlot
      split
      · split
        · next ha => exact h.badCheck _ _ _ _ hi hx ha hs
        · exact h.releaseSlot _ _ _ _ hx hs
      · exact h.releaseSlot _ _ _ _ hx hs
    · exact hs
  · exact h.statistics s s.link.badCrc _ s.link.overruns hs

theorem countBad {s : State} (hs : P s) : P (countBad s) := h.statistics s _ s.link.late s.link.overruns hs

theorem takeTimeout (first : TakenFirst) (i : Fin 4) (x : TxnSlot) {s : State} (hx : s.timeoutDue i = some x)
    (hs : P s) : P (takeTimeout first i x s) := by
  have ht := h.timeout _ _ _ hx hs
  unfold Machine.takeTimeout
  dsimp only
  split
  · exact ht
  · next ha =>
    refine h.releaseSlot _ _ _ _ ?_ ht
    unfold timeoutSlot
    dsimp only
    rw [if_neg ha]
    simp [State.slot, State.setSlot]

theorem takeResend {s : State} (hs : P s) : P (takeResend s) := by
  unfold Machine.takeResend
  split
  · next hr =>
    dsimp only
    split
    · exact h.convertSent _ (h.resend _ _ _ _ _ hr hs)
    · exact h.resend _ _ _ _ _ hr hs
  · exact hs

/-! ## Sweep events -/

theorem decideVisit (m : Mod) {s : State} (hm : s.visitDue = some m) (hs : P s) : P (decideVisit m s) := by
  have hd : s.sweep.state = .running ∧ s.sweep.visit = .deciding ∧ s.moduleFree m = true := by
    unfold State.visitDue at hm
    split at hm
    · next hv =>
      simp only [Option.filter_eq_some_iff] at hm
      exact ⟨hv.1, hv.2, hm.2⟩
    · cases hm
  have h0 := h.setAuxCount m (cadenceUp (s.auxCount m)) hs
  unfold Machine.decideVisit
  dsimp only
  split
  · exact h.offer _ (h.sweep _ _ rfl rfl rfl (.inr ⟨hd.2.1, hd.1⟩) h0)
  · split
    · exact h.endVisit _ (by simp [State.setAuxCount, State.setSweep, hd.2.1]) h0
    · exact h.createPass _ _ ⟨hd.2.2, rfl⟩ (h.sweep _ _ rfl rfl rfl (.inr ⟨hd.2.1, hd.1⟩) h0)

omit h in
theorem participants_ascend (s : State) : s.participants.Pairwise (· < ·) := by
  apply List.Pairwise.filter
  decide

omit h in
theorem newPass_modules (st : Settings) (w : What) (o : Source) (r : Option TicketRef) (ms : List Mod) :
    (newPass st w o r ms).parts.map (·.module) = ms := by
  simp [newPass, newPart, Function.comp_def]

theorem createAligned {s : State} (ha : s.anyPass = false) (hs : P s) : P (createAligned s) := by
  unfold Machine.createAligned
  dsimp only
  split
  · exact h.endAligned _ (h.sweep _ _ rfl rfl rfl (.inl rfl) (h.reserved _ _ hs))
  · next he =>
    refine h.createPass _ _ ⟨ha, ?_, ?_⟩ (h.reserved _ _ hs)
    · simpa [newPass] using he
    · rw [newPass_modules]
      exact participants_ascend s

theorem takeBoundary (b : Tick) {s : State} (hs : P s) : P (takeBoundary b s) := by
  have h0 : P (s.setSweep { s.sweep with nextBoundary := some (b + ticksOf (s.settings.sweepPeriod * 10)) }) :=
    h.sweep _ _ rfl rfl rfl (.inl rfl) hs
  unfold Machine.takeBoundary
  dsimp only
  split
  · next hw => exact h.startSweep _ hw h0
  · exact h.statistics _ _ _ _ (h.sweep _ { s.sweep with pendingStart := true, nextBoundary := _ }
      rfl rfl rfl (.inl rfl) h0)
  · exact h0

theorem clearTimer (t : Target) {s : State} (hs : P s) : P (clearTimer t s) := h.updatePass t (by intro _; rfl) hs

theorem offerReread (t : Target) {s : State} (hs : P s) : P (offerReread t s) := by
  unfold Machine.offerReread
  repeat' split
  · exact h.offer _ (h.clearTimer _ hs)
  · exact hs
  · exact hs

/-! ## The commands -/

/-- What every update keeps, every command keeps. -/
theorem exec {i : Instr} {s t : State} (hs : P s) (ht : exec i s = .next t) : P t := by
  cases i <;> dsimp only [Machine.exec] at ht
  case deviceReset => exact h.deviceReset _ _ ht hs
  case resetRelease => exact h.release _ _ ht hs
  case frameStart p =>
    unfold execFrameStart at ht
    split at ht <;> cases ht
    · exact h.portSlot s p (frameAtStart s p) (s.port p).slot hs
    · exact hs
  case frameEmpty p => cases ht; exact h.endFrame _ hs
  case frameDiscarded p =>
    unfold execFrameDiscarded at ht
    split at ht <;> cases ht
    · exact hs
    · exact h.endFrame _ hs
  case unknownRequest p c =>
    unfold execUnknownRequest at ht
    repeat' split at ht
    all_goals cases ht
    · exact hs
    · exact h.answerNow _ _ (h.endFrame _ hs)
    · exact h.endFrame _ hs
  case nop => cases ht; exact h.takeFrame _ _ _ (fun _ _ _ hs => hs) hs
  case ident => cases ht; exact h.takeFrame _ _ _ (fun _ _ _ hs => h.answerNow _ _ hs) hs
  case status => cases ht; exact h.takeFrame _ _ _ (fun _ _ _ hs => h.answerNow _ _ hs) hs
  case sessionReset => cases ht; exact h.takeFrame _ _ _ (fun _ _ hr hs => h.resetSession _ hr hs) hs
  case readEntry => cases ht; exact h.takeFrame _ _ _ (fun _ _ _ hs => h.answerLater _ _ hs) hs
  case latch => cases ht; exact h.takeFrame _ _ _ (fun _ _ _ hs => h.takeLatch _ _ _ _ hs) hs
  case readHold => cases ht; exact h.takeFrame _ _ _ (fun _ _ _ hs => h.answerNow _ _ hs) hs
  case direct => cases ht; exact h.takeFrame _ _ _ (fun _ _ _ hs => h.takeDirect _ _ _ hs) hs
  case cancel => cases ht; exact h.takeFrame _ _ _ (fun _ _ _ hs => h.takeCancel _ _ hs) hs
  case balance => cases ht; exact h.takeFrame _ _ _ (fun _ _ _ hs => h.takeBalance _ _ _ _ hs) hs
  case unbalance => cases ht; exact h.takeFrame _ _ _ (fun _ _ _ hs => h.takeUnbalance _ _ _ hs) hs
  case inhibit => cases ht; exact h.takeFrame _ _ _ (fun _ _ _ hs => h.takeInhibit _ _ _ _ _ hs) hs
  case uninhibit => cases ht; exact h.takeFrame _ _ _ (fun _ _ _ hs => h.takeInhibit _ _ _ _ _ hs) hs
  case readBalance => cases ht; exact h.takeFrame _ _ _ (fun _ _ _ hs => h.answerLater _ _ hs) hs
  case clearBalanceTime => cases ht; exact h.takeFrame _ _ _ (fun _ _ _ hs => h.takeClearTime _ _ hs) hs
  case popEvents => cases ht; exact h.takeFrame _ _ _ (fun _ _ hr hs => h.takePop _ _ hr hs) hs
  case eventCount => cases ht; exact h.takeFrame _ _ _ (fun _ _ _ hs => h.answerNow _ _ hs) hs
  case takeToken => cases ht; exact h.takeFrame _ _ _ (fun _ _ _ hs => h.takeTakeToken _ _ hs) hs
  case dropToken => cases ht; exact h.takeFrame _ _ _ (fun _ _ _ hs => h.takeDropToken _ hs) hs
  case set => cases ht; exact h.takeFrame _ _ _ (fun _ _ hr hs => h.takeSet _ _ _ _ hr hs) hs
  case get => cases ht; exact h.takeFrame _ _ _ (fun _ _ _ hs => h.answerLater _ _ hs) hs
  case chainRestart => cases ht; exact h.takeFrame _ _ _ (fun _ _ _ hs => h.takeChainRestart _ hs) hs
  case readMap => cases ht; exact h.takeFrame _ _ _ (fun _ _ _ hs => h.answerLater _ _ hs) hs
  case grant => cases ht; exact Closed.awake (fun _ hs => h.takeGrant hs) hs
  case frameTransmissionEnd n =>
    cases ht
    refine Closed.awake (fun _ hs => ?_) hs
    split
    · exact h.endTransmission _ _ hs
    · exact hs
  case linkIdleEnd =>
    cases ht
    refine Closed.awake (fun _ hs => ?_) hs
    split
    · exact h.lane s s.link.sending none s.link.gapUntil hs
    · exact hs
  case broadcastGapEnd =>
    cases ht
    refine Closed.awake (fun _ hs => ?_) hs
    split
    · exact h.lane s s.link.sending s.link.idleUntil none hs
    · exact hs
  case responseArrival b f =>
    cases ht
    have h0 : P (upLaneOver s) := h.chain s s.chain _ hs
    refine Closed.awake (fun _ hs => ?_) h0
    split
    · exact hs
    · exact h.countBad hs
    · exact h.refreshItems (h.takeResponse _ _ hs)
  case responseTimeout i f =>
    cases ht
    refine Closed.awake (fun _ hs => ?_) hs
    split
    · next x hx => exact h.refreshItems (h.takeTimeout _ _ _ hx hs)
    · exact hs
  case resend => cases ht; exact Closed.awake (fun _ hs => h.takeResend hs) hs
  case quarantineEnd t =>
    cases ht
    refine Closed.awake (fun _ hs => ?_) hs
    split
    · exact h.quarantine _ _ hs
    · exact hs
  case releasePauseExpiry =>
    cases ht
    refine Closed.awake (fun _ hs => ?_) hs
    split
    · exact h.refreshItems (h.offer _ (h.mapClock _ s.map.retryDue _ _ hs))
    · exact hs
  case downRetryExpiry =>
    cases ht
    refine Closed.awake (fun _ hs => ?_) hs
    split
    · exact h.refreshItems (h.beginRestart hs)
    · exact hs
  case deadlineExpiry m k =>
    cases ht
    refine Closed.awake (fun _ hs => ?_) hs
    split
    · exact h.expireDeadline _ _ hs
    · exact hs
  case visitDecision =>
    cases ht
    refine Closed.awake (fun _ hs => ?_) hs
    split
    · next m hm => exact h.refreshItems (h.decideVisit _ hm hs)
    · exact hs
  case directedPassCreate p => cases ht; exact Closed.awake (fun _ hs => h.refreshItems (h.createDirected _ hs)) hs
  case alignedPassCreate =>
    cases ht
    refine Closed.awake (fun _ hs => ?_) hs
    split
    · next ha =>
      simp only [State.alignedDue, Bool.and_eq_true, Bool.not_eq_true'] at ha
      exact h.refreshItems (h.createAligned ha.2 hs)
    · exact hs
  case settleExpiry t =>
    cases ht
    refine Closed.awake (fun _ hs => ?_) hs
    split
    · exact h.refreshItems (h.offer _ (h.clearTimer _ hs))
    · exact hs
  case conversionWaitExpiry m =>
    cases ht
    refine Closed.awake (fun _ hs => ?_) hs
    split
    · exact h.refreshItems (h.beginReading _ _ hs)
    · exact hs
  case rereadWaitExpiry t =>
    cases ht
    refine Closed.awake (fun _ hs => ?_) hs
    split
    · exact h.refreshItems (h.offerReread _ hs)
    · exact hs
  case alignedWaitExpiry =>
    cases ht
    refine Closed.awake (fun _ hs => ?_) hs
    split
    · exact h.refreshItems (h.serveNext (h.clearTimer _ hs))
    · exact hs
  case periodBoundary =>
    cases ht
    refine Closed.awake (fun _ hs => ?_) hs
    split
    · exact h.refreshItems (h.takeBoundary _ hs)
    · exact hs
  case receiptEvent =>
    cases ht
    refine Closed.awake (fun _ hs => ?_) hs
    split
    · exact h.takeReceipt _ _ (h.limits _ _ hs)
    · exact hs
  case sumCheckEvent =>
    cases ht
    refine Closed.awake (fun _ hs => ?_) hs
    split
    · exact h.takeSumCheck _ _ _ (h.limits _ _ hs)
    · exact hs
  case balanceDecision m =>
    cases ht
    exact Closed.awake (fun _ hs => h.refreshItems (h.takeDecision _
      (h.balanceClock s (s.balance.handoffs.erase m) s.balance.onTimer hs))) hs
  case requestExpiry m =>
    cases ht
    refine Closed.awake (fun _ hs => ?_) hs
    split
    · exact h.refreshItems (h.expireModuleRequests _ hs)
    · exact hs
  case onTimeTimerExpiry =>
    cases ht
    refine Closed.awake (fun _ hs => ?_) hs
    split
    · exact h.balanceClock _ _ _ (h.balanceAll s _ (fun _ b => countOnTime_same b) hs)
    · exact hs
  case eventStore p => cases ht; exact Closed.awake (fun hr hs => h.store _ _ hr hs) hs
  case leaseExpiry =>
    cases ht
    refine Closed.awake (fun _ hs => ?_) hs
    split
    · exact h.lapseToken hs
    · exact hs
  case portReceivesAnswer p =>
    cases ht
    refine Closed.awake (fun _ hs => ?_) hs
    unfold deliverAnswer
    split
    · exact h.portSlot s p (s.port p).frame _ hs
    · exact hs
  case upLaneFellIdle =>
    cases ht
    have h0 : P (upLaneOver s) := h.chain s s.chain _ hs
    exact Closed.awake (fun _ hs => h.countBad hs) h0

/-- What every update keeps, and the taking of a command and the passing of time keep, every step keeps. -/
theorem step (hq : ∀ s l, P s → P { s with pending := l }) (hl : ∀ s n, P s → P { s with linkTime := n })
    {s t : State} (hs : P s) (ht : step s = .next t) : P t := by
  unfold Machine.step at ht
  split at ht
  · exact h.exec (hq _ _ hs) ht
  · unfold idleStep at ht
    split at ht
    · exact h.exec hs ht
    · cases ht
      unfold advanceTime
      split
      · exact hs
      · exact hl _ _ hs

end Closed

end Sys2Proof.Machine
end

