-- ==== Sys2Proof/Laws/Outcomes.lean ====
section
/-! SUPPORT. Laws/Outcomes.lean: an answer at the block that made its transaction: a stand-alone update, a recovery PING, and
a transaction of a pass that is taken as failed (R39, R53, R54, R75, R145). -/

namespace Sys2Proof.Machine

/-! ## The slot of an answer -/

/-- With its slot freed, an answer that the Chain Map has taken first leaves what the notice wrote. -/
theorem setSlot_waiting (s : State) (i : Fin 4) (x : Option TxnSlot) (M : ChainMap) (b : Balance)
    (r : PerPort (List (List Event))) :
    State.setSlot i none { ({ slotFreed s i with link := { s.link with slots := tput s.link.slots i x } } : State) with
        map := M, balance := b, raised := r }
      = { slotFreed s i with map := M, balance := b, raised := r } := by
  simp only [State.setSlot, slotFreed, tput_tput_same]

/-- The same where the Chain Map takes no notice. -/
theorem setSlot_waiting_quiet (s : State) (i : Fin 4) (x : Option TxnSlot) :
    State.setSlot i none { slotFreed s i with link := { s.link with slots := tput s.link.slots i x } } = slotFreed s i :=
  setSlot_waiting s i x s.map s.balance s.raised

/-! ## Stand-alone updates (R145) -/

theorem originatorOutcome_updated (first : TakenFirst) (m : Mod) (k : CellMask) (pl : List Byte) (x : TxnSlot) (s : State)
    (hn : x.node = modNumber m) (ho : x.owner = .balance) (hp : x.payload = .mask k) :
    originatorOutcome first x (.answered 0 pl) s = setCommanded m (.mask k) s := by
  unfold originatorOutcome
  rw [ho, hn, modOfNumber_modNumber]
  dsimp only
  unfold updateOutcome maskOutcome
  rw [hp]
  rfl

theorem originatorOutcome_updateFailed (first : TakenFirst) (m : Mod) (st : Byte) (pl : List Byte) (x : TxnSlot) (s : State)
    (hn : x.node = modNumber m) (ho : x.owner = .balance) (h0 : st ≠ 0) :
    originatorOutcome first x (.answered st pl) s = failureNotice m (setCommanded m .unknown s) := by
  unfold originatorOutcome
  rw [ho, hn, modOfNumber_modNumber]
  dsimp only
  unfold updateOutcome maskOutcome
  split
  · next h => cases h; exact absurd rfl h0
  · next h => cases h
  · split
    · next h _ => cases h; exact absurd rfl h0
    · rfl

/-! ## Recovery PINGs (R52 to R54) -/

/-- A recovery PING of the module is over: its visit ends, or it leaves the aligned sweep. -/
def endPing (m : Mod) (s : State) : State :=
  if s.sweep.state = .running ∧ s.sweep.mode = .rolling then
    if s.sweep.visit = .pinging ∧ s.sweep.pointer = modNumber m then endVisit s else s
  else endAlignedIfDone (s.setSweep { s.sweep with pings := s.sweep.pings.filter fun k => k != m })

theorem originatorOutcome_pingOk (first : TakenFirst) (m : Mod) (pl : List Byte) (x : TxnSlot) (s : State)
    (hn : x.node = modNumber m) (ho : x.owner = .sweep) :
    originatorOutcome first x (.answered 0 pl) s = endPing m s := by
  unfold originatorOutcome
  rw [ho, hn, modOfNumber_modNumber]
  rfl

theorem originatorOutcome_pingFailed (first : TakenFirst) (m : Mod) (st : Byte) (pl : List Byte) (x : TxnSlot) (s : State)
    (h0 : st ≠ 0) (hn : x.node = modNumber m) (ho : x.owner = .sweep) :
    originatorOutcome first x (.answered st pl) s = endPing m (failureNotice m s) := by
  have notice : (match (LinkOutcome.answered st pl) with
    | .answered 0 _ => s
    | .failed => s
    | .answered _ _ => failureNotice m s) = failureNotice m s := by
    split
    · next h => cases h; exact absurd rfl h0
    · next h => cases h
    · rfl
  have key (B : State) (hB : B = failureNotice m s) : (let s := B; if s.sweep.state = .running ∧ s.sweep.mode = .rolling then
      if s.sweep.visit = .pinging ∧ s.sweep.pointer = modNumber m then endVisit s else s
    else endAlignedIfDone (s.setSweep { s.sweep with pings := s.sweep.pings.filter fun k => k != m }))
      = endPing m (failureNotice m s) := by
    subst hB; rfl
  unfold originatorOutcome
  rw [ho, hn, modOfNumber_modNumber]
  dsimp only
  unfold pingOutcome
  exact key _ notice

/-- What the end of a recovery PING leaves of the sweep. -/
structure PingEnded (m : Mod) (s : State) (w : Sweep) : Prop where
  nextVisit : s.sweep.state = .running → s.sweep.mode = .rolling → s.sweep.visit = .pinging →
    s.sweep.pointer = modNumber m → s.sweep.pointer < s.map.n →
    w = { s.sweep with pointer := s.sweep.pointer + 1, visit := .deciding }
  lastVisit : s.sweep.state = .running → s.sweep.mode = .rolling → s.sweep.visit = .pinging →
    s.sweep.pointer = modNumber m → s.map.n ≤ s.sweep.pointer → s.sweep.pendingStart = false →
    w = { s.sweep with state := .waiting, pointer := 1, visit := .idle }
  open_ : s.sweep.state = .running → s.sweep.mode = .aligned →
    s.sweep.alignedOpen = true ∨ (s.sweep.pings.filter fun k => k ≠ m) ≠ [] →
    w = { s.sweep with pings := s.sweep.pings.filter fun k => k ≠ m }
  done : s.sweep.state = .running → s.sweep.mode = .aligned → s.sweep.alignedOpen = false →
    (s.sweep.pings.filter fun k => k ≠ m) = [] → s.sweep.pendingStart = false →
    w = { s.sweep with pings := [], state := .waiting, pointer := 1, visit := .idle }

theorem endPing_eq (m : Mod) (s : State) : ∃ w r x,
    endPing m s = { s with sweep := w, reserved := r, sched := x } ∧ PingEnded m s w := by
  have hl : (s.sweep.pings.filter fun k => k != m) = s.sweep.pings.filter fun k => k ≠ m := by
    apply List.filter_congr
    intro k _
    simp [bne, beq_eq_decide]
  unfold endPing
  rw [hl]
  by_cases ha : s.sweep.state = .running ∧ s.sweep.mode = .rolling
  · have na (P : Prop) (h : s.sweep.mode = .aligned) : P := by rw [ha.2] at h; cases h
    rw [if_pos ha]
    by_cases hb : s.sweep.visit = .pinging ∧ s.sweep.pointer = modNumber m
    · rw [if_pos hb]
      unfold endVisit
      by_cases hc : s.sweep.pointer < s.map.n
      · rw [if_pos hc]
        exact ⟨_, _, _, rfl, fun _ _ _ _ _ => rfl, fun _ _ _ _ h => absurd hc (by omega), fun _ h => na _ h,
          fun _ h => na _ h⟩
      · rw [if_neg hc]
        by_cases hd : s.sweep.pendingStart = false
        · unfold endSweep
          rw [if_neg (by rw [hd]; decide)]
          exact ⟨_, _, _, rfl, fun _ _ _ _ h => absurd h hc, fun _ _ _ _ _ _ => rfl, fun _ h => na _ h, fun _ h => na _ h⟩
        · obtain ⟨w, r, x, h, -⟩ := endSweep_eq s
          exact ⟨w, r, x, h, fun _ _ _ _ h => absurd h hc, fun _ _ _ _ _ h => absurd h hd, fun _ h => na _ h,
            fun _ h => na _ h⟩
    · rw [if_neg hb]
      exact ⟨_, _, _, rfl, fun _ _ h h' => absurd ⟨h, h'⟩ hb, fun _ _ h h' => absurd ⟨h, h'⟩ hb, fun _ h => na _ h,
        fun _ h => na _ h⟩
  · rw [if_neg ha]
    unfold endAlignedIfDone
    split
    · next hc =>
      obtain ⟨-, -, c3, c4⟩ := hc
      have hle : (s.sweep.pings.filter fun k => k ≠ m) = [] := List.isEmpty_iff.1 c4
      have hop : s.sweep.alignedOpen = false := by simpa using c3
      have no : ¬(s.sweep.alignedOpen = true ∨ (s.sweep.pings.filter fun k => k ≠ m) ≠ []) := by
        rintro (h | h)
        · rw [hop] at h; cases h
        · exact h hle
      by_cases hd : s.sweep.pendingStart = false
      · unfold endSweep
        rw [if_neg (by show ¬ s.sweep.pendingStart = true; rw [hd]; decide)]
        refine ⟨_, _, _, rfl, fun a b => absurd ⟨a, b⟩ ha, fun a b => absurd ⟨a, b⟩ ha, fun _ _ h => absurd h no,
          fun _ _ _ h _ => ?_⟩
        show ({ s.sweep with
          pings := s.sweep.pings.filter fun k => k ≠ m, state := .waiting, pointer := 1, visit := .idle } : Sweep) = _
        rw [h]
      · obtain ⟨w, r, x, h, -⟩ := endSweep_eq (s.setSweep { s.sweep with pings := s.sweep.pings.filter fun k => k ≠ m })
        exact ⟨w, r, x, h, fun a b => absurd ⟨a, b⟩ ha, fun a b => absurd ⟨a, b⟩ ha, fun _ _ h => absurd h no,
          fun _ _ _ _ h => absurd h hd⟩
    · next hc =>
      refine ⟨_, _, _, rfl, fun a b => absurd ⟨a, b⟩ ha, fun a b => absurd ⟨a, b⟩ ha, fun _ _ _ => rfl,
        fun a b c d _ => ?_⟩
      exfalso
      apply hc
      refine ⟨a, b, ?_, List.isEmpty_iff.2 d⟩
      show (!s.sweep.alignedOpen) = true
      rw [c]; rfl

/-! ## Failed transactions of a pass (R30, R39) -/

/-- The answer to a transaction of a pass is taken as failed: a status that is not OK to a quiesce, CONVERT or restore, a
NOT_CONVERTED or BAD_VERB to a read, a NOT_READY to one read again, or an OK without a sample for each channel. -/
def FailedAnswer (f : ResponseFrame) (x : TxnSlot) (y : Part) (r : ModuleRecord) : Prop :=
  let again (done : Bool) : Prop := f.status = 2 ∨ f.status = 3 ∨ f.status = 1 ∧ done = true
  let short (length count : Nat) : Prop :=
    f.status = 0 ∧ (f.payload.length ≠ length ∨ (f.payload.getD 0 0).toNat ≠ count)
  (x.role = .quiesce ∨ x.role = .convert ∨ x.role = .restore) ∧ f.status ≠ 0
    ∨ x.role = .readCells ∧ (again y.rereadCells ∨ short (3 + 2 * r.cellCount) r.cellCount)
    ∨ x.role = .readAux ∧ (again y.rereadAux ∨ short (6 + 2 * r.tempCount) r.tempCount)

theorem cellSamples_none {n : Nat} {pl : List Byte} (h : pl.length ≠ 3 + 2 * n ∨ (pl.getD 0 0).toNat ≠ n) :
    cellSamples n pl = none := by
  unfold cellSamples
  rw [if_neg]
  rintro ⟨h1, h2⟩
  rcases h with h | h
  · exact h h2
  · cases pl with
    | nil => simp at h1
    | cons a l => simp at h1 h; exact h h1

theorem auxSamples_none {n : Nat} {pl : List Byte} (h : pl.length ≠ 6 + 2 * n ∨ (pl.getD 0 0).toNat ≠ n) :
    auxSamples n pl = none := by
  unfold auxSamples
  rw [if_neg]
  rintro ⟨h1, h2⟩
  rcases h with h | h
  · exact h h2
  · cases pl with
    | nil => simp at h1
    | cons a l => simp at h1 h; exact h h1

/-- The Chain Map takes no notice of such an answer itself (log entry 22). -/
theorem mapNotice_failedAnswer {f : ResponseFrame} {x : TxnSlot} {u : Target} {y : Part} {r : ModuleRecord} {m : Mod}
    (hm : x.node = modNumber m) (ho : x.owner = .pass u) (h : FailedAnswer f x y r) {s : State}
    (hr : (s.record m).cellCount = r.cellCount ∧ (s.record m).tempCount = r.tempCount) :
    mapNotice x (.answered f.status f.payload) s = s := by
  by_cases h0 : f.status = 0
  · have hw : x.role ≠ .ping ∧ wrongSamples x (s.record m) f.payload = true := by
      rcases h with ⟨-, h⟩ | ⟨hx, h⟩ | ⟨hx, h⟩
      · exact absurd h0 h
      · refine ⟨by rw [hx]; decide, ?_⟩
        rcases h with h | ⟨-, h⟩
        · rw [h0] at h; revert h; simp
        · unfold wrongSamples; rw [ho, hx]; show (cellSamples _ _).isNone = true; rw [hr.1, cellSamples_none h]; rfl
      · refine ⟨by rw [hx]; decide, ?_⟩
        rcases h with h | ⟨-, h⟩
        · rw [h0] at h; revert h; simp
        · unfold wrongSamples; rw [ho, hx]; show (auxSamples _ _).isNone = true; rw [hr.2, auxSamples_none h]; rfl
    unfold mapNotice
    rw [hm, modOfNumber_modNumber, h0]
    show (if x.role = .ping then _ else if wrongSamples x (s.record m) _ then _ else _) = _
    rw [if_neg hw.1, if_pos hw.2]
  · exact mapNotice_failing _ _ _ _ h0

/-- What a pass does about a failed transaction of a part, once the failure is noticed: a restore ends the part ABORTED, and
after any other the part restores what it quiesced or ends. -/
def afterFailure (u : Target) (m : Mod) (x : TxnSlot) (quiesced : Bool) : State → State :=
  if x.role = .restore then
    fun s => partDone u m .aborted (updatePass u (updatePart m fun y => { y with outcome := some .aborted }) s)
  else abortPart u m quiesced

theorem PassesOnly.afterFailure (u : Target) (m : Mod) (x : TxnSlot) (q : Bool) (s : State) :
    PassesOnly s (afterFailure u m x q s) := by
  unfold Machine.afterFailure
  split
  · exact (PassesOnly.updatePass _ _ _).trans (PassesOnly.partDone _ _ _ _)
  · exact PassesOnly.abortPart _ _ _ _

theorem LossKeeps.afterFailure (u : Target) (m : Mod) (x : TxnSlot) (q : Bool) (s : State) :
    LossKeeps s (afterFailure u m x q s) := by
  unfold Machine.afterFailure
  split
  · exact (LossKeeps.upd _ _ _).trans (LossKeeps.partDone _ _ _ _)
  · exact LossKeeps.abort _ _ _ _

/-- A failed transaction that sets a mask leaves the commanded mask UNKNOWN. -/
def unknownMask (m : Mod) (x : TxnSlot) (s : State) : State :=
  if x.role = .quiesce ∨ x.role = .restore then setCommanded m .unknown s else s

section Failed

variable {first : TakenFirst} {u : Target} {m : Mod} {x : TxnSlot} {s : State} {p : Pass} {y : Part} {st : Byte}
  {pl : List Byte}

theorem passOutcome_quiesceFailed (h0 : st ≠ 0) (hp : s.passOf u = some p) (hy : partOf p m = some y)
    (hr : x.role = .quiesce) : passOutcome first u m x (.answered st pl) s
      = takeFailure first m (.answered st pl) (abortPart u m y.quiesced) (setCommanded m .unknown s) := by
  unfold passOutcome
  rw [hp]; dsimp only; rw [hy]; dsimp only; rw [hr]
  clear hp hy hr
  split
  · next h => cases h; exact absurd rfl h0
  · rfl
  all_goals first | (next h _ => exact absurd h (by decide)) | (next h => exact absurd h (by decide)) | skip
  all_goals (exfalso; simp at *)

theorem passOutcome_convertFailed (h0 : st ≠ 0) (hp : s.passOf u = some p) (hy : partOf p m = some y)
    (hr : x.role = .convert) : passOutcome first u m x (.answered st pl) s
      = takeFailure first m (.answered st pl) (abortPart u m y.quiesced) s := by
  unfold passOutcome
  rw [hp]; dsimp only; rw [hy]; dsimp only; rw [hr]
  clear hp hy hr
  split
  all_goals first
    | (next h _ => exact absurd h (by decide))
    | (next h => exact absurd h (by decide))
    | (next h => cases h; exact absurd rfl h0)
    | rfl

theorem passOutcome_restoreFailed (h0 : st ≠ 0) (hp : s.passOf u = some p) (hy : partOf p m = some y)
    (hr : x.role = .restore) : passOutcome first u m x (.answered st pl) s
      = takeFailure first m (.answered st pl)
          (fun s => partDone u m .aborted (updatePass u (updatePart m fun y => { y with outcome := some .aborted }) s))
          (setCommanded m .unknown s) := by
  unfold passOutcome
  rw [hp]; dsimp only; rw [hy]; dsimp only; rw [hr]
  clear hp hy hr
  split
  all_goals first
    | (next h _ => exact absurd h (by decide))
    | (next h => exact absurd h (by decide))
    | (next h => cases h; exact absurd rfl h0)
    | rfl
    | skip
  all_goals (exfalso; simp at *)

end Failed

/-- A failed answer at its pass, in whichever order it and the Chain Map take the failure. -/
theorem passOutcome_failedAnswer {first : TakenFirst} {u : Target} {m : Mod} {x : TxnSlot} {f : ResponseFrame} {s : State}
    {p : Pass} {y : Part} (hp : s.passOf u = some p) (hy : partOf p m = some y) (h : FailedAnswer f x y (s.record m)) :
    passOutcome first u m x (.answered f.status f.payload) s
      = takeFailure first m (.answered f.status f.payload) (afterFailure u m x y.quiesced) (unknownMask m x s) := by
  unfold afterFailure unknownMask
  rcases h with ⟨hr, h⟩ | ⟨hr, h⟩ | ⟨hr, h⟩
  · rcases hr with hr | hr | hr
    · rw [if_neg (by rw [hr]; decide), if_pos (.inl hr)]
      exact passOutcome_quiesceFailed h hp hy hr
    · rw [if_neg (by rw [hr]; decide), if_neg (by rw [hr]; decide)]
      exact passOutcome_convertFailed h hp hy hr
    · rw [if_pos hr, if_pos (.inr hr)]
      exact passOutcome_restoreFailed h hp hy hr
  · rw [if_neg (by rw [hr]; decide), if_neg (by rw [hr]; decide)]
    unfold passOutcome
    rw [hp]; dsimp only; rw [hy]; dsimp only; rw [hr]
    rcases h with (h | h | ⟨h, hd⟩) | ⟨h, hd⟩
    · rw [h]; rfl
    · rw [h]; rfl
    · rw [h]
      change (if y.rereadCells = true then takeFailure first m (.answered 1 f.payload) (abortPart u m y.quiesced) s
        else rereadLater u m true s) = _
      rw [if_pos hd]
    · rw [h]
      change (match cellSamples (s.record m).cellCount f.payload with
        | some xs => cellsRead u m p y xs s
        | none => takeFailure first m (.answered 0 f.payload) (abortPart u m y.quiesced) s) = _
      rw [cellSamples_none hd]
  · rw [if_neg (by rw [hr]; decide), if_neg (by rw [hr]; decide)]
    unfold passOutcome
    rw [hp]; dsimp only; rw [hy]; dsimp only; rw [hr]
    rcases h with (h | h | ⟨h, hd⟩) | ⟨h, hd⟩
    · rw [h]; rfl
    · rw [h]; rfl
    · rw [h]
      change (if y.rereadAux = true then takeFailure first m (.answered 1 f.payload) (abortPart u m y.quiesced) s
        else rereadLater u m false s) = _
      rw [if_pos hd]
    · rw [h]
      change (match auxSamples (s.record m).tempCount f.payload with
        | some xs => auxRead u m p y xs s
        | none => takeFailure first m (.answered 0 f.payload) (abortPart u m y.quiesced) s) = _
      rw [auxSamples_none hd]

/-- The release of the slot of a failed answer: the failure is noticed once, after or before the pass goes on; where the
Chain Map takes it first and the module becomes LOST, the loss has ended the pass (log entry 10). -/
theorem releaseSlot_failedAnswer (first : TakenFirst) (hfi : first ≠ .originatorAndGrant) (i : Fin 4) (u : Target) (m : Mod)
    (x : TxnSlot) (f : ResponseFrame) (s : State) (p : Pass) (y : Part) (hp : s.passOf u = some p)
    (hy : partOf p m = some y) (hm : x.node = modNumber m) (ho : x.owner = .pass u) (h : FailedAnswer f x y (s.record m))
    (hab : s.health m = .active ∨ s.health m = .suspect) (hl : ¬(NewlyLost s m ∧ LastModule s m)) :
    let a := unknownMask m x (slotFreed s i)
    let k := afterFailure u m x y.quiesced
    let t := releaseSlot first i x (.answered f.status f.payload) (upLaneOver s)
    (first = .originator → t = failureNotice m (k a))
    ∧ (first = .chainMap → ¬NewlyLost s m → t = k (failureNotice m a))
    ∧ (first = .chainMap → NewlyLost s m → t = failureNotice m a) := by
  intro a k t
  have hna : s.health m ≠ .absent := by rcases hab with h | h <;> rw [h] <;> decide
  have hnl : s.health m ≠ .lost := by rcases hab with h | h <;> rw [h] <;> decide
  have hpf : (slotFreed s i).passOf u = some p := by cases u <;> exact hp
  have smA : SameMap s a := SameMap.mono s (slotFreed s i) a ⟨rfl, rfl, rfl, rfl⟩ (by
    show PassesOnly _ (unknownMask _ _ _)
    unfold unknownMask
    split
    · exact ⟨rfl⟩
    · exact PassesOnly.refl _)
  have smK : SameMap s (k a) := SameMap.mono s a _ smA (PassesOnly.afterFailure u m x y.quiesced a)
  have hrec (b : State) (hb : b.map = failedMap s m) :
      (b.record m).cellCount = (s.record m).cellCount ∧ (b.record m).tempCount = (s.record m).tempCount := by
    unfold State.record
    rw [hb]
    simp [failedMap, failedRecord, State.record]
  have hh : (failureNotice m a).health m = (failedRecord s m).state := by
    rw [health_failedMap s _ m m (failureNotice_noted s a m smA hna hl).map, if_pos rfl]
  have cm (hf : first = .chainMap) : t = (let s' := failureNotice m a
      if a.health m ≠ .lost ∧ s'.health m ≠ a.health m ∧ s'.health m ≠ .suspect then s' else k s') := by
    subst hf
    have quiet (l : Link) : mapNotice x (.answered f.status f.payload) { slotFreed s i with link := l }
        = { slotFreed s i with link := l } := mapNotice_failedAnswer hm ho h ⟨rfl, rfl⟩
    show releaseSlot .chainMap i x (.answered f.status f.payload) (upLaneOver s) = _
    rw [releaseSlot_chainMap _ _ _ _ _ (fun l => ⟨_, _, _, quiet l⟩), quiet, setSlot_waiting_quiet,
      originatorOutcome_pass .chainMap u m _ (waitingSlot x) _ hm ho,
      passOutcome_failedAnswer (x := waitingSlot x) hpf hy h]
    rfl
  have ha : a.health m = s.health m := by
    show (tget a.map.records m).state = _
    rw [smA.map]; rfl
  refine ⟨fun hf => ?_, fun hf hn => ?_, fun hf hn => ?_⟩
  · subst hf
    show releaseSlot .originator i x (.answered f.status f.payload) (upLaneOver s) = _
    rw [releaseSlot_originator (by decide), originatorOutcome_pass .originator u m _ x _ hm ho,
      passOutcome_failedAnswer hpf hy h]
    change mapNotice x _ (failureNotice m (k a)) = _
    exact mapNotice_failedAnswer hm ho h (hrec _ (failureNotice_noted s (k a) m smK hna hl).map)
  · rw [cm hf]
    dsimp only
    rw [if_neg]
    rintro ⟨-, -, h3⟩
    apply h3
    rw [hh]
    unfold failedRecord
    show (if s.health m = .lost ∨ _ then _ else _) = _
    rw [if_neg]
    rintro (h | h)
    · exact hnl h
    · exact hn ⟨hnl, h⟩
  · rw [cm hf]
    dsimp only
    have e : (failureNotice m a).health m = .lost := by
      rw [hh]
      unfold failedRecord
      exact if_pos (.inr hn.2)
    rw [if_pos]
    rw [e, ha]
    exact ⟨hnl, fun h => hnl h.symm, by decide⟩

/-! ## The end of a part of an aligned pass -/

/-- It leaves every commanded mask. -/
theorem commanded_partDone_all {p : Pass} {s t : State} (m k : Mod) (o : PassOutcome) (h : AlignedKept p s t)
    (ht : TicketInv s) (hn : NoTicketWaits s) :
    ((partDone .all m o t).balanceOf k).commanded = (t.balanceOf k).commanded := by
  unfold partDone updatePass
  rw [show t.passOf .all = some p from h.pass]
  dsimp only
  generalize hC : State.setPass .all (some _) t = c
  have hb : (c.balanceOf k).commanded = (t.balanceOf k).commanded := by rw [← hC]; rfl
  have hq (q : Port) : c.ticketQueue q = s.ticketQueue q := by
    unfold State.ticketQueue
    rw [← hC, ← h.tickets]
    rfl
  obtain ⟨p', hp'⟩ : ∃ p', c.passOf .all = some p' := ⟨_, by rw [← hC]; rfl⟩
  rw [← hb]
  unfold serveNext
  rw [show c.aligned = some p' from hp']
  dsimp only
  split
  · unfold beginReading
    rw [hp']
    rfl
  · obtain ⟨tk, r, b, l, x, hE, -, -, -, -, hc⟩ := endPass_eq .all p' c hp' (fun q => by rw [hq]; exact ht q)
      (fun q => by rw [hq]; exact hn q)
    rw [hE]
    obtain ⟨w, rs, sx, hw⟩ := sweepPassEnd_eq p' _
    rw [hw]
    exact hc k

end Sys2Proof.Machine
end

