-- ==== Sys2Proof/Laws/PerInstr.lean ====
section
/-! SUPPORT. Laws/PerInstr.lean: what holds of each command as syntax: a request's code is one of R217's, and a request
can be sent whatever bytes follow its code (R160). -/

namespace Sys2Proof.Laws.Request

/-- A command that is a request names a code of R217 and is well-formed. -/
def Statement (i : Instr) : Prop :=
  ∀ p code rest, i.request = some (p, code, rest) → code ∈ requestCodes ∧ i.wellFormed = true

theorem of_not_request {i : Instr} (h : i.request = none) : Statement i := by
  intro p code rest hr
  rw [h] at hr
  cases hr

theorem deviceReset : Statement .deviceReset := of_not_request rfl

theorem resetRelease : Statement .resetRelease := of_not_request rfl

theorem frameStart (p : Port) : Statement (.frameStart p) := of_not_request rfl

theorem frameEmpty (p : Port) : Statement (.frameEmpty p) := of_not_request rfl

theorem frameDiscarded (p : Port) : Statement (.frameDiscarded p) := of_not_request rfl

theorem unknownRequest (p : Port) (code : Byte) : Statement (.unknownRequest p code) := of_not_request rfl

theorem nop (p : Port) (rest : List Byte) : Statement (.nop p rest) := by
  intro q code r hr
  cases hr
  exact ⟨by decide, rfl⟩

theorem ident (p : Port) (rest : List Byte) : Statement (.ident p rest) := by
  intro q code r hr
  cases hr
  exact ⟨by decide, rfl⟩

theorem status (p : Port) (rest : List Byte) : Statement (.status p rest) := by
  intro q code r hr
  cases hr
  exact ⟨by decide, rfl⟩

theorem sessionReset (p : Port) (rest : List Byte) : Statement (.sessionReset p rest) := by
  intro q code r hr
  cases hr
  exact ⟨by decide, rfl⟩

theorem readEntry (p : Port) (rest : List Byte) : Statement (.readEntry p rest) := by
  intro q code r hr
  cases hr
  exact ⟨by decide, rfl⟩

theorem latch (p : Port) (rest : List Byte) : Statement (.latch p rest) := by
  intro q code r hr
  cases hr
  exact ⟨by decide, rfl⟩

theorem readHold (p : Port) (rest : List Byte) : Statement (.readHold p rest) := by
  intro q code r hr
  cases hr
  exact ⟨by decide, rfl⟩

theorem direct (p : Port) (rest : List Byte) : Statement (.direct p rest) := by
  intro q code r hr
  cases hr
  exact ⟨by decide, rfl⟩

theorem cancel (p : Port) (rest : List Byte) : Statement (.cancel p rest) := by
  intro q code r hr
  cases hr
  exact ⟨by decide, rfl⟩

theorem balance (p : Port) (rest : List Byte) : Statement (.balance p rest) := by
  intro q code r hr
  cases hr
  exact ⟨by decide, rfl⟩

theorem unbalance (p : Port) (rest : List Byte) : Statement (.unbalance p rest) := by
  intro q code r hr
  cases hr
  exact ⟨by decide, rfl⟩

theorem inhibit (p : Port) (rest : List Byte) : Statement (.inhibit p rest) := by
  intro q code r hr
  cases hr
  exact ⟨by decide, rfl⟩

theorem uninhibit (p : Port) (rest : List Byte) : Statement (.uninhibit p rest) := by
  intro q code r hr
  cases hr
  exact ⟨by decide, rfl⟩

theorem readBalance (p : Port) (rest : List Byte) : Statement (.readBalance p rest) := by
  intro q code r hr
  cases hr
  exact ⟨by decide, rfl⟩

theorem clearBalanceTime (p : Port) (rest : List Byte) : Statement (.clearBalanceTime p rest) := by
  intro q code r hr
  cases hr
  exact ⟨by decide, rfl⟩

theorem popEvents (p : Port) (rest : List Byte) : Statement (.popEvents p rest) := by
  intro q code r hr
  cases hr
  exact ⟨by decide, rfl⟩

theorem eventCount (p : Port) (rest : List Byte) : Statement (.eventCount p rest) := by
  intro q code r hr
  cases hr
  exact ⟨by decide, rfl⟩

theorem takeToken (p : Port) (rest : List Byte) : Statement (.takeToken p rest) := by
  intro q code r hr
  cases hr
  exact ⟨by decide, rfl⟩

theorem dropToken (p : Port) (rest : List Byte) : Statement (.dropToken p rest) := by
  intro q code r hr
  cases hr
  exact ⟨by decide, rfl⟩

theorem set (p : Port) (rest : List Byte) : Statement (.set p rest) := by
  intro q code r hr
  cases hr
  exact ⟨by decide, rfl⟩

theorem get (p : Port) (rest : List Byte) : Statement (.get p rest) := by
  intro q code r hr
  cases hr
  exact ⟨by decide, rfl⟩

theorem chainRestart (p : Port) (rest : List Byte) : Statement (.chainRestart p rest) := by
  intro q code r hr
  cases hr
  exact ⟨by decide, rfl⟩

theorem readMap (p : Port) (rest : List Byte) : Statement (.readMap p rest) := by
  intro q code r hr
  cases hr
  exact ⟨by decide, rfl⟩

theorem grant : Statement .grant := of_not_request rfl

theorem frameTransmissionEnd (noise : List (List Byte)) : Statement (.frameTransmissionEnd noise) := of_not_request rfl

theorem linkIdleEnd : Statement .linkIdleEnd := of_not_request rfl

theorem broadcastGapEnd : Statement .broadcastGapEnd := of_not_request rfl

theorem responseArrival (bytes : List Byte) (first : TakenFirst) : Statement (.responseArrival bytes first) := of_not_request rfl

theorem responseTimeout (slot : Fin 4) (first : TakenFirst) : Statement (.responseTimeout slot first) := of_not_request rfl

theorem resend : Statement .resend := of_not_request rfl

theorem quarantineEnd (tag : BitVec 4) : Statement (.quarantineEnd tag) := of_not_request rfl

theorem releasePauseExpiry : Statement .releasePauseExpiry := of_not_request rfl

theorem downRetryExpiry : Statement .downRetryExpiry := of_not_request rfl

theorem deadlineExpiry (m : Mod) (k : DeadlineKind) : Statement (.deadlineExpiry m k) := of_not_request rfl

theorem visitDecision : Statement .visitDecision := of_not_request rfl

theorem directedPassCreate (p : Port) : Statement (.directedPassCreate p) := of_not_request rfl

theorem alignedPassCreate : Statement .alignedPassCreate := of_not_request rfl

theorem settleExpiry (t : Target) : Statement (.settleExpiry t) := of_not_request rfl

theorem conversionWaitExpiry (m : Mod) : Statement (.conversionWaitExpiry m) := of_not_request rfl

theorem rereadWaitExpiry (t : Target) : Statement (.rereadWaitExpiry t) := of_not_request rfl

theorem alignedWaitExpiry : Statement .alignedWaitExpiry := of_not_request rfl

theorem periodBoundary : Statement .periodBoundary := of_not_request rfl

theorem receiptEvent : Statement .receiptEvent := of_not_request rfl

theorem sumCheckEvent : Statement .sumCheckEvent := of_not_request rfl

theorem balanceDecision (m : Mod) : Statement (.balanceDecision m) := of_not_request rfl

theorem requestExpiry (m : Mod) : Statement (.requestExpiry m) := of_not_request rfl

theorem onTimeTimerExpiry : Statement .onTimeTimerExpiry := of_not_request rfl

theorem eventStore (p : Port) : Statement (.eventStore p) := of_not_request rfl

theorem leaseExpiry : Statement .leaseExpiry := of_not_request rfl

theorem portReceivesAnswer (p : Port) : Statement (.portReceivesAnswer p) := of_not_request rfl

theorem upLaneFellIdle : Statement .upLaneFellIdle := of_not_request rfl

end Sys2Proof.Laws.Request
end

