-- ==== Sys2Proof/Laws/Raised.lean ====
section
/-! SUPPORT. Laws/Raised.lean: the records that the events of the Image, the Limit Checker and the Balance Controller raise,
in the terms of Safety.lean. -/

namespace Sys2Proof.Machine

/-! ## The Image (R12, R20) -/

theorem head_map_toList {α β : Type} (f : α → β) (l : List α) : (l.head?.map f).toList = (l.take 1).map f := by
  cases l <;> rfl

theorem staleEvents_eq (now : Tick) (m : Mod) (gone : List Chan) : staleEvents now m gone = staleRecords now m gone := by
  unfold staleEvents staleRecords
  rw [List.filterMap_eq_flatMap_toList]
  congr 1
  funext k
  rw [← List.head?_filter, head_map_toList]
  rfl

theorem becameOpen_eq (b a : Entry) : becameOpen b a = (decide (a.quality = .faulted ∧ a.cause = some .sensorOpen)
    && !decide (b.quality = .faulted ∧ b.cause = some .sensorOpen)) := by
  unfold becameOpen
  rw [Bool.eq_iff_iff]
  simp

theorem recovered_eq (b a : Entry) : recovered b a = decide (a.quality = .fresh
    ∧ (b.quality = .stale ∨ b.quality = .faulted ∨ b.quality = .pending ∧ b.renewal ≠ 0)) := by
  unfold recovered
  rw [Bool.eq_iff_iff]
  simp [or_assoc]

theorem becameStale_eq (b a : Entry) : becameStale b a = decide (a.quality = .stale ∧ b.quality ≠ .stale) := by
  unfold becameStale
  rw [Bool.eq_iff_iff]
  simp

theorem renewalEvents_eq (now : Tick) (m : Mod) (before after : ModuleImage) :
    renewalEvents now m before after = renewalRecords now m before after := by
  unfold renewalEvents renewalRecords chansWhere
  dsimp only
  rw [staleEvents_eq, head_map_toList]
  simp only [becameOpen_eq, recovered_eq, becameStale_eq]
  rfl

/-! ## The Limit Checker (R125) -/

theorem receiptEvents_eq (now : Tick) (st : Settings) (m : Mod) (xs : List (Chan × Int)) (before : ModuleImage) :
    receiptEvents now st m xs before = allChans.flatMap fun ch => match sampleOf xs ch with
      | some v => match (judge st ch v (chanEntry before ch)).event with
        | some (kind, k) => [{ kind := kind, time := now, module := some m, entry := some (m, ch), value := some v,
                               cause := some (.limit k) }]
        | none => []
      | none => [] := by
  unfold receiptEvents
  rw [List.filterMap_eq_flatMap_toList]
  congr 1
  funext ch
  cases sampleOf xs ch with
  | none => rfl
  | some v =>
    dsimp only
    cases h : (judge st ch v (chanEntry before ch)).event with
    | none => simp [h]
    | some x => simp [h, entryEvent]

/-! ## The Balance Controller (R142, R156) -/

theorem maskOf_eq_zero (f : Fin 16 → Bool) : maskOf f = 0 ↔ (List.finRange 16).any f = false := by
  rw [List.any_eq_false]
  have hf (c : Fin 16) : (maskOf f).getLsbD c.val = f c := by
    have : inMask (maskOf f) c = f c := by simp
    exact this
  constructor
  · intro h c _
    rw [← hf c, h]
    simp
  · intro h
    apply BitVec.eq_of_getLsbD_eq
    intro i hi
    rw [hf ⟨i, hi⟩]
    simpa using h ⟨i, hi⟩ (List.mem_finRange _)

theorem requestedBy_decideModule (i : DecisionInput) (mi : ModuleImage) (b : BalanceModule) (p : Port) (c : Fin 16) :
    requestedBy p (tget (decideModule i mi b).cells c) = requestedBy p (tget b.cells c) := by
  simp [decideModule, requestedBy]

theorem blockedEvents_eq (now : Tick) (m : Mod) (p : Port) (before after : BalanceModule) :
    blockedEvents now m p before after = balanceRecords now m p none before after := by
  have h (k : BlockCause) (f : Fin 16 → Bool) :
      (if maskOf f = 0 then none else some (maskEvent .balanceBlocked now m (maskOf f) (.blocked k))).toList
        = if (List.finRange 16).any f then [maskEvent .balanceBlocked now m (maskOf f) (.blocked k)] else [] := by
    by_cases h0 : maskOf f = 0
    · rw [if_pos h0, (maskOf_eq_zero f).1 h0]; rfl
    · rw [if_neg h0, if_pos (by rw [maskOf_eq_zero] at h0; simpa using h0)]; rfl
  unfold blockedEvents
  rw [List.filterMap_eq_flatMap_toList]
  dsimp only
  simp only [h]
  unfold balanceRecords
  dsimp only
  rw [List.nil_append]
  show List.flatMap _ allCauses = List.flatMap _ allCauses
  congr 1

theorem endedEvents_append (now : Tick) (m : Mod) (p : Port) (c : EventCause) (before after : BalanceModule) :
    endedEvents now m p c before after ++ balanceRecords now m p none before after
      = balanceRecords now m p (some c) before after := by
  let f : Fin 16 → Bool := fun k => requestedBy p (tget before.cells k) && !requestedBy p (tget after.cells k)
  have h : endedEvents now m p c before after
      = if (List.finRange 16).any f then [maskEvent .balanceEnded now m (maskOf f) c] else [] := by
    unfold endedEvents
    dsimp only
    by_cases h0 : maskOf f = 0
    · rw [if_pos h0, (maskOf_eq_zero f).1 h0]; rfl
    · rw [if_neg h0, if_pos (by rw [maskOf_eq_zero] at h0; simpa using h0)]
  rw [h]
  unfold balanceRecords
  dsimp only
  rw [List.nil_append]
  rfl

theorem decisionEvents_eq (now : Tick) (m : Mod) (p : Port) (ended : Option EventCause) (before claims : BalanceModule)
    (i : DecisionInput) (mi : ModuleImage) :
    (match ended with
      | some c => endedEvents now m p c before claims
      | none => []) ++ blockedEvents now m p before (decideModule i mi claims)
      = balanceRecords now m p ended before (decideModule i mi claims) := by
  rw [blockedEvents_eq]
  cases ended with
  | none => simp
  | some c =>
    have h : endedEvents now m p c before claims = endedEvents now m p c before (decideModule i mi claims) := by
      unfold endedEvents
      simp only [requestedBy_decideModule]
    dsimp only
    rw [h]
    exact endedEvents_append now m p c before (decideModule i mi claims)

/-- What a decision raises to a port. -/
theorem decideFrom_raised (m : Mod) (ended : Option EventCause) (before claims : BalanceModule) (s : State) (q : Port) :
    (decideFrom m ended before claims s).raised.get q = s.raised.get q ++ storing (balanceRecords s.timebase m q ended
      before (decideModule (s.decisionInput m) (s.moduleImage m) claims)) := by
  unfold decideFrom
  dsimp only
  rw [raiseTo_storing, raiseTo_storing, ← decisionEvents_eq s.timebase m q ended before claims]
  cases q
  · rw [if_pos rfl, if_neg (by decide), List.append_nil]; rfl
  · rw [if_neg (by decide), if_pos rfl, List.append_nil]; rfl

end Sys2Proof.Machine
end

