-- ==== Sys2Proof/Tests/Slice0.lean ====
section
/-! SUPPORT. Tests/Slice0.lean: small tests of one step each, most of them the manual's own worked examples, and for each
obligation with hypotheses a state and operands that meet them (`witness_<obligation>`). -/

namespace Sys2Proof.Tests

open Sys2Proof.Machine

set_option Elab.async false

/-! ## States -/

/-- The state after a command; the state before where it has none. -/
def after (i : Instr) (s : State) : State :=
  match exec i s with
  | .next t => t
  | _ => s

/-- The answer that a slot holds or waits for. -/
def answerOf : ResponseSlot → Answer
  | .ready a => a
  | .preparing _ a => a

/-- The status and the payload of the answer a port has after a command. -/
def answered (p : Port) (i : Instr) (s : State) : Status × List Byte :=
  let a := answerOf ((after i s).port p).slot
  (a.status, a.payload)

/-- An ACTIVE module of 16 cells and 4 temperatures. -/
def active : ModuleRecord :=
  { state := .active, cellCount := 16, tempCount := 4, revision := 1, failures := 0, lastSuccess := none, mark := false }

/-- A RUNNING chain of `n` modules in an idle engine, nothing offered. -/
def chain (n : Nat) : State :=
  { State.reset with
    map := { resetMap with
      state := .running
      n := n
      records := tbuild fun m => if modNumber m ≤ n then active else absentRecord }
    sched := { resetScheduler with items := [] }
    sweep := { resetSweep with state := .waiting, pointer := 1, nextBoundary := some 500 } }

/-- A frame has begun on a port. -/
def begun (p : Port) (s : State) : State := after (.frameStart p) s

/-- The part held in device reset. -/
def resting : State := { State.reset with inReset := true }

/-- The state at a timebase value. -/
def atTick (t : Nat) (s : State) : State := { s with linkTime := 100 * t }

/-- Port A holds the token until a lease end. -/
def holding (due : Tick) (s : State) : State := { s with token := .held .A 10 due }

/-- A FRESH entry converted at tick 0 under renewal number 1. -/
def fresh (v : Int) : Entry :=
  { clearedEntry with quality := .fresh, value := v, instant := some 0, renewal := 1, source := some .sweepRolling }

/-- One module's cells set from the channel. -/
def withCells (m : Mod) (f : Fin 16 → Entry) (s : State) : State :=
  s.setModuleImage m { s.moduleImage m with cell := tbuild f }

/-- A held slot: a stand-alone balance update of module 3 under tag 8, sent at tick 0. -/
def update3 : TxnSlot :=
  { tag := some 8, node := 3, role := .update, owner := .balance, payload := .mask 5, sendInstant := 0,
    windowEnd := some 150, window := 200, attemptLimit := 3, attemptsUsed := 1 }

/-- One transaction is outstanding, in slot 0. -/
def held (x : TxnSlot) (s : State) : State :=
  { s with link := { resetLink with slots := tput resetLink.slots 0 (some x) } }

/-- A rolling pass on a module, at a step and with a timer. -/
def rolling (m : Mod) (step : PassStep) (timer : Option PassTimer) : Pass :=
  { newPass defaultSettings .both .sweepRolling none [m] with step := step, timer := timer }

/-- The events that a command leaves waiting at Port A. -/
def raisedA (i : Instr) (s : State) : List (List (EventKind × Option Int)) :=
  (after i s).raised.a.map fun es => es.map fun e => (e.kind, e.value)

/-! ## Well-formed commands, checks and codes -/

theorem test_known_request_is_not_unknown : Instr.wellFormed (.unknownRequest .A 0x10) = false := by decide

theorem test_noise_longer_than_a_frame_is_refused :
    Instr.wellFormed (.frameTransmissionEnd [[0, 0, 0, 0, 0, 0, 1]]) = false := by decide

theorem test_partial_response_is_refused :
    Instr.wellFormed (.responseArrival [0x6A, 0x38, 0, 0, 0] .originator) = false := by decide

/-- CRC-8 and CRC-16 of the parameters of R163 and R221 over one byte, by hand. -/
theorem test_crc8_of_nop : crc8 [0x10] = 0xEF := by decide

theorem test_crc16_of_nothing : crc16 [] = 0xFFFF := by decide

theorem test_no_table_word : decodeTableWord 8 0x10 = none := by decide

/-! ## Reset (R161, section 8.7) -/

theorem test_deviceReset_cuts_frame :
    ((after .deviceReset (after (.frameStart .A) State.reset)).port .A).frame = .cut := by decide

theorem test_resetRelease_answers_device :
    answerOf ((after .resetRelease resting).port .B).slot = { status := .resetDone, echo := 0, payload := [1] } := by decide

/-! ## Frames (R160 to R168) -/

theorem test_frameStart_clocks_reset_done :
    ((after (.frameStart .A) State.reset).port .A).frame
      = .running [0x0D, 0, 1, crc8 [0x0D, 0, 1]] false := by decide +kernel

theorem test_frameEmpty_keeps_slot : (after (.frameEmpty .A) State.reset).port .A = resetPort := by decide

/-- A frame begun while LATCH is prepared clocks out NOT_READY with its code. -/
theorem test_frame_not_ready :
    ((after (.frameStart .A) (State.reset.setPort .A
      { resetPort with slot := .preparing 0x21 { status := .ok, echo := 0x21, payload := [] } })).port .A).frame
      = .running [0x04, 0x21, crc8 [0x04, 0x21]] true := by decide +kernel

theorem test_frameDiscarded_ends_frame :
    ((after (.frameDiscarded .A) (State.reset.setPort .A { resetPort with frame := .running [4] true })).port .A).frame
      = .idle := by decide

theorem test_unknownRequest : answered .A (.unknownRequest .A 0x99) State.reset = (.unknownRequest, []) := by decide

theorem test_nop_keeps_answer :
    answerOf ((after (.nop .A [0xEF]) State.reset).port .A).slot = resetAnswer := by decide

theorem test_nop_bad_check : answered .A (.nop .A [0xEE]) State.reset = (.checkError, []) := by decide

theorem test_ident : answered .B (.ident .B (goodRest 0x11 [] [])) State.reset
    = (.ok, [0x0C, 0x24, 1, 2, 12, 0x01, 0x08, 32, 32, 4, 4]) := by decide

/-- Frame 1 of the example of section 8.7: chain ENUMERATING, N 0. -/
theorem test_status_enumerating :
    ((answered .A (.status .A (goodRest 0x12 [] [0, 0])) State.reset).2.take 2) = [1, 0] := by decide

theorem test_sessionReset_frees_token :
    (after (.sessionReset .A (goodRest 0x13 [] [])) (holding 100000 State.reset)).token = .free := by decide +kernel

theorem test_portReceivesAnswer :
    ((after (.portReceivesAnswer .A) (State.reset.setPort .A
      { resetPort with slot := .preparing 0x70 { status := .ok, echo := 0x70, payload := [] } })).port .A).slot
      = .ready { status := .ok, echo := 0x70, payload := [] } := by decide

/-! ## Image (chapter 1, section 8.3) -/

/-- Entry 5 right after reset: index, class CELL, UNPOPULATED, nothing else. -/
theorem test_readEntry : answered .A (.readEntry .A (goodRest 0x20 [0, 5] [])) State.reset
    = (.ok, [0, 0, 0, 0] ++ [0, 5] ++ List.replicate 16 0) := by decide +kernel

theorem test_readEntry_264 :
    answered .A (.readEntry .A (goodRest 0x20 [0x01, 0x08] [])) State.reset = (.badArgument, []) := by decide +kernel

/-- Cells of modules 1 and 2 with instants 19 and 32 are not coherent (section 12.2, tick 100). -/
def twoInstants : State :=
  atTick 100 (withCells 1 (fun _ => { fresh 41000 with instant := some 32 })
    (withCells 0 (fun _ => { fresh 41000 with instant := some 19 }) (chain 4)))

theorem test_latch_incoherent :
    answered .A (.latch .A (goodRest 0x21 [0, 0, 32, 1] [])) twoInstants = (.incoherent, []) := by decide +kernel

theorem test_latch_header : answered .A (.latch .A (goodRest 0x21 [0, 0, 32, 0] [])) twoInstants
    = (.ok, [0, 0, 0, 100, 0, 0, 0, 0, 32, 0]) := by decide +kernel

/-- The hold buffer of fourteen slots, entries 32..45 (the example of section 8.3). -/
def fourteen : State :=
  State.reset.setPort .A { resetPort with hold :=
    { copies := copyRun State.reset 32 14, header := some { instant := 120450, counter := 3311, coherent := true } } }

/-- READ_HOLD(8, 8) wraps after slot 13: the last two copies are entries 32 and 33. -/
theorem test_readHold_wraps :
    ((holdRun (fourteen.port .A).hold.copies 8 8).map fun c => entryIndex c.module c.chan)
      = [40, 41, 42, 43, 44, 45, 32, 33] := by decide +kernel

theorem test_readHold_14 :
    answered .A (.readHold .A (goodRest 0x22 [14, 4] [])) fourteen = (.badArgument, []) := by decide +kernel

/-- The fast set of module 3 at its deadline: 48310 + 2000 = 50310 (the example of section 1.4). -/
def aged : State :=
  atTick 50310 (withCells 2 (fun _ => { fresh 36520 with instant := some 48310 }) (chain 3))

theorem test_deadlineExpiry :
    (chanEntry ((after (.deadlineExpiry 2 .cells) aged).moduleImage 2) (.cell 0)).quality = .stale := by decide +kernel

theorem test_deadlineExpiry_raises_one :
    raisedA (.deadlineExpiry 2 .cells) aged = [[(.groupStale, none)]] := by decide +kernel

/-! ## Directed measurements (section 5.3) -/

/-- Port A's first ticket takes id 0, QUEUED. -/
theorem test_direct : answered .A (.direct .A (goodRest 0x30 [3, 1] [])) (chain 4) = (.ok, [0, 1]) := by decide +kernel

theorem test_direct_absent_module :
    answered .A (.direct .A (goodRest 0x30 [5, 1] [])) (chain 4) = (.noModule, []) := by decide +kernel

/-- Port A's ticket 0 for module 3, QUEUED. -/
def ticketed : State :=
  (chain 4).setTickets .A { tickets := [{ id := 0, module := 2, what := .cells, state := .queued }], lastId := 0 }

theorem test_cancel : ((after (.cancel .A (goodRest 0x31 [0] [])) ticketed).ticketQueue .A).tickets = [] := by decide +kernel

theorem test_cancel_unknown : answered .A (.cancel .A (goodRest 0x31 [7] [])) ticketed = (.noTicket, []) := by decide +kernel

theorem test_directedPassCreate :
    ((after (.directedPassCreate .A) ticketed).passOf (.one 2)).map (fun x => (x.what, x.origin))
      = some (.cells, .directedA) := by decide +kernel

/-! ## Balancing (section 12.4) -/

/-- Module 2 of section 12.4 before E1: channel 12 inhibited by Port A, BALANCE_CAPACITY 3. -/
def contended : State :=
  let s := withCells 1 (fun c => fresh (if c = 1 then 41600 else if c = 4 then 41550 else if c = 8 then 41700
    else if c = 10 then 41550 else if c = 12 then 41800 else 41000)) (chain 4)
  ({ s with settings := { s.settings with balanceCapacity := 3 } } : State).setBalance 1
    (onCells 0x1000 (setInhibit .A true) resetBalanceModule)

/-- E1: the decided mask is {1, 4, 8}, the blocked mask {12}. -/
theorem test_balance_E1 : answered .B (.balance .B (goodRest 0x40 [2, 0x15, 0x12, 0x03, 0x84] [])) contended
    = (.ok, [0x01, 0x12, 0x10, 0x00]) := by decide +kernel

/-- E1: Port B receives BALANCE_BLOCKED with value {12}. -/
theorem test_balance_E1_blocked :
    (after (.balance .B (goodRest 0x40 [2, 0x15, 0x12, 0x03, 0x84] [])) contended).raised.b.map
      (fun es => es.map fun e => (e.kind, e.value, e.cause))
      = [[(.balanceBlocked, some 0x1000, some (.blocked .inhibited))]] := by decide +kernel

theorem test_unbalance_frees :
    ((after (.unbalance .A (goodRest 0x41 [2, 0, 1] []))
      ((chain 4).setBalance 1 (onCells 1 (setRequest .A (some 9)) resetBalanceModule))).balanceOf 1).decided = 0 := by
  decide +kernel

theorem test_inhibit_mask :
    answered .A (.inhibit .A (goodRest 0x42 [2, 0x10, 0] [])) (chain 4) = (.ok, [0x10, 0]) := by decide +kernel

theorem test_uninhibit_mask :
    answered .A (.uninhibit .A (goodRest 0x43 [2, 0x10, 0] [])) contended = (.ok, [0, 0]) := by decide +kernel

theorem test_readBalance_length :
    (answered .A (.readBalance .A (goodRest 0x44 [2] [])) contended).2.length = 185 := by decide +kernel

theorem test_clearBalanceTime_needs_token :
    answered .A (.clearBalanceTime .A (goodRest 0x45 [0] [])) State.reset = (.noToken, []) := by decide +kernel

/-- A renewal hands module 2 on; the decision ranks afresh (E5: 10 passes 4, {1, 8, 10}). -/
theorem test_balanceDecision_E5 :
    let s := withCells 1 (fun c => fresh (if c = 1 then 41590 else if c = 4 then 41530 else if c = 8 then 41640
      else if c = 10 then 41560 else 41000)) (after (.balance .B (goodRest 0x40 [2, 0x05, 0x12, 0x03, 0x84] [])) contended)
    ((after (.balanceDecision 1) s).balanceOf 1).decided = 0x0502 := by decide +kernel

/-- A request of Port A on channel 0 of module 2 ends at its instant. -/
def ending : State :=
  atTick 9 ((chain 4).setBalance 1 (onCells 1 (setRequest .A (some 9)) resetBalanceModule))

theorem test_requestExpiry : raisedA (.requestExpiry 1) ending = [[(.balanceEnded, some 1)]] := by decide +kernel

/-- One second of balancing on channel 2 of module 1. -/
def counting : State :=
  atTick 10000 ((chain 4).setBalance 0 { resetBalanceModule with commanded := .mask 4 })

theorem test_onTimeTimerExpiry :
    (tget ((after .onTimeTimerExpiry counting).balanceOf 0).cells 2).onTime = 1 := by decide +kernel

/-! ## Events (chapter 9) -/

/-- Port A's queue with one GROUP_STALE record, which alerts. -/
def queued : State :=
  State.reset.setQueue .A
    { records := [{ seq := 1, event := { kind := .groupStale, time := 7, module := some 2 } }], nextSeq := 2,
      subscribe := everyKind, alertMask := 2, alert := true }

theorem test_popEvents_lowers_alert :
    (after (.popEvents .A (goodRest 0x50 [8] [])) queued).queue .A
      = { records := [], nextSeq := 2, subscribe := everyKind, alertMask := 2, alert := false } := by decide +kernel

theorem test_popEvents_answer_length :
    (answered .A (.popEvents .A (goodRest 0x50 [1] [])) queued).2.length = 146 := by decide +kernel

theorem test_eventCount : answered .A (.eventCount .A (goodRest 0x51 [] [])) queued
    = (.ok, [1, 1, 0, 0, 0, 0, 1, 0, 2]) := by decide +kernel

/-- A record waits to be stored at Port A. -/
def storing : State :=
  { State.reset with raised := { a := [[{ kind := .moduleLost, time := 3, module := some 0 }]], b := [] } }

theorem test_eventStore : ((after (.eventStore .A) storing).queue .A).records.map (fun r => (r.seq, r.event.kind))
    = [(1, .moduleLost)] := by decide +kernel

/-! ## Token and settings (the example of section 10.4) -/

theorem test_takeToken :
    (after (.takeToken .A (goodRest 0x60 [5] [])) (atTick 1000000 State.reset)).token = .held .A 5 1050000 := by
  decide +kernel

theorem test_takeToken_elsewhere :
    answered .B (.takeToken .B (goodRest 0x60 [10] [])) (atTick 1040000 (holding 1080000 State.reset))
      = (.heldElsewhere, []) := by decide +kernel

theorem test_dropToken : (after (.dropToken .A (goodRest 0x61 [] [])) (holding 9 State.reset)).token = .free := by
  decide +kernel

/-- SET SUM_TOLERANCE 60 under a lease of 5 s at 1030000: remaining lease 5000 ms. -/
theorem test_set_sumTolerance :
    answered .A (.set .A (goodRest 0x62 [0x1A, 0, 0, 0, 0, 60] []))
      (atTick 1030000 { State.reset with token := .held .A 5 1050000 })
      = (.ok, [0x1A, 0, 0, 0, 0, 60, 0x13, 0x88]) := by decide +kernel

theorem test_set_without_token :
    answered .B (.set .B (goodRest 0x62 [0x0C, 0, 0, 0, 0, 3] [])) (holding 1080000 State.reset) = (.noToken, []) := by
  decide +kernel

/-- TEMP_LOW reads −200 as a two's complement number. -/
theorem test_get_tempLow :
    answered .B (.get .B (goodRest 0x63 [0x14, 0] [])) State.reset = (.ok, [0x14, 0, 0xFF, 0xFF, 0xFF, 0x38]) := by
  decide +kernel

theorem test_leaseExpiry : raisedA .leaseExpiry (atTick 1080000 (holding 1080000 State.reset)) = [[(.tokenLapsed, none)]] := by
  decide +kernel

/-! ## Chain map (chapter 4) -/

theorem test_chainRestart :
    ((after (.chainRestart .A (goodRest 0x70 [] [])) (holding 9 (chain 4))).map.state) = .enumerating := by decide +kernel

theorem test_readMap : ((answered .A (.readMap .A (goodRest 0x71 [] [])) (chain 4)).2.take 9)
    = [2, 4, 0, 0, 0, 0, 0, 0xFF, 0xFF] := by decide +kernel

theorem test_releasePauseExpiry :
    let s := { State.reset with linkTime := 1020, map := { resetMap with pauseEnd := some 1020 } }
    (after .releasePauseExpiry s).map.nextNumber = 1 := by decide +kernel

/-- A chain DOWN at tick 0, its retry due at 10000. -/
def retrying : State :=
  atTick 10000 { State.reset with map := { resetMap with state := .down, retryDue := some 10000 } }

theorem test_downRetryExpiry : (after .downRetryExpiry retrying).map.state = .enumerating := by decide +kernel

/-! ## Chain link (section 3.5, section 12.2) -/

/-- RELEASE_ALL: node 15, tag 0, verb 1, no payload; five bytes, 20 µs. -/
theorem test_grant_release :
    (after .grant State.reset).link.sending.map (fun f => (f.bytes.take 3, f.endAt, f.broadcast))
      = some ([0xA6, 0xF0, 0x10], 20, true) := by decide +kernel

/-- The state in which a frame has just been sent. -/
def sent : State := { after .grant State.reset with linkTime := 20 }

theorem test_frameTransmissionEnd_pause : (after (.frameTransmissionEnd []) sent).map.pauseEnd = some 1020 := by
  decide +kernel

theorem test_linkIdleEnd :
    (after .linkIdleEnd { State.reset with linkTime := 22, link := { resetLink with idleUntil := some 22 } }).link.idleUntil
      = none := by decide +kernel

theorem test_broadcastGapEnd :
    (after .broadcastGapEnd { State.reset with linkTime := 40, link := { resetLink with gapUntil := some 40 } }).link.gapUntil
      = none := by decide +kernel

/-- Slot 0 before event 3 of the example of section 3.5: tag 8, node 3, a stand-alone update. -/
def waiting3 : State :=
  { (chain 4) with link := { resetLink with slots := tput resetLink.slots 0 (some update3), lastTag := 9 }, linkTime := 95 }

/-- Event 3: the OK completes slot 0, and the commanded mask is recorded. -/
theorem test_responseArrival :
    let t := after (.responseArrival (responseBytes 3 8 0 []) .originator) waiting3
    t.slot 0 = none ∧ (t.balanceOf 2).commanded = .mask 5 := by decide +kernel

/-- Event 5: a frame whose tag is in quarantine is late. -/
theorem test_responseArrival_late :
    (after (.responseArrival (responseBytes 7 10 0 []) .originator) waiting3).link.late = 1 := by decide +kernel

/-- Event 4: at its window end a slot's tag enters quarantine for 400 µs. -/
theorem test_responseTimeout :
    (after (.responseTimeout 0 .originator) { waiting3 with linkTime := 220 }).link.quarantine
      = [{ tag := 8, endAt := 620 }] := by decide +kernel

/-- Slot 0 waits for its re-send, tag 10 in quarantine. -/
def resending : State :=
  { (chain 4) with
    link := { resetLink with
      slots := tput resetLink.slots 0 (some { update3 with tag := none, windowEnd := none })
      resendQueue := [0]
      lastTag := 9
      quarantine := [{ tag := 10, endAt := 620 }] }
    linkTime := 220 }

/-- The re-send draws tag 11, the first after 9 that is free. -/
theorem test_resend : ((after .resend resending).slot 0).map (fun x => (x.tag, x.attemptsUsed)) = some (some 11, 2) := by
  decide +kernel

theorem test_quarantineEnd :
    (after (.quarantineEnd 10) { resending with linkTime := 620 }).link.quarantine = [] := by decide +kernel

theorem test_upLaneFellIdle : (after .upLaneFellIdle State.reset).link.badCrc = 1 := by decide +kernel

/-! ## Passes and the sweep (chapter 2, section 12.2) -/

/-- The first visit of a rolling sweep waits, every aux entry PENDING. -/
def visiting : State :=
  let s := { chain 4 with sweep := { resetSweep with
    state := .running, pointer := 1, visit := .deciding, nextBoundary := some 519 } }
  populateModule 0 s

/-- Sweep 1 of section 12.2: aux is due, so the visit creates a BOTH pass. -/
theorem test_visitDecision :
    ((after .visitDecision visiting).passOf (.one 0)).map (fun x => x.what) = some .both := by decide +kernel

/-- The reserved pass of sweep 2 of section 12.2. -/
def reserving : State :=
  { chain 4 with
    reserved := true
    sweep := { resetSweep with state := .running, mode := .aligned, pointer := 1, alignedAux := 1, alignedOpen := true } }

theorem test_alignedPassCreate :
    ((after .alignedPassCreate reserving).passOf .all).map (fun x => (x.what, x.parts.map (·.module)))
      = some (.cells, [0, 1, 2, 3]) := by decide +kernel

/-- Module 1's pass, its timer due at tick 2. -/
def timed (step : PassStep) (kind : PassTimerKind) : State :=
  atTick 2 ((chain 4).setPass (.one 0) (some (rolling 0 step (some { kind := kind, due := 2 }))))

theorem test_settleExpiry : (after (.settleExpiry (.one 0)) (timed .settling .settle)).sched.items.map (·.kind)
    = [.passStep (.one 0) .convert] := by decide +kernel

theorem test_conversionWaitExpiry :
    (after (.conversionWaitExpiry 0) (timed .converting .conversion)).sched.items.map (·.kind)
      = [.passStep (.one 0) .readCells] := by decide +kernel

/-- Module 1's pass reads its cells again. -/
def rereading : State :=
  atTick 2 ((chain 4).setPass (.one 0) (some
    { rolling 0 .reading (some { kind := .reread, due := 2 }) with
      parts := [{ newPart 0 with step := .reading, rereadCells := true }] }))

theorem test_rereadWaitExpiry : (after (.rereadWaitExpiry (.one 0)) rereading).sched.items.map (·.kind)
    = [.passStep (.one 0) .readCells] := by decide +kernel

/-- The aligned pass of section 12.2, its wait due at 529. -/
def alignedWait : State :=
  atTick 529 { reserving with
    reserved := false
    aligned := some { newPass defaultSettings .cells .sweepAligned none [0, 1, 2, 3] with
      step := .converting, instant := some 519, timer := some { kind := .conversion, due := 529 } } }

theorem test_alignedWaitExpiry :
    (after .alignedWaitExpiry alignedWait).aligned.map (fun x => x.parts.map (·.step))
      = some [.reading, .waiting, .waiting, .waiting] := by decide +kernel

theorem test_periodBoundary_starts : (after .periodBoundary (atTick 500 (chain 4))).sweep.state = .running := by
  decide +kernel

theorem test_periodBoundary_overrun :
    let s := atTick 519 visiting
    (after .periodBoundary s).link.overruns = 1 ∧ (after .periodBoundary s).sweep.nextBoundary = some 1019 := by
  decide +kernel

/-! ## Limits (the examples of sections 6.2 and 6.3) -/

/-- Renewal 8 of entry 73: the third sample below CELL_UV crosses. -/
def lowCell : State :=
  { (withCells 4 (fun c => if c = 9 then { fresh 24860 with streak := 2, side := .low } else fresh 41000) (chain 5)) with
    limits := { resetLimits with work := [.receipt 4 8 [(.cell 9, 24860)]] } }

theorem test_receiptEvent_crosses : raisedA .receiptEvent lowCell = [[(.limitCrossed, some 24860)]] := by decide +kernel

theorem test_receiptEvent_low :
    (chanEntry ((after .receiptEvent lowCell).moduleImage 4) (.cell 9)).limit = .low := by decide +kernel

/-- Pass 2 of module 4: S is 511 010 over 14 cells, the BLOCK value 25 440. -/
def summed : State :=
  let s := withCells 3 (fun c => if c.val < 13 then fresh 36500 else if c = 13 then fresh 36510 else clearedEntry) (chain 4)
  { s.setModuleImage 3 { s.moduleImage 3 with block := { fresh 25440 with renewal := 2 } } with
    limits := { resetLimits with work := [.sumCheck 3 1 2] } }

theorem test_sumCheckEvent : raisedA .sumCheckEvent summed = [[(.sumMismatch, some 111)]] := by decide +kernel

/-! ## Witnesses: the queue, reset and invariants -/

/-- The outcome is a next state. -/
def isNext (o : Host.Outcome State Fault Refusal) : Bool := match o with | .next _ => true | _ => false

theorem isNext_elim {o : Host.Outcome State Fault Refusal} (h : isNext o = true) : ∃ t, o = .next t := by
  cases o with
  | next t => exact ⟨t, rfl⟩
  | _ => cases h

theorem witness_IdleStepLetsTimePass :
    (State.reset.pending = [] ∧ State.reset.ownEvent = some .grant)
    ∧ ((chain 1).pending = [] ∧ (chain 1).inReset = false ∧ (chain 1).ownEvent = none)
    ∧ (resting.pending = [] ∧ resting.inReset = true) := by decide +kernel

theorem witness_DeviceResetCutsFramesAndHolds :
    (after (.frameStart .A) State.reset).inReset = false
    ∧ resting.inReset = true ∧ Instr.frameStart .A ≠ .resetRelease ∧ ∃ t, exec (.frameStart .A) resting = .next t :=
  ⟨by decide +kernel, by decide, by decide, isNext_elim (by decide +kernel)⟩

theorem witness_ResetReleaseGivesResetValues : ({ contended with inReset := true } : State).inReset = true := rfl

/-- Port A's queue full: 31 records and an OVERFLOW record. -/
def overflowing : EventQueue :=
  { records := (List.range 31).map (fun k => { seq := k + 1, event := { kind := .groupStale, time := 7 } })
      ++ [{ seq := 32, event := { kind := .overflow, time := 9, value := some 1, cause := some (.dropped .sensorOpen) } }],
    nextSeq := 33, subscribe := everyKind, alertMask := 2, alert := true }

theorem witness_StepsKeepTheEventQueues :
    let s := { State.reset.setQueue .A overflowing with pending := [.popEvents .A (goodRest 0x50 [8] [])] }
    QueueInv s ∧ ∃ t, step s = .next t := by
  refine ⟨?_, isNext_elim (by decide +kernel)⟩
  intro p
  cases p <;> constructor <;> decide +kernel

/-- An entry of an UNPOPULATED channel is good. -/
theorem entryGood_cleared (ch : Chan) : EntryGood ch clearedEntry := by
  constructor <;> cases ch <;> simp [clearedEntry, valueInRange]

/-- A FRESH cell is good. -/
theorem entryGood_fresh (c : Fin 16) {v : Int} (h : 0 ≤ v) (h' : v ≤ 65535) : EntryGood (.cell c) (fresh v) := by
  constructor <;> simp [fresh, clearedEntry, valueInRange, h, h']

/-- Channel 3 of module 1 is FRESH at the top of its range, its deadline waiting. -/
def oneCell : State :=
  withCells 0 (fun c => if c = 3 then fresh 65535 else clearedEntry)
    { chain 1 with pending := [.deadlineExpiry 0 .cells] }

theorem oneCell_entries (m : Mod) (ch : Chan) : EntryGood ch (chanEntry (oneCell.moduleImage m) ch) := by
  have h3 : chanEntry (oneCell.moduleImage 0) (.cell 3) = fresh 65535 := by decide +kernel
  have h (m : Mod) (ch : Chan) (h : ¬(m = 0 ∧ ch = .cell 3)) :
      chanEntry (oneCell.moduleImage m) ch = clearedEntry := by
    cases ch with
    | cell c => revert m c; decide +kernel
    | temp c => clear h; revert m c; decide +kernel
    | block => clear h; revert m; decide +kernel
    | die => clear h; revert m; decide +kernel
  by_cases hm : m = 0 ∧ ch = .cell 3
  · rw [hm.1, hm.2, h3]
    exact entryGood_fresh 3 (by decide) (by decide)
  · rw [h m ch hm]
    exact entryGood_cleared ch

theorem witness_StepsKeepTheImage :
    ImageInv oneCell ∧ ∃ t, step oneCell = .next t := by
  refine ⟨⟨?_, oneCell_entries⟩, isNext_elim (by decide +kernel)⟩
  intro m k
  cases k <;> revert m <;> decide +kernel

/-- Port A holds four tickets with the ids 254, 255, 0 and 1, and 32 copies. -/
def stocked : State :=
  (State.reset.setTickets .A
    { tickets := [254, 255, 0, 1].map fun id => { id := id, module := 0, what := .cells, state := .queued },
      lastId := 1 }).setPort .A { resetPort with hold :=
    { copies := copyRun State.reset 232 32, header := some { instant := 1, counter := 0, coherent := false } } }

theorem witness_StepsKeepTicketsAndHoldBuffers :
    let s := { stocked with pending := [.cancel .A (goodRest 0x31 [255] [])] }
    TicketInv s ∧ HoldInv s ∧ ∃ t, step s = .next t := by
  refine ⟨?_, ?_, isNext_elim (by decide +kernel)⟩
  · intro p
    cases p <;> decide +kernel
  · intro p
    cases p <;> constructor <;> decide +kernel

/-- A table with slot 0 held under tag 8, slot 1 in the re-send queue at its last attempt, and tag 10 in quarantine. -/
def busyLink : Link :=
  { resetLink with
    slots := tput (tput resetLink.slots 0 (some update3)) 1
      (some { update3 with node := 4, tag := none, windowEnd := none, attemptsUsed := 2 })
    resendQueue := [1]
    lastTag := 10
    quarantine := [{ tag := 10, endAt := 620 }] }

theorem busyLink_good : LinkGood busyLink := by
  have h0 : tget busyLink.slots 0 = some update3 := by decide +kernel
  have h1 : tget busyLink.slots 1 = some { update3 with node := 4, tag := none, windowEnd := none, attemptsUsed := 2 } := by
    decide +kernel
  have h2 : tget busyLink.slots 2 = none := by decide +kernel
  have h3 : tget busyLink.slots 3 = none := by decide +kernel
  have all (i : Fin 4) (x : TxnSlot) (h : tget busyLink.slots i = some x) : i = 0 ∧ x = update3
      ∨ i = 1 ∧ x = { update3 with node := 4, tag := none, windowEnd := none, attemptsUsed := 2 } := by
    fin_cases i <;> simp_all
  constructor
  · intro i j x y t hi hj hx hy
    obtain ⟨rfl, rfl⟩ | ⟨rfl, rfl⟩ := all i x hi <;> obtain ⟨rfl, rfl⟩ | ⟨rfl, rfl⟩ := all j y hj <;> simp_all
  · intro i x t hi hx
    obtain ⟨rfl, rfl⟩ | ⟨rfl, rfl⟩ := all i x hi
    · cases hx; decide
    · cases hx
  · decide
  · intro i x hi
    obtain ⟨rfl, rfl⟩ | ⟨rfl, rfl⟩ := all i x hi <;> decide
  · intro i x hi hx
    obtain ⟨rfl, rfl⟩ | ⟨rfl, rfl⟩ := all i x hi
    · cases hx
    · rfl
  · decide
  · intro i hi x hx
    obtain ⟨rfl, rfl⟩ | ⟨rfl, rfl⟩ := all i x hx
    · simp [busyLink] at hi
    · decide

theorem witness_StepsKeepTheTransactions :
    let s := { chain 4 with link := busyLink, linkTime := 150, pending := [.responseTimeout 0 .originator] }
    LinkInv s ∧ ∃ t, step s = .next t := ⟨busyLink_good, isNext_elim (by decide +kernel)⟩

/-- A balance table with channel 0 ON and channel 1 WAITING. -/
def balanced : BalanceModule :=
  { resetBalanceModule with
    cells := tput (tput resetBalanceModule.cells 0 { resetCell with request := { a := some 9, b := none }, state := .on }) 1
      { resetCell with request := { a := none, b := some 9 }, state := .waiting }
    decided := 1 }

theorem witness_StepsKeepTheBalanceTable :
    let s := { (chain 4).setBalance 1 balanced with pending := [.balanceDecision 1] }
    BalanceInv s ∧ ∃ t, step s = .next t := by
  refine ⟨?_, isNext_elim (by decide +kernel)⟩
  intro m
  constructor <;> revert m <;> decide +kernel

/-- A table with one transaction that has a tag and has been sent within its attempt limit is good. -/
theorem held_link (x : TxnSlot) (s : State) (ha : 1 ≤ x.attemptsUsed ∧ x.attemptsUsed ≤ x.attemptLimit)
    (ht : x.tag.isSome) : LinkInv (held x s) := by
  have h (i : Fin 4) (y : TxnSlot) (h : tget (tput resetLink.slots 0 (some x)) i = some y) : i = 0 ∧ y = x := by
    by_cases hi : i = 0
    · subst hi
      rw [tget_tput_same] at h
      exact ⟨rfl, (Option.some.inj h).symm⟩
    · fin_cases i <;> first | exact absurd rfl hi | cases h
  constructor
  · intro i j y z t hi hj _ _
    rw [(h i y hi).1, (h j z hj).1]
  · intro i y t _ _ hq
    cases hq
  · exact List.nodup_nil
  · intro i y hi
    rw [(h i y hi).2]
    exact ha
  · intro i y hi hx
    rw [(h i y hi).2] at hx
    rw [hx] at ht
    cases ht
  · exact List.nodup_nil
  · intro i hi
    cases hi

/-- No port holds a ticket. -/
theorem noTickets {s : State} (h : ∀ q, (s.ticketQueue q).tickets = []) : TicketInv s ∧ NoTicketWaits s := by
  refine ⟨fun q => ?_, fun q k hk => ?_⟩
  · rw [h q]; decide
  · rw [h q] at hk; cases hk

/-- Module 1's pass, whose only part is served or quiesced, with a transaction of it outstanding in slot 0. -/
def serving (w : What) (quiesced : Bool) (role : Role) (p : Payload) : State :=
  held { update3 with node := 1, role := role, owner := .pass (.one 0), payload := p }
    ((chain 4).setPass (.one 0) (some { rolling 0 .reading none with
      what := w, parts := [{ newPart 0 with step := .reading, quiesced := quiesced }] }))

/-- The aligned pass, its modules read, with a transaction of module 1's part outstanding in slot 0. -/
def aligning (parts : List Part) (w : What) (role : Role) (p : Payload) : State :=
  held { update3 with node := 1, role := role, owner := .pass .all, payload := p }
    ((chain 4).setPass .all (some { newPass defaultSettings w .sweepAligned none [] with
      step := .reading, instant := some 519, parts := parts }))

/-- Module 1's part while it is served, and module 2's while it waits. -/
def twoParts (quiesced : Bool) (step : PartStep) : List Part :=
  [{ newPart 0 with step := step, quiesced := quiesced }, newPart 1]

/-- The state with another record of module 1. -/
def recorded (r : ModuleRecord) (s : State) : State := { s with map := { s.map with records := tput s.map.records 0 r } }

/-- What a statement about an OK or a failing answer of that transaction asks, but for LinkInv. -/
def served (s : State) (x : TxnSlot) (p : Pass) (y : Part) (status : Byte) (payload : List Byte)
    (u : Target := .one 0) : Bool :=
  !s.inReset && decide (receive (responseBytes 1 8 status payload)
      = .good { node := 1, tag := 8, status := status, payload := payload })
    && s.slot 0 == some x && x.tag == some 8 && x.node == 1 && x.owner == .pass u
    && s.passOf u == some p && (p.parts.find? fun z => z.module = 0) == some y && s.health 0 == .active && !(s.record 0).mark

theorem serving_good (w : What) (q : Bool) (role : Role) (p : Payload) :
    LinkInv (serving w q role p) ∧ TicketInv (serving w q role p) ∧ NoTicketWaits (serving w q role p) :=
  ⟨held_link _ _ ⟨Nat.le_refl 1, (by decide : 1 ≤ 3)⟩ rfl, noTickets (by intro q; cases q <;> rfl)⟩

theorem aligning_good (l : List Part) (w : What) (role : Role) (p : Payload) :
    LinkInv (aligning l w role p) ∧ TicketInv (aligning l w role p) ∧ NoTicketWaits (aligning l w role p) :=
  ⟨held_link _ _ ⟨Nat.le_refl 1, (by decide : 1 ≤ 3)⟩ rfl, noTickets (by intro q; cases q <;> rfl)⟩

/-- That of an answer to the aligned pass. -/
def servedAll (l : List Part) (w : What) (role : Role) (pl : Payload) (status : Byte) (payload : List Byte) : Bool :=
  match l with
  | y :: _ => served (aligning l w role pl) { update3 with node := 1, role := role, owner := .pass .all, payload := pl }
      { newPass defaultSettings w .sweepAligned none [] with step := .reading, instant := some 519, parts := l }
      y status payload .all
  | [] => false

/-- A single-module pass alone. -/
theorem passInv_one {s : State} {m : Mod} {x : Pass} (hm : s.passOf (.one m) = some x)
    (hx : x.parts.map (·.module) = [m]) (h : ∀ k, k ≠ m → s.passOf (.one k) = none) (ha : s.passOf .all = none) :
    PassInv s := by
  refine ⟨fun k p hp => ?_, fun p hp => ?_, fun k hk => ?_⟩
  · by_cases hk : k = m
    · subst hk
      rw [hm] at hp
      cases hp
      exact hx
    · rw [h k hk] at hp
      cases hp
  · rw [ha] at hp
    cases hp
  · rw [ha] at hk
    cases hk

/-- An aligned pass alone. -/
theorem passInv_all {s : State} {x : Pass} (ha : s.passOf .all = some x) (hx : x.parts ≠ [])
    (ho : (x.parts.map (·.module)).Pairwise (· < ·)) (h : ∀ m, s.passOf (.one m) = none) : PassInv s := by
  refine ⟨fun k p hp => ?_, fun p hp => ?_, fun k _ => h k⟩
  · rw [h k] at hp
    cases hp
  · rw [ha] at hp
    cases hp
    exact ⟨hx, ho⟩

theorem witness_StepsKeepOnePassPerModule :
    let s := { timed .settling .settle with pending := [.settleExpiry (.one 0)] }
    let a := { alignedWait with pending := [.alignedWaitExpiry] }
    (PassInv s ∧ ∃ t, step s = .next t) ∧ PassInv a ∧ ∃ t, step a = .next t :=
  ⟨⟨passInv_one (m := 0) (x := rolling 0 .settling (some { kind := .settle, due := 2 })) (by decide +kernel)
      (by decide) (by decide +kernel) (by decide +kernel), isNext_elim (by decide +kernel)⟩,
    passInv_all (x := { newPass defaultSettings .cells .sweepAligned none [0, 1, 2, 3] with
      step := .converting, instant := some 519, timer := some { kind := .conversion, due := 529 } })
      (by decide +kernel) (by decide) (by decide) (by decide +kernel), isNext_elim (by decide +kernel)⟩

theorem witness_StepsKeepTheSweep :
    let s := { visiting with pending := [.visitDecision] }
    SweepInv s ∧ ∃ t, step s = .next t := by
  refine ⟨?_, isNext_elim (by decide +kernel)⟩
  constructor <;> decide +kernel

/-! ## Witnesses: requests -/

theorem witness_FramesClockOutTheSlot :
    let s := State.reset.setPort .A { resetPort with slot := .preparing 0x21 resetAnswer }
    (s.inReset = false ∧ (s.port .A).slot = .preparing 0x21 resetAnswer ∧ (s.port .A).frame = .idle)
    ∧ ((State.reset.port .B).frame = .idle ∧ State.reset.inReset = false
      ∧ (State.reset.port .B).slot = .ready resetAnswer)
    ∧ (resting.port .A).frame = .idle ∧ resting.inReset = true := by decide +kernel

theorem witness_SomeFramesOnlyEnd :
    ((State.reset.setPort .A { resetPort with frame := .running [4] true }).port .A).frame = .running [4] true
    ∧ (begun .A State.reset).frameEnding .A = true := by decide +kernel

theorem witness_BadFramesAreRefused :
    (begun .A State.reset).frameEnding .A = true
    ∧ (∀ code ∈ [0x00, 0x0F, 0x14, 0x1F, 0x72, 0xFF], (code : Byte) ∉ requestCodes)
    ∧ (Instr.request (.readEntry .A [0, 5]) = some (.A, 0x20, [0, 5]) ∧ [0, 5].length ≤ argumentBytes 0x20)
    ∧ (Instr.request (.nop .A []) = some (.A, 0x10, []) ∧ 0 ≤ argumentBytes 0x10)
    ∧ Instr.request (.nop .A [0xEE]) = some (.A, 0x10, [0xEE])
    ∧ [0xEE][argumentBytes 0x10]? = some 0xEE ∧ (0xEE : Byte) ≠ crc8 [0x10] := by decide +kernel

theorem witness_UntakenRequestIsDiscarded :
    Instr.request (.popEvents .A (goodRest 0x50 [1] [])) = some (.A, 0x50, goodRest 0x50 [1] [])
    ∧ resting.inReset = true
    ∧ ((after .deviceReset (after (.frameStart .A) State.reset)).port .A).frame = .cut
    ∧ ((State.reset.setPort .A { resetPort with frame := .running [4] true }).port .A).frame = .running [4] true
    ∧ ((State.reset.setPort .A { resetPort with slot := .preparing 0x21 resetAnswer }).port .A).slot
      = .preparing 0x21 resetAnswer := by decide +kernel

theorem witness_RequestWithoutAFrameIsAWholeFrame :
    (State.reset.port .A).frame = .idle
    ∧ Instr.request (.nop .A [0xEE]) = some (.A, 0x10, [0xEE]) ∧ (0x99 : Byte) ∉ requestCodes := by decide

theorem witness_IdentAndStatusAnswer :
    (begun .A State.reset).frameEnding .A = true ∧ (begun .B (holding 9 fourteen)).frameEnding .B = true := by
  decide +kernel

theorem witness_SessionResetWithdrawsThePortsClaims :
    (begun .A contended).frameEnding .A = true ∧ (begun .A (holding 100000 ticketed)).frameEnding .A = true := by
  decide +kernel

theorem witness_ReadEntryAnswersTheRecord :
    (begun .B twoInstants).frameEnding .B = true ∧ ((0x00 : Byte) ++ (0x00 : Byte)).toNat = entryIndex 0 (.cell 0)
    ∧ ((0x01 : Byte) ++ (0x07 : Byte)).toNat = entryIndex 11 .die ∧ 263 < ((0x01 : Byte) ++ (0x08 : Byte)).toNat := by
  decide +kernel

theorem witness_LatchCopiesARunOrRefuses :
    let good (first count : Nat) (option : Byte) : Bool :=
      (option = 0 ∨ option = 1) ∧ 1 ≤ count ∧ count ≤ 32 ∧ first + count ≤ 264
    let shared (run : List HoldCopy) : Bool := ∀ c ∈ run, ∀ d ∈ run, c.record.quality = .fresh →
      d.record.quality = .fresh → c.record.instant = d.record.instant
    let s := begun .A twoInstants
    s.frameEnding .A = true
    ∧ (good ((0 : Byte) ++ (0 : Byte)).toNat 1 1 ∧ shared (copyRun s 0 1))
    ∧ good ((0 : Byte) ++ (232 : Byte)).toNat 32 0
    ∧ ¬good ((0 : Byte) ++ (233 : Byte)).toNat 32 0 ∧ ¬good 0 0 0 ∧ ¬good 0 33 0 ∧ ¬good 0 32 2
    ∧ (good ((0 : Byte) ++ (0 : Byte)).toNat 32 1 ∧ ¬shared (copyRun s 0 32)) := by
  decide +kernel

theorem witness_ReadHoldReturnsTheCopies :
    let e := begun .A State.reset
    let s := begun .A fourteen
    (e.frameEnding .A = true ∧ HoldGood (e.port .A).hold ∧ (e.port .A).hold.copies = [])
    ∧ s.frameEnding .A = true ∧ HoldGood (s.port .A).hold
    ∧ (s.port .A).hold.copies.length ≤ (14 : Byte).toNat ∧ (0 : Byte) = 0 ∧ 32 < (33 : Byte).toNat
    ∧ (s.port .A).hold.header = some { instant := 120450, counter := 3311, coherent := true }
    ∧ (13 : Byte).toNat < (s.port .A).hold.copies.length ∧ 1 ≤ (1 : Byte).toNat ∧ (32 : Byte).toNat ≤ 32 := by
  refine ⟨⟨by decide +kernel, ?_, by decide +kernel⟩, by decide +kernel, ?_, by decide +kernel⟩ <;>
    constructor <;> decide +kernel

/-- A read of 16 cells with the last open, and one of 4 temperatures, of a pass that reads on, restores or ends; and, of an
aligned pass, where the next module is served and where the pass ends. -/
theorem witness_RenewalWritesTheGroup :
    let mi := (lowCell.setModuleImage 4 { lowCell.moduleImage 4 with die := clearedEntry }).moduleImage 4
    let slot (r : Role) : TxnSlot :=
      { update3 with node := 1, role := r, owner := .pass (.one 0), payload := .empty }
    let y (q : Bool) : Part := { newPart 0 with step := .reading, quiesced := q }
    let p (w : What) (q : Bool) : Pass := { rolling 0 .reading none with what := w, parts := [y q] }
    let cells : List Byte := [16] ++ List.replicate 32 0x10 ++ [0x80, 0x00]
    let aux : List Byte := [4] ++ List.replicate 8 0x01 ++ [0x0F, 0x63, 0x60, 0x01, 0x2C]
    let s := serving .cells false .readCells .empty
    (groupOf (.cell 15) = .cells ∧ populated (chanEntry mi (.cell 15)) = true ∧ groupOf .die ≠ .cells
      ∧ populated (chanEntry mi .die) = false)
    ∧ (cells.length = 3 + 2 * (s.record 0).cellCount ∧ (cells.getD 0 0).toNat = (s.record 0).cellCount
      ∧ aux.length = 6 + 2 * (s.record 0).tempCount ∧ (aux.getD 0 0).toNat = (s.record 0).tempCount)
    ∧ served (serving .both true .readCells .empty) (slot .readCells) (p .both true) (y true) 0 cells
    ∧ served (serving .cells true .readCells .empty) (slot .readCells) (p .cells true) (y true) 0 cells
    ∧ served s (slot .readCells) (p .cells false) (y false) 0 cells
    ∧ served (serving .aux true .readAux .empty) (slot .readAux) (p .aux true) (y true) 0 aux
    ∧ served (serving .both false .readAux .empty) (slot .readAux) (p .both false) (y false) 0 aux
    ∧ ((s.balanceOf 0).commanded = .mask (s.balanceOf 0).decided
      ∧ ∀ l w r, (aligning l w r .empty).balanceOf 0 = s.balanceOf 0)
    ∧ (servedAll (twoParts false .reading) .cells .readCells .empty 0 cells
      ∧ servedAll (twoParts false .reading) .aux .readAux .empty 0 aux
      ∧ servedAll ((twoParts false .reading).take 1) .cells .readCells .empty 0 cells
      ∧ servedAll ((twoParts false .reading).take 1) .aux .readAux .empty 0 aux
      ∧ ((twoParts false .reading).find? fun z => z.module ≠ 0 ∧ z.step = .waiting) = some (newPart 1)
      ∧ (∀ z ∈ (twoParts false .reading).take 1, z.module ≠ 0 → z.step ≠ .waiting)
      ∧ (∀ l w r, LinkInv (aligning l w r .empty) ∧ TicketInv (aligning l w r .empty)
        ∧ NoTicketWaits (aligning l w r .empty)))
    ∧ ∀ w q r, LinkInv (serving w q r .empty) ∧ TicketInv (serving w q r .empty) ∧ NoTicketWaits (serving w q r .empty) := by
  refine ⟨?_, ?_, ?_, ?_, ?_, ?_, ?_, ⟨?_, fun _ _ _ => rfl⟩,
    ⟨?_, ?_, ?_, ?_, ?_, ?_, fun l w r => aligning_good l w r .empty⟩, fun w q r => serving_good w q r .empty⟩ <;> decide +kernel

theorem witness_DeadlineMakesTheSetStale :
    aged.inReset = false ∧ aged.deadlineDue 2 .cells = true := by decide +kernel

/-- Port A's queue with three tickets, the last id 254. -/
def three : State :=
  (chain 4).setTickets .A
    { tickets := [255, 0, 254].map fun id => { id := id, module := 0, what := .cells, state := .queued }, lastId := 254 }

theorem witness_DirectIssuesATicket :
    let s := begun .A three
    let j := begun .A (timed .settling .settle)
    (s.frameEnding .A = true ∧ whatOf 1 = some .cells ∧ whatOf 3 = some .both
      ∧ modOfNumber (1 : Byte).toNat = some 0 ∧ modOfNumber (4 : Byte).toNat = some 3 ∧ (4 : Byte).toNat ≤ s.map.n
      ∧ s.map.state ≠ .enumerating ∧ (s.ticketQueue .A).tickets.length = 3)
    ∧ j.frameEnding .A = true ∧ j.joinable 0 .both = some (.one 0) := by
  decide +kernel

theorem witness_CancelRemovesATicket :
    let k : Ticket := { id := 7, module := 2, what := .cells, state := .joined .all }
    let s (st : TicketState) := begun .B ((chain 4).setTickets .B { tickets := [{ k with state := st }], lastId := 7 })
    let t := begun .A ticketed
    (t.frameEnding .A = true ∧ (∀ k ∈ (t.ticketQueue .A).tickets, k.id ≠ 1))
    ∧ ((s .queued).ticketQueue .B).tickets.find? (fun k => k.id = 7) = some { k with state := .queued }
    ∧ ((s (.joined .all)).ticketQueue .B).tickets.find? (fun k => k.id = 7) = some k
    ∧ ((s (.running (.one 2))).ticketQueue .B).tickets.find? (fun k => k.id = 7)
      = some { k with state := .running (.one 2) }
    ∧ (s .queued).frameEnding .B = true := by decide +kernel

theorem witness_BalanceRecordsTheRequests :
    let s := begun .B contended
    s.frameEnding .B = true
    ∧ 1 ≤ ((0x00 : Byte) ++ (0x01 : Byte)).toNat ∧ ((0x0E : Byte) ++ (0x10 : Byte)).toNat = 3600
    ∧ ((0x80 : Byte) ++ (0x01 : Byte)).toNat ≠ 0 ∧ s.map.state ≠ .enumerating
    ∧ modOfNumber (2 : Byte).toNat = some 1 ∧ (2 : Byte).toNat ≤ s.map.n
    ∧ ∀ c, inMask ((0x80 : Byte) ++ (0x01 : Byte)) c = true
      → populated (tget (s.moduleImage 1).cell c) = true := by decide +kernel

theorem witness_ClaimsAreWithdrawnAndMarked :
    let s := begun .A contended
    s.frameEnding .A = true ∧ modOfNumber (1 : Byte).toNat = some 0 ∧ modOfNumber (4 : Byte).toNat = some 3
    ∧ (4 : Byte).toNat ≤ s.map.n ∧ s.map.state ≠ .enumerating := by decide +kernel

theorem witness_BalanceTimesAreReadAndCleared :
    let s := begun .A counting
    let h := begun .A (holding 100000 counting)
    s.frameEnding .A = true
    ∧ modOfNumber (1 : Byte).toNat = some 0 ∧ modOfNumber (12 : Byte).toNat = some 11
    ∧ modOfNumber (0 : Byte).toNat = none ∧ modOfNumber (13 : Byte).toNat = none ∧ 12 < (13 : Byte).toNat
    ∧ (0 : Byte).toNat ≤ 12 ∧ (12 : Byte).toNat ≤ 12 ∧ s.holds .A = false
    ∧ h.frameEnding .A = true ∧ h.token = .held .A 10 100000 := by
  decide +kernel

theorem witness_DecisionRespectsBlocksAndCapacity :
    let b := onCells 0x0006 (setRequest .B (some 9)) (contended.balanceOf 1)
    let d := decideModule { contended.decisionInput 1 with capacity := 1 } (contended.moduleImage 1) b
    inMask d.decided 1 = true ∧ inMask d.decided 2 = false ∧ requested (tget b.cells 1) = true
    ∧ blockCauseOf (contended.decisionInput 1) (contended.moduleImage 1) 1 (tget b.cells 1) = none := by decide +kernel

theorem witness_BalanceEventsDecideAndCount :
    ending.inReset = false ∧ ending.requestsDue 1 = true
    ∧ counting.inReset = false ∧ counting.balance.onTimer = counting.ticks := by decide +kernel

theorem witness_PopRemovesTheOldest :
    (begun .A queued).frameEnding .A = true ∧ (0 : Byte) = 0 ∧ 8 < (9 : Byte).toNat ∧ 1 ≤ (1 : Byte).toNat ∧ (8 : Byte).toNat ≤ 8 := by
  decide +kernel

theorem witness_EventCountAnswersTheQueue :
    (begun .A queued).frameEnding .A = true ∧ (begun .B (State.reset.setQueue .B overflowing)).frameEnding .B = true := by decide +kernel

/-- The storing table at its edges: 30 and 31 records, and a full queue with its OVERFLOW record. -/
theorem witness_StoringFollowsTheTable :
    let some30 := { overflowing with records := overflowing.records.take 30 }
    let some31 := { overflowing with records := overflowing.records.take 31 }
    ({ overflowing with subscribe := 0 } : EventQueue).subscribe.getLsbD (kindCode .groupStale) = false
    ∧ overflowing.subscribe.getLsbD (kindCode .groupStale) = true
    ∧ (∀ r ∈ some30.records, r.event.kind ≠ .overflow) ∧ some30.records.length = 30
    ∧ (∀ r ∈ some31.records, r.event.kind ≠ .overflow) ∧ some31.records.length = 31
    ∧ overflowing.records = some31.records ++
      [{ seq := 32, event := { kind := .overflow, time := 9, value := some 1, cause := some (.dropped .sensorOpen) } }] := by
  decide +kernel

theorem witness_EventStoreTakesTheOldest :
    storing.inReset = false
    ∧ storing.raised.get .A = [{ kind := .moduleLost, time := 3, module := some 0 }] :: [] := by decide +kernel

theorem witness_TokenIsTakenAndLapses :
    let f := begun .A State.reset
    let h := begun .A (holding 9 State.reset)
    let b := begun .A { State.reset with token := .held .B 10 5 }
    let s := atTick 1080000 (holding 1080000 State.reset)
    (f.frameEnding .A = true ∧ f.token = .free)
    ∧ (h.frameEnding .A = true ∧ h.token = .held .A 10 9)
    ∧ (b.frameEnding .A = true ∧ Port.B ≠ .A ∧ b.token = .held .B 10 5)
    ∧ (0 : Byte) = 0 ∧ 60 < (61 : Byte).toNat ∧ 1 ≤ (1 : Byte).toNat ∧ (60 : Byte).toNat ≤ 60
    ∧ s.inReset = false ∧ s.token = .held .A 10 1080000 ∧ (s.timebase - 1080000).toNat = 0 := by decide +kernel

/-- A token that port A holds is not held by port B. -/
theorem held_elsewhere {s : State} {lease : Nat} {due : Tick} (h : s.token = .held .A lease due) :
    ∀ l d, s.token ≠ .held .B l d := by
  rw [h]
  intro l d e
  cases e

theorem witness_DropTokenFreesTheToken :
    let s := begun .A (begun .B (holding 9 State.reset))
    let f := begun .A State.reset
    (s.frameEnding .A = true ∧ s.token = .held .A 10 9) ∧ s.frameEnding .B = true ∧ (∀ l d, s.token ≠ .held .B l d)
    ∧ f.frameEnding .A = true ∧ ∀ l d, f.token ≠ .held .A l d :=
  ⟨by decide +kernel, by decide +kernel, held_elsewhere rfl, by decide +kernel, by intro l d h; cases h⟩

/-- Port A may SET this shared setting to this value, and the SET is accepted. -/
def settable (s : State) (k : SettingId) (code index b0 b1 b2 b3 : Byte) : Bool :=
  s.frameEnding .A && s.token == .held .A 10 9 && settingOf code == some k && setIndexGood k index.toNat
    && settingInRange k ((b0 ++ b1) ++ (b2 ++ b3)).toInt && !perPort k

/-- The least value of TEMP_LOW, −400, and the greatest of SWEEP_PERIOD, 2000; windows that an age has passed and has not;
the masks of modules 1 and 12, written empty and full; AUTO_RESTART written OFF and ON, the chain RUNNING, with every module
LOST, and DOWN; the least capacity. -/
theorem witness_SetStoresASharedSetting :
    let s := begun .A (holding 9 aged)
    let off (s : State) : State := { s with settings := { s.settings with autoRestart := false } }
    let lost := off (begun .A (holding 9 { chain 1 with map := { (chain 1).map with
      records := tput (chain 1).map.records 0 { active with state := .lost } } }))
    let down := off (begun .A (holding 9 retrying))
    (settable s .tempLow 0x14 0 0xFF 0xFF 0xFE 0x70 ∧ settable s .sweepPeriod 0x02 0 0 0 0x07 0xD0
      ∧ .tempLow ∉ [SettingId.fastWindow, .slowWindow, .populationMask, .autoRestart, .balanceCapacity])
    ∧ (settable s .fastWindow 0x05 0 0 0 0 10 ∧ settable s .fastWindow 0x05 0 0 0 0x13 0x88
      ∧ settable s .slowWindow 0x06 0 0 0 0 100
      ∧ (chanEntry (s.moduleImage 2) (.cell 0)).quality = .fresh
      ∧ (chanEntry (s.moduleImage 2) (.cell 0)).instant = some 48310
      ∧ 10 * 10 ≤ (s.timebase - 48310).toNat ∧ ¬5000 * 10 ≤ (s.timebase - 48310).toNat)
    ∧ (settable s .populationMask 0x10 1 0 0 0 0 ∧ settable s .populationMask 0x10 12 0 0 0xFF 0xFF
      ∧ modOfNumber (1 : Byte).toNat = some 0 ∧ modOfNumber (12 : Byte).toNat = some 11)
    ∧ (settable s .autoRestart 0x0F 0 0 0 0 0 ∧ s.settings.autoRestart = true
      ∧ settable (off s) .autoRestart 0x0F 0 0 0 0 1 ∧ (off s).settings.autoRestart = false
      ∧ (off s).map.state = .running ∧ 1 ≤ (off s).map.n ∧ (off s).health 0 ≠ .lost
      ∧ settable lost .autoRestart 0x0F 0 0 0 0 1 ∧ lost.map.state = .running ∧ lost.map.n = 1 ∧ lost.health 0 = .lost
      ∧ settable down .autoRestart 0x0F 0 0 0 0 1 ∧ down.map.state = .down)
    ∧ settable s .balanceCapacity 0x1B 0 0 0 0 1 := by decide +kernel

theorem witness_SetWritesAPortsOwnSets :
    (begun .A queued).frameEnding .A = true
    ∧ (((0 : Byte) ++ (0x03 : Byte)) ++ ((0xFF : Byte) ++ (0xFE : Byte))) &&& ~~~0x3FFFE#32 = 0
    ∧ (((0 : Byte) ++ (0 : Byte)) ++ ((0 : Byte) ++ (0 : Byte))) &&& ~~~0x3FFFE#32 = 0 := by decide +kernel

theorem witness_RefusalsChangeOnlyTheSlot :
    let s := begun .A { chain 4 with tickets := stocked.tickets }
    let e := begun .A State.reset
    (s.frameEnding .A = true ∧ e.frameEnding .A = true)
    ∧ (whatOf 0 = none ∧ whatOf 4 = none ∧ (whatOf 3).isSome = true ∧ e.map.state = .enumerating
      ∧ s.map.state ≠ .enumerating ∧ (0 : Byte) = 0 ∧ s.map.n < (5 : Byte).toNat ∧ (4 : Byte).toNat ≤ s.map.n
      ∧ 4 ≤ (s.ticketQueue .A).tickets.length)
    ∧ (((0 : Byte) ++ (0 : Byte)).toNat = 0 ∧ 3600 < ((0x0E : Byte) ++ (0x11 : Byte)).toNat
      ∧ ¬(((0x0E : Byte) ++ (0x10 : Byte)).toNat = 0 ∨ 3600 < ((0x0E : Byte) ++ (0x10 : Byte)).toNat
        ∨ ((0x80 : Byte) ++ (0 : Byte)).toNat = 0)
      ∧ 12 < (13 : Byte).toNat
      ∧ modOfNumber (4 : Byte).toNat = some 3 ∧ inMask ((0x80 : Byte) ++ (0 : Byte)) 15 = true
      ∧ populated (tget (s.moduleImage 3).cell 15) = false)
    ∧ settingOf 0x00 = none ∧ settingOf 0x1E = none ∧ settingOf 0x1A = some .sumTolerance
    ∧ (setIndexGood .sumTolerance (1 : Byte).toNat
        && settingInRange .sumTolerance (((0 : Byte) ++ (0 : Byte)) ++ ((0 : Byte) ++ (60 : Byte))).toInt) = false
    ∧ setIndexGood .sumTolerance (0 : Byte).toNat = true
    ∧ settingInRange .sumTolerance (((0 : Byte) ++ (0 : Byte)) ++ ((0 : Byte) ++ (60 : Byte))).toInt = true
    ∧ SettingId.sumTolerance ∉ [.subscribe, .alertMask] ∧ ∀ l d, e.token ≠ .held .A l d := by
  refine ⟨by decide +kernel, by decide +kernel, by decide +kernel, by decide, by decide, by decide, by decide +kernel,
    by decide, by decide +kernel, by decide, ?_⟩
  intro l d h
  cases h

theorem witness_GetAnswersTheValue :
    (begun .B queued).frameEnding .B = true ∧ (∀ k, settingOf 0x1E = some k → getIndexGood k (0 : Byte).toNat = false)
    ∧ (∀ k, settingOf 0x1C = some k → getIndexGood k (0 : Byte).toNat = false)
    ∧ settingOf 0x10 = some .populationMask ∧ modOfNumber (1 : Byte).toNat = some 0
    ∧ modOfNumber (12 : Byte).toNat = some 11
    ∧ settingOf 0x1C = some .subscribe ∧ settingOf 0x1D = some .alertMask ∧ settingOf 0x1A = some .sumTolerance := by
  refine ⟨by decide +kernel, ?_, ?_, by decide, by decide, by decide, by decide, by decide, by decide⟩ <;>
  · intro k h
    cases h <;> rfl

theorem witness_ChainRestartEndsEverythingOnTheChain :
    let s := begun .A (begun .B (holding 9 contended))
    (s.frameEnding .A = true ∧ s.token = .held .A 10 9)
    ∧ (s.frameEnding .B = true ∧ ∀ l d, s.token ≠ .held .B l d)
    ∧ retrying.inReset = false ∧ retrying.map.retryDue = some 10000 ∧ (retrying.timebase - 10000).toNat = 0 :=
  ⟨by decide +kernel, ⟨by decide +kernel, held_elsewhere rfl⟩, by decide +kernel⟩

theorem witness_ReadMapAnswersTheMap : (begun .A retrying).frameEnding .A = true ∧ (begun .B (chain 4)).frameEnding .B = true := by decide +kernel

/-! ## Witnesses: the chain link -/

/-- One item is offered. -/
def offering (k : ItemKind) (s : State) : State :=
  { s with sched := { resetScheduler with items := [{ kind := k, readySince := some 0 }] } }

/-- Three slots are held, and the last tag issued is 15. -/
def nearlyFull (s : State) : State :=
  { s with link := { resetLink with
    slots := tbuild fun i => if i = 3 then none else some { update3 with tag := some (BitVec.ofNat 4 i.val) } } }

/-- The lane busy; nothing offered; each kind of item, a pass's read among them; and R106's choice on rung 5. -/
theorem witness_GrantSendsTheChosenItem :
    let it (k : ItemKind) : WorkItem := { kind := k, readySince := some 0 }
    let reads := offering (.passStep (.one 0) .readCells) rereading
    let port (p : Port) (m : Mod) : Pass := newPass defaultSettings .cells (directedOrigin p) none [m]
    let both : State := ((chain 4).setPass (.one 0) (some (port .B 0))).setPass (.one 1) (some (port .A 1))
    let contest : State := { both with sched := { resetScheduler with
      items := [it (.passStep (.one 0) .first), it (.passStep (.one 1) .first)] } }
    (State.reset.inReset = false ∧ State.reset.grantDue = some (it .release))
    ∧ (sent.inReset = false ∧ sent.link.sending ≠ none)
    ∧ ((chain 4).inReset = false ∧ ∀ jt ∈ (chain 4).sched.items, grantable (chain 4) jt = false)
    ∧ (offering .assign State.reset).grantDue = some (it .assign)
    ∧ (offering .probe State.reset).grantDue = some (it .probe)
    ∧ (offering (.update 0) (chain 4)).grantDue = some (it (.update 0))
    ∧ (offering (.ping 11) (nearlyFull (chain 12))).grantDue = some (it (.ping 11))
    ∧ reads.grantDue = some (it (.passStep (.one 0) .readCells))
    ∧ ((reads.passOf (.one 0)).bind fun x => x.parts.find? fun z => z.step = .reading ∨ z.step = .restoring)
      = some { newPart 0 with step := .reading, rereadCells := true }
    ∧ contest.sched.lastServed = .B ∧ contest.grantDue = some (it (.passStep (.one 1) .first))
    ∧ freeSlot resetLink = some 0 ∧ drawTag resetLink = some 0
    ∧ freeSlot (nearlyFull (chain 12)).link = some 3 ∧ drawTag (nearlyFull (chain 12)).link = some 3 := by decide +kernel

/-- A CONVERT of one module and of all, a quiesce of one module and of all whose masks are UNKNOWN, and a restore. -/
theorem witness_ConvertGrantTakesTheInstant :
    let granted (u : Target) (act : PassAct) (x : Pass) : State :=
      offering (.passStep u act) (((chain 4).setPass u (some x)).setBalance 0
        { resetBalanceModule with commanded := .unknown })
    let due (u : Target) (act : PassAct) (x : Pass) : Bool :=
      let s := granted u act x
      !s.inReset && s.grantDue == some { kind := .passStep u act, readySince := some 0 } && s.passOf u == some x
        && freeSlot s.link == some 0 && drawTag s.link == some 0
    let one := rolling 0 .opened none
    let all := newPass defaultSettings .cells .sweepAligned none [0, 1, 2, 3]
    let restores : Pass := { one with step := .restoring, parts := [{ newPart 0 with step := .restoring }] }
    due (.one 0) .convert { one with step := .settling } ∧ due (.one 0) .first { one with quiesce := false }
    ∧ due .all .convert { all with step := .settling }
    ∧ due (.one 0) .first one ∧ due .all .first all ∧ (all.parts.map (·.module)).Nodup
    ∧ one.quiesce = true ∧ ((granted (.one 0) .first one).balanceOf 0).commanded ≠ .mask 0
    ∧ due (.one 0) .restore restores
    ∧ (restores.parts.find? fun z => z.step = .reading ∨ z.step = .restoring)
      = some { newPart 0 with step := .restoring } := by decide +kernel

/-- The frames of a broadcast and of a unicast, each ending now. -/
theorem witness_TransmissionEndStartsTheTimers :
    let u := after .grant (offering (.ping 0) (chain 4))
    let t := { u with linkTime := 20 }
    (sent.inReset = false
      ∧ sent.link.sending = some { bytes := commandBytes 15 1 0 .empty, endAt := 20, slot := none, broadcast := true,
                                   release := true }
      ∧ 20 ≤ sent.linkTime)
    ∧ t.inReset = false
    ∧ t.link.sending = some { bytes := commandBytes 1 3 0 .empty, endAt := 20, slot := some 0, broadcast := false,
                              release := false }
    ∧ 20 ≤ t.linkTime ∧ (t.slot 0).map (·.tag) = some (some 0) := by decide +kernel

theorem witness_LinkTimersEnd :
    let s := { State.reset with
      linkTime := 1020
      link := { resetLink with idleUntil := some 1020, gapUntil := some 1020,
                               quarantine := [{ tag := 15, endAt := 1020 }] }
      map := { resetMap with pauseEnd := some 1020 } }
    s.inReset = false ∧ 1020 ≤ s.linkTime ∧ s.link.idleUntil = some 1020 ∧ s.link.gapUntil = some 1020
    ∧ { tag := 15, endAt := 1020 } ∈ s.link.quarantine ∧ s.map.pauseEnd = some 1020 := by decide +kernel

/-- Slots 0 and 1 of `busyLink` in a RUNNING chain. -/
def busy : State := { chain 4 with link := busyLink, linkTime := 150 }

theorem witness_ArrivalsAreCountedOrMatched :
    let f : ResponseFrame := { node := 3, tag := 8, status := 4, payload := [] }
    busy.inReset = false ∧ receive [0x6A, 0x38, 0x00, 0x00, 0x00, 0x00] = .bad ∧ receive [0x00] = .noFrame
    ∧ (receive (responseBytes 7 10 0 []) = .good { node := 7, tag := 10, status := 0, payload := [] }
      ∧ ∀ i x, busy.slot i = some x → x.tag = some 10 → x.node ≠ 7)
    ∧ receive (responseBytes 3 8 4 []) = .good f ∧ LinkInv busy ∧ busy.slot 0 = some update3
    ∧ update3.tag = some f.tag ∧ update3.node = f.node ∧ f.status = 4
    ∧ update3.attemptsUsed < update3.attemptLimit := by
  refine ⟨by decide, by decide +kernel, by decide +kernel, ⟨by decide +kernel, ?_⟩, by decide +kernel, busyLink_good, by decide +kernel,
    by decide, by decide, by decide, by decide⟩
  have h : ∀ i, ∀ x ∈ busy.slot i, x.tag ≠ some 10 := by decide +kernel
  exact fun i x hx ht => absurd ht (h i x hx)

/-- The OK and a BAD_VERB to a stand-alone update of module 3: ACTIVE, SUSPECT, LOST, marked; one failure below LOST_THRESHOLD,
and one that reaches it, while other modules of the chain are not LOST. -/
theorem witness_UpdateAnsweredSetsTheCommandedMask :
    let f (st : Byte) : ResponseFrame := { node := 3, tag := 8, status := st, payload := [] }
    let of (r : ModuleRecord) : State := { busy with map := { busy.map with records := tput busy.map.records 2 r } }
    let lastOne (s : State) : Bool := allMods.all fun k => !(modNumber k ≤ s.map.n && k != 2) || s.health k == .lost
    (busy.inReset = false ∧ LinkInv busy ∧ receive (responseBytes 3 8 0 []) = .good (f 0)
      ∧ receive (responseBytes 3 8 3 []) = .good (f 3) ∧ busy.slot 0 = some update3
      ∧ update3.tag = some 8 ∧ update3.node = 3 ∧ update3.node = modNumber 2
      ∧ update3.role = .update ∧ update3.owner = .balance ∧ update3.payload = .mask 5 ∧ busy.health 2 = .active
      ∧ (busy.record 2).mark = false)
    ∧ ((of { active with state := .lost }).health 2 = .lost ∧ ((of { active with mark := true }).record 2).mark = true
      ∧ (of { active with state := .suspect }).health 2 = .suspect)
    ∧ lastOne busy = false ∧ busy.settings.lostThreshold = 3 ∧ (busy.record 2).failures = 0
    ∧ min 7 (((of { active with failures := 2 }).record 2).failures + 1) = 3 := by
  refine ⟨⟨by decide, busyLink_good, ?_⟩, ?_⟩ <;> decide +kernel

/-- Of a pass that has quiesced, the OK to its quiesce, CONVERT and restore, and a BAD_VERB to each; a read answered
NOT_CONVERTED, NOT_READY again, and short of samples, of a pass that has and has not quiesced; one failure below
LOST_THRESHOLD, and one that reaches it while other modules of the chain are not LOST. -/
theorem witness_UpdateAnsweredSetsTheCommandedMask_passes :
    let y (q : Bool) : Part := { newPart 0 with step := .reading, quiesced := q }
    let p (q : Bool) : Pass := { rolling 0 .reading none with parts := [y q] }
    let answered (q : Bool) (r : Role) (pl : Payload) (st : Byte) (d : List Byte) : Bool := served (serving .both q r pl)
      { update3 with node := 1, role := r, owner := .pass (.one 0), payload := pl } (p q) (y q) st d
    let y2 : Part := { y false with rereadCells := true }
    let s := serving .both true .quiesce (.mask 0)
    let lost := recorded { active with failures := 2 } (serving .both false .readCells .empty)
    answered true .quiesce (.mask 0) 0 [] ∧ answered true .convert (.what .both) 0 [] ∧ answered true .restore (.mask 5) 0 []
    ∧ answered true .quiesce (.mask 0) 3 [] ∧ answered true .convert (.what .both) 3 [] ∧ answered true .restore (.mask 5) 3 []
    ∧ answered true .readCells .empty 2 [] ∧ answered false .readCells .empty 2 [] ∧ answered false .readAux .empty 0 [4]
    ∧ served (held { update3 with node := 1, role := .readCells, owner := .pass (.one 0), payload := .empty }
        ((chain 4).setPass (.one 0) (some { p false with parts := [y2] })))
      { update3 with node := 1, role := .readCells, owner := .pass (.one 0), payload := .empty }
      { p false with parts := [y2] } y2 1 []
    ∧ min 7 ((s.record 0).failures + 1) < s.settings.lostThreshold
    ∧ (served lost { update3 with node := 1, role := .readCells, owner := .pass (.one 0), payload := .empty }
        (p false) (y false) 2 []
      ∧ lost.settings.lostThreshold ≤ min 7 ((lost.record 0).failures + 1) ∧ modNumber 1 ≤ lost.map.n
      ∧ lost.health 1 ≠ .lost)
    ∧ (LinkInv lost ∧ PassInv lost ∧ TicketInv lost ∧ NoTicketWaits lost)
    ∧ ∀ q r pl, LinkInv (serving .both q r pl) ∧ TicketInv (serving .both q r pl)
      ∧ NoTicketWaits (serving .both q r pl) := by
  refine ⟨?_, ?_, ?_, ?_, ?_, ?_, ?_, ?_, ?_, ?_, ?_, ?_, ⟨(serving_good .both false .readCells .empty).1,
    passInv_one (m := 0) (x := { rolling 0 .reading none with parts := [{ newPart 0 with step := .reading }] })
      (by decide +kernel) (by decide) (by decide +kernel) (by decide +kernel), noTickets (by intro q; cases q <;> rfl)⟩,
    serving_good .both⟩ <;> decide +kernel

/-- Of an aligned pass, the OK and a BAD_VERB to the restore of module 1, and a NOT_CONVERTED to a read of it, where module
2 waits to be served and where the pass ends. -/
theorem witness_UpdateAnsweredSetsTheCommandedMask_aligned :
    (∀ l ∈ [twoParts true .restoring, (twoParts true .restoring).take 1],
      servedAll l .both .restore (.mask 5) 0 [] ∧ servedAll l .both .restore (.mask 5) 3 [])
    ∧ (∀ l ∈ [twoParts false .reading, (twoParts false .reading).take 1], servedAll l .both .readCells .empty 2 [])
    ∧ servedAll (twoParts true .reading) .both .readCells .empty 2 []
    ∧ ((twoParts true .restoring).find? fun z => z.module ≠ 0 ∧ z.step = .waiting) = some (newPart 1)
    ∧ (∀ z ∈ (twoParts true .restoring).take 1, z.module ≠ 0 → z.step ≠ .waiting)
    ∧ ∀ l r pl, LinkInv (aligning l .both r pl) ∧ TicketInv (aligning l .both r pl)
      ∧ NoTicketWaits (aligning l .both r pl) := by
  refine ⟨?_, ?_, ?_, ?_, ?_, fun l r pl => aligning_good l .both r pl⟩ <;> decide +kernel

/-- The transaction of an ASSIGN step. -/
def assignSlot (n : Nat) : TxnSlot :=
  { update3 with node := 0, role := .assign, owner := .enumeration, payload := .number n }

/-- An ASSIGN step is outstanding in slot 0. -/
def assigning (n : Nat) : State := held (assignSlot n) { State.reset with map := { resetMap with nextNumber := n } }

/-- The first and the last ASSIGN, with the least and the greatest descriptors. -/
theorem witness_AssignRecordsTheModule :
    let f (c k : Byte) : ResponseFrame := { node := 0, tag := 8, status := 0, payload := [c, k, 1] }
    ((assigning 1).inReset = false ∧ LinkInv (assigning 1) ∧ receive (responseBytes 0 8 0 [1, 0, 1]) = .good (f 1 0)
      ∧ (assigning 1).slot 0 = some (assignSlot 1) ∧ (assigning 1).map.state = .enumerating
      ∧ (assigning 1).map.nextNumber = modNumber 0)
    ∧ ((assigning 12).inReset = false ∧ LinkInv (assigning 12)
      ∧ receive (responseBytes 0 8 0 [16, 4, 1]) = .good (f 16 4) ∧ (assigning 12).slot 0 = some (assignSlot 12)
      ∧ (assigning 12).map.state = .enumerating ∧ (assigning 12).map.nextNumber = modNumber 11)
    ∧ 1 ≤ (1 : Byte).toNat ∧ (16 : Byte).toNat ≤ 16 ∧ (0 : Byte).toNat ≤ 4 ∧ (4 : Byte).toNat ≤ 4
    ∧ (assignSlot 1).tag = some 8 ∧ (assignSlot 1).node = 0 ∧ (assignSlot 1).role = .assign
    ∧ (assignSlot 1).owner = .enumeration := by
  refine ⟨⟨by decide, held_link _ _ (by decide) (by decide), ?_⟩, ⟨by decide, held_link _ _ (by decide) (by decide), ?_⟩, by decide⟩ <;> decide +kernel

/-- The ends of an enumeration: the probe answered or timed out, the ASSIGN answered BAD_VERB, with 17 cells, or timed
out. -/
theorem witness_AssignRecordsTheModule_ends :
    let probe : TxnSlot := { assignSlot 0 with role := .probe, payload := .empty }
    let last (x : TxnSlot) : TxnSlot := { x with attemptsUsed := 3 }
    let s (x : TxnSlot) : State := held x { State.reset with map := { resetMap with n := 4 }, linkTime := 150 }
    let good (st : Byte) (pl : List Byte) : Bool :=
      decide (receive (responseBytes 0 8 st pl) = .good { node := 0, tag := 8, status := st, payload := pl })
    (LinkInv (s probe) ∧ (s probe).inReset = false ∧ (s probe).slot 0 = some probe ∧ probe.node = 0
      ∧ probe.owner = .enumeration ∧ probe.role = .probe ∧ (s probe).map.state = .enumerating)
    ∧ (LinkInv (s (assignSlot 5)) ∧ (s (assignSlot 5)).slot 0 = some (assignSlot 5))
    ∧ (good 0 [16, 4, 1] ∧ good 3 [] ∧ good 0 [17, 0, 1] ∧ 16 < (17 : Byte).toNat)
    ∧ ((s (last probe)).slot 0 = some (last probe) ∧ (s (last (assignSlot 5))).slot 0 = some (last (assignSlot 5))
      ∧ (last probe).windowEnd = some 150 ∧ 150 ≤ (s (last probe)).linkTime
      ∧ (last probe).attemptLimit ≤ (last probe).attemptsUsed) := by
  refine ⟨⟨held_link _ _ (by decide) (by decide), ?_⟩, ⟨held_link _ _ (by decide) (by decide), ?_⟩, ?_, ?_⟩ <;>
    decide +kernel

/-- A time-out with an attempt left, and at the limit: the module SUSPECT, LOST, the last of the chain, and LOST in its
pass. -/
theorem witness_TimeoutQuarantinesTheTag :
    let last (x : TxnSlot) : TxnSlot := { x with attemptsUsed := 3 }
    let failed (x : TxnSlot) (count : Nat) (s : State) : State :=
      held x { s with
        map := { s.map with records := tmap s.map.records fun _ r => { r with failures := count } }, linkTime := 150 }
    let gone (s : State) (x : TxnSlot) : Bool := !s.inReset && s.slot 0 == some x && x.tag == some 8
      && x.windowEnd == some 150 && 150 ≤ s.linkTime && x.attemptLimit ≤ x.attemptsUsed && x.owner != .enumeration
    let one : TxnSlot := last { update3 with node := 1 }
    let quiesce : TxnSlot := last { update3 with node := 1, role := .quiesce, owner := .pass (.one 0), payload := .mask 0 }
    let lost := failed quiesce 2 (serving .both false .quiesce (.mask 0))
    (busy.inReset = false ∧ busy.slot 0 = some update3 ∧ update3.tag = some 8 ∧ update3.windowEnd = some 150
      ∧ 150 ≤ busy.linkTime ∧ update3.attemptsUsed < update3.attemptLimit)
    ∧ (gone (failed one 0 (chain 4)) one ∧ (failed one 0 (chain 4)).health 0 = .active)
    ∧ (gone (failed one 2 (chain 4)) one ∧ (failed one 2 (chain 4)).settings.lostThreshold = 3
      ∧ (failed one 2 (chain 4)).health 1 ≠ .lost)
    ∧ (gone (failed one 2 (chain 1)) one ∧ (failed one 2 (chain 1)).settings.autoRestart = true
      ∧ (failed one 2 (chain 1)).map.state = .running ∧ (failed one 2 (chain 1)).map.n = 1
      ∧ ∀ k : Mod, modNumber k ≤ 1 → k = 0)
    ∧ (gone lost quiesce ∧ (lost.passOf (.one 0)).map (·.parts) = some [{ newPart 0 with step := .reading }])
    ∧ PassInv lost ∧ TicketInv lost ∧ NoTicketWaits lost := by
  refine ⟨by decide +kernel, by decide +kernel, by decide +kernel, by decide +kernel, by decide +kernel,
    passInv_one (m := 0) (x := { rolling 0 .reading none with parts := [{ newPart 0 with step := .reading }] })
      (by decide +kernel) (by decide) (by decide +kernel) (by decide +kernel),
    noTickets (by intro q; cases q <;> rfl)⟩

/-- A stand-alone update, and the CONVERT of a pass, at the head of the re-send queue. -/
theorem witness_ResendUsesAFreshTag :
    let x : TxnSlot := { update3 with
      tag := none, windowEnd := none, node := 1, role := .convert, owner := .pass (.one 0), payload := .what .both }
    let p := rolling 0 .converting none
    let s : State := { (chain 4).setPass (.one 0) (some p) with link := { resending.link with
      slots := tput resetLink.slots 0 (some x) } }
    (resending.inReset = false ∧ resending.link.sending = none ∧ resending.link.idleUntil = none
      ∧ resending.link.gapUntil = none ∧ resending.link.resendQueue = [0] ∧ drawTag resending.link = some 11
      ∧ resending.slot 0 = some { update3 with tag := none, windowEnd := none } ∧ update3.role ≠ .convert
      ∧ update3.role = .update ∧ update3.node = modNumber 2)
    ∧ s.inReset = false ∧ s.link.sending = none ∧ s.link.idleUntil = none ∧ s.link.gapUntil = none
    ∧ s.link.resendQueue = [0] ∧ drawTag s.link = some 11 ∧ s.slot 0 = some x ∧ x.role = .convert
    ∧ x.owner = .pass (.one 0) ∧ s.passOf (.one 0) = some p := by decide +kernel

theorem witness_ChainFramesReadBack :
    0 < 16 ∧ 15 < 16 ∧ (4 : Byte).toNat ≤ 4 ∧ (List.replicate 35 (0 : Byte)).length ≤ 35 := by decide +kernel

/-! ## Witnesses: passes, the sweep and the limits -/

/-- A LOST module, one whose pass is created, and one whose visit is skipped: under the pointer before the last, and at the
last with and without a start pending. -/
theorem witness_VisitDecisionBeginsTheVisit :
    let lost := { visiting with map := { visiting.map with
      records := tput visiting.map.records 0 { active with state := .lost } } }
    let counted (s : State) : State := { s with sweep := { s.sweep with
      auxCount := tput s.sweep.auxCount 0 (min 8 (tget s.sweep.auxCount 0 + 1)) } }
    let recent : State := withCells 0 (fun _ => fresh 36000) { chain 4 with
      sweep := visiting.sweep, settings := { defaultSettings with skipRecent := true } }
    let last (start : Bool) : State := { recent with
      map := { recent.map with n := 1 }, sweep := { recent.sweep with pendingStart := start } }
    (lost.inReset = false ∧ lost.visitDue = some 0 ∧ lost.health 0 = .lost)
    ∧ (visiting.inReset = false ∧ visiting.visitDue = some 0 ∧ visiting.health 0 ≠ .lost
      ∧ (counted visiting).skipVisit 0 = false)
    ∧ (recent.inReset = false ∧ recent.visitDue = some 0 ∧ recent.health 0 ≠ .lost ∧ (counted recent).skipVisit 0 = true
      ∧ recent.sweep.pointer < recent.map.n)
    ∧ ∀ b, (last b).inReset = false ∧ (last b).visitDue = some 0 ∧ (last b).health 0 ≠ .lost
      ∧ (counted (last b)).skipVisit 0 = true ∧ (last b).map.n ≤ (last b).sweep.pointer
      ∧ (last b).sweep.pendingStart = b := by decide +kernel

/-- Module 1's PING answered: in its visit, before the last and at the last; and in an aligned sweep with its pass open,
and with nothing left. Each with the recorded descriptor, another one, and a BAD_VERB; the module LOST, or marked. -/
theorem witness_VisitDecisionBeginsTheVisit_pings :
    let x : TxnSlot := { update3 with node := 1, role := .ping, owner := .sweep, payload := .empty }
    let lost : ModuleRecord := { active with state := .lost }
    let s (w : Sweep) (n : Nat) (r : ModuleRecord) : State := held x (recorded r { chain n with sweep := w })
    let visit : Sweep := { visiting.sweep with visit := .pinging }
    let aligned (isOpen : Bool) : Sweep :=
      { visiting.sweep with mode := .aligned, visit := .idle, alignedOpen := isOpen, pings := [0] }
    let reached (t : State) : Bool := !t.inReset && t.slot 0 == some x && t.health 0 != .absent && t.sweep.state == .running
    (receive (responseBytes 1 8 0 [16, 4, 1]) = .good { node := 1, tag := 8, status := 0, payload := [16, 4, 1] }
      ∧ receive (responseBytes 1 8 0 [16, 4, 2]) = .good { node := 1, tag := 8, status := 0, payload := [16, 4, 2] }
      ∧ receive (responseBytes 1 8 3 []) = .good { node := 1, tag := 8, status := 3, payload := [] })
    ∧ (x.tag = some 8 ∧ x.node = modNumber 0 ∧ (16 : Byte).toNat = lost.cellCount ∧ (4 : Byte).toNat = lost.tempCount
      ∧ (1 : Byte).toNat = lost.revision ∧ (2 : Byte).toNat ≠ lost.revision)
    ∧ (∀ r ∈ [lost, active, { lost with mark := true }],
      reached (s visit 4 r) ∧ reached (s visit 1 r) ∧ reached (s (aligned true) 4 r) ∧ reached (s (aligned false) 4 r))
    ∧ (visit.mode = .rolling ∧ visit.pointer = modNumber 0 ∧ visit.pointer < 4 ∧ visit.pendingStart = false
      ∧ (aligned false).mode = .aligned ∧ ((aligned false).pings.filter fun k => k ≠ 0) = [])
    ∧ ∀ w n r, LinkInv (s w n r) := by
  refine ⟨?_, ?_, ?_, ?_, fun w n r => held_link _ _ ⟨Nat.le_refl 1, (by decide : 1 ≤ 3)⟩ rfl⟩ <;> decide +kernel

theorem witness_PassesAreCreated :
    (ticketed.inReset = false
      ∧ ticketed.directedDue .A = some { id := 0, module := 2, what := .cells, state := .queued })
    ∧ reserving.inReset = false ∧ reserving.reserved = true ∧ reserving.anyPass = false
    ∧ reserving.participants ≠ [] := by decide +kernel

theorem witness_PassTimersOfferTheNextStep :
    let x (step : PassStep) (k : PassTimerKind) : Pass := rolling 0 step (some { kind := k, due := 2 })
    let y : Part := { newPart 0 with step := .reading, rereadCells := true }
    let r : Pass := { rolling 0 .reading (some { kind := .reread, due := 2 }) with parts := [y] }
    ((timed .settling .settle).inReset = false
      ∧ (timed .settling .settle).passOf (.one 0) = some (x .settling .settle)
      ∧ ((timed .settling .settle).timebase - 2).toNat = 0)
    ∧ (timed .converting .conversion).passOf (.one 0) = some (x .converting .conversion)
    ∧ (alignedWait.aligned.bind fun p => p.parts.find? fun z => z.step = .waiting) = some (newPart 0)
    ∧ (alignedWait.aligned.bind (·.timer)) = some { kind := .conversion, due := 529 }
    ∧ (alignedWait.timebase - 529).toNat = 0
    ∧ rereading.passOf (.one 0) = some r ∧ (r.parts.find? fun z => z.step = .reading ∨ z.step = .restoring) = some y := by
  decide +kernel

/-- The first NOT_READY to READ_CELLS and to READ_AUX. -/
theorem witness_PassTimersOfferTheNextStep_notReady :
    let y : Part := { newPart 0 with step := .reading }
    let answered (r : Role) : Bool := served (serving .both false r .empty)
      { update3 with node := 1, role := r, owner := .pass (.one 0), payload := .empty }
      { rolling 0 .reading none with parts := [y] } y 1 []
    answered .readCells ∧ answered .readAux ∧ y.rereadCells = false ∧ y.rereadAux = false
    ∧ ∀ r, LinkInv (serving .both false r .empty) := by
  refine ⟨?_, ?_, rfl, rfl, fun r => (serving_good .both false r .empty).1⟩ <;> decide +kernel

theorem witness_BoundaryStartsOrCountsAnOverrun :
    (let s := atTick 500 (chain 4);
      s.inReset = false ∧ s.sweep.nextBoundary = some 500 ∧ (s.timebase - 500).toNat = 0 ∧ s.sweep.state = .waiting)
    ∧ (let s := atTick (519 + 2 ^ 31 - 1) visiting;
      s.inReset = false ∧ s.sweep.nextBoundary = some 519 ∧ (s.timebase - 519).toNat = 2 ^ 31 - 1
        ∧ s.sweep.state = .running) := by decide +kernel

/-- A cell on and past CELL_UV, 25000, and CELL_OV, 42000; a LOW and a HIGH one on either side of their clearing values. -/
theorem witness_JudgementCountsStreaks :
    let st := defaultSettings
    let low : Entry := { fresh 24000 with limit := .low }
    let high : Entry := { fresh 43000 with limit := .high }
    (Chan.cell 0 ≠ .block ∧ (fresh 25000).limit = .within ∧ st.cellUv = 25000 ∧ st.cellOv = 42000 ∧ st.hystCell = 200)
    ∧ ((24999 : Int) < st.cellUv ∧ (25000 : Int) ≤ st.cellOv ∧ ¬(25000 : Int) < st.cellUv ∧ st.cellOv < 42001)
    ∧ (low.limit = .low ∧ st.cellUv + st.hystCell ≤ 25200 ∧ ¬st.cellUv + st.hystCell ≤ 25199)
    ∧ high.limit = .high ∧ (41800 : Int) ≤ st.cellOv - st.hystCell ∧ ¬(41801 : Int) ≤ st.cellOv - st.hystCell := by
  decide +kernel

theorem witness_LimitEventsTakeTheOldest :
    (lowCell.inReset = false ∧ lowCell.limits.work = [.receipt 4 8 [(.cell 9, 24860)]])
    ∧ summed.inReset = false ∧ summed.limits.work = [.sumCheck 3 1 2]
    ∧ sumCheckMade (summed.moduleImage 3) 1 2 = true := by decide +kernel

end Sys2Proof.Tests
end

