-- ==== Sys2Proof/Proofs/Entries.lean ====
section
namespace Sys2Proof.Machine

/-! ## The entries of the Pack Image stay good (R2 to R4, R119) -/

section Entries

variable {ch : Chan} {e : Entry}

theorem EntryGood.cleared (ch : Chan) : EntryGood ch clearedEntry := by
  constructor
  case value => cases ch <;> simp [valueInRange, clearedEntry]
  all_goals simp [clearedEntry]

/-- Quality and cause may change as long as they fit each other and the renewal number (R3). -/
theorem EntryGood.requalify (h : EntryGood ch e) {q : Quality} {c : Option FaultCause}
    (hc : c.isSome ↔ q = .faulted) (hu : q = .unpopulated → e.renewal = 0)
    (hn : e.renewal = 0 → q ≠ .fresh ∧ q ≠ .stale)
    (ho : c = some .sensorOpen → e.renewal ≠ 0 ∧ ch ≠ .block ∧ ch ≠ .die) :
    EntryGood ch { e with quality := q, cause := c } where
  cause := hc
  unpopulated := hu
  instant := h.instant
  source := h.source
  never h0 := ⟨(h.never h0).1, (h.never h0).2.1, hn h0⟩
  value := h.value
  openWire := ho
  block := h.block
  die := h.die
  streak := h.streak
  side := h.side

/-- Limit state, streak and side may change as long as they fit each other and the class (R119). -/
theorem EntryGood.rejudge (h : EntryGood ch e) {l : LimitState} {n : Nat} {d : StreakSide}
    (hb : ch ≠ .block) (hd : ch = .die → l ≠ .low ∧ d ≠ .low) (hn : n ≤ 8)
    (hs : d = .none ↔ l ≠ .within ∨ n = 0) :
    EntryGood ch { e with limit := l, streak := n, side := d } where
  cause := h.cause
  unpopulated := h.unpopulated
  instant := h.instant
  source := h.source
  never := h.never
  value := h.value
  openWire := h.openWire
  block hc := absurd hc hb
  die := hd
  streak := hn
  side := hs

/-- An entry of this quality has no cause. -/
theorem EntryGood.cause_none (h : EntryGood ch e) (hq : e.quality ≠ .faulted) : e.cause = none := by
  rw [← Option.not_isSome_iff_eq_none]
  exact fun hc => hq (h.cause.1 hc)

theorem EntryGood.pending (h : EntryGood ch e) : EntryGood ch { e with quality := .pending, cause := none } :=
  h.requalify (by simp) (by simp) (by simp) (by simp)

theorem EntryGood.pending_of_unpopulated (h : EntryGood ch e) (hq : populated e = false) :
    EntryGood ch { e with quality := .pending } := by
  have hu : e.quality = .unpopulated := by simpa [populated] using hq
  have hc := h.cause_none (by simp [hu])
  exact h.requalify (by simp [hc]) (by simp) (by simp) (by simp [hc])

/-- FAULTED with a cause other than SENSOR_OPEN fits every entry. -/
theorem EntryGood.faulted (h : EntryGood ch e) {c : FaultCause} (hc : c ≠ .sensorOpen) :
    EntryGood ch { e with quality := .faulted, cause := some c } :=
  h.requalify (by simp) (by simp) (by simp) (by simp [hc])

theorem EntryGood.stale (h : EntryGood ch e) (hq : e.quality = .fresh) : EntryGood ch { e with quality := .stale } := by
  have hc := h.cause_none (by simp [hq])
  exact h.requalify (by simp [hc]) (by simp) (fun h0 => absurd hq (h.never h0).2.2.1) (by simp [hc])

/-! ### Each rewriting of an entry -/

theorem EntryGood.enumerationEnd (h : EntryGood ch e) (q : Bool) : EntryGood ch (enumerationEndEntry q e) := by
  unfold enumerationEndEntry
  split
  · split
    · exact h.pending
    · exact h
  · exact .cleared ch

theorem EntryGood.restart (h : EntryGood ch e) : EntryGood ch (restartEntry e) := by
  unfold restartEntry
  split
  · exact h.faulted (by decide)
  · exact h

theorem EntryGood.lose (h : EntryGood ch e) : EntryGood ch (loseEntry e) := by
  rw [loseEntry_eq]
  split
  · exact h.faulted (by decide)
  · exact h

theorem EntryGood.maskWrite (h : EntryGood ch e) (old new : CellMask) (q lost : Bool) :
    EntryGood ch (maskWriteEntry old new q lost ch e) := by
  cases ch with
  | cell c =>
    simp only [maskWriteEntry]
    split
    · exact h
    · split
      · split
        · next hp =>
          have hu : populated e = false := by
            rw [Bool.and_eq_true, Bool.not_eq_true'] at hp
            exact hp.1
          split
          · exact h.faulted (by decide)
          · exact h.pending_of_unpopulated hu
        · exact h
      · exact .cleared _
  | temp c => exact h
  | block => exact h
  | die => exact h

theorem EntryGood.expire (h : EntryGood ch e) (k : DeadlineKind) : EntryGood ch (expireEntry k ch e) := by
  unfold expireEntry
  split
  · next hq =>
    rw [Bool.and_eq_true, beq_iff_eq] at hq
    exact h.stale hq.2
  · exact h

/-! ### Judgements (R122 to R124) -/

/-- A sample on a far side names a side to count toward, for a DIE entry never LOW. -/
theorem sideOf_some {st : Settings} {v : Int} {k : LimitKind} {l : LimitState} {d : StreakSide}
    (h : sideOf st ch v = some (k, l, d)) :
    d ≠ .none ∧ (ch = .die → l ≠ .low ∧ d ≠ .low) := by
  unfold sideOf at h
  split at h
  · cases h
    exact ⟨by decide, by simp⟩
  · obtain ⟨k', hk, he⟩ := Option.map_eq_some_iff.1 h
    cases he
    refine ⟨by decide, ?_⟩
    rintro rfl
    simp [lowKind] at hk

theorem EntryGood.countFar (h : EntryGood ch e) {st : Settings} (h8 : st.streakLimit ≤ 8) (hw : e.limit = .within)
    {k : LimitKind} {l : LimitState} {d : StreakSide} (hd : d ≠ .none) (hb : ch ≠ .block)
    (hdie : ch = .die → l ≠ .low ∧ d ≠ .low) : EntryGood ch (countFar st k l d e).entry := by
  unfold Machine.countFar
  dsimp only
  generalize hn : (if e.side = d then e.streak + 1 else 1) = n
  have hpos : n ≠ 0 := by rw [← hn]; split <;> omega
  split
  · exact h.rejudge hb (fun hc => ⟨(hdie hc).1, by decide⟩) (by omega) (by simp)
  · next hlim =>
    have hlt : n < st.streakLimit := by
      simp only [Bool.or_eq_true, decide_eq_true_eq, not_or, not_le] at hlim
      exact hlim.2
    exact h.rejudge hb (fun hc => ⟨by simp [hw], (hdie hc).2⟩) (by omega) (by simp [hd, hw, hpos])

theorem EntryGood.judgeWithin (h : EntryGood ch e) {st : Settings} (h8 : st.streakLimit ≤ 8) (hw : e.limit = .within)
    (hb : ch ≠ .block) (v : Int) : EntryGood ch (judgeWithin st ch v e).entry := by
  unfold Machine.judgeWithin
  split
  · next hs =>
    obtain ⟨hd, hdie⟩ := sideOf_some hs
    exact h.countFar h8 hw hd hb hdie
  · exact h.rejudge hb (fun _ => ⟨by simp [hw], by decide⟩) (by omega) (by simp)

theorem EntryGood.judgeOutside (h : EntryGood ch e) {st : Settings} (h8 : st.streakLimit ≤ 8) (hw : e.limit ≠ .within)
    (hb : ch ≠ .block) (k : LimitKind) (v : Int) : EntryGood ch (judgeOutside st k v e).entry := by
  have hs : e.side = .none := h.side.2 (.inl hw)
  unfold Machine.judgeOutside
  split
  · split
    · exact h.rejudge hb (fun _ => by decide) (by omega) (by simp)
    · exact h.rejudge hb h.die (by omega) (by simp [hs, hw])
  · exact h.rejudge hb h.die (by omega) (by simp [hs])

theorem EntryGood.judge (h : EntryGood ch e) {st : Settings} (h8 : st.streakLimit ≤ 8) (v : Int) :
    EntryGood ch (judge st ch v e).entry := by
  unfold Machine.judge
  split
  · exact h
  · next hb =>
    split
    · next hl => exact h.judgeWithin h8 hl hb v
    · next hl =>
      split
      · exact h.judgeOutside h8 (by simp [hl]) hb _ v
      · exact h
    · next hl =>
      split
      · exact h.judgeOutside h8 (by simp [hl]) hb _ v
      · exact h

theorem EntryGood.judgeEntry (h : EntryGood ch e) {st : Settings} (h8 : st.streakLimit ≤ 8) (xs : List (Chan × Int)) :
    EntryGood ch (judgeEntry st xs ch e) := by
  unfold Machine.judgeEntry
  split
  · exact h.judge h8 _
  · exact h

/-- Every event at the Image other than a renewal keeps an entry good. -/
theorem EntryGood.step {s : State} (h8 : s.settings.streakLimit ≤ 8) {f : Chan → Entry → Entry} (hf : EntryStep s f)
    (h : EntryGood ch e) : EntryGood ch (f ch e) := by
  cases hf with
  | populate q =>
    dsimp only
    split
    · next hp =>
      rw [Bool.and_eq_true, Bool.not_eq_true'] at hp
      exact h.pending_of_unpopulated hp.1
    · exact h
  | enumerationEnd q => exact h.enumerationEnd _
  | restart => exact h.restart
  | lose => exact h.lose
  | maskWrite old new q lost => exact h.maskWrite _ _ _ _
  | expire k => exact h.expire k
  | judge xs => exact h.judgeEntry h8 xs

/-! ### Renewals (R7, R10, R11) -/

theorem nextCounter_ne_zero (c : BitVec 32) : nextCounter c ≠ 0 := by
  unfold nextCounter
  split
  · decide
  · next hc =>
    change c ≠ 0xFFFFFFFF#32 at hc
    bv_omega

/-- A sample of the right range for its class stores a value in range, and only CELL and TEMP samples are open (R2). -/
theorem SamplesGood.stored {samples : Chan → Option Sample} (hs : SamplesGood samples) {x : Sample}
    (hx : samples ch = some x) :
    valueInRange ch (storedValue ch x.value) ∧ (x.openWire = true → ch ≠ .block ∧ ch ≠ .die) := by
  cases ch with
  | cell c => exact ⟨hs.cell c x hx, fun _ => ⟨nofun, nofun⟩⟩
  | temp c => exact ⟨by simp only [valueInRange, storedValue]; omega, fun _ => ⟨nofun, nofun⟩⟩
  | block =>
    obtain ⟨h0, h1, ho⟩ := hs.block x hx
    exact ⟨⟨h0, h1⟩, by simp [ho]⟩
  | die => exact ⟨by simp only [valueInRange, storedValue]; omega, by simp [hs.die x hx]⟩

theorem EntryGood.takeSample (h : EntryGood ch e) {now : Tick} {window : Nat} {info : RenewalInfo} {n : BitVec 32}
    {x : Sample} (hn : n ≠ 0#32) (hv : valueInRange ch (storedValue ch x.value))
    (ho : x.openWire = true → ch ≠ .block ∧ ch ≠ .die) : EntryGood ch (takeSample now window info n ch x e) := by
  unfold Machine.takeSample
  dsimp only
  split
  · next hw =>
    exact { cause := by simp, unpopulated := by simp, instant := by simp [hn], source := by simp [hn],
            never := fun h0 => absurd h0 hn, value := h.value, openWire := fun _ => ⟨hn, ho hw⟩, block := h.block,
            die := h.die, streak := h.streak, side := h.side }
  · exact { cause := by split <;> simp, unpopulated := by split <;> simp, instant := by simp [hn],
            source := by simp [hn], never := fun h0 => absurd h0 hn, value := hv, openWire := by simp,
            block := h.block, die := h.die, streak := h.streak, side := h.side }

theorem EntryGood.renew (h : EntryGood ch e) {now : Tick} {st : Settings} {g : Machine.Group}
    {samples : Chan → Option Sample} (hs : SamplesGood samples) {info : RenewalInfo} {n : BitVec 32} (hn : n ≠ 0) :
    EntryGood ch (renewEntry now st g samples info n ch e) := by
  unfold renewEntry
  split
  · split
    · next hx => exact h.takeSample hn (hs.stored hx).1 (hs.stored hx).2
    · exact h
  · exact h

end Entries

end Sys2Proof.Machine
end

