-- ==== Sys2Proof/Proofs/ImageInvariant.lean ====
section
namespace Sys2Proof.Machine

/-! ## Settings in range (R200) -/

/-- A write of one setting leaves the others (R204). -/
theorem settingValue_writeSetting_other {k k' : SettingId} (hk : k' ≠ k) (m j : Mod) (v : Int) (st : Settings) :
    settingValue (writeSetting m k v st) j k' = settingValue st j k' := by
  cases k' <;> cases k <;> first | rfl | exact absurd rfl hk

/-- Every mask is in the range of POPULATION_MASK (R220). -/
theorem settingInRange_mask (x : CellMask) : settingInRange .populationMask x.toNat = true := by
  have := x.isLt
  simp [settingInRange, settingRange]
  omega

/-- An accepted write keeps every setting in range (R200, R203). -/
theorem SettingsInv.write {s t : State} (h : SettingsInv s) (m : Mod) {k : SettingId} {v : Int}
    (hk : perPort k = false) (hv : settingInRange k v = true) (ht : t.settings = writeSetting m k v s.settings) :
    SettingsInv t := by
  intro j k'
  rw [ht]
  by_cases hkk : k' = k
  · subst hkk
    by_cases hp : k' = .populationMask
    · subst hp
      exact settingInRange_mask _
    · have hm : writeSetting m k' v s.settings = writeSetting 0 k' v s.settings := by
        cases k' <;> first | rfl | exact absurd rfl hp
      rw [hm, settingValue_writeSetting k' v s.settings hk hv j hp]
      exact hv
  · rw [settingValue_writeSetting_other hkk]
    exact h j k'

/-! ## Every update keeps the Image good -/

/-- Only the entries and the settings are read. -/
theorem ImageInv.of_eq {s t : State} (h : ImageInv s) (hi : t.image = s.image) (hs : t.settings = s.settings) :
    ImageInv t where
  settings := by
    intro m k
    rw [hs]
    exact h.settings m k
  entries := by
    intro m ch
    unfold State.moduleImage
    rw [hi]
    exact h.entries m ch

theorem ImageInv.streakLimit {s : State} (h : ImageInv s) : s.settings.streakLimit ≤ 8 := by
  have h8 := h.settings 0 .streakLimit
  simp [settingInRange, settingRange, settingValue] at h8
  omega

/-- One module's entries rewritten by a function that keeps an entry good. -/
theorem ImageInv.rewrite {s : State} (h : ImageInv s) (m : Mod) {f : Chan → Entry → Entry}
    (hf : ∀ ch e, EntryGood ch e → EntryGood ch (f ch e)) :
    ImageInv (s.setModuleImage m (mapEntries f (s.moduleImage m))) where
  settings := h.settings
  entries := by
    intro k ch
    rw [chanEntry_setModuleImage]
    split
    · exact hf _ _ (h.entries k ch)
    · exact h.entries k ch

theorem ImageInv.renewed {s : State} (h : ImageInv s) (m : Mod) (g : Machine.Group) {samples : Chan → Option Sample}
    (info : RenewalInfo) (hs : SamplesGood samples) : ImageInv (writeRenewal m g samples info s) :=
  have hr := h.rewrite m fun _ _ he => he.renew (now := s.timebase) (st := s.settings) (g := g) (info := info) hs
    (nextCounter_ne_zero s.image.counter)
  ⟨hr.settings, hr.entries⟩

theorem imageInv_reset : ImageInv State.reset where
  settings := by
    intro m k
    cases k with
    | populationMask => exact settingInRange_mask _
    | _ => rfl
  entries := by
    intro m ch
    have : chanEntry (State.reset.moduleImage m) ch = clearedEntry := by
      cases ch <;> simp [State.moduleImage, State.reset, resetImage, chanEntry, clearedModule]
    rw [this]
    exact .cleared ch

/-- The entries of the Image and the settings are kept good by every update of a command. -/
theorem imageInv_closed : Closed ImageInv where
  raised _ _ h := h.of_eq rfl rfl
  sched _ _ h := h.of_eq rfl rfl
  limits _ _ h := h.of_eq rfl rfl
  reserved _ _ h := h.of_eq rfl rfl
  token _ _ h := h.of_eq rfl rfl
  chain _ _ _ h := h.of_eq rfl rfl
  entries s m _ hf h := h.rewrite m fun _ _ => EntryGood.step h.streakLimit hf
  renew _ m g _ info hs h := h.renewed m g info hs
  decided _ _ _ _ _ h := h.of_eq (by simp) (by simp)
  balance _ _ _ _ h := h.of_eq rfl rfl
  balanceAll _ _ _ h := h.of_eq rfl rfl
  balanceClock _ _ _ h := h.of_eq rfl rfl
  passChange _ _ _ _ _ _ h := h.of_eq (by simp) (by simp)
  passEnd _ _ h := h.of_eq (by simp) (by simp)
  passNew _ _ _ _ h := h.of_eq (by simp) (by simp)
  strike _ _ h := h.of_eq rfl rfl
  tickets _ _ _ _ h := h.of_eq rfl rfl
  ticketNew _ _ _ _ _ h := h.of_eq rfl rfl
  sweep _ _ _ _ _ _ h := h.of_eq rfl rfl
  startSweep s _ h := by
    obtain ⟨w, r, x, he, -⟩ := startSweep_eq s
    exact he ▸ h.of_eq rfl rfl
  endVisit s _ h := by
    obtain ⟨w, r, x, he⟩ := endVisit_eq s
    exact he ▸ h.of_eq rfl rfl
  endAligned s h := by
    obtain ⟨w, r, x, he⟩ := endAlignedIfDone_eq s
    exact he ▸ h.of_eq rfl rfl
  closeMap s reason _ h := by
    obtain ⟨c, w, r, x, he, -⟩ := startAfterEnd_closeMap_eq reason s
    exact he ▸ h.of_eq rfl rfl
  recordModule _ _ _ _ h := h.of_eq rfl rfl
  record _ _ _ h := h.of_eq rfl rfl
  mapClock _ _ _ _ h := h.of_eq rfl rfl
  restart _ h := h.of_eq rfl rfl
  orphan _ _ _ h := h.of_eq rfl rfl
  send s r o n p _ h := by
    obtain ⟨l, he⟩ := sendUnicast_eq r o n p s
    exact he ▸ h.of_eq rfl rfl
  lane _ _ _ _ h := h.of_eq rfl rfl
  statistics _ _ _ _ h := h.of_eq rfl rfl
  window _ _ _ h := h.of_eq rfl rfl
  resend _ _ _ _ _ _ h := h.of_eq rfl rfl
  freeSlot _ _ h := h.of_eq rfl rfl
  untag _ _ _ _ h := h.of_eq rfl rfl
  badCheck _ _ _ _ _ _ _ h := h.of_eq rfl rfl
  timeout s i x _ h := by
    obtain ⟨l, he⟩ := timeoutSlot_eq i x s
    exact he ▸ h.of_eq rfl rfl
  quarantine _ _ h := h.of_eq rfl rfl
  portSlot _ _ _ _ h := h.of_eq rfl rfl
  latch _ _ _ _ _ _ _ h := h.of_eq rfl rfl
  clearHold _ _ _ h := h.of_eq rfl rfl
  store s p _ h := by
    unfold takeStoring
    split
    · exact h
    · exact h.of_eq rfl rfl
  pop _ _ _ _ h := h.of_eq rfl rfl
  queueReset _ _ _ h := h.of_eq rfl rfl
  portSetting s p k v _ _ _ h := by
    unfold acceptPerPort
    split
    · exact h.of_eq rfl rfl
    · exact h.of_eq rfl rfl
    · exact h
  settings _ m _ _ hk hv h := ⟨h.settings.write m hk hv rfl, h.entries⟩
  deviceReset s t ht h := by
    unfold execDeviceReset at ht
    split at ht
    · cases ht
      exact h
    · cases ht
      exact h.of_eq rfl rfl
  release s t ht h := by
    unfold execResetRelease at ht
    split at ht
    · cases ht
      exact imageInv_reset.of_eq rfl rfl
    · cases ht
      exact h

end Sys2Proof.Machine

open Sys2Proof.Machine in
/-- Settles O8: good entries and settings in range are kept by every update that a command is built from (`Closed`), and
the queue of commands and link time are not read. -/
theorem stepsKeepTheImage : Obligations.StepsKeepTheImage := fun _ _ hs ht =>
  imageInv_closed.step (fun _ _ h => h.of_eq rfl rfl) (fun _ _ h => h.of_eq rfl rfl) hs ht
end

