-- ==== Sys2Proof/Proofs/Requests.lean ====
section
/-! PROOFS. Requests.lean: a good request at its block (R164), READ_ENTRY and LATCH (R24 to R26). -/

namespace Sys2Proof.Machine

/-! ## A good request -/

/-- A frame that ends the way claims about requests have it is looked at (R164). -/
theorem State.frameTaken_of_frameEnding {s : State} {p : Port} (h : s.frameEnding p = true) :
    s.frameTaken p = true := by
  unfold State.frameEnding at h
  unfold State.frameTaken
  cases hf : (s.port p).frame with
  | idle => rw [hf] at h; simp at h
  | cut => rw [hf] at h; simp at h
  | running out notReady => rw [hf] at h; exact h

/-- A good request reaches its block with its arguments. -/
theorem takeFrame_request (p : Port) (code : Byte) (args fill : List Byte) (act : List Byte → State → State) {s : State}
    (h : s.frameEnding p = true) (hl : args.length = argumentBytes code) :
    takeFrame p code (goodRest code args fill) act s = act args (endFrame p s) :=
  takeFrame_good p code args fill act (State.frameTaken_of_frameEnding h) hl

/-! ## READ_ENTRY (R24) -/

theorem exec_readEntry (p : Port) (hi lo : Byte) (fill : List Byte) {s : State} (h : s.frameEnding p = true) :
    exec (.readEntry p (goodRest 0x20 [hi, lo] fill)) s
      = .next (s.answered p (waitsFor (readEntryAnswer s (hi ++ lo).toNat))) := by
  change Host.Outcome.next (takeFrame p 0x20 (goodRest 0x20 [hi, lo] fill) _ s) = _
  rw [takeFrame_request p 0x20 [hi, lo] fill _ h rfl]
  exact congrArg _ (answerLater_endFrame p _ s)

theorem entryOfIndex_none {i : Nat} (h : 263 < i) : entryOfIndex i = none := by
  unfold entryOfIndex
  rw [dif_neg (by omega), dif_neg (by omega), dif_neg (by omega), dif_neg (by omega)]

/-! ## LATCH (R25, R26) -/

theorem exec_latch (p : Port) (hi lo count option : Byte) (fill : List Byte) {s : State} (h : s.frameEnding p = true) :
    exec (.latch p (goodRest 0x21 [hi, lo, count, option] fill)) s
      = .next (takeLatch p (hi ++ lo).toNat count.toNat option (endFrame p s)) := by
  change Host.Outcome.next (takeFrame p 0x21 (goodRest 0x21 [hi, lo, count, option] fill) _ s) = _
  rw [takeFrame_request p 0x21 [hi, lo, count, option] fill _ h rfl]
  rfl

theorem latchArgsGood_iff (first count : Nat) (option : Byte) : latchArgsGood first count option = true ↔
    (option = 0 ∨ option = 1) ∧ 1 ≤ count ∧ count ≤ 32 ∧ first + count ≤ 264 := by
  simp only [latchArgsGood, Bool.and_eq_true, Bool.or_eq_true, decide_eq_true_eq]
  constructor
  · rintro ⟨⟨⟨⟨ho, -⟩, h1⟩, h2⟩, h3⟩
    exact ⟨ho, h1, h2, h3⟩
  · rintro ⟨ho, h1, h2, h3⟩
    exact ⟨⟨⟨⟨ho, by omega⟩, h1⟩, h2⟩, h3⟩

/-- The copies of a run hold the entries as they stand (R25). -/
theorem copyRun_record {s : State} {first count : Nat} {c : HoldCopy} (h : c ∈ copyRun s first count) :
    c.record = (chanEntry (s.moduleImage c.module) c.chan).toEntryRecord := by
  obtain ⟨i, -, hi⟩ := List.mem_filterMap.1 h
  obtain ⟨x, -, rfl⟩ := Option.map_eq_some_iff.1 hi
  rfl

theorem length_copyRun {s : State} {first count : Nat} (h : first + count ≤ 264) :
    (copyRun s first count).length = count := by
  simpa using congrArg List.length (copyRun_indices s first count h)

theorem takeLatch_bad (p : Port) {first count : Nat} {option : Byte} {s : State}
    (h : latchArgsGood first count option = false) :
    takeLatch p first count option (endFrame p s) = s.answered p (waitsFor (refusal .badArgument 0x21)) := by
  unfold takeLatch
  rw [if_neg (by simp [h]), answerLater_endFrame]

theorem takeLatch_incoherent (p : Port) {first count : Nat} {s : State} (h : latchArgsGood first count 1 = true)
    (hc : coherent (copyRun s first count) = false) :
    takeLatch p first count 1 (endFrame p s) = s.answered p (waitsFor (refusal .incoherent 0x21)) := by
  have hc' : coherent (copyRun (endFrame p s) first count) = false := hc
  unfold takeLatch
  rw [if_pos h]
  simp only [hc']
  exact answerLater_endFrame p _ s

theorem takeLatch_copies (p : Port) {first count : Nat} {option : Byte} {s : State}
    (h : latchArgsGood first count option = true) (hc : option = 1 → coherent (copyRun s first count) = true) :
    takeLatch p first count option (endFrame p s) =
      let run := copyRun s first count
      let header : LatchHeader := { instant := s.timebase, counter := s.image.counter, coherent := option = 1 }
      s.setPort p { frame := .idle, hold := { copies := run, header := some header },
                    slot := waitsFor (okAnswer 0x21 (headerBytes header run.length)) } := by
  have hb : (decide (option = 1) && !coherent (copyRun (endFrame p s) first count)) = false := by
    change (decide (option = 1) && !coherent (copyRun s first count)) = false
    simpa using hc
  unfold takeLatch
  rw [if_pos h]
  simp only [hb, Bool.false_eq_true, if_false]
  simp only [answerLater, endFrame, State.setPort_setPort, State.port_setPort_same]
  rfl

end Sys2Proof.Machine

open Sys2Proof Sys2Proof.Machine

/-- Settles O21: the answer is read off the index plan, which is one to one on 0..263. -/
theorem readEntryAnswersTheRecord : Obligations.ReadEntryAnswersTheRecord := by
  intro p hi lo fill s h
  refine ⟨fun m ch hidx => ?_, fun hidx => ?_⟩
  · rw [exec_readEntry p hi lo fill h, readEntryAnswer, hidx, entryOfIndex_entryIndex]
    rfl
  · rw [exec_readEntry p hi lo fill h, readEntryAnswer, entryOfIndex_none hidx]
    rfl

/-- Settles O22: the three outcomes of a LATCH, by the check of its arguments and the coherence of the run. -/
theorem latchCopiesARunOrRefuses : Obligations.LatchCopiesARunOrRefuses := by
  intro p hi lo count option fill s h first good run whole
  have hgood : good ↔ latchArgsGood first count.toNat option = true := (latchArgsGood_iff _ _ _).symm
  have hwhole : whole ↔ option = 0 ∨ coherent run = true := by rw [coherent_iff]
  rw [exec_latch p hi lo count option fill h]
  refine ⟨fun hg => copyRun_indices s _ _ hg.2.2.2, fun c hc => copyRun_record hc, fun hg hw => ?_, fun hg => ?_,
    fun hg hw => ?_⟩
  · have hc : option = 1 → coherent run = true := fun h1 => (hwhole.1 hw).resolve_left (by simp [h1])
    have hlen : run.length = count.toNat := length_copyRun hg.2.2.2
    have hcount : byteOf count.toNat = count := by simp [byteOf]
    rw [takeLatch_copies p (hgood.1 hg) hc]
    simp only [okAnswer, headerBytes]
    rw [show (copyRun s first count.toNat).length = count.toNat from hlen, hcount]
    simp [flagByte, run, first]
  · rw [takeLatch_bad p (by simpa using hgood.not.1 hg)]
    rfl
  · have hno : ¬(option = 0 ∨ coherent run = true) := hwhole.not.1 hw
    have h1 : option = 1 := hg.1.resolve_left fun h0 => hno (.inl h0)
    subst h1
    rw [takeLatch_incoherent p (hgood.1 hg) (by simpa using hno)]
    rfl
end

