-- ==== Sys2Proof/Proofs/Deadlines.lean ====
section
/-! PROOFS. Deadlines.lean: the channels of a module, what an event at the Image hands on, and DEADLINE_EXPIRY (R20). -/

namespace Sys2Proof.Machine

/-! ## The channels of a module -/

theorem mem_allChans (ch : Chan) : ch ∈ allChans := by
  cases ch <;> simp [allChans]

/-- The channels stand in ascending index order (R1). -/
theorem allChans_ascending (m : Mod) : allChans.Pairwise fun a b => entryIndex m a < entryIndex m b := by
  revert m
  decide +kernel

theorem mem_chansWhere {P : Chan → Entry → Entry → Bool} {before after : ModuleImage} {ch : Chan} :
    ch ∈ chansWhere P before after ↔ P ch (chanEntry before ch) (chanEntry after ch) = true := by
  simp [chansWhere, mem_allChans]

/-- The first of the channels of which `P` holds has the lowest index. -/
theorem chansWhere_lowest {P : Chan → Entry → Entry → Bool} {before after : ModuleImage} {low : Chan} {rest : List Chan}
    (h : chansWhere P before after = low :: rest) (m : Mod) {ch : Chan}
    (hc : P ch (chanEntry before ch) (chanEntry after ch) = true) : entryIndex m low ≤ entryIndex m ch := by
  have hp : (low :: rest).Pairwise fun a b => entryIndex m a < entryIndex m b :=
    h ▸ (allChans_ascending m).filter _
  have hm : ch ∈ low :: rest := h ▸ mem_chansWhere.2 hc
  rcases List.mem_cons.1 hm with rfl | hr
  · exact le_rfl
  · exact ((List.pairwise_cons.1 hp).1 ch hr).le

/-! ## Hand-offs to the Balance Controller -/

theorem qualityChanged_iff (before after : ModuleImage) : qualityChanged before after = true ↔
    ∃ ch, (chanEntry before ch).quality ≠ (chanEntry after ch).quality := by
  simp [qualityChanged, List.eq_nil_iff_forall_not_mem, mem_chansWhere]

/-- An event that changes a quality hands the module on. -/
theorem writeModule_changed {m : Mod} {f : Chan → Entry → Entry} {s : State} {ch : Chan}
    (h : (chanEntry (s.moduleImage m) ch).quality ≠ (f ch (chanEntry (s.moduleImage m) ch)).quality) :
    writeModule m f s = handOff m (s.setModuleImage m (mapEntries f (s.moduleImage m))) := by
  have hq : qualityChanged (s.moduleImage m) (mapEntries f (s.moduleImage m)) = true :=
    (qualityChanged_iff _ _).2 ⟨ch, by rwa [chanEntry_mapEntries]⟩
  unfold writeModule
  exact if_pos hq

/-! ## A deadline set expires (R20) -/

theorem expireEntry_eq (k : DeadlineKind) (ch : Chan) (e : Entry) :
    expireEntry k ch e = if deadlineOf ch = k ∧ e.quality = .fresh then { e with quality := .stale } else e := by
  simp [expireEntry]

theorem becameStale_expireEntry (k : DeadlineKind) (ch : Chan) (e : Entry) :
    becameStale e (expireEntry k ch e) = true ↔ deadlineOf ch = k ∧ e.quality = .fresh := by
  rw [becameStale_eq, expireEntry_eq, decide_eq_true_eq]
  by_cases h : deadlineOf ch = k ∧ e.quality = .fresh
  · simp [h]
  · rw [if_neg h]
    simp only [h, iff_false]
    exact fun hs => hs.2 hs.1

/-- The GROUP_STALE of channels of one deadline set is one record, with the first of them (R20). -/
theorem staleEvents_one_set {now : Tick} {m : Mod} {k : DeadlineKind} {low : Chan} {rest : List Chan}
    (h : ∀ ch ∈ low :: rest, deadlineOf ch = k) :
    staleEvents now m (low :: rest) = [entryEvent .groupStale now m low] := by
  have hfind (j : DeadlineKind) :
      (low :: rest).find? (fun ch => deadlineOf ch == j) = if j = k then some low else none := by
    by_cases hj : j = k
    · subst hj
      simp [h low (by simp)]
    · rw [if_neg hj, List.find?_eq_none]
      intro ch hc
      simpa [h ch hc] using Ne.symm hj
  unfold staleEvents
  simp only [hfind]
  cases k <;> rfl

/-- The expiry of a set with a FRESH entry raises one GROUP_STALE, with its lowest FRESH entry. -/
theorem expireEvents_eq {m : Mod} {k : DeadlineKind} {s : State} {ch : Chan} (hk : deadlineOf ch = k)
    (hf : (chanEntry (s.moduleImage m) ch).quality = .fresh) :
    ∃ low, deadlineOf low = k ∧ (chanEntry (s.moduleImage m) low).quality = .fresh
      ∧ (∀ c, deadlineOf c = k → (chanEntry (s.moduleImage m) c).quality = .fresh →
          entryIndex m low ≤ entryIndex m c)
      ∧ expireEvents m k s = [entryEvent .groupStale s.timebase m low] := by
  have hmem (c : Chan) : becameStale (chanEntry (s.moduleImage m) c)
      (chanEntry (mapEntries (expireEntry k) (s.moduleImage m)) c) = true
      ↔ deadlineOf c = k ∧ (chanEntry (s.moduleImage m) c).quality = .fresh := by
    rw [chanEntry_mapEntries, becameStale_expireEntry]
  unfold expireEvents
  cases hl : chansWhere (fun _ b a => becameStale b a) (s.moduleImage m)
      (mapEntries (expireEntry k) (s.moduleImage m)) with
  | nil =>
    have hc := mem_chansWhere (P := fun _ b a => becameStale b a).2 ((hmem ch).2 ⟨hk, hf⟩)
    rw [hl] at hc
    cases hc
  | cons low rest =>
    have hset (c : Chan) (hc : c ∈ low :: rest) := (hmem c).1 (mem_chansWhere.1 (hl ▸ hc))
    exact ⟨low, (hset low (by simp)).1, (hset low (by simp)).2,
      fun c hd hq => chansWhere_lowest hl m ((hmem c).2 ⟨hd, hq⟩),
      staleEvents_one_set fun c hc => (hset c hc).1⟩

/-- A deadline that is reached is that of a FRESH entry of its set. -/
theorem deadlineDue_fresh {s : State} {m : Mod} {k : DeadlineKind} (h : s.deadlineDue m k = true) :
    ∃ ch, deadlineOf ch = k ∧ (chanEntry (s.moduleImage m) ch).quality = .fresh := by
  obtain ⟨ch, -, hch⟩ := List.any_eq_true.1 h
  simp only [overdue, Bool.and_eq_true, beq_iff_eq] at hch
  exact ⟨ch, hch.1, hch.2.1⟩

end Sys2Proof.Machine

open Sys2Proof Sys2Proof.Machine

/-- Settles O25: the reached deadline is that of a FRESH entry, so the set's qualities change and its lowest FRESH entry
is reported. -/
theorem deadlineMakesTheSetStale : Obligations.DeadlineMakesTheSetStale := by
  intro m k s hr hd
  obtain ⟨ch, hk, hf⟩ := deadlineDue_fresh hd
  obtain ⟨low, hlk, hlf, hlow, hev⟩ := expireEvents_eq (s := s) hk hf
  let r : State := raiseBoth [entryEvent .groupStale s.timebase m low] s
  have himage (j : Mod) : r.moduleImage j = s.moduleImage j := by simp only [r, State.moduleImage, raiseBoth_image]
  have hexec : exec (.deadlineExpiry m k) s = .next (expireSet m k r) := by
    change Host.Outcome.next (awake _ s) = _
    simp only [awake, hr, hd, expireDeadline, hev, if_true, Bool.false_eq_true, if_false]
    rfl
  have hchange : (chanEntry (r.moduleImage m) ch).quality
      ≠ (expireEntry k ch (chanEntry (r.moduleImage m) ch)).quality := by
    rw [himage, expireEntry_eq, if_pos ⟨hk, hf⟩, hf]
    exact nofun
  have hwrite : expireSet m k r = handOff m (r.setModuleImage m (mapEntries (expireEntry k) (r.moduleImage m))) :=
    writeModule_changed hchange
  refine ⟨expireSet m k r, hexec, ?_, fun j c => ?_, low, hlk, hlf, hlow, fun q => ?_⟩
  · obtain ⟨rs, hrs⟩ := raiseBoth_eq [entryEvent .groupStale s.timebase m low] s
    rw [hwrite]
    simp only [r, hrs]
    rfl
  · unfold expireSet
    rw [chanEntry_writeModule, expireEntry_eq, himage]
    by_cases hj : j = m
    · simp [hj]
    · simp [hj, Ne.symm hj]
  · rw [hwrite]
    exact raiseBoth_get _ s (by simp) q
end

