-- ==== Sys2Proof/Proofs/Enumerations.lean ====
section
/-! PROOFS. Enumerations.lean: what a grant leaves, the release of a slot of the enumeration, and its steps' outcomes
(R89 to R91). -/

namespace Sys2Proof.Machine

/-! ## What a grant leaves (R102) -/

/-- The Sweep Engine stands, and what waits to be stored is not taken back. -/
structure SweepStands (s t : State) : Prop where
  sweep : t.sweep = s.sweep
  grows : RaisedGrows s t

namespace SweepStands

theorem of_eq {s t : State} (hw : t.sweep = s.sweep) (hr : t.raised = s.raised) : SweepStands s t := ⟨hw, .of_eq hr⟩

theorem refl (s : State) : SweepStands s s := of_eq rfl rfl

theorem trans {s t u : State} (h1 : SweepStands s t) (h2 : SweepStands t u) : SweepStands s u :=
  ⟨h2.sweep.trans h1.sweep, h1.grows.trans h2.grows⟩

theorem foldl {α : Type} {f : State → α → State} (hf : ∀ s a, SweepStands s (f s a)) (l : List α) (s : State) :
    SweepStands s (l.foldl f s) :=
  foldl_frame refl (fun _ _ _ => trans) hf l s

theorem updatePass (t : Target) (f : Pass → Pass) (s : State) : SweepStands s (updatePass t f s) := by
  unfold Machine.updatePass
  split
  · exact of_eq (by simp) (by simp)
  · exact refl s

theorem setHold (m : Mod) (on : Bool) (s : State) : SweepStands s (setHold m on s) := ⟨by simp, grows_setHold m on s⟩

theorem startSettle (t : Target) (s : State) : SweepStands s (startSettle t s) := by
  unfold Machine.startSettle
  split
  · split
    · exact of_eq (by simp) (by simp)
    · exact of_eq (by simp) (by simp)
  · exact refl s

theorem sendUnicast (r : Role) (o : Owner) (n : Nat) (p : Payload) (s : State) :
    SweepStands s (sendUnicast r o n p s) := by
  obtain ⟨l, hl⟩ := sendUnicast_eq r o n p s
  exact hl ▸ of_eq rfl rfl

theorem quiesceSent (m : Mod) (s : State) : SweepStands s (quiesceSent m s) := (updatePass _ _ s).trans (setHold _ _ _)

theorem quiesceSentAll (p : Pass) (s : State) : SweepStands s (quiesceSentAll p s) :=
  have hpart (s : State) (m : Mod) : SweepStands s (Machine.setHold m true (setCommanded m (.mask 0)
      (Machine.updatePass .all (updatePart m fun x => { x with quiesced := true }) s))) :=
    (updatePass .all _ s).trans
      (trans (t := setCommanded m (.mask 0) _) (of_eq rfl rfl) (setHold m true _))
  (foldl hpart _ s).trans (startSettle .all _)

theorem sendConvert (t : Target) (p : Pass) (s : State) : SweepStands s (sendConvert t p s) := by
  cases t with
  | one m => exact (sendUnicast _ _ _ _ s).trans (updatePass _ _ _)
  | all => exact (of_eq rfl rfl : SweepStands s (sendBroadcast _ _ _ s)).trans ((updatePass _ _ _).trans (updatePass _ _ _))

theorem quiesceOrConvert (t : Target) (p : Pass) (s : State) : SweepStands s (quiesceOrConvert t p s) := by
  unfold Machine.quiesceOrConvert
  split
  · cases t with
    | one m => exact (sendUnicast _ _ _ _ s).trans (quiesceSent m _)
    | all => exact (of_eq rfl rfl : SweepStands s (sendBroadcast _ _ _ s)).trans (quiesceSentAll p _)
  · exact sendConvert t p s

theorem grantFirst (t : Target) (p : Pass) (s : State) : SweepStands s (grantFirst t p s) :=
  (of_eq rfl rfl : SweepStands s (servePort p.origin s)).trans (quiesceOrConvert t p _)

theorem grantRestore (t : Target) (m : Mod) (s : State) : SweepStands s (grantRestore t m s) := by
  unfold Machine.grantRestore
  dsimp only
  split
  · exact (setHold m false s).trans (sendUnicast _ _ _ _ _)
  · exact sendUnicast _ _ _ _ s

theorem grantPassItem (t : Target) (act : PassAct) (s : State) : SweepStands s (grantPassItem t act s) := by
  unfold Machine.grantPassItem
  split
  · exact refl s
  · cases act with
    | first => exact grantFirst t _ s
    | convert => exact sendConvert t _ s
    | readCells =>
      dsimp only
      split
      · exact sendUnicast _ _ _ _ s
      · exact refl s
    | readAux =>
      dsimp only
      split
      · exact sendUnicast _ _ _ _ s
      · exact refl s
    | restore =>
      dsimp only
      split
      · exact grantRestore _ _ s
      · exact refl s

theorem grantItem (k : ItemKind) (s : State) : SweepStands s (grantItem k s) := by
  cases k with
  | release => exact of_eq rfl rfl
  | assign => exact sendUnicast _ _ _ _ s
  | probe => exact sendUnicast _ _ _ _ s
  | passStep t act => exact grantPassItem t act s
  | update m => exact sendUnicast _ _ _ _ s
  | ping m => exact sendUnicast _ _ _ _ s

theorem grantNow (s : State) : SweepStands s (grantNow s) := by
  unfold Machine.grantNow takeGrant
  split
  · next it _ =>
    exact (of_eq rfl rfl : SweepStands s (withdraw (· == it.kind) (refreshItems s))).trans
      ((grantItem it.kind _).trans (of_eq rfl rfl))
  · exact of_eq rfl rfl

end SweepStands

/-! ## The release of a slot that has failed or timed out (R75, R76) -/

/-- The state in which a timed-out slot at its attempt limit is released: its tag is in quarantine. -/
def timedOut (s : State) (i : Fin 4) (x : TxnSlot) : State :=
  { s with link := { s.link with
      quarantine := s.link.quarantine ++ quarantineTag s.linkTime x
      slots := tput s.link.slots i (some (waitingSlot x)) } }

/-- The same with the slot free. -/
def timedOutFreed (s : State) (i : Fin 4) (x : TxnSlot) : State :=
  { s with link := { s.link with
      quarantine := s.link.quarantine ++ quarantineTag s.linkTime x
      slots := tput s.link.slots i none } }

theorem setSlot_none_timedOut (s : State) (i : Fin 4) (x : TxnSlot) :
    State.setSlot i none (timedOut s i x) = timedOutFreed s i x := by
  simp only [State.setSlot, timedOut, timedOutFreed, tput_tput_same]

theorem setSlot_waiting_timedOut (s : State) (i : Fin 4) (x : TxnSlot) :
    State.setSlot i (some { waitingSlot x with tag := none, windowEnd := none }) (timedOut s i x) = timedOut s i x := by
  simp only [State.setSlot, timedOut, tput_tput_same]
  rfl

/-- A response window that has run out is taken. -/
theorem exec_responseTimeout {i : Fin 4} {first : TakenFirst} {x : TxnSlot} {e : Nat} {s : State}
    (hr : s.inReset = false) (hx : s.slot i = some x) (he : x.windowEnd = some e) (hl : e ≤ s.linkTime) :
    exec (.responseTimeout i first) s = .next (refreshItems (takeTimeout first i x s)) := by
  have hd : s.timeoutDue i = some x := by
    unfold State.timeoutDue
    rw [hx, Option.filter_some, if_pos]
    simp [State.passed, he, hl]
  change Host.Outcome.next (if s.inReset = true then s else match s.timeoutDue i with
    | some x => refreshItems (takeTimeout first i x s)
    | none => s) = _
  rw [if_neg (by simp [hr]), hd]

/-- At the attempt limit the slot is released FAILED (R76). -/
theorem takeTimeout_releases {i : Fin 4} {x : TxnSlot} (first : TakenFirst) (s : State)
    (h : x.attemptLimit ≤ x.attemptsUsed) :
    takeTimeout first i x s = releaseSlot first i (waitingSlot x) .failed (timedOut s i x) := by
  unfold takeTimeout timeoutSlot
  dsimp only
  rw [if_neg (by omega), if_neg (by omega)]
  rfl

/-! ## Outcomes of the enumeration's transactions (R88 to R91) -/

/-- A transaction to node 0 is charged to no module (R84). -/
theorem mapNotice_node_zero {x : TxnSlot} (h : x.node = 0) (o : LinkOutcome) (s : State) : mapNotice x o s = s := by
  unfold mapNotice
  rw [h]
  rfl

theorem originatorOutcome_enumeration {x : TxnSlot} (ho : x.owner = .enumeration) (first : TakenFirst) (o : LinkOutcome)
    {s : State} (hs : s.map.state = .enumerating) : originatorOutcome first x o s = takeEnumerationStep x o s := by
  unfold originatorOutcome enumerationOutcome
  rw [ho]
  exact if_pos hs

/-- An answer to an enumeration step reaches the Chain Map as the step's end, in whichever order the outcome is taken. -/
theorem releaseSlot_enumeration_answered (first : TakenFirst) (i : Fin 4) {x : TxnSlot} (st : Byte) (pl : List Byte)
    {s : State} (hn : x.node = 0) (ho : x.owner = .enumeration) (hs : s.map.state = .enumerating) :
    releaseSlot first i x (.answered st pl) (upLaneOver s) = takeEnumerationStep x (.answered st pl) (slotFreed s i) := by
  by_cases hf : first = .chainMap
  · subst hf
    rw [releaseSlot_chainMap i x st pl s fun l => ⟨_, _, _, mapNotice_node_zero hn _ _⟩, mapNotice_node_zero hn,
      setSlot_waiting_quiet]
    exact originatorOutcome_enumeration (x := waitingSlot x) ho _ _ hs
  · rw [releaseSlot_originator hf, mapNotice_node_zero hn]
    exact originatorOutcome_enumeration ho _ _ hs

/-- A failed enumeration step reaches the Chain Map as the step's end; a grant may follow it. -/
theorem releaseSlot_enumeration_failed (first : TakenFirst) (i : Fin 4) {x : TxnSlot} {s : State} (hn : x.node = 0)
    (ho : x.owner = .enumeration) (hs : s.map.state = .enumerating) :
    let t := takeEnumerationStep x .failed (timedOutFreed s i x)
    releaseSlot first i (waitingSlot x) .failed (timedOut s i x) = t
      ∨ releaseSlot first i (waitingSlot x) .failed (timedOut s i x) = grantNow t := by
  have hstep (first : TakenFirst) : originatorOutcome first (waitingSlot x) .failed (timedOutFreed s i x)
      = takeEnumerationStep x .failed (timedOutFreed s i x) :=
    originatorOutcome_enumeration (x := waitingSlot x) ho _ _ hs
  have hnotice (t : State) : mapNotice (waitingSlot x) .failed t = t := mapNotice_node_zero (x := waitingSlot x) hn _ t
  unfold releaseSlot
  cases first with
  | originator =>
    left
    dsimp only
    rw [setSlot_none_timedOut, hstep, hnotice]
  | originatorAndGrant =>
    right
    dsimp only
    rw [setSlot_none_timedOut, hstep, if_pos rfl, hnotice]
  | chainMap =>
    left
    dsimp only
    rw [setSlot_waiting_timedOut, hnotice]
    have hslot : (timedOut s i x).slot i = some (waitingSlot x) := by simp [State.slot, timedOut]
    rw [hslot]
    dsimp only
    rw [setSlot_none_timedOut, hstep]

/-! ## The end of an enumeration (R91) -/

/-- What an enumeration's end has left stands while the map, the entries, the sweep, the sum states and the hand-offs do,
and nothing raised is taken back. -/
theorem EnumerationEnded.mono {reason : EndReason} {s t u : State} (h : EnumerationEnded reason s t) (hm : u.map = t.map)
    (hi : u.image = t.image) (hl : u.limits = t.limits) (hb : u.balance.handoffs = t.balance.handoffs)
    (hw : SweepStands t u) : EnumerationEnded reason s u where
  map := hm.trans h.map
  entries m ch := by
    have hmi : u.moduleImage m = t.moduleImage m := by unfold State.moduleImage; rw [hi]
    rw [hmi]
    exact h.entries m ch
  events hn q := by
    obtain ⟨es, hmem, hes⟩ := h.events hn q
    exact ⟨es, hw.grows.mem hmem, hes⟩
  noSweep hn := hw.sweep.trans (h.noSweep hn)
  firstSweep hn := by
    rw [hw.sweep]
    exact h.firstSweep hn
  sums m := by
    rw [hl]
    exact h.sums m
  handedOff m h1 h2 := by
    rw [hb]
    exact h.handedOff m h1 h2

theorem EnumerationEnded.refresh {reason : EndReason} {s t : State} (h : EnumerationEnded reason s t) :
    EnumerationEnded reason s (refreshItems t) := h.mono rfl rfl rfl rfl (.of_eq rfl rfl)

theorem EnumerationEnded.grant {reason : EndReason} {s t : State} (h : EnumerationEnded reason s t) :
    EnumerationEnded reason s (grantNow t) :=
  have hp := PassesOnly.grantNow t
  h.mono hp.map hp.image hp.limits (by rw [hp.eq]) (.grantNow t)

/-- An OK to an ASSIGN is read for its descriptor (R89). -/
theorem takeEnumerationStep_assign_ok {x : TxnSlot} (hr : x.role = .assign) (pl : List Byte) (s : State) :
    takeEnumerationStep x (.answered 0 pl) s =
      match modOfNumber s.map.nextNumber, (descriptorOf pl).filter descriptorGood with
      | some m, some d => assignModule m d s
      | _, _ => endEnumeration .badDescriptor s := by
  unfold takeEnumerationStep
  rw [hr]
  rfl

/-- Which outcomes of an enumeration step end the enumeration, and with which reason (R89, R90). -/
theorem takeEnumerationStep_ends {x : TxnSlot} {o : LinkOutcome} {reason : EndReason} {s : State}
    (h : x.role = .probe ∧ o = .failed ∧ reason = .full
      ∨ x.role = .probe ∧ o ≠ .failed ∧ reason = .tooLong
      ∨ x.role = .assign ∧ (∀ pl, o ≠ .answered 0 pl) ∧ reason = .assignFailed
      ∨ x.role = .assign ∧ reason = .badDescriptor ∧ ∃ pl, o = .answered 0 pl
          ∧ (descriptorOf pl).filter descriptorGood = none) :
    takeEnumerationStep x o s = endEnumeration reason s := by
  unfold takeEnumerationStep
  rcases h with ⟨hr, rfl, rfl⟩ | ⟨hr, ho, rfl⟩ | ⟨hr, ho, rfl⟩ | ⟨hr, rfl, pl, rfl, hd⟩
  · rw [hr]
  · rw [hr]
    cases o with
    | failed => exact absurd rfl ho
    | answered st pl => rfl
  · rw [hr]
    cases o with
    | failed => rfl
    | answered st pl =>
      split
      · next heq _ => cases heq
      · next heq _ => cases heq
      · next heq _ => exact absurd heq (ho _)
      · rfl
  · exact (takeEnumerationStep_assign_ok hr pl s).trans (by rw [hd]; cases modOfNumber s.map.nextNumber <;> rfl)

/-- A payload that is no descriptor in range. -/
theorem descriptorOf_filter_none {pl : List Byte}
    (h : ∀ c k r : Byte, pl = [c, k, r] → c.toNat = 0 ∨ 16 < c.toNat ∨ 4 < k.toNat) :
    (descriptorOf pl).filter descriptorGood = none := by
  unfold descriptorOf
  split
  · next c k r =>
    have := h c k r rfl
    rw [Option.filter_some, if_neg]
    simp only [descriptorGood, Bool.and_eq_true, decide_eq_true_eq]
    omega
  · rfl

/-! ## A successful ASSIGN (R89) -/

theorem takeEnumerationStep_assigns {x : TxnSlot} {m : Mod} {c k r : Byte} {s : State} (hr : x.role = .assign)
    (hm : s.map.nextNumber = modNumber m) (h1 : 1 ≤ c.toNat) (h16 : c.toNat ≤ 16) (h4 : k.toNat ≤ 4) :
    takeEnumerationStep x (.answered 0 [c, k, r]) s = assignModule m (c.toNat, k.toNat, r.toNat) s := by
  have hd : (descriptorOf [c, k, r]).filter descriptorGood = some (c.toNat, k.toNat, r.toNat) := by
    simp [descriptorOf, descriptorGood, h1, h16, h4]
  rw [takeEnumerationStep_assign_ok hr, hd, hm, modOfNumber_modNumber]

theorem recordModule_map (m : Mod) (d : Nat × Nat × Nat) (s : State) : recordModule m d s = { s with
    map := { s.map with
      n := modNumber m
      nextNumber := if modNumber m < 12 then modNumber m + 1 else 0
      records := tput s.map.records m { s.record m with
        state := .active, failures := 0, lastSuccess := none, cellCount := d.1, tempCount := d.2.1,
        revision := d.2.2 } } } := rfl

/-- What a successful ASSIGN writes beside the map: the module's entries, a hand-off and the items. -/
theorem assignModule_fields (m : Mod) (d : Nat × Nat × Nat) (s : State) :
    ∃ im b x, assignModule m d s = { recordModule m d s with
      image := { s.image with modules := im }, balance := { s.balance with handoffs := b }, sched := x } := by
  obtain ⟨im, b, hw⟩ := writeModule_fields m
    (fun ch e => if !populated e && (recordModule m d s).qualifies m ch then { e with quality := .pending } else e)
    (recordModule m d s)
  unfold assignModule populateModule
  rw [hw]
  exact ⟨im, _, _, rfl⟩

/-- The entries that the ASSIGN of a module populates: the UNPOPULATED ones that its descriptor and its population mask
name (R13, R14). -/
theorem chanEntry_populate (m j : Mod) (d : Nat × Nat × Nat) (ch : Chan) (s : State) :
    chanEntry ((populateModule m (recordModule m d s)).moduleImage j) ch =
      if j = m ∧ (chanEntry (s.moduleImage j) ch).quality = .unpopulated
        ∧ Machine.qualifies true { s.record m with cellCount := d.1, tempCount := d.2.1 }
            (tget s.settings.populationMask m) ch = true
      then { chanEntry (s.moduleImage j) ch with quality := .pending }
      else chanEntry (s.moduleImage j) ch := by
  have hq : (recordModule m d s).qualifies m ch =
      Machine.qualifies true { s.record m with cellCount := d.1, tempCount := d.2.1 }
        (tget s.settings.populationMask m) ch := by
    have hr : (recordModule m d s).record m = { s.record m with
        state := .active, failures := 0, lastSuccess := none, cellCount := d.1, tempCount := d.2.1,
        revision := d.2.2 } := by
      simp [recordModule, State.record, State.setRecord, State.setMap]
    have hc : (recordModule m d s).onChain m = true := by simp [State.onChain, recordModule, State.setMap]
    unfold State.qualifies
    rw [hr, hc]
    cases ch <;> rfl
  have hi : (recordModule m d s).moduleImage j = s.moduleImage j := rfl
  unfold populateModule
  rw [chanEntry_writeModule, hq, hi]
  by_cases hj : m = j
  · subst hj
    simp [populated]
  · rw [if_neg hj, if_neg fun h => hj h.1.symm]

end Sys2Proof.Machine

open Sys2Proof Sys2Proof.Machine

/-- Settles O51: whichever order the outcome is taken in, node 0 is charged to no module, so the outcome is the step's end
at the Chain Map: the module is recorded, or the enumeration ends. A grant after a failed step leaves that end. -/
theorem assignRecordsTheModule : Obligations.AssignRecordsTheModule := by
  constructor
  · intro bytes first f i x m c k r s hr hl hf h0 hp h1 h16 h4 hx ht hn hn0 hrole ho hs hm
    let d : Nat × Nat × Nat := (c.toNat, k.toNat, r.toNat)
    let item : ItemKind := if modNumber m < 12 then .assign else .probe
    have hexec : exec (.responseArrival bytes first) s
        = .next (refreshItems (assignModule m d (slotFreed s i))) := by
      rw [responseArrival_releases bytes first f i x s hr hl hf hx ht hn (by simp [h0]), h0, hp,
        releaseSlot_enumeration_answered first i 0 [c, k, r] hn0 ho hs,
        takeEnumerationStep_assigns (s := slotFreed s i) hrole hm h1 h16 h4]
    refine ⟨_, hexec, ?_, ?_, fun j ch => ?_⟩
    · obtain ⟨im, b, w, hw⟩ := assignModule_fields m d (slotFreed s i)
      rw [hw, recordModule_map]
      rfl
    · have hitem : ∀ k, item ≠ .update k := by
        intro k
        simp only [item]
        split <;> exact nofun
      exact mem_refreshItems item _ (mem_offer item (handOff m (populateModule m (recordModule m d (slotFreed s i)))))
        hitem
    · have himage : (refreshItems (assignModule m d (slotFreed s i))).moduleImage j
          = (populateModule m (recordModule m d (slotFreed s i))).moduleImage j := by
        simp [State.moduleImage, assignModule]
      rw [himage, chanEntry_populate]
      cases ch <;> rfl
  · intro i first x reason s hr hx hn0 ho hs
    constructor
    · intro bytes f hl hf ht hn h4 hcase
      have hends : takeEnumerationStep x (.answered f.status f.payload) (slotFreed s i)
          = endEnumeration reason (slotFreed s i) := by
        apply takeEnumerationStep_ends
        rcases hcase with ⟨hrole, rfl⟩ | ⟨hrole, h0, rfl⟩ | ⟨hrole, h0, rfl, hbad⟩
        · exact .inr (.inl ⟨hrole, nofun, rfl⟩)
        · exact .inr (.inr (.inl ⟨hrole, fun pl heq => h0 (LinkOutcome.answered.inj heq).1, rfl⟩))
        · exact .inr (.inr (.inr ⟨hrole, rfl, f.payload, by rw [h0], descriptorOf_filter_none hbad⟩))
      obtain ⟨hended, hlink⟩ := endEnumeration_ended reason s (slotFreed s i) rfl rfl rfl rfl rfl rfl
      refine ⟨refreshItems (endEnumeration reason (slotFreed s i)), ?_, ?_, hended.refresh⟩
      · rw [responseArrival_releases bytes first f i x s hr hl hf hx ht hn h4,
          releaseSlot_enumeration_answered first i _ _ hn0 ho hs, hends]
      · rw [State.slot, refreshItems_link, hlink]
        exact tget_tput_same _ i none
    · intro e he hel hlimit hcase
      have hends : takeEnumerationStep x .failed (timedOutFreed s i x) = endEnumeration reason (timedOutFreed s i x) := by
        apply takeEnumerationStep_ends
        rcases hcase with ⟨hrole, rfl⟩ | ⟨hrole, rfl⟩
        · exact .inl ⟨hrole, rfl, rfl⟩
        · exact .inr (.inr (.inl ⟨hrole, nofun, rfl⟩))
      have hended := (endEnumeration_ended reason s (timedOutFreed s i x) rfl rfl rfl rfl rfl rfl).1
      rw [exec_responseTimeout hr hx he hel, takeTimeout_releases first s hlimit]
      refine ⟨_, rfl, ?_⟩
      rcases releaseSlot_enumeration_failed first i hn0 ho hs with h | h
      · rw [h, hends]
        exact hended.refresh
      · rw [h, hends]
        exact hended.grant.refresh
end

