-- ==== Sys2Proof/Proofs/Timeouts.lean ====
section
/-! PROOFS. Timeouts.lean: a chain restart as it is left (R93), and RESPONSE_TIMEOUT (R71, R76, R84, R85, R94). -/

namespace Sys2Proof.Machine

/-! ## A chain restart as it is left (R88, R93) -/

/-- The event of a chain restart has ended: the chain is ENUMERATING with no module and the RELEASE_ALL as its only item. -/
structure Restarted (s t : State) : Prop where
  state : t.map.state = .enumerating
  n : t.map.n = 0
  absent : ∀ k, t.health k = .absent
  items : t.sched.items.map (·.kind) = [.release]
  settings : t.settings = s.settings
  token : t.token = s.token
  ports : t.ports = s.ports

/-- With no request left, a decision switches nothing on (R141, R157). -/
theorem decided_restartClaims (di : DecisionInput) (mi : ModuleImage) (b : BalanceModule) :
    (decideModule di mi (restartClaims b)).decided = 0 := by
  apply mask_ext
  intro c
  rw [inMask_decideModule]
  simp [chosen, candidate, restartClaims, dropRequests, requested, requestedBy, PerPort.get, inMask]

/-- The parts of a restart that are on the chain write the map, and leave the settings, the token and the ports. -/
theorem chainPart_map (s : State) : (chainPart s).map = (mapRestart s).map := by
  simp only [chainPart, schedRestart, offer_map, linkRestart, sweepRestart, State.setSweep_map, passRestart]

theorem chainPart_outside (s : State) :
    (chainPart s).settings = s.settings ∧ (chainPart s).token = s.token ∧ (chainPart s).ports = s.ports := by
  simp only [chainPart, schedRestart, offer_settings, offer_token, offer_ports, linkRestart, sweepRestart,
    State.setSweep_settings, State.setSweep_token, State.setSweep_ports, passRestart, mapRestart, State.setMap_settings,
    State.setMap_token, State.setMap_ports, and_self]

theorem chainPart_items (s : State) : (chainPart s).sched.items.map (·.kind) = [.release] := by
  simp only [chainPart, schedRestart, offer, List.nil_append, List.map_cons, List.map_nil]

theorem restarted_beginRestart (s : State) : Restarted s (refreshItems (beginRestart s)) := by
  obtain ⟨tk, r, i, b, h, -, -, hb⟩ := beginRestart_fields s
  have hbalance (m : Mod) : ((beginRestart s).balanceOf m).commanded = .mask 0
      ∧ ((beginRestart s).balanceOf m).decided = 0 := by
    obtain ⟨di, mi, hd⟩ := hb m
    have : (beginRestart s).balanceOf m = decideModule di mi (restartClaims (s.balanceOf m)) := by rw [h]; exact hd
    rw [this]
    exact ⟨rfl, decided_restartClaims di mi _⟩
  have hmap : (refreshItems (beginRestart s)).map = (mapRestart s).map := by
    rw [refreshItems_map, h]
    exact chainPart_map s
  obtain ⟨hset, htok, hports⟩ := chainPart_outside s
  exact { state := by rw [hmap]; rfl
          n := by rw [hmap]; rfl
          absent := fun k => by
            simp only [State.health, State.record, hmap, mapRestart, State.setMap_map, tget_tmap, restartRecord]
          items := refreshItems_release _ (by rw [h]; exact chainPart_items s) hbalance
          settings := by rw [refreshItems_settings, h]; exact hset
          token := by rw [refreshItems_token, h]; exact htok
          ports := by rw [refreshItems_ports, h]; exact hports }

/-- A chain restart frees every slot (R79). -/
theorem slot_beginRestart (s : State) (i : Fin 4) : (beginRestart s).slot i = none := by
  obtain ⟨tk, r, im, b, h, -⟩ := beginRestart_fields s
  rw [h]
  exact tget_tbuild _ i

/-- A failure that makes the last module LOST with AUTO_RESTART ON begins a chain restart (R94). -/
theorem failureNotice_restarts {s A : State} {m : Mod} (h : SameMap s A) (ha : s.health m ≠ .absent)
    (hn : NewlyLost s m) (hl : LastModule s m) : ∃ L, failureNotice m A = beginRestart L := by
  have hd := lossDone s A m h
  refine ⟨lossAfter s m A, ?_⟩
  rw [(failureNotice_cases s A m h ha).1 hn]
  exact if_pos ((allLost_failedMap s _ m hd.map hd.settings hn).2 hl)

/-! ## A failure of a transaction, taken in each order (R75) -/

theorem FailureNoted.mono {s A t u : State} {m : Mod} (h : FailureNoted s A t m) (hp : PassesOnly t u)
    (hg : RaisedGrows t u) : FailureNoted s A u m where
  map := hp.map.trans h.map
  quarantine := hp.quarantine.trans h.quarantine
  entries k ch := by
    rw [hp.moduleImage]
    exact h.entries k ch
  lost hn q := hg.mem (h.lost hn q)
  susp ha hn q := hg.mem (h.susp ha hn q)

/-- What a slot that was released FAILED at its originator alone leaves of the slot, the commanded mask and the pass. -/
structure SlotFailed (i : Fin 4) (m : Mod) (x : TxnSlot) (s t : State) : Prop where
  free : t.slot i = none
  balance : x.owner = .balance → (t.balanceOf m).commanded = .unknown
  mask : ∀ p y, x.owner = .pass (.one m) → s.passOf (.one m) = some p → partOf p m = some y →
    x.role = .quiesce ∨ x.role = .restore → (t.balanceOf m).commanded = .unknown
  ended : ∀ p y, x.owner = .pass (.one m) → s.passOf (.one m) = some p → partOf p m = some y → NewlyLost s m →
    PassInv s → TicketInv s → NoTicketWaits s → PassEnded m p y.cellRenewal y.auxRenewal s t

theorem SlotFailed.refresh {i : Fin 4} {m : Mod} {x : TxnSlot} {s t : State} (h : SlotFailed i m x s t) :
    SlotFailed i m x s (refreshItems t) where
  free := h.free
  balance := h.balance
  mask := h.mask
  ended p y ho hp hy hn pi ht hw := (h.ended p y ho hp hy hn pi ht hw).mono rfl rfl rfl rfl (.of_eq rfl)

section Failed

variable {i : Fin 4} {m : Mod} {x : TxnSlot} {s : State} (hx : x.node = modNumber m) (ho : x.owner ≠ .enumeration)
  (ha : s.health m ≠ .absent) (hl : ¬(NewlyLost s m ∧ LastModule s m))

theorem sameMap_timedOutFreed (s : State) (i : Fin 4) (x : TxnSlot) : SameMap s (timedOutFreed s i x) :=
  ⟨rfl, rfl, rfl, rfl⟩

theorem sameMap_timedOut (s : State) (i : Fin 4) (x : TxnSlot) : SameMap s (timedOut s i x) := ⟨rfl, rfl, rfl, rfl⟩

theorem slot_timedOutFreed (s : State) (i : Fin 4) (x : TxnSlot) : (timedOutFreed s i x).slot i = none :=
  tget_tput_same _ i none

theorem slot_timedOut (s : State) (i : Fin 4) (x : TxnSlot) : (timedOut s i x).slot i = some (waitingSlot x) :=
  tget_tput_same _ i _

/-! ### The originator first -/

theorem releaseSlot_failed_originator (s : State) :
    releaseSlot .originator i (waitingSlot x) .failed (timedOut s i x)
      = mapNotice (waitingSlot x) .failed (originatorOutcome .originator (waitingSlot x) .failed (timedOutFreed s i x)) := by
  unfold releaseSlot
  dsimp only
  rw [setSlot_none_timedOut]

theorem releaseSlot_failed_originatorAndGrant (s : State) :
    releaseSlot .originatorAndGrant i (waitingSlot x) .failed (timedOut s i x)
      = mapNotice (waitingSlot x) .failed
          (grantNow (originatorOutcome .originatorAndGrant (waitingSlot x) .failed (timedOutFreed s i x))) := by
  unfold releaseSlot
  dsimp only
  rw [setSlot_none_timedOut, if_pos rfl]

include hx ho in
/-- What the originator makes of the failure leaves what the Chain Map reads. -/
theorem sameMap_originator (first : TakenFirst) :
    SameMap s (originatorOutcome first (waitingSlot x) .failed (timedOutFreed s i x)) :=
  (sameMap_timedOutFreed s i x).mono _ _ _ (originatorOutcome_failed first (waitingSlot x) m _ hx ho).1

include hx ho ha hl in
theorem failureNoted_originator (first : TakenFirst) {B : State}
    (hB : PassesOnly (originatorOutcome first (waitingSlot x) .failed (timedOutFreed s i x)) B) :
    FailureNoted s (timedOutFreed s i x) (failureNotice m B) m := by
  have hsame : SameMap s B := (sameMap_originator hx ho first).mono _ _ _ hB
  have hn := failureNotice_noted s B m hsame ha hl
  exact { hn with
    quarantine := hn.quarantine.trans
      (hB.quarantine.trans (originatorOutcome_failed first (waitingSlot x) m _ hx ho).1.quarantine) }

include hx ho ha hl in
theorem slotFailed_originator :
    SlotFailed i m x s (failureNotice m (originatorOutcome .originator (waitingSlot x) .failed (timedOutFreed s i x))) := by
  have hsame := sameMap_originator (s := s) (i := i) hx ho .originator
  have hfirst := (originatorOutcome_failed .originator (waitingSlot x) m (timedOutFreed s i x) hx ho).2
  have hkeeps := failureNotice_keeps s _ m hsame ha hl
  have hmask := originatorOutcome_failed_mask .originator (waitingSlot x) m (timedOutFreed s i x) hx
  exact {
    free := hkeeps.none_of (hfirst.none_of (slot_timedOutFreed s i x))
    balance := fun hb => hkeeps.cmd m (hmask (.inr hb))
    mask := fun p y hp hpass hy hr => hkeeps.cmd m (hmask (.inl ⟨hr, hp, p, y, hpass, hy⟩))
    ended := fun p y hp hpass hy hn pi ht hw => by
      have hkept : PassKept m p y s (timedOutFreed s i x) := (PassKept.self hpass hy).of_eq rfl rfl rfl rfl rfl rfl
      have hout := KeptOrEnded.outcome .originator m p y s _ (waitingSlot x) hkept ht hw
      rw [← originatorOutcome_pass .originator (.one m) m .failed (waitingSlot x) _ hx hp] at hout
      rw [failureNotice_loss m s _ hsame ha hl hn]
      exact lossAfter_passEnded m p y s _ hout hpass pi ht hw }

/-! ### The Chain Map first -/

include hx ha hl in
/-- After a notice the slot still stands for its originator, unless the pass that owned it has ended with the loss. -/
theorem slot_failureNotice : ∃ y, (failureNotice m (timedOut s i x)).slot i = some y ∧ y.node = modNumber m
    ∧ y.role = x.role ∧ (y.owner = x.owner ∨ y.owner = .gone ∧ x.owner ≠ .balance) := by
  rcases (failureNotice_keeps s (timedOut s i x) m (sameMap_timedOut s i x) ha hl).slots i with h | ⟨y, hy, hb, h⟩
  · exact ⟨waitingSlot x, h.trans (slot_timedOut s i x), hx, rfl, .inl rfl⟩
  · obtain rfl := Option.some.inj ((slot_timedOut s i x).symm.trans hy)
    exact ⟨_, h, hx, rfl, .inr ⟨rfl, hb⟩⟩

include hx ha hl in
/-- The Chain Map's notice first, then the originator. -/
theorem releaseSlot_failed_chainMap :
    ∃ y, releaseSlot .chainMap i (waitingSlot x) .failed (timedOut s i x)
        = originatorOutcome .chainMap y .failed (State.setSlot i none (failureNotice m (timedOut s i x)))
      ∧ y.node = modNumber m ∧ y.role = x.role ∧ (y.owner = x.owner ∨ y.owner = .gone ∧ x.owner ≠ .balance) := by
  obtain ⟨y, hy, hrest⟩ := slot_failureNotice (i := i) hx ha hl
  refine ⟨y, ?_, hrest⟩
  unfold releaseSlot
  dsimp only
  rw [setSlot_waiting_timedOut, mapNotice_failed (waitingSlot x) m _ hx, hy]

include ha hl in
theorem failureNoted_chainMap {y : TxnSlot} (hy : y.node = modNumber m) (hyo : y.owner ≠ .enumeration) :
    FailureNoted s (timedOut s i x)
      (originatorOutcome .chainMap y .failed (State.setSlot i none (failureNotice m (timedOut s i x)))) m := by
  have hn := failureNotice_noted s (timedOut s i x) m (sameMap_timedOut s i x) ha hl
  obtain ⟨hp, hk⟩ := originatorOutcome_failed .chainMap y m (State.setSlot i none (failureNotice m (timedOut s i x))) hy hyo
  exact (hn.mono (u := State.setSlot i none _) ⟨rfl⟩ (.of_eq rfl)).mono hp hk.grows

include ha in
/-- A failure that is no loss leaves the passes. -/
theorem passOf_failureNotice (hn : ¬NewlyLost s m) (u : Target) :
    (failureNotice m (timedOut s i x)).passOf u = s.passOf u := by
  obtain ⟨r, h, -⟩ := failureNotice_eq m (timedOut s i x) ha hn
  rw [h]
  cases u <;> rfl

/-- With the slot's pass ended or the slot left without an originator, a failed outcome touches no pass. -/
theorem originatorOutcome_passEnded {p : Pass} {a b : BitVec 32} {y : TxnSlot} {t : State} (hy : y.node = modNumber m)
    (hyo : y.owner = .pass (.one m) ∨ y.owner = .gone) (h : PassEnded m p a b s t) :
    PassEnded m p a b s (originatorOutcome .chainMap y .failed t) := by
  rcases hyo with hyo | hyo
  · have hnone : t.passOf (.one m) = none := (h.passes _).trans (if_pos rfl)
    rw [originatorOutcome_pass .chainMap (.one m) m .failed y t hy hyo]
    unfold passOutcome
    rw [hnone]
    exact h
  · have horphan : originatorOutcome .chainMap y .failed t = orphanOutcome m y .failed t := by
      unfold originatorOutcome
      rw [hyo, hy, modOfNumber_modNumber]
    rw [horphan]
    unfold orphanOutcome maskOutcome
    cases y.role <;> first | exact h | exact h.mono rfl rfl rfl rfl (.of_eq rfl)

include ho ha hl in
theorem slotFailed_chainMap {y : TxnSlot} (hy : y.node = modNumber m) (hyr : y.role = x.role)
    (hyo : y.owner = x.owner ∨ y.owner = .gone ∧ x.owner ≠ .balance) : SlotFailed i m x s
      (originatorOutcome .chainMap y .failed (State.setSlot i none (failureNotice m (timedOut s i x)))) := by
  let S := State.setSlot i none (failureNotice m (timedOut s i x))
  have hye : y.owner ≠ .enumeration := by
    rcases hyo with h | ⟨h, -⟩
    · exact h ▸ ho
    · simp [h]
  have hkeeps : LossKeeps S (originatorOutcome .chainMap y .failed S) := (originatorOutcome_failed .chainMap y m S hy hye).2
  have hmask := originatorOutcome_failed_mask .chainMap y m S hy
  have hloss (hn : NewlyLost s m) : failureNotice m (timedOut s i x) = lossAfter s m (timedOut s i x) :=
    failureNotice_loss m s _ (sameMap_timedOut s i x) ha hl hn
  have hpassOwner (hp : x.owner = .pass (.one m)) : y.owner = .pass (.one m) ∨ y.owner = .gone :=
    hyo.imp (·.trans hp) (·.1)
  exact {
    free := hkeeps.none_of (tget_tput_same _ i none)
    balance := fun hb => hmask (.inr ((hyo.resolve_right fun h => h.2 hb).trans hb))
    mask := fun p part hp hpass hpart hr => by
      by_cases hn : NewlyLost s m
      · apply hkeeps.cmd m
        change ((failureNotice m (timedOut s i x)).balanceOf m).commanded = .unknown
        rw [hloss hn, lossAfter_eq]
        obtain ⟨im, b, r, he, -⟩ := imageLossAfter_eq s (timedOut s i x) m
        refine passLoss_commanded m p _ ?_
        rw [he]
        exact hpass
      · have hS : S.passOf (.one m) = some p := (passOf_failureNotice ha hn (.one m)).trans hpass
        rcases hpassOwner hp with hyp | hyg
        · exact hmask (.inl ⟨hyr ▸ hr, hyp, p, part, hS, hpart⟩)
        · exact orphanOutcome_failed_mask .chainMap y m S hy (hyr ▸ hr) hyg
    ended := fun p part hp hpass hpart hn pi ht hw => by
      have hkept : PassKept m p part s (timedOut s i x) := (PassKept.self hpass hpart).of_eq rfl rfl rfl rfl rfl rfl
      have hended := lossAfter_passEnded m p part s _ (.inl hkept) hpass pi ht hw
      rw [← hloss hn] at hended
      exact originatorOutcome_passEnded hy (hpassOwner hp)
        (hended.mono (u := S) rfl rfl rfl rfl (.of_eq rfl)) }

/-! ### Every order -/

include hx ho ha in
/-- The failure that makes the last module LOST begins a restart, in each order. -/
theorem releaseSlot_failed_restarts (first : TakenFirst) (hn : NewlyLost s m) (hlast : LastModule s m) :
    ∃ L, releaseSlot first i (waitingSlot x) .failed (timedOut s i x) = beginRestart L := by
  cases first with
  | originator =>
    rw [releaseSlot_failed_originator, mapNotice_failed (waitingSlot x) m _ hx]
    exact failureNotice_restarts (sameMap_originator hx ho _) ha hn hlast
  | originatorAndGrant =>
    rw [releaseSlot_failed_originatorAndGrant, mapNotice_failed (waitingSlot x) m _ hx]
    exact failureNotice_restarts ((sameMap_originator hx ho _).mono _ _ _ (PassesOnly.grantNow _)) ha hn hlast
  | chainMap =>
    obtain ⟨L, hL⟩ := failureNotice_restarts (sameMap_timedOut s i x) ha hn hlast
    refine ⟨L, ?_⟩
    unfold releaseSlot
    dsimp only
    rw [setSlot_waiting_timedOut, mapNotice_failed (waitingSlot x) m _ hx, hL, slot_beginRestart]

include hx ho ha hl in
/-- Any other failure is counted, in each order; without a grant between, the slot's claims end as its role has it. -/
theorem releaseSlot_failed (first : TakenFirst) :
    let t := releaseSlot first i (waitingSlot x) .failed (timedOut s i x)
    FailureNoted s (timedOut s i x) t m ∧ (first ≠ .originatorAndGrant → SlotFailed i m x s t) := by
  cases first with
  | originator =>
    dsimp only
    rw [releaseSlot_failed_originator, mapNotice_failed (waitingSlot x) m _ hx]
    have hn := failureNoted_originator hx ho ha hl (i := i) .originator (PassesOnly.refl _)
    exact ⟨{ hn with }, fun _ => slotFailed_originator hx ho ha hl⟩
  | originatorAndGrant =>
    dsimp only
    rw [releaseSlot_failed_originatorAndGrant, mapNotice_failed (waitingSlot x) m _ hx]
    have hn := failureNoted_originator hx ho ha hl (i := i) .originatorAndGrant (PassesOnly.grantNow _)
    exact ⟨{ hn with }, fun h => absurd rfl h⟩
  | chainMap =>
    obtain ⟨y, h, hy, hyr, hyo⟩ := releaseSlot_failed_chainMap (i := i) hx ha hl
    have hye : y.owner ≠ .enumeration := by
      rcases hyo with hyo | ⟨hyo, -⟩
      · exact hyo ▸ ho
      · simp [hyo]
    dsimp only
    rw [h]
    exact ⟨failureNoted_chainMap ha hl hy hye, fun _ => slotFailed_chainMap ho ha hl hy hyr hyo⟩

end Failed

/-! ## A slot that is to be sent again (R71, R76) -/

theorem takeTimeout_waits {i : Fin 4} {x : TxnSlot} {tag : BitVec 4} (first : TakenFirst) (s : State)
    (ht : x.tag = some tag) (h : x.attemptsUsed < x.attemptLimit) :
    takeTimeout first i x s = { s with link := { s.link with
      slots := tput s.link.slots i (some { x with tag := none, windowEnd := none })
      resendQueue := s.link.resendQueue ++ [i]
      quarantine := s.link.quarantine ++ [{ tag := tag, endAt := s.linkTime + 2 * x.window }] } } := by
  unfold takeTimeout timeoutSlot quarantineTag
  dsimp only
  rw [if_pos h, if_pos h, ht]
  rfl

end Sys2Proof.Machine

open Sys2Proof Sys2Proof.Machine

/-- Settles O52: a timed-out slot waits for its re-send, or is released FAILED, and the failure is counted in whichever
order it is taken; the loss of the last module begins a restart. -/
theorem timeoutQuarantinesTheTag : Obligations.TimeoutQuarantinesTheTag := by
  intro i first x tag e s hr hx ht he hel
  constructor
  · intro hlt
    rw [exec_responseTimeout hr hx he hel, takeTimeout_waits first s ht hlt]
    exact ⟨_, rfl, rfl⟩
  · intro m hlimit hnode ho ha count newlyLost lastOne
    rw [exec_responseTimeout hr hx he hel, takeTimeout_releases first s hlimit]
    refine ⟨fun hn hlast => ?_, fun hl => ?_⟩
    · obtain ⟨L, hL⟩ := releaseSlot_failed_restarts (i := i) hnode ho ha first hn hlast
      have hend := restarted_beginRestart L
      rw [hL]
      exact ⟨_, rfl, hend.state, hend.absent, hend.items⟩
    · obtain ⟨hnoted, hslot⟩ := releaseSlot_failed (i := i) hnode ho ha hl first
      have hq : quarantineTag s.linkTime x = [{ tag := tag, endAt := s.linkTime + 2 * x.window }] := by
        simp [quarantineTag, ht]
      have hfinal := hnoted.mono (PassesOnly.refreshItems _) (.of_eq rfl)
      refine ⟨_, rfl, hfinal.quarantine.trans (congrArg (s.link.quarantine ++ ·) hq), hfinal.map, hfinal.entries,
        hfinal.lost, hfinal.susp, fun hf => ?_⟩
      have hfailed := (hslot hf).refresh
      refine ⟨hfailed.free, hfailed.balance, fun p y hp hpass hparts hy => ?_⟩
      have hpart : partOf p m = some y := by simp [partOf, hparts, hy]
      exact ⟨hfailed.mask p y hp hpass hpart, hfailed.ended p y hp hpass hpart⟩
end

