-- ==== Sys2Proof/Proofs/SettingWrites.lean ====
section
/-! PROOFS. SettingWrites.lean: an accepted SET of a shared setting at its port and at the token (R203, R204, R209). -/

namespace Sys2Proof.Machine

/-! ## The bytes of a value (R216, R220) -/

theorem bytes32_append (b0 b1 b2 b3 : Byte) : bytes32 ((b0 ++ b1) ++ (b2 ++ b3)) = [b0, b1, b2, b3] := by
  have h (i : Nat) (b : Byte)
      (hb : ∀ j, j < 8 → ((b0 ++ b1) ++ (b2 ++ b3)).getLsbD (i + j) = b.getLsbD j) :
      ((b0 ++ b1) ++ (b2 ++ b3)).extractLsb' i 8 = b := by
    apply BitVec.eq_of_getLsbD_eq
    intro j hj
    simp only [BitVec.getLsbD_extractLsb', hj, decide_true, Bool.true_and]
    exact hb j hj
  unfold bytes32
  rw [h 24 b0, h 16 b1, h 8 b2, h 0 b3]
  all_goals
    intro j hj
    simp only [BitVec.getLsbD_append]
    repeat' split
    all_goals first
      | omega
      | exact congrArg _ (by omega)

/-- A non-negative value stands modulo 2¹⁶ in its two low bytes. -/
theorem mask_of_value {b0 b1 b2 b3 : Byte} (h0 : 0 ≤ ((b0 ++ b1) ++ (b2 ++ b3)).toInt) :
    BitVec.ofNat 16 ((b0 ++ b1) ++ (b2 ++ b3)).toInt.toNat = b2 ++ b3 := by
  have hn : ((b0 ++ b1) ++ (b2 ++ b3)).toInt = ((b0 ++ b1) ++ (b2 ++ b3)).toNat := by
    rw [BitVec.toInt_eq_toNat_cond] at h0 ⊢
    split
    · rfl
    · next hc =>
      rw [if_neg hc] at h0
      have := ((b0 ++ b1) ++ (b2 ++ b3)).isLt
      omega
  rw [hn]
  apply BitVec.eq_of_toNat_eq
  have ha : ((b0 ++ b1) ++ (b2 ++ b3)).toNat = (b0 ++ b1).toNat * 65536 + (b2 ++ b3).toNat := by
    have h16 := (b2 ++ b3).isLt
    rw [BitVec.toNat_append, ← Nat.shiftLeft_add_eq_or_of_lt h16, Nat.shiftLeft_eq]
  rw [BitVec.toNat_ofNat, Int.toNat_natCast]
  have := (b2 ++ b3).isLt
  omega

/-! ## An accepted SET -/

/-- A setting other than POPULATION_MASK is written alike whatever module the index names (R203). -/
theorem writeSetting_module {k : SettingId} (hk : k ≠ .populationMask) (m : Mod) (v : Int) (st : Settings) :
    writeSetting m k v st = writeSetting 0 k v st := by
  cases k <;> first | rfl | exact absurd rfl hk

/-- The state in which an accepted write has its effect at once: the request's frame has ended, the lease is restarted and
the settings are `st`. -/
def stored (p : Port) (l : Nat) (st : Settings) (s : State) : State :=
  { s with
    ports := s.ports.set p { s.port p with frame := .idle }
    settings := st
    token := .held p l (s.timebase + BitVec.ofNat 32 (l * 10000)) }

/-- The same state with the answer on its way to the port. -/
def storedAnswered (p : Port) (a : Answer) (l : Nat) (st : Settings) (s : State) : State :=
  { s with
    ports := s.ports.set p { s.port p with frame := .idle, slot := waitsFor a }
    settings := st
    token := .held p l (s.timebase + BitVec.ofNat 32 (l * 10000)) }

/-- What a write does at once has no part in the ports, so its answer stands beside it. -/
theorem answerLater_stored {p : Port} {a : Answer} {l : Nat} {st : Settings} {s E : State}
    (h : E.ports = (stored p l st s).ports) :
    answerLater p a (refreshItems E)
      = { E with ports := (storedAnswered p a l st s).ports, sched := (refreshItems E).sched } := by
  have hp : (refreshItems E).port p = { s.port p with frame := .idle } := by
    simp [State.port, h, stored]
  unfold answerLater
  rw [hp]
  simp only [State.setPort, refreshItems_ports, h, stored, storedAnswered, PerPort.set_set, waitsFor]
  rfl

/-- The answer to an accepted SET (R204, R220). -/
def acceptedAnswer (code index b0 b1 b2 b3 : Byte) (l : Nat) : Answer :=
  okAnswer 0x62 ([code, index, b0, b1, b2, b3] ++ word16 (ceilDiv (BitVec.ofNat 32 (l * 10000)).toNat 10))

section Accepted

variable {p : Port} {code index b0 b1 b2 b3 : Byte} {k : SettingId} {l : Nat} {d : Tick} {fill : List Byte} {s : State}

/-- A SET that the checks let pass stores the value, restarts the lease, has its effect at once, and is answered. -/
theorem exec_set_shared (hf : s.frameEnding p = true) (hk : settingOf code = some k)
    (hi : setIndexGood k index.toNat = true) (hr : settingInRange k ((b0 ++ b1) ++ (b2 ++ b3)).toInt = true)
    (ht : s.token = .held p l d) (hp : perPort k = false) :
    exec (.set p (goodRest 0x62 [code, index, b0, b1, b2, b3] fill)) s
      = .next (answerLater p (acceptedAnswer code index b0 b1 b2 b3 l) (refreshItems
          (settingEffect (indexModule index.toNat) k s.settings (stored p l
            (writeSetting (indexModule index.toNat) k ((b0 ++ b1) ++ (b2 ++ b3)).toInt s.settings) s)))) := by
  have hlease (st : Settings) : restartLease { endFrame p s with settings := st } = stored p l st s := by
    unfold restartLease
    rw [show ({ endFrame p s with settings := st } : State).token = .held p l d from ht]
    rfl
  have hremaining : remainingLease (restartLease (endFrame p s)) = ceilDiv (BitVec.ofNat 32 (l * 10000)).toNat 10 := by
    have : restartLease (endFrame p s) = stored p l s.settings s := hlease s.settings
    rw [this]
    simp only [remainingLease, stored, ticksLeft]
    exact congrArg (fun x : Tick => ceilDiv x.toNat 10) (add_sub_cancel_left _ _)
  have hholds : (endFrame p s).holds p = true := by
    unfold State.holds
    rw [show (endFrame p s).token = .held p l d from ht]
    simp
  have hanswer : setAnswer code index ((b0 ++ b1) ++ (b2 ++ b3)).toInt
      (remainingLease (restartLease (endFrame p s))) = acceptedAnswer code index b0 b1 b2 b3 l := by
    unfold setAnswer acceptedAnswer
    rw [BitVec.ofInt_toInt, bytes32_append, hremaining]
    rfl
  change Host.Outcome.next (takeFrame p 0x62 (goodRest 0x62 [code, index, b0, b1, b2, b3] fill) _ s) = _
  rw [takeFrame_request p 0x62 [code, index, b0, b1, b2, b3] fill _ hf rfl]
  change Host.Outcome.next (takeSet p code index ((b0 ++ b1) ++ (b2 ++ b3)).toInt (endFrame p s)) = _
  unfold takeSet
  rw [hk]
  simp only [hi, hr, hp, hholds, Bool.not_true, Bool.or_self, Bool.false_eq_true, if_false, hanswer]
  unfold acceptShared
  dsimp only
  rw [hlease]
  rfl

end Accepted

end Sys2Proof.Machine
end

