-- ==== Sys2Proof/Proofs/SettingEffects.lean ====
section
/-! PROOFS. SettingEffects.lean: what a write of a shared setting does at once (R18, R21, R94, R95, R139, R202). -/

namespace Sys2Proof.Machine

/-! ## Settings with no effect at once (R202) -/

theorem settingEffect_none {k : SettingId}
    (hk : k ∉ [SettingId.fastWindow, .slowWindow, .populationMask, .autoRestart, .balanceCapacity]) (m : Mod)
    (old : Settings) (s : State) : settingEffect m k old s = s := by
  cases k <;> first | rfl | simp at hk

/-! ## The windows (R21) -/

/-- The setting that holds a window. -/
def windowSetting : WindowKind → SettingId
  | .fast => .fastWindow
  | .slow => .slowWindow

/-- A window in milliseconds. -/
def windowMillis (st : Settings) : WindowKind → Nat
  | .fast => st.fastWindow
  | .slow => st.slowWindow

theorem settingEffect_window (w : WindowKind) (m : Mod) (old : Settings) (s : State) :
    settingEffect m (windowSetting w) old s =
      if windowMillis old w = windowMillis s.settings w then s else imageWindowWrite w s := by
  cases w <;> rfl

theorem mem_setsOfWindow (w : WindowKind) (m : Mod) (k : DeadlineKind) :
    (m, k) ∈ setsOfWindow w ↔ windowKindOf k = w := by
  have hm : m ∈ allMods := List.mem_finRange m
  cases w <;> cases k <;> simp [setsOfWindow, windowKindOf, hm]

/-- A deadline is reached by a FRESH entry of the set whose age is its window or more (R20). -/
theorem deadlineDue_iff (s : State) (m : Mod) (k : DeadlineKind) : s.deadlineDue m k = true ↔
    ∃ ch i, deadlineOf ch = k ∧ (chanEntry (s.moduleImage m) ch).quality = .fresh
      ∧ (chanEntry (s.moduleImage m) ch).instant = some i ∧ windowTicks s.settings (windowKindOf k) ≤ age s.timebase i := by
  unfold State.deadlineDue
  rw [List.any_eq_true]
  constructor
  · rintro ⟨ch, -, h⟩
    simp only [overdue, Bool.and_eq_true, beq_iff_eq] at h
    obtain ⟨hk, hf, hi⟩ := h
    split at hi
    · next i he =>
      refine ⟨ch, i, hk, hf, he, ?_⟩
      rw [← hk]
      exact of_decide_eq_true hi
    · cases hi
  · rintro ⟨ch, i, hk, hf, he, hw⟩
    refine ⟨ch, mem_allChans ch, ?_⟩
    simp [overdue, hf, he, hk, chanWindow, hw]

/-- A window write makes the sets past the window STALE, raises their events and hands their modules on (R21). -/
theorem imageWindowWrite_eq (w : WindowKind) (s : State) :
    (∃ i r b, imageWindowWrite w s = { s with
      image := { s.image with modules := i }, raised := r, balance := { s.balance with handoffs := b } })
    ∧ ∀ m ch, chanEntry ((imageWindowWrite w s).moduleImage m) ch =
        if (windowKindOf (deadlineOf ch) = w ∧ s.deadlineDue m (deadlineOf ch) = true)
          ∧ (chanEntry (s.moduleImage m) ch).quality = .fresh
        then { chanEntry (s.moduleImage m) ch with quality := .stale } else chanEntry (s.moduleImage m) ch := by
  let due := (setsOfWindow w).filter fun x => s.deadlineDue x.1 x.2
  obtain ⟨r, hr⟩ := raiseBoth_eq (due.flatMap fun x => expireEvents x.1 x.2 s) s
  obtain ⟨⟨i, b, hw⟩, he⟩ := foldl_expireSet due (raiseBoth (due.flatMap fun x => expireEvents x.1 x.2 s) s)
  refine ⟨⟨i, r, b, ?_⟩, fun m ch => ?_⟩
  · refine Eq.trans hw ?_
    rw [hr]
  · refine (he m ch).trans ?_
    have hmem : (m, deadlineOf ch) ∈ due ↔ windowKindOf (deadlineOf ch) = w ∧ s.deadlineDue m (deadlineOf ch) = true := by
      simp only [due, List.mem_filter, mem_setsOfWindow]
    have hi : (raiseBoth (due.flatMap fun x => expireEvents x.1 x.2 s) s).moduleImage m = s.moduleImage m := by
      simp only [State.moduleImage, raiseBoth_image]
    rw [hi]
    exact if_congr (and_congr_left' hmem) rfl rfl

/-! ## AUTO_RESTART (R94, R95) -/

theorem settingEffect_autoRestart (m : Mod) (old : Settings) (s : State) :
    settingEffect m .autoRestart old s =
      if old.autoRestart = s.settings.autoRestart then s
      else if s.settings.autoRestart = true then
        (if s.map.state = .down then startDownRetry s else autoRestart s)
      else s.setMap { s.map with retryDue := none } := by
  unfold settingEffect
  rfl

theorem allLost_iff (s : State) : s.allLost = true ↔
    s.map.state = .running ∧ 1 ≤ s.map.n ∧ ∀ m, modNumber m ≤ s.map.n → s.health m = .lost := by
  simp only [State.allLost, State.onChain, Bool.and_eq_true, beq_iff_eq, decide_eq_true_eq, List.all_eq_true,
    Bool.or_eq_true, Bool.not_eq_true', decide_eq_false_iff_not, and_assoc]
  refine and_congr_right fun _ => and_congr_right fun _ => ?_
  exact ⟨fun h m hm => (h m (List.mem_finRange m)).resolve_left (· hm), fun h m _ => by
    by_cases hm : modNumber m ≤ s.map.n
    · exact .inr (h m hm)
    · exact .inl hm⟩

theorem autoRestart_lost {s : State} (ha : s.settings.autoRestart = true) (hl : s.allLost = true) :
    autoRestart s = beginRestart s := if_pos (by simp [ha, hl])

theorem autoRestart_idle {s : State} (hl : ¬s.allLost = true) : autoRestart s = s := if_neg (by simp [hl])

/-! ## POPULATION_MASK (R18, R19, R152) -/

theorem settingEffect_populationMask (m : Mod) (old : Settings) (s : State) :
    settingEffect m .populationMask old s =
      if tget old.populationMask m = tget s.settings.populationMask m then s
      else dropUnpopulated m (imageMaskWrite m (tget old.populationMask m) s) := rfl

/-- What a mask write leaves of the other fields. -/
theorem imageMaskWrite_fields (m : Mod) (old : CellMask) (s : State) : ∃ i b w,
    imageMaskWrite m old s = { s with
      image := { s.image with modules := i }, balance := { s.balance with handoffs := b },
      limits := { s.limits with work := w } } := by
  obtain ⟨i, b, h⟩ := writeModule_fields m (fun ch e => maskWriteEntry old (tget s.settings.populationMask m)
    (s.map.state == .running && s.qualifies m ch) (s.health m == .lost) ch e) s
  unfold imageMaskWrite strikeReceipts
  dsimp only
  rw [h]
  exact ⟨i, b, _, rfl⟩

theorem chanEntry_imageMaskWrite (m j : Mod) (old : CellMask) (ch : Chan) (s : State) :
    chanEntry ((imageMaskWrite m old s).moduleImage j) ch =
      if m = j then maskWriteEntry old (tget s.settings.populationMask m)
        (s.map.state == .running && s.qualifies m ch) (s.health m == .lost) ch (chanEntry (s.moduleImage j) ch)
      else chanEntry (s.moduleImage j) ch :=
  chanEntry_writeModule m _ s j ch

/-- A mask write leaves the entries of the cells whose bits stand, and of the other classes (R18). -/
theorem maskWriteEntry_same {old new : CellMask} {ch : Chan} (h : ∀ c, ch = .cell c → inMask old c = inMask new c)
    (q lost : Bool) (e : Entry) : maskWriteEntry old new q lost ch e = e := by
  cases ch with
  | cell c => simp [maskWriteEntry, h c rfl]
  | temp c => rfl
  | block => rfl
  | die => rfl

theorem maskWriteEntry_cleared {old new : CellMask} {c : Fin 16} (ho : inMask old c = true) (hn : inMask new c = false)
    (q lost : Bool) (e : Entry) : maskWriteEntry old new q lost (.cell c) e = clearedEntry := by
  simp [maskWriteEntry, ho, hn, unpopulate]

theorem maskWriteEntry_set {old new : CellMask} {c : Fin 16} (ho : inMask old c = false) (hn : inMask new c = true)
    (q lost : Bool) (e : Entry) : maskWriteEntry old new q lost (.cell c) e =
      if e.quality = .unpopulated ∧ q = true then
        if lost = true then { e with quality := .faulted, cause := some .noResponse } else { e with quality := .pending }
      else e := by
  simp [maskWriteEntry, ho, hn, populated]

/-- After the striking, no waiting receipt of the module lists an UNPOPULATED entry (R19, R121). -/
theorem strikeReceipts_populated {m : Mod} {n : BitVec 32} {xs : List (Chan × Int)} {s : State}
    (h : .receipt m n xs ∈ (strikeReceipts m s).limits.work) {x : Chan × Int} (hx : x ∈ xs) :
    (chanEntry (s.moduleImage m) x.1).quality ≠ .unpopulated := by
  obtain ⟨w, -, hw⟩ := List.mem_map.1 h
  have hp : populated (chanEntry (s.moduleImage m) x.1) = true := by
    cases w with
    | receipt k n' ys =>
      by_cases hk : k = m
      · simp only [hk, if_true, LimitWork.receipt.injEq, true_and] at hw
        rw [← hw.2, List.mem_filter] at hx
        exact hx.2
      · simp [hk] at hw
    | sumCheck k c a => cases hw
  simpa [populated] using hp

/-- The requests of the UNPOPULATED cells are dropped, and the module is decided (R152). -/
theorem dropUnpopulated_balanceOf (m j : Mod) (s : State) :
    (dropUnpopulated m s).balanceOf j = if j = m then
      decideModule (s.decisionInput m) (s.moduleImage m) { s.balanceOf m with
        cells := tmap (s.balanceOf m).cells fun c r =>
          if (tget (s.moduleImage m).cell c).quality = .unpopulated
          then { r with request := { a := none, b := none } } else r }
      else s.balanceOf j := by
  have hclaims (c : Fin 16) : (inMask (unpopulatedMask (s.moduleImage m)) c = true)
      = ((tget (s.moduleImage m).cell c).quality = .unpopulated) := by
    simp [unpopulatedMask, populated]
  unfold dropUnpopulated
  dsimp only
  rw [decideFrom_balanceOf]
  by_cases hj : j = m
  · rw [if_pos hj.symm, if_pos hj]
    simp only [onCells, hclaims, dropRequests]
  · rw [if_neg (Ne.symm hj), if_neg hj]

theorem dropUnpopulated_fields (m : Mod) (s : State) : ∃ b r,
    dropUnpopulated m s = { s with balance := { s.balance with modules := b }, raised := r } := by
  unfold dropUnpopulated
  obtain ⟨r, h⟩ := decideFrom_eq m (some .unpopulated) (s.balanceOf m)
    (onCells (unpopulatedMask (s.moduleImage m)) dropRequests (s.balanceOf m)) s
  rw [h]
  exact ⟨_, r, rfl⟩

/-! ## BALANCE_CAPACITY (R139) -/

theorem settingEffect_balanceCapacity (m : Mod) (old : Settings) (s : State) :
    settingEffect m .balanceCapacity old s =
      if old.balanceCapacity = s.settings.balanceCapacity then s else decideAll s := rfl

end Sys2Proof.Machine
end

