-- ==== Sys2Proof/Proofs/AcceptedSets.lean ====
section
/-! PROOFS. AcceptedSets.lean: the state after an accepted SET, setting by setting (R202 to R204, R209). -/

namespace Sys2Proof.Machine

section Accepted

variable {p : Port} {a : Answer} {l : Nat} {v : Int} {s : State}

/-- The state after an accepted write: its effect at once, and its answer on the way. -/
def accepted (p : Port) (a : Answer) (l : Nat) (m : Mod) (k : SettingId) (v : Int) (s : State) : State :=
  answerLater p a (refreshItems (settingEffect m k s.settings (stored p l (writeSetting m k v s.settings) s)))

/-- Where the effect at once is `E` and the ports have no part in it, `E` is what the write leaves, with its answer. -/
theorem accepted_eq {m : Mod} {k : SettingId} {E : State}
    (hE : settingEffect m k s.settings (stored p l (writeSetting m k v s.settings) s) = E)
    (hp : E.ports = (stored p l (writeSetting m k v s.settings) s).ports) :
    accepted p a l m k v s = { E with
      ports := (storedAnswered p a l s.settings s).ports, sched := (accepted p a l m k v s).sched } := by
  unfold accepted
  rw [hE, answerLater_stored hp]
  rfl

/-- A write with no effect at once stores and is answered. -/
theorem accepted_plain {m : Mod} {k : SettingId}
    (hE : settingEffect m k s.settings (stored p l (writeSetting m k v s.settings) s)
      = stored p l (writeSetting m k v s.settings) s) :
    accepted p a l m k v s = { storedAnswered p a l (writeSetting m k v s.settings) s with
      sched := (accepted p a l m k v s).sched } :=
  accepted_eq (E := stored p l (writeSetting m k v s.settings) s) hE rfl

/-! ## The windows -/

/-- The sets past a written window: the value has changed, the channel's set is held to the window, and a FRESH entry of it
has an age of the window or more (R21). -/
def PastWindow (w : WindowKind) (v : Int) (s : State) (m : Mod) (ch : Chan) : Prop :=
  settingValue s.settings 0 (windowSetting w) ≠ v ∧ (deadlineOf ch = .slow ↔ windowSetting w = .slowWindow)
  ∧ (chanEntry (s.moduleImage m) ch).quality = .fresh
  ∧ ∃ x i, deadlineOf x = deadlineOf ch ∧ (chanEntry (s.moduleImage m) x).quality = .fresh
    ∧ (chanEntry (s.moduleImage m) x).instant = some i ∧ v * 10 ≤ (s.timebase - i).toNat

theorem windowMillis_writeSetting (w : WindowKind) (m : Mod) (v : Int) (st : Settings) :
    windowMillis (writeSetting m (windowSetting w) v st) w = v.toNat := by
  cases w <;> rfl

theorem settingValue_window (w : WindowKind) (m : Mod) (st : Settings) :
    settingValue st m (windowSetting w) = windowMillis st w := by
  cases w <;> rfl

theorem windowTicks_eq (w : WindowKind) (st : Settings) : windowTicks st w = windowMillis st w * 10 := by
  cases w <;> rfl

theorem windowKindOf_eq_iff (w : WindowKind) (k : DeadlineKind) :
    windowKindOf k = w ↔ (k = .slow ↔ windowSetting w = .slowWindow) := by
  cases w <;> cases k <;> simp [windowKindOf, windowSetting]

/-- The write that changes the window finds a set past it exactly as `PastWindow` says. -/
theorem pastWindow_iff {w : WindowKind} {m j : Mod} {ch : Chan} (hv : 0 ≤ v)
    (hne : windowMillis s.settings w ≠ v.toNat) :
    let S := stored p l (writeSetting m (windowSetting w) v s.settings) s
    PastWindow w v s j ch ↔ (windowKindOf (deadlineOf ch) = w ∧ S.deadlineDue j (deadlineOf ch) = true)
      ∧ (chanEntry (S.moduleImage j) ch).quality = .fresh := by
  intro S
  have hval : settingValue s.settings 0 (windowSetting w) ≠ v := by
    rw [settingValue_window]
    omega
  have hdue (hw : windowKindOf (deadlineOf ch) = w) : S.deadlineDue j (deadlineOf ch) = true ↔
      ∃ x i, deadlineOf x = deadlineOf ch ∧ (chanEntry (s.moduleImage j) x).quality = .fresh
        ∧ (chanEntry (s.moduleImage j) x).instant = some i ∧ v * 10 ≤ (s.timebase - i).toNat := by
    rw [deadlineDue_iff, hw, windowTicks_eq]
    have hm : windowMillis S.settings w = v.toNat := windowMillis_writeSetting w m v s.settings
    rw [hm]
    refine exists_congr fun x => exists_congr fun i => ?_
    refine and_congr_right fun _ => and_congr_right fun _ => and_congr_right fun _ => ?_
    change v.toNat * 10 ≤ (s.timebase - i).toNat ↔ _
    omega
  unfold PastWindow
  rw [← windowKindOf_eq_iff]
  constructor
  · rintro ⟨-, hw, hf, hx⟩
    exact ⟨⟨hw, (hdue hw).2 hx⟩, hf⟩
  · rintro ⟨⟨hw, hd⟩, hf⟩
    exact ⟨hval, hw, hf, (hdue hw).1 hd⟩

/-- A write of a window makes the sets past it STALE, and no other entry changes. -/
theorem accepted_window (w : WindowKind) (m : Mod) (hv : 0 ≤ v) :
    let t := accepted p a l m (windowSetting w) v s
    t = { storedAnswered p a l (writeSetting m (windowSetting w) v s.settings) s with
      image := { s.image with modules := t.image.modules }, raised := t.raised,
      balance := { s.balance with handoffs := t.balance.handoffs }, sched := t.sched }
    ∧ ∀ j ch,
      (PastWindow w v s j ch → chanEntry (t.moduleImage j) ch = { chanEntry (s.moduleImage j) ch with quality := .stale })
      ∧ (¬PastWindow w v s j ch → chanEntry (t.moduleImage j) ch = chanEntry (s.moduleImage j) ch) := by
  intro t
  let S := stored p l (writeSetting m (windowSetting w) v s.settings) s
  have hS : windowMillis S.settings w = v.toNat := windowMillis_writeSetting w m v s.settings
  have hE := settingEffect_window w m s.settings S
  rw [hS] at hE
  by_cases hsame : windowMillis s.settings w = v.toNat
  · rw [if_pos hsame] at hE
    have ht : t = _ := accepted_plain hE
    have hno (j : Mod) (ch : Chan) : ¬PastWindow w v s j ch := fun h => h.1 (by
      rw [settingValue_window]
      omega)
    rw [ht]
    exact ⟨rfl, fun j ch => ⟨fun h => absurd h (hno j ch), fun _ => rfl⟩⟩
  · rw [if_neg hsame] at hE
    obtain ⟨⟨i, r, b, hw⟩, he⟩ := imageWindowWrite_eq w S
    have hi (j : Mod) : t.moduleImage j = (imageWindowWrite w S).moduleImage j := by
      have ht : t = _ := accepted_eq hE (by rw [hw])
      rw [ht]
      rfl
    have ht : t = _ := accepted_eq (hE.trans hw) rfl
    refine ⟨by rw [ht]; rfl, fun j ch => ?_⟩
    rw [hi, he]
    have hiff := pastWindow_iff (p := p) (l := l) (m := m) (j := j) (ch := ch) hv hsame
    exact ⟨fun h => if_pos (hiff.1 h), fun h => if_neg fun h' => h (hiff.2 h')⟩

/-! ## AUTO_RESTART -/

/-- A write of AUTO_RESTART: nothing where the value is held; OFF discards the DOWN retry timer; ON starts it on a chain
that is DOWN, begins a restart where every module is LOST, and otherwise stores alone (R94, R95). -/
theorem accepted_autoRestart (m : Mod) :
    let t := accepted p a l m .autoRestart v s
    let set := storedAnswered p a l { s.settings with autoRestart := v == 1 } s
    (s.settings.autoRestart = (v == 1) → t = { set with sched := t.sched })
    ∧ (s.settings.autoRestart = true → v = 0 → t = { set with map := { s.map with retryDue := none }, sched := t.sched })
    ∧ (s.settings.autoRestart = false → v = 1 → s.map.state = .down →
      t = { set with map := { s.map with retryDue := some (s.timebase + 10000) }, sched := t.sched })
    ∧ (s.settings.autoRestart = false → v = 1 → s.map.state = .running → 1 ≤ s.map.n →
      (∀ k, modNumber k ≤ s.map.n → s.health k = .lost) →
      t.map.state = .enumerating ∧ t.map.n = 0 ∧ t.settings = set.settings ∧ t.token = set.token
      ∧ t.ports = set.ports ∧ t.sched.items.map (·.kind) = [.release])
    ∧ (s.settings.autoRestart = false → v = 1 → s.map.state ≠ .down →
      ¬(s.map.state = .running ∧ 1 ≤ s.map.n ∧ ∀ k, modNumber k ≤ s.map.n → s.health k = .lost) →
      t = { set with sched := t.sched }) := by
  intro t set
  let S := stored p l (writeSetting m .autoRestart v s.settings) s
  have hS : S.settings.autoRestart = (v == 1) := rfl
  have hE := settingEffect_autoRestart m s.settings S
  rw [hS] at hE
  have hon (h0 : s.settings.autoRestart = false) (h1 : v = 1) : settingEffect m .autoRestart s.settings S
      = if s.map.state = .down then startDownRetry S else autoRestart S := by
    rw [hE, h0, h1]
    rfl
  refine ⟨fun h => ?_, fun h h0 => ?_, fun h h1 hd => ?_, fun h h1 hr hn hl => ?_, fun h h1 hd hl => ?_⟩
  · rw [if_pos h] at hE
    exact accepted_plain hE
  · rw [h, h0] at hE
    exact accepted_eq hE rfl
  · have hE' := hon h h1
    rw [if_pos hd] at hE'
    exact accepted_eq hE' rfl
  · have hE' := hon h h1
    have hlost : S.allLost = true := (allLost_iff S).2 ⟨hr, hn, hl⟩
    rw [if_neg (by simp [hr]), autoRestart_lost (by simp [hS, h1]) hlost] at hE'
    have hend := restarted_beginRestart S
    have ht : t = _ := accepted_eq hE' (by rw [← refreshItems_ports]; exact hend.ports)
    have hsched : t.sched = (refreshItems (beginRestart S)).sched := by
      change (accepted p a l m .autoRestart v s).sched = _
      unfold accepted
      rw [hE', answerLater_sched]
    refine ⟨?_, ?_, ?_, ?_, ?_, ?_⟩
    · rw [ht]; exact hend.state
    · rw [ht]; exact hend.n
    · rw [ht]; exact hend.settings
    · rw [ht]; exact hend.token
    · rw [ht]; rfl
    · rw [hsched]; exact hend.items
  · have hE' := hon h h1
    have hno : ¬S.allLost = true := fun hc => hl ((allLost_iff S).1 hc)
    rw [if_neg hd, autoRestart_idle hno] at hE'
    exact accepted_plain hE'

/-! ## BALANCE_CAPACITY -/

/-- A write of BALANCE_CAPACITY that changes it has every decision taken afresh (R139). -/
theorem accepted_balanceCapacity (m : Mod) (hv : 0 ≤ v) :
    let t := accepted p a l m .balanceCapacity v s
    t = { storedAnswered p a l { s.settings with balanceCapacity := v.toNat } s with
      balance := { s.balance with modules := t.balance.modules }, raised := t.raised, sched := t.sched }
    ∧ ∀ j, t.balanceOf j = if s.settings.balanceCapacity = v then s.balanceOf j
        else decideModule { s.decisionInput j with capacity := v.toNat } (s.moduleImage j) (s.balanceOf j) := by
  intro t
  let S := stored p l (writeSetting m .balanceCapacity v s.settings) s
  have hE := settingEffect_balanceCapacity m s.settings S
  have hS : S.settings.balanceCapacity = v.toNat := rfl
  rw [hS] at hE
  by_cases hsame : s.settings.balanceCapacity = v.toNat
  · rw [if_pos hsame] at hE
    have ht : t = _ := accepted_plain hE
    refine ⟨by rw [ht]; rfl, fun j => ?_⟩
    rw [if_pos (by omega), ht]
    rfl
  · rw [if_neg hsame] at hE
    obtain ⟨⟨i, r, hd⟩, hb⟩ := decideAll_fields S
    have ht : t = _ := accepted_eq (hE.trans hd) rfl
    refine ⟨by rw [ht]; rfl, fun j => ?_⟩
    rw [if_neg (by omega)]
    have hj := hb j
    rw [hd] at hj
    rw [ht]
    exact hj

/-! ## POPULATION_MASK -/

/-- A write of a module's mask populates and clears its cells whose bits change, and drops the requests of the cleared
ones (R18, R19, R152). -/
theorem accepted_populationMask {m : Mod} {new : CellMask} (hnew : BitVec.ofNat 16 v.toNat = new) :
    let t := accepted p a l m .populationMask v s
    let old := tget s.settings.populationMask m
    t = { storedAnswered p a l { s.settings with populationMask := tput s.settings.populationMask m new } s with
      image := { s.image with modules := t.image.modules }, limits := { s.limits with work := t.limits.work },
      raised := t.raised, balance := t.balance, sched := t.sched }
    ∧ t.balance.onTimer = s.balance.onTimer
    ∧ (∀ j ch, chanEntry (t.moduleImage j) ch = if m = j then maskWriteEntry old new
          (s.map.state == .running && Machine.qualifies (s.onChain m) (s.record m) new ch) (s.health m == .lost) ch
          (chanEntry (s.moduleImage j) ch)
        else chanEntry (s.moduleImage j) ch)
    ∧ (old = new → t.balance = s.balance ∧ t.limits = s.limits)
    ∧ (old ≠ new → (∀ n xs, .receipt m n xs ∈ t.limits.work → ∀ x ∈ xs,
          (chanEntry (t.moduleImage m) x.1).quality ≠ .unpopulated)
      ∧ ∀ j, t.balanceOf j = if j = m then decideModule (s.decisionInput m) (t.moduleImage m)
            { s.balanceOf m with cells := tmap (s.balanceOf m).cells fun c r =>
              if (tget (t.moduleImage m).cell c).quality = .unpopulated
              then { r with request := { a := none, b := none } } else r }
          else s.balanceOf j) := by
  intro t old
  let S := stored p l (writeSetting m .populationMask v s.settings) s
  have hmask : tget S.settings.populationMask m = new := by
    rw [← hnew]
    exact tget_tput_same _ m _
  have hset : writeSetting m .populationMask v s.settings
      = { s.settings with populationMask := tput s.settings.populationMask m new } := by
    rw [← hnew]
    rfl
  rw [← hset]
  have hE := settingEffect_populationMask m s.settings S
  rw [hmask] at hE
  by_cases hsame : old = new
  · rw [if_pos hsame] at hE
    have ht : t = _ := accepted_plain hE
    refine ⟨by rw [ht]; rfl, by rw [ht]; rfl, fun j ch => ?_, fun _ => by rw [ht]; exact ⟨rfl, rfl⟩,
      fun h => absurd hsame h⟩
    rw [maskWriteEntry_same (fun _ _ => by rw [hsame]), ite_self, ht]
    rfl
  · rw [if_neg hsame] at hE
    let I := imageMaskWrite m old S
    obtain ⟨i, b, w, hI⟩ := imageMaskWrite_fields m old S
    obtain ⟨bm, r, hD⟩ := dropUnpopulated_fields m I
    have hDI : dropUnpopulated m I = { S with
        image := { S.image with modules := i }, balance := { S.balance with handoffs := b, modules := bm },
        limits := { S.limits with work := w }, raised := r } := by
      rw [hD]
      simp only [I, hI]
    have ht : t = _ := accepted_eq (hE.trans hDI) rfl
    have hti (j : Mod) : t.moduleImage j = I.moduleImage j := by
      rw [ht]
      simp only [I, hI]
      rfl
    have hq (ch : Chan) : S.qualifies m ch = Machine.qualifies (s.onChain m) (s.record m) new ch := by
      unfold State.qualifies
      rw [hmask]
      rfl
    refine ⟨by rw [ht]; rfl, by rw [ht]; rfl, fun j ch => ?_, fun h => absurd h hsame,
      fun _ => ⟨fun n xs hn x hx => ?_, fun j => ?_⟩⟩
    · rw [hti, chanEntry_imageMaskWrite, hmask, hq]
      rfl
    · rw [hti]
      have hn' : .receipt m n xs ∈ I.limits.work := by
        have : t.limits.work = I.limits.work := by
          rw [ht]
          simp only [I, hI]
        rwa [← this]
      exact strikeReceipts_populated hn' hx
    · have hb : t.balanceOf j = (dropUnpopulated m I).balanceOf j := by
        rw [ht, hDI]
        rfl
      have hbI (k : Mod) : I.balanceOf k = s.balanceOf k := by
        simp only [I, hI]
        rfl
      have hin : I.decisionInput m = s.decisionInput m := by
        simp only [I, hI]
        rfl
      rw [hb, dropUnpopulated_balanceOf, hti, hbI, hbI, hin]

end Accepted

/-- The settings whose values cannot be negative have a MIN of 0 or more (R199). -/
theorem nonneg_of_inRange {k : SettingId} {v : Int} (h : settingInRange k v = true)
    (hk : k ∈ [SettingId.fastWindow, .slowWindow, .populationMask, .balanceCapacity]) : 0 ≤ v := by
  simp only [List.mem_cons, List.not_mem_nil, or_false] at hk
  have hmin : 0 ≤ (settingRange k).1 := by rcases hk with rfl | rfl | rfl | rfl <;> decide
  have hle : (settingRange k).1 ≤ v := by
    rcases hk with rfl | rfl | rfl | rfl <;> exact of_decide_eq_true (Bool.and_eq_true_iff.1 h).1
  exact hmin.trans hle

end Sys2Proof.Machine

open Sys2Proof Sys2Proof.Machine

/-- Settles O39: an accepted SET is its store, its effect at once and its answer (`accepted`); the effect is read setting
by setting. -/
theorem setStoresASharedSetting : Obligations.SetStoresASharedSetting := by
  intro p code index b0 b1 b2 b3 k l d fill s hf hk hi hr ht hp v base result
  have hexec : exec (.set p (goodRest 0x62 [code, index, b0, b1, b2, b3] fill)) s
      = .next (accepted p (acceptedAnswer code index b0 b1 b2 b3 l) l (indexModule index.toNat) k v s) :=
    exec_set_shared hf hk hi hr ht hp
  refine ⟨fun hnone => ?_, fun hw => ?_, fun m hkm hm => ?_, fun hka => ?_, fun hkb => ?_⟩
  · have hmask : k ≠ .populationMask := by
      rintro rfl
      simp at hnone
    have hplain := accepted_plain (a := acceptedAnswer code index b0 b1 b2 b3 l)
      (settingEffect_none hnone (indexModule index.toNat) s.settings
        (stored p l (writeSetting (indexModule index.toNat) k v s.settings) s))
    rw [writeSetting_module hmask] at hplain
    refine ⟨_, hexec, hplain, fun m => ?_⟩
    rw [hplain]
    exact settingValue_writeSetting k v s.settings hp hr m hmask
  · have hmask : k ≠ .populationMask := by
      rintro rfl
      rcases hw with h | h <;> cases h
    obtain ⟨w, rfl⟩ : ∃ w, k = windowSetting w := hw.elim (fun h => ⟨.fast, h⟩) fun h => ⟨.slow, h⟩
    have hv : 0 ≤ v := nonneg_of_inRange hr (by cases w <;> simp [windowSetting])
    obtain ⟨heq, hentries⟩ := accepted_window (p := p) (a := acceptedAnswer code index b0 b1 b2 b3 l) (l := l) (s := s)
      w (indexModule index.toNat) hv
    rw [writeSetting_module hmask] at heq
    refine ⟨_, hexec, heq, ?_, hentries⟩
    rw [heq]
    exact settingValue_writeSetting _ v s.settings hp hr 0 hmask
  · subst hkm
    have hv : 0 ≤ v := nonneg_of_inRange hr (by simp)
    have hindex : indexModule index.toNat = m := by rw [indexModule, hm, Option.getD_some]
    rw [hindex] at hexec
    obtain ⟨heq, htimer, hentries, hsame, hdiff⟩ := accepted_populationMask (p := p)
      (a := acceptedAnswer code index b0 b1 b2 b3 l) (l := l) (s := s) (m := m) (mask_of_value hv)
    refine ⟨_, hexec, heq, htimer, fun j ch hbits => ?_, fun c ho hn => ?_, fun c ho hn => ?_, hsame, hdiff⟩
    · rw [hentries]
      split
      · next hj => exact maskWriteEntry_same (fun c hc => hbits c hj.symm hc) _ _ _
      · rfl
    · have hc := hentries m (.cell c)
      rw [if_pos rfl, maskWriteEntry_cleared ho hn] at hc
      exact hc
    · have hc := hentries m (.cell c)
      rw [if_pos rfl, maskWriteEntry_set ho hn] at hc
      refine hc.trans (if_congr (and_congr_right fun _ => ?_) (if_congr beq_iff_eq rfl rfl) rfl)
      simp [Machine.qualifies, State.onChain, hn]
  · subst hka
    exact ⟨_, hexec, accepted_autoRestart _⟩
  · subst hkb
    have hv : 0 ≤ v := nonneg_of_inRange hr (by simp)
    obtain ⟨heq, hdecided⟩ := accepted_balanceCapacity (p := p) (a := acceptedAnswer code index b0 b1 b2 b3 l) (l := l)
      (s := s) (indexModule index.toNat) hv
    exact ⟨_, hexec, heq, hdecided⟩
end

