-- ==== Sys2Proof/Proofs/Renewals.lean ====
section
/-! PROOFS. Renewals.lean: a group renewal at the Image (R7, R10 to R12). -/

namespace Sys2Proof.Machine

/-! ## What a group renewal writes -/

theorem raiseTo_relocate (p : Port) (es : List Event) (s : State) (a : List (List Byte)) (l : Link) (c : ChainMap) :
    raiseTo p es { s with upLane := a, link := l, map := c }
      = { raiseTo p es s with upLane := a, link := l, map := c } := by
  unfold raiseTo
  split
  · rfl
  · rfl

theorem raiseBoth_relocate (es : List Event) (s : State) (a : List (List Byte)) (l : Link) (c : ChainMap) :
    raiseBoth es { s with upLane := a, link := l, map := c }
      = { raiseBoth es s with upLane := a, link := l, map := c } := by
  unfold raiseBoth
  rw [raiseTo_relocate .A]
  exact raiseTo_relocate .B es (raiseTo .A es s) a l c

theorem handReceipt_relocate (m : Mod) (n : BitVec 32) (xs : List (Chan × Int)) (s : State) (a : List (List Byte))
    (l : Link) (c : ChainMap) : handReceipt m n xs { s with upLane := a, link := l, map := c }
      = { handReceipt m n xs s with upLane := a, link := l, map := c } := by
  unfold handReceipt
  split
  · rfl
  · rfl

section Renewal

variable (m : Mod) (g : Machine.Group) (samples : Chan → Option Sample) (info : RenewalInfo) (s : State)

/-- A renewal before its hand-off to the Balance Controller: the writes, the records and the receipt. -/
def renewedReceipt : State :=
  let w := writeRenewal m g samples info s
  handReceipt m w.image.counter (validSamples g samples (s.moduleImage m))
    (raiseBoth (renewalEvents s.timebase m (s.moduleImage m) (w.moduleImage m)) w)

/-- The hand-off of a renewal to the Balance Controller (R12). -/
def renewalHandsOff : Bool :=
  g = .cells || qualityChanged (s.moduleImage m) ((writeRenewal m g samples info s).moduleImage m)

theorem renewGroup_eq : renewGroup m g samples info s =
    if renewalHandsOff m g samples info s then handOff m (renewedReceipt m g samples info s)
    else renewedReceipt m g samples info s := by
  have hc (es : List Event) (w : State) : (raiseBoth es w).image.counter = w.image.counter := by rw [raiseBoth_image]
  unfold renewGroup renewedReceipt
  dsimp only
  rw [hc]
  rfl

theorem renewedReceipt_relocate (a : List (List Byte)) (l : Link) (c : ChainMap) :
    renewedReceipt m g samples info { s with upLane := a, link := l, map := c }
      = { renewedReceipt m g samples info s with upLane := a, link := l, map := c } := by
  let w := writeRenewal m g samples info s
  change handReceipt m w.image.counter (validSamples g samples (s.moduleImage m))
    (raiseBoth _ { w with upLane := a, link := l, map := c }) = _
  rw [raiseBoth_relocate]
  exact handReceipt_relocate m _ _ _ a l c

/-- A renewal reads and writes neither the link, the up lane nor the Chain Map. -/
theorem renewGroup_relocate (a : List (List Byte)) (l : Link) (c : ChainMap) :
    renewGroup m g samples info { s with upLane := a, link := l, map := c }
      = { renewGroup m g samples info s with upLane := a, link := l, map := c } := by
  have hh : renewalHandsOff m g samples info { s with upLane := a, link := l, map := c }
    = renewalHandsOff m g samples info s := rfl
  rw [renewGroup_eq, renewGroup_eq, hh, renewedReceipt_relocate]
  split
  · rfl
  · rfl

theorem handReceipt_fields (n : BitVec 32) (xs : List (Chan × Int)) :
    handReceipt m n xs s = { s with limits := { s.limits with
      work := s.limits.work ++ if xs = [] then [] else [.receipt m n xs] } } := by
  unfold handReceipt
  cases xs with
  | nil => simp
  | cons x xs => rfl

theorem renewedReceipt_fields : ∃ r, renewedReceipt m g samples info s = { writeRenewal m g samples info s with
      raised := r
      limits := { s.limits with work := s.limits.work ++
        (if validSamples g samples (s.moduleImage m) = [] then []
        else [.receipt m (writeRenewal m g samples info s).image.counter (validSamples g samples (s.moduleImage m))]) } }
    ∧ ∀ q, r.get q = s.raised.get q ++ storing (renewalRecords s.timebase m (s.moduleImage m)
        ((writeRenewal m g samples info s).moduleImage m)) := by
  let w := writeRenewal m g samples info s
  let es := renewalEvents s.timebase m (s.moduleImage m) (w.moduleImage m)
  have hstored := raiseBoth_storing es w
  obtain ⟨r, hr⟩ := raiseBoth_eq es w
  rw [hr] at hstored
  refine ⟨r, ?_, fun q => ?_⟩
  · change handReceipt m w.image.counter _ (raiseBoth es w) = _
    rw [hr, handReceipt_fields]
    rfl
  · rw [← renewalEvents_eq]
    exact hstored q

/-- A renewal writes the Image, raises its records, hands on the receipt and the module, and no more. -/
theorem renewGroup_fields : ∃ r, renewGroup m g samples info s = { writeRenewal m g samples info s with
      raised := r
      limits := { s.limits with work := s.limits.work ++
        (if validSamples g samples (s.moduleImage m) = [] then []
        else [.receipt m (writeRenewal m g samples info s).image.counter (validSamples g samples (s.moduleImage m))]) }
      balance := { s.balance with handoffs := s.balance.handoffs ++
        (if renewalHandsOff m g samples info s then [m] else []) } }
    ∧ ∀ q, r.get q = s.raised.get q ++ storing (renewalRecords s.timebase m (s.moduleImage m)
        ((writeRenewal m g samples info s).moduleImage m)) := by
  obtain ⟨r, hr, hstored⟩ := renewedReceipt_fields m g samples info s
  refine ⟨r, ?_, hstored⟩
  rw [renewGroup_eq, hr]
  split
  · rfl
  · rw [List.append_nil]
    rfl

theorem moduleImage_renewGroup (k : Mod) :
    (renewGroup m g samples info s).moduleImage k = (writeRenewal m g samples info s).moduleImage k := by
  unfold State.moduleImage
  rw [renewGroup_image]

theorem counter_renewGroup : (renewGroup m g samples info s).image.counter = nextCounter s.image.counter := by
  rw [renewGroup_image]
  rfl

/-! ## The entries (R10, R11) -/

theorem chanEntry_renewGroup (k : Mod) (ch : Chan) :
    chanEntry ((renewGroup m g samples info s).moduleImage k) ch = if m = k then
      renewEntry s.timebase s.settings g samples info (nextCounter s.image.counter) ch (chanEntry (s.moduleImage k) ch)
      else chanEntry (s.moduleImage k) ch := by
  rw [moduleImage_renewGroup]
  exact chanEntry_setModuleImage m k _ ch s

end Renewal

theorem renewEntry_other {now : Tick} {st : Settings} {g : Machine.Group} {samples : Chan → Option Sample}
    {info : RenewalInfo} {n : BitVec 32} {ch : Chan} {e : Entry}
    (h : groupOf ch ≠ g ∨ populated e = false ∨ samples ch = none) : renewEntry now st g samples info n ch e = e := by
  unfold renewEntry
  rcases h with h | h | h
  · rw [if_neg (by simp [h])]
  · rw [if_neg (by simp [h])]
  · rw [h]
    split <;> rfl

theorem renewEntry_sample {now : Tick} {st : Settings} {g : Machine.Group} {samples : Chan → Option Sample}
    {info : RenewalInfo} {n : BitVec 32} {ch : Chan} {e : Entry} {x : Sample} (hg : groupOf ch = g)
    (hp : populated e = true) (hx : samples ch = some x) :
    renewEntry now st g samples info n ch e = takeSample now (chanWindow st ch) info n ch x e := by
  unfold renewEntry
  rw [if_pos (by simp [hg, hp]), hx]

/-- The receipt of a renewal, entry by entry (R12). -/
theorem validSamples_eq (g : Machine.Group) (samples : Chan → Option Sample) (before : ModuleImage) :
    validSamples g samples before = allChans.filterMap fun ch =>
      if groupOf ch = g && populated (chanEntry before ch) then
        (samples ch).bind fun x => if x.openWire then none else some (ch, storedValue ch x.value)
      else none := by
  unfold validSamples
  congr 1
  funext ch
  cases samples ch <;> rfl

/-! ## The fields of a written entry, and the hand-off -/

/-- Whatever a sample is, the entry takes the pass's instant, origin and flag, and its judgement stands. -/
theorem takeSample_stamp (now : Tick) (window : Nat) (info : RenewalInfo) (n : BitVec 32) (ch : Chan) (x : Sample)
    (e : Entry) : let e' := takeSample now window info n ch x e
    e'.instant = some info.instant ∧ e'.renewal = n ∧ e'.source = some info.source ∧ e'.balanced = info.balanced
      ∧ e'.limit = e.limit ∧ e'.streak = e.streak ∧ e'.side = e.side := by
  unfold takeSample
  cases x.openWire <;> exact ⟨rfl, rfl, rfl, rfl, rfl, rfl, rfl⟩

/-- An open-wire sample faults the entry and leaves its value (R11). -/
theorem takeSample_open {x : Sample} (hx : x.openWire = true) (now : Tick) (window : Nat) (info : RenewalInfo)
    (n : BitVec 32) (ch : Chan) (e : Entry) : let e' := takeSample now window info n ch x e
    e'.quality = .faulted ∧ e'.cause = some .sensorOpen ∧ e'.value = e.value := by
  unfold takeSample
  rw [hx]
  exact ⟨rfl, rfl, rfl⟩

/-- A valid sample is stored, FRESH or STALE by its age (R11). -/
theorem takeSample_valid {x : Sample} (hx : x.openWire = false) (now : Tick) (window : Nat) (info : RenewalInfo)
    (n : BitVec 32) (ch : Chan) (e : Entry) : let e' := takeSample now window info n ch x e
    e'.value = storedValue ch x.value ∧ e'.cause = none
      ∧ e'.quality = if window ≤ age now info.instant then .stale else .fresh := by
  unfold takeSample
  rw [hx]
  exact ⟨rfl, rfl, rfl⟩

theorem renewalHandsOff_iff (m : Mod) (g : Machine.Group) (samples : Chan → Option Sample) (info : RenewalInfo)
    (s : State) : renewalHandsOff m g samples info s = true ↔ g = .cells ∨ ∃ ch ∈ allChans,
      (chanEntry (s.moduleImage m) ch).quality
        ≠ (chanEntry ((renewGroup m g samples info s).moduleImage m) ch).quality := by
  rw [moduleImage_renewGroup]
  simp [renewalHandsOff, qualityChanged_iff, mem_allChans]

/-- A renewal leaves the passes, the tickets, the sweep, the map and the balance tables. -/
theorem renewGroup_leaves (m : Mod) (g : Machine.Group) (samples : Chan → Option Sample) (info : RenewalInfo) (s : State) :
    ∃ i r l b, renewGroup m g samples info s = { s with
      image := i, raised := r, limits := l, balance := { s.balance with handoffs := b } } := by
  obtain ⟨r, hr, -⟩ := renewGroup_fields m g samples info s
  exact ⟨_, _, _, _, hr⟩

end Sys2Proof.Machine
end

