-- ==== Sys2Proof/Proofs/ReadAnswers.lean ====
section
/-! PROOFS. ReadAnswers.lean: an OK to a read of a pass that carries a sample for each channel, and the group renewal that
it makes (O24: R10 to R12, R35, R37, R45). -/

namespace Sys2Proof.Machine

/-! ## Samples -/

/-- The sample of cell `c` in a READ_CELLS payload for `n` channels. -/
def cellSample (pl : List Byte) (n c : Nat) : Sample :=
  { value := (wordAt pl (1 + 2 * c)).toNat, openWire := (wordAt pl (1 + 2 * n)).getLsbD c }

/-- The sample of temperature `c` in a READ_AUX payload for `n` channels. -/
def tempSample (pl : List Byte) (n c : Nat) : Sample :=
  { value := (wordAt pl (1 + 2 * c)).toInt, openWire := (pl.getD (1 + 2 * n) 0).getLsbD c }

theorem cellSamples_some {n : Nat} {pl : List Byte} (hl : pl.length = 3 + 2 * n) (hc : (pl.getD 0 0).toNat = n) :
    cellSamples n pl = some ((List.range n).map (cellSample pl n)) := by
  unfold cellSamples
  cases pl with
  | nil => simp at hl; omega
  | cons a l => exact if_pos ⟨congrArg some hc, hl⟩

theorem auxSamples_some {n : Nat} {pl : List Byte} (hl : pl.length = 6 + 2 * n) (hc : (pl.getD 0 0).toNat = n) :
    auxSamples n pl = some ((List.range n).map (tempSample pl n),
      ((wordAt pl (2 + 2 * n)).toNat : Int), (wordAt pl (4 + 2 * n)).toInt) := by
  unfold auxSamples
  cases pl with
  | nil => simp at hl; omega
  | cons a l => exact if_pos ⟨congrArg some hc, hl⟩

theorem getElem?_range_map {α : Type} (f : Nat → α) (n k : Nat) :
    ((List.range n).map f)[k]? = if k < n then some (f k) else none := by
  rw [List.getElem?_map]
  split
  · next h => rw [List.getElem?_range h]; rfl
  · next h => rw [List.getElem?_eq_none (by simpa using h)]; rfl

theorem eq_cellSource {samples : Chan → Option Sample} {f : Nat → Sample} {n : Nat}
    (hc : ∀ c, samples (.cell c) = if c.val < n then some (f c.val) else none) (ht : ∀ c, samples (.temp c) = none)
    (hb : samples .block = none) (hd : samples .die = none) : samples = cellSource ((List.range n).map f) := by
  funext ch
  cases ch with
  | cell c => exact (hc c).trans (getElem?_range_map f n c.val).symm
  | temp c => exact ht c
  | block => exact hb
  | die => exact hd

theorem eq_auxSource {samples : Chan → Option Sample} {f : Nat → Sample} {n : Nat} {b d : Int}
    (hc : ∀ c, samples (.cell c) = none) (ht : ∀ c, samples (.temp c) = if c.val < n then some (f c.val) else none)
    (hb : samples .block = some { value := b, openWire := false })
    (hd : samples .die = some { value := d, openWire := false }) :
    samples = auxSource ((List.range n).map f, b, d) := by
  funext ch
  cases ch with
  | cell c => exact hc c
  | temp c => exact (ht c).trans (getElem?_range_map f n c.val).symm
  | block => exact hb
  | die => exact hd

/-! ## The read at its pass (R35) -/

section Pass

variable {first : TakenFirst} {u : Target} {m : Mod} {x : TxnSlot} {s : State} {p : Pass} {y : Part} {pl : List Byte}

theorem passOutcome_readCells {xs : List Sample} (hp : s.passOf u = some p) (hy : partOf p m = some y)
    (hr : x.role = .readCells) (hxs : cellSamples (s.record m).cellCount pl = some xs) :
    passOutcome first u m x (.answered 0 pl) s = cellsRead u m p y xs s := by
  unfold passOutcome
  rw [hp]; dsimp only; rw [hy]; dsimp only; rw [hr]
  change (match cellSamples (s.record m).cellCount pl with
    | some xs => cellsRead u m p y xs s
    | none => takeFailure first m (.answered 0 pl) (abortPart u m y.quiesced) s) = _
  rw [hxs]

theorem passOutcome_readAux {d : List Sample × Int × Int} (hp : s.passOf u = some p) (hy : partOf p m = some y)
    (hr : x.role = .readAux) (hd : auxSamples (s.record m).tempCount pl = some d) :
    passOutcome first u m x (.answered 0 pl) s = auxRead u m p y d s := by
  unfold passOutcome
  rw [hp]; dsimp only; rw [hy]; dsimp only; rw [hr]
  change (match auxSamples (s.record m).tempCount pl with
    | some d => auxRead u m p y d s
    | none => takeFailure first m (.answered 0 pl) (abortPart u m y.quiesced) s) = _
  rw [hd]

end Pass

/-- The pass with the renewal number of a module's cells stored (R35). -/
def cellsStored (m : Mod) (n : BitVec 32) (b : Bool) (p : Pass) : Pass :=
  updatePart m (fun z => { z with cellRenewal := n, sawOpen := b }) p

/-- The pass with the renewal number of a module's aux group stored (R35). -/
def auxStored (m : Mod) (n : BitVec 32) (p : Pass) : Pass := updatePart m (fun z => { z with auxRenewal := n }) p

/-- A renewed aux group: its cadence counter is cleared, and a BOTH pass without an open wire hands the sum check. -/
def auxCounted (m : Mod) (p : Pass) (y : Part) (r : State) : State :=
  { r with
    sweep := { r.sweep with auxCount := tput r.sweep.auxCount m 0 }
    limits := { r.limits with work := r.limits.work ++
      (if p.what = .both ∧ y.cellRenewal ≠ 0 ∧ y.sawOpen = false
        then [.sumCheck m y.cellRenewal r.image.counter] else []) } }

theorem updatePass_some {u : Target} {p : Pass} {s : State} (h : s.passOf u = some p) (f : Pass → Pass) :
    updatePass u f s = s.setPass u (some (f p)) := by
  unfold updatePass
  rw [h]

section Read

variable {u : Target} {m : Mod} {s : State} {p : Pass} {y : Part}

theorem passOf_renewGroup (g : Machine.Group) (samples : Chan → Option Sample) (info : RenewalInfo) :
    (renewGroup m g samples info s).passOf u = s.passOf u := by
  obtain ⟨i, r, l, b, h⟩ := renewGroup_leaves m g samples info s
  rw [h]
  cases u <;> rfl

theorem cellsRead_eq (hp : s.passOf u = some p) (xs : List Sample) :
    let r := renewGroup m .cells (cellSource xs) (renewalInfo p y) s
    let t := r.setPass u (some (cellsStored m r.image.counter (xs.any (·.openWire)) p))
    cellsRead u m p y xs s = if p.what = .both then offer (.passStep u .readAux) t else afterReads u m y.quiesced t := by
  dsimp only
  unfold cellsRead
  dsimp only
  rw [updatePass_some ((passOf_renewGroup _ _ _).trans hp)]
  rfl

theorem auxRead_eq (hp : s.passOf u = some p) (d : List Sample × Int × Int) :
    let r := auxCounted m p y (renewGroup m .aux (auxSource d) (renewalInfo p y) s)
    auxRead u m p y d s = afterReads u m y.quiesced (r.setPass u (some (auxStored m r.image.counter p))) := by
  dsimp only
  unfold auxRead
  dsimp only
  generalize hR : renewGroup m .aux (auxSource d) (renewalInfo p y) s = r
  have hr : (r.setAuxCount m 0).passOf u = some p := by
    rw [← hR]
    exact (passOf_renewGroup _ _ _).trans hp
  rw [updatePass_some hr]
  unfold auxCounted
  by_cases hc : p.what = .both ∧ y.cellRenewal ≠ 0 ∧ y.sawOpen = false
  · rw [if_pos (by simpa using hc), if_pos hc]
    cases u <;> rfl
  · rw [if_neg (by simpa using hc), if_neg hc, List.append_nil]
    cases u <;> rfl

theorem afterReads_leaves (q : Bool) :
    (afterReads u m q s).map = s.map ∧ (afterReads u m q s).linkTime = s.linkTime :=
  ⟨(PassesOnly.afterReads u m q s).map, (PassesOnly.afterReads u m q s).linkTime⟩

/-- A read leaves the map and the link time, so the notice of its answer may come before it or after. -/
theorem cellsRead_leaves (hp : s.passOf u = some p) (xs : List Sample) :
    (cellsRead u m p y xs s).map = s.map ∧ (cellsRead u m p y xs s).linkTime = s.linkTime := by
  obtain ⟨i, r, l, b, h⟩ := renewGroup_leaves m .cells (cellSource xs) (renewalInfo p y) s
  rw [cellsRead_eq hp, h]
  split
  · cases u <;> exact ⟨rfl, rfl⟩
  · cases u <;> exact afterReads_leaves _

theorem auxRead_leaves (hp : s.passOf u = some p) (d : List Sample × Int × Int) :
    (auxRead u m p y d s).map = s.map ∧ (auxRead u m p y d s).linkTime = s.linkTime := by
  obtain ⟨i, r, l, b, h⟩ := renewGroup_leaves m .aux (auxSource d) (renewalInfo p y) s
  rw [auxRead_eq hp, h]
  cases u <;> exact afterReads_leaves _

end Read

/-! ## The answer -/

/-- The state from which an answered read goes on: the renewed state `r` with the slot free, the answer off the up lane, a
map, and the pass for the target. -/
def readState (i : Fin 4) (u : Target) (s r : State) (M : ChainMap) (q : Pass) : State :=
  ({ r with
      upLane := s.upLane.tail, link := { s.link with slots := tput s.link.slots i none }, map := M } : State).setPass
    u (some q)

/-- The end of a step that took an answer of a module: its success is in the map (R86). -/
def noticed (m : Mod) (s t : State) : State := refreshItems { t with map := successMap s m }

/-- What an answered read leaves besides the renewed state `r`. -/
def AnswerTook (i : Fin 4) (m : Mod) (s r t : State) : Prop :=
  t = { r with
    upLane := s.upLane.tail, sched := t.sched, link := { s.link with slots := tput s.link.slots i none }
    map := { s.map with
      records := tput s.map.records m { s.record m with failures := 0, lastSuccess := some s.timebase } } }

/-- From `s` to the renewed state `r` what a pass reads and writes stands. -/
structure PassesStand (s r : State) : Prop where
  passes : r.passes = s.passes
  aligned : r.aligned = s.aligned
  tickets : r.tickets = s.tickets
  sweep : r.sweep = s.sweep
  linkTime : r.linkTime = s.linkTime
  modules : r.balance.modules = s.balance.modules

theorem PassesStand.passOf {s r : State} (h : PassesStand s r) (u : Target) : r.passOf u = s.passOf u := by
  cases u <;> simp only [State.passOf, h.passes, h.aligned]

section Goes

variable {i : Fin 4} {u : Target} {m : Mod} {s r : State} {M : ChainMap} {q : Pass}

theorem successMap_active (h : s.health m = .active) : successMap s m = { s.map with
    records := tput s.map.records m { s.record m with failures := 0, lastSuccess := some s.timebase } } := by
  have hs : (s.record m).state = .active := h
  unfold successMap successRecord
  rw [← hs]

theorem noticed_offer (h : s.health m = .active) (a : PassAct) :
    let t := noticed m s (offer (.passStep u a) (readState i u s r M q))
    AnswerTook i m s (r.setPass u (some q)) t ∧ .passStep u a ∈ t.sched.items.map (·.kind) := by
  refine ⟨?_, mem_refreshItems _ _ (mem_offer _ _) (by intro _ h; cases h)⟩
  unfold AnswerTook
  rw [← successMap_active h]
  cases u <;> rfl

/-- The pass with the restore of a module's part begun (R37). -/
def restoringPass (u : Target) (m : Mod) (q : Pass) : Pass :=
  { q with
    step := if u = .all then q.step else .restoring, timer := none
    parts := q.parts.map fun z => if z.module = m then { z with step := .restoring, outcome := none } else z }

theorem passOf_readState : (readState i u s r M q).passOf u = some q := by
  cases u with
  | one k => simp [readState, State.setPass, State.passOf]
  | all => rfl

theorem setPass_readState (q' : Pass) : (readState i u s r M q).setPass u (some q') = readState i u s r M q' := by
  cases u with
  | one k => simp [readState, State.setPass, tput_tput_same]
  | all => rfl

theorem offerRestore_readState :
    offerRestore u m none (readState i u s r M q)
      = offer (.passStep u .restore) (readState i u s r M (restoringPass u m q)) := by
  unfold offerRestore
  dsimp only
  rw [updatePass_some passOf_readState, setPass_readState]
  rfl

theorem masksDiffer_readState {s₁ : State} (h : PassesStand s₁ r) :
    masksDiffer ((readState i u s r M q).balanceOf m) = masksDiffer (s₁.balanceOf m) := by
  have hb : (readState i u s r M q).balance.modules = s₁.balance.modules := by rw [← h.modules]; cases u <;> rfl
  unfold State.balanceOf
  rw [hb]

end Goes

/-! ## The read and the notice of its success, in either order (R75, R86) -/

/-- The state with the slot of an answer free, and a Chain Map. -/
def freedWith (s : State) (i : Fin 4) (M : ChainMap) : State := { slotFreed s i with map := M }

theorem with_map_self {t : State} {M : ChainMap} (h : t.map = M) : { t with map := M } = t := by
  subst h
  rfl

section Order

variable {first : TakenFirst} {i : Fin 4} {u : Target} {m : Mod} {x : TxnSlot} {s : State} {pl : List Byte}

/-- A released answer of a module that is ACTIVE: whichever takes it first, the originator goes on from the freed slot and
the success is in the map. -/
theorem releaseSlot_success (K : State → State) (hx : x.node = modNumber m) (hr : x.role ≠ .ping)
    (hw : wrongSamples x (s.record m) pl = false) (hh : s.health m = .active) (hm : (s.record m).mark = false)
    (hK : ∀ x' M, x'.role = x.role → x'.node = x.node → x'.owner = x.owner →
      (tget M.records m).cellCount = (s.record m).cellCount ∧ (tget M.records m).tempCount = (s.record m).tempCount →
      originatorOutcome first x' (.answered 0 pl) (freedWith s i M) = K (freedWith s i M))
    (hKm : ∀ M, (K (freedWith s i M)).map = M
      ∧ (K (freedWith s i M)).linkTime = s.linkTime) :
    ∃ M, M.n = s.map.n ∧ releaseSlot first i x (.answered 0 pl) (upLaneOver s)
      = { K (freedWith s i M) with map := successMap s m } := by
  by_cases hf : first = .chainMap
  · subst hf
    have hn (l : Link) : mapNotice x (.answered 0 pl) { slotFreed s i with link := l }
        = { slotFreed s i with link := l, map := successMap s m } := by
      rw [mapNotice_active s { slotFreed s i with link := l } x m pl hx hr hw rfl hh hm, successMap_active hh]
      rfl
    refine ⟨successMap s m, rfl, ?_⟩
    have hfree := setSlot_waiting s i (some (waitingSlot x)) (successMap s m) s.balance s.raised
    rw [releaseSlot_chainMap _ _ _ _ _ (fun l => ⟨_, _, _, hn l⟩), hn]
    refine (congrArg (originatorOutcome .chainMap (waitingSlot x) (.answered 0 pl)) hfree).trans ?_
    refine (hK (waitingSlot x) (successMap s m) rfl rfl rfl (by simp [successMap, successRecord])).trans ?_
    exact (with_map_self (hKm (successMap s m)).1).symm
  · refine ⟨s.map, rfl, ?_⟩
    have hmap : (K (slotFreed s i)).map = s.map := (hKm s.map).1
    have htime : (K (slotFreed s i)).timebase = s.timebase := by
      unfold State.timebase State.ticks
      rw [show (K (slotFreed s i)).linkTime = s.linkTime from (hKm s.map).2]
    rw [releaseSlot_originator hf, show originatorOutcome first x (.answered 0 pl) (slotFreed s i) = K (slotFreed s i) from
      hK x s.map rfl rfl rfl ⟨rfl, rfl⟩, mapNotice_active s (K (slotFreed s i)) x m pl hx hr hw
        (by unfold State.record; rw [hmap]) hh hm,
      htime, successMap_active hh]
    unfold State.setRecord
    rw [hmap]
    rfl

end Order

/-! ## What follows the last read (R37, R45) -/

section Outcome

variable {i : Fin 4} {u : Target} {m : Mod} {s s₁ r : State} {M : ChainMap} {p q : Pass} {y : Part}

theorem passKept_readState (h : PassesStand s₁ r) (hn : M.n = s₁.map.n) (hy : partOf q m = some y)
    (ho : q.owner = p.owner) (hj : q.joined = p.joined) (hr : q.origin = p.origin) :
    PassKept m p y s₁ (readState i (.one m) s r M q) :=
  { pass := ⟨q, y, passOf_readState, hy, rfl, rfl, ho, hj, hr⟩
    others := fun v hv => by
      rw [← h.passOf v]
      cases v with
      | one k =>
        show tget (tput r.passes m (some q)) k = tget r.passes k
        rw [tget_tput, if_neg (by intro hk; exact hv (by rw [hk]))]
      | all => rfl
    tickets := h.tickets
    sweep := h.sweep
    n := hn
    lt := h.linkTime }

theorem alignedKept_readState (h : PassesStand s₁ r) : AlignedKept q s₁ (readState i .all s r M q) :=
  ⟨rfl, h.passes, h.tickets, h.sweep, h.linkTime⟩

/-- The last read of a part has renewed, and the step goes on as R37 has it: the part restores, or a single-module pass
ends, or the aligned pass serves its next participant. -/
theorem afterReads_settles (h : PassesStand s₁ r) (hn : M.n = s₁.map.n) (ha : s.health m = .active) {z : Bool}
    (hy : partOf q m = some y) (ho : q.owner = p.owner) (hj : q.joined = p.joined) (hr : q.origin = p.origin) :
    let t := noticed m s (afterReads u m z (readState i u s r M q))
    let restores : Prop := z = true ∨ (s₁.balanceOf m).commanded ≠ .mask (s₁.balanceOf m).decided
    (restores → AnswerTook i m s (r.setPass u (some (restoringPass u m q))) t
      ∧ .passStep u .restore ∈ t.sched.items.map (·.kind))
    ∧ (¬restores → u = .one m → TicketInv s₁ → NoTicketWaits s₁ →
      t.image = r.image ∧ t.limits = r.limits ∧ PassEnded m p y.cellRenewal y.auxRenewal s₁ t)
    ∧ (¬restores → u = .all → TicketInv s₁ → NoTicketWaits s₁ →
      t.image = r.image ∧ t.limits = r.limits ∧ AlignedPartEnded m .complete q s₁ t) := by
  have hc : (z || masksDiffer ((readState i u s r M q).balanceOf m)) = true
      ↔ z = true ∨ (s₁.balanceOf m).commanded ≠ .mask (s₁.balanceOf m).decided := by
    rw [masksDiffer_readState h]
    simp [masksDiffer]
  dsimp only
  unfold afterReads
  refine ⟨fun hre => ?_, fun hre hu ht hq => ?_, fun hre hu ht hq => ?_⟩
  · rw [if_pos (hc.2 hre), offerRestore_readState]
    exact noticed_offer ha .restore
  · subst hu
    rw [if_neg (fun hz => hre (hc.1 hz))]
    have hleft := PassesOnly.partDone (.one m) m .complete (readState i (.one m) s r M q)
    exact ⟨hleft.image, hleft.limits, ((passKept_readState h hn hy ho hj hr).partDone .complete ht hq).mono rfl rfl rfl rfl
      (RaisedGrows.of_eq rfl)⟩
  · subst hu
    rw [if_neg (fun hz => hre (hc.1 hz))]
    have hleft := PassesOnly.partDone .all m .complete (readState i .all s r M q)
    exact ⟨hleft.image, hleft.limits, ((alignedKept_readState h).partDone .complete ht hq).mono rfl rfl rfl rfl
      (RaisedGrows.of_eq rfl) (fun a hi => mem_refreshItems _ _ hi (by intro _ h; cases h))⟩

end Outcome

end Sys2Proof.Machine
end

