-- ==== Sys2Proof/Proofs/RenewedGroups.lean ====
section
open Sys2Proof Sys2Proof.Machine
/-! PROOFS. RenewedGroups.lean: O24, a group renewal and the answered reads that make one. -/

namespace Sys2Proof.Machine

theorem passesStand_renewGroup (m : Mod) (g : Machine.Group) (samples : Chan → Option Sample) (info : RenewalInfo)
    (s : State) : PassesStand s (renewGroup m g samples info s) := by
  obtain ⟨i, r, l, b, h⟩ := renewGroup_leaves m g samples info s
  rw [h]
  exact ⟨rfl, rfl, rfl, rfl, rfl, rfl⟩

/-- The aux cadence counter of a module cleared (R50). -/
def auxCleared (m : Mod) (s : State) : State :=
  { s with sweep := { s.sweep with auxCount := tput s.sweep.auxCount m 0 } }

theorem passesStand_auxCounted {s r : State} (h : PassesStand s r) (m : Mod) (p : Pass) (y : Part) :
    PassesStand (auxCleared m s) (auxCounted m p y r) :=
  ⟨h.passes, h.aligned, h.tickets, congrArg (fun w : Sweep => { w with auxCount := tput w.auxCount m 0 }) h.sweep,
    h.linkTime, h.modules⟩

section Freed

variable {i : Fin 4} {u : Target} {m : Mod} {s : State} {M : ChainMap} {p : Pass} {y : Part}

theorem renewGroup_freedWith (g : Machine.Group) (samples : Chan → Option Sample) (info : RenewalInfo) :
    renewGroup m g samples info (freedWith s i M) = { renewGroup m g samples info s with
      upLane := s.upLane.tail, link := { s.link with slots := tput s.link.slots i none }, map := M } :=
  renewGroup_relocate m g samples info s s.upLane.tail { s.link with slots := tput s.link.slots i none } M

theorem cellsRead_freedWith (hp : s.passOf u = some p) (xs : List Sample) :
    let r := renewGroup m .cells (cellSource xs) (renewalInfo p y) s
    let t := readState i u s r M (cellsStored m r.image.counter (xs.any (·.openWire)) p)
    cellsRead u m p y xs (freedWith s i M)
      = if p.what = .both then offer (.passStep u .readAux) t else afterReads u m y.quiesced t := by
  have hf : (freedWith s i M).passOf u = some p := by rw [← hp]; cases u <;> rfl
  rw [cellsRead_eq hf, renewGroup_freedWith]
  rfl

theorem auxRead_freedWith (hp : s.passOf u = some p) (d : List Sample × Int × Int) :
    let r := auxCounted m p y (renewGroup m .aux (auxSource d) (renewalInfo p y) s)
    auxRead u m p y d (freedWith s i M)
      = afterReads u m y.quiesced (readState i u s r M (auxStored m r.image.counter p)) := by
  have hf : (freedWith s i M).passOf u = some p := by rw [← hp]; cases u <;> rfl
  rw [auxRead_eq hf, renewGroup_freedWith]
  rfl

end Freed

/-! ## The answered reads -/

section Answer

variable {bytes : List Byte} {first : TakenFirst} {f : ResponseFrame} {i : Fin 4} {x : TxnSlot} {u : Target} {m : Mod}
  {p : Pass} {y : Part} {s : State}

/-- The answer `f` of an ACTIVE module's held slot `i` is for a transaction of the pass `p`. -/
structure PassAnswered (bytes : List Byte) (f : ResponseFrame) (i : Fin 4) (x : TxnSlot) (u : Target) (m : Mod) (p : Pass)
    (y : Part) (s : State) : Prop where
  inReset : s.inReset = false
  link : LinkInv s
  frame : receive bytes = .good f
  ok : f.status = 0
  slot : s.slot i = some x
  tag : x.tag = some f.tag
  node : x.node = f.node
  module : x.node = modNumber m
  owner : x.owner = .pass u
  pass : s.passOf u = some p
  part : partOf p m = some y
  active : s.health m = .active
  mark : (s.record m).mark = false

/-- The step of an answered read: its pass goes on from the freed slot, and the success is in the map. -/
theorem PassAnswered.exec_eq (h : PassAnswered bytes f i x u m p y s) (K : State → State) (hr : x.role ≠ .ping)
    (hw : wrongSamples x (s.record m) f.payload = false)
    (hK : ∀ x' S, x'.role = x.role → S.passOf u = some p →
      (S.record m).cellCount = (s.record m).cellCount ∧ (S.record m).tempCount = (s.record m).tempCount →
      passOutcome first u m x' (.answered 0 f.payload) S = K S)
    (hKm : ∀ S, S.passOf u = some p → (K S).map = S.map ∧ (K S).linkTime = S.linkTime) :
    ∃ M, M.n = s.map.n ∧ exec (.responseArrival bytes first) s = .next (noticed m s (K (freedWith s i M))) := by
  have hp (M : ChainMap) : (freedWith s i M).passOf u = some p := by rw [← h.pass]; cases u <;> rfl
  obtain ⟨M, hn, hM⟩ := releaseSlot_success (first := first) (i := i) K h.module hr hw h.active h.mark
    (fun x' M hr' hn' ho' hc => (originatorOutcome_pass first u m _ x' _ (hn'.trans h.module) (ho'.trans h.owner)).trans
      (hK x' _ hr' (hp M) hc))
    (fun M => hKm _ (hp M))
  refine ⟨M, hn, ?_⟩
  rw [responseArrival_releases bytes first f i x s h.inReset h.link h.frame h.slot h.tag h.node (by rw [h.ok]; decide),
    h.ok, hM]
  rfl

/-- An OK to a READ_CELLS with a sample for each channel (R35, R37, R45). -/
theorem PassAnswered.readCells (h : PassAnswered bytes f i x u m p y s) (hr : x.role = .readCells) {xs : List Sample}
    (hxs : cellSamples (s.record m).cellCount f.payload = some xs) :
    let restores : Prop := y.quiesced = true ∨ (s.balanceOf m).commanded ≠ .mask (s.balanceOf m).decided
    let r := renewGroup m .cells (cellSource xs) (renewalInfo p y) s
    let q := cellsStored m r.image.counter (xs.any (·.openWire)) p
    (p.what = .both → ∃ t, exec (.responseArrival bytes first) s = .next t
      ∧ AnswerTook i m s (r.setPass u (some q)) t ∧ .passStep u .readAux ∈ t.sched.items.map (·.kind))
    ∧ (p.what ≠ .both → restores → ∃ t, exec (.responseArrival bytes first) s = .next t
      ∧ AnswerTook i m s (r.setPass u (some (restoringPass u m q))) t
      ∧ .passStep u .restore ∈ t.sched.items.map (·.kind))
    ∧ (p.what ≠ .both → ¬restores → u = .one m → TicketInv s → NoTicketWaits s →
      ∃ t, exec (.responseArrival bytes first) s = .next t ∧ t.image = r.image ∧ t.limits = r.limits
        ∧ PassEnded m p r.image.counter y.auxRenewal s t)
    ∧ (p.what ≠ .both → ¬restores → u = .all → TicketInv s → NoTicketWaits s →
      ∃ t, exec (.responseArrival bytes first) s = .next t ∧ t.image = r.image ∧ t.limits = r.limits
        ∧ AlignedPartEnded m .complete q s t) := by
  intro restores r q
  have hw : wrongSamples x (s.record m) f.payload = false := by
    unfold wrongSamples
    rw [h.owner, hr]
    change (cellSamples (s.record m).cellCount f.payload).isNone = false
    rw [hxs]
    rfl
  obtain ⟨M, hn, hM⟩ := h.exec_eq (first := first) (cellsRead u m p y xs) (by rw [hr]; decide) hw
    (fun x' S hr' hp hc => passOutcome_readCells hp h.part (hr'.trans hr) (by rw [hc.1]; exact hxs))
    (fun S hp => cellsRead_leaves hp xs)
  rw [cellsRead_freedWith h.pass] at hM
  have hq : partOf q m = some { y with cellRenewal := r.image.counter, sawOpen := xs.any (·.openWire) } :=
    partOf_map (by intro _; rfl) h.part p rfl
  have hS := afterReads_settles (i := i) (u := u) (p := p) (passesStand_renewGroup m .cells (cellSource xs)
    (renewalInfo p y) s) hn h.active (z := y.quiesced) hq rfl rfl rfl
  dsimp only at hM hS
  obtain ⟨hrestore, hone, hall⟩ := hS
  refine ⟨fun hb => ?_, fun hb hre => ?_, fun hb hre hu ht hq => ?_, fun hb hre hu ht hq => ?_⟩
  · rw [if_pos hb] at hM
    exact ⟨_, hM, noticed_offer h.active .readAux⟩
  · rw [if_neg hb] at hM
    exact ⟨_, hM, hrestore hre⟩
  · rw [if_neg hb] at hM
    exact ⟨_, hM, hone hre hu ht hq⟩
  · rw [if_neg hb] at hM
    exact ⟨_, hM, hall hre hu ht hq⟩

/-- An OK to a READ_AUX with a sample for each channel (R35, R37, R45, R50). -/
theorem PassAnswered.readAux (h : PassAnswered bytes f i x u m p y s) (hr : x.role = .readAux)
    {d : List Sample × Int × Int} (hd : auxSamples (s.record m).tempCount f.payload = some d) :
    let restores : Prop := y.quiesced = true ∨ (s.balanceOf m).commanded ≠ .mask (s.balanceOf m).decided
    let r := auxCounted m p y (renewGroup m .aux (auxSource d) (renewalInfo p y) s)
    let q := auxStored m r.image.counter p
    (restores → ∃ t, exec (.responseArrival bytes first) s = .next t
      ∧ AnswerTook i m s (r.setPass u (some (restoringPass u m q))) t
      ∧ .passStep u .restore ∈ t.sched.items.map (·.kind))
    ∧ (¬restores → u = .one m → TicketInv s → NoTicketWaits s →
      ∃ t, exec (.responseArrival bytes first) s = .next t ∧ t.image = r.image ∧ t.limits = r.limits
        ∧ PassEnded m p y.cellRenewal r.image.counter (auxCleared m s) t)
    ∧ (¬restores → u = .all → TicketInv s → NoTicketWaits s →
      ∃ t, exec (.responseArrival bytes first) s = .next t ∧ t.image = r.image ∧ t.limits = r.limits
        ∧ AlignedPartEnded m .complete q (auxCleared m s) t) := by
  intro restores r q
  have hw : wrongSamples x (s.record m) f.payload = false := by
    unfold wrongSamples
    rw [h.owner, hr]
    change (auxSamples (s.record m).tempCount f.payload).isNone = false
    rw [hd]
    rfl
  obtain ⟨M, hn, hM⟩ := h.exec_eq (first := first) (auxRead u m p y d) (by rw [hr]; decide) hw
    (fun x' S hr' hp hc => passOutcome_readAux hp h.part (hr'.trans hr) (by rw [hc.2]; exact hd))
    (fun S hp => auxRead_leaves hp d)
  rw [auxRead_freedWith h.pass] at hM
  have hq : partOf q m = some { y with auxRenewal := r.image.counter } := partOf_map (by intro _; rfl) h.part p rfl
  have hS := afterReads_settles (i := i) (u := u) (p := p) (passesStand_auxCounted (passesStand_renewGroup m .aux
    (auxSource d) (renewalInfo p y) s) m p y) hn h.active (z := y.quiesced) hq rfl rfl rfl
  dsimp only at hM hS
  obtain ⟨hrestore, hone, hall⟩ := hS
  exact ⟨fun hre => ⟨_, hM, hrestore hre⟩, fun hre hu ht hq => ⟨_, hM, hone hre hu ht hq⟩,
    fun hre hu ht hq => ⟨_, hM, hall hre hu ht hq⟩⟩

end Answer

theorem auxCounted_eq {s r : State} (h : PassesStand s r) (m : Mod) (p : Pass) (y : Part) : auxCounted m p y r = { r with
    sweep := { s.sweep with auxCount := tput s.sweep.auxCount m 0 }
    limits := { r.limits with work := r.limits.work ++
      (if p.what = .both ∧ y.cellRenewal ≠ 0 ∧ y.sawOpen = false
        then [.sumCheck m y.cellRenewal r.image.counter] else []) } } := by
  unfold auxCounted
  rw [h.sweep]

end Sys2Proof.Machine

/-- Settles O24: a renewal by what it writes, raises and hands on, and the answered read by what its originator does from
the renewed state, whichever of it and the Chain Map takes the answer first. -/
theorem renewalWritesTheGroup : Obligations.RenewalWritesTheGroup := by
  unfold Obligations.RenewalWritesTheGroup
  constructor
  · intro m g samples info s t
    have ht : t = renewGroup m g samples info s := rfl
    have hcounter : t.image.counter = nextCounter s.image.counter := counter_renewGroup m g samples info s
    have hentry := chanEntry_renewGroup m g samples info s
    obtain ⟨r, hr, hstored⟩ := renewGroup_fields m g samples info s
    refine ⟨hcounter, by rw [hcounter]; exact nextCounter_ne_zero _, fun k ch h => ?_, fun ch x hg hp hx => ?_, fun q => ?_,
      ?_, ?_⟩
    · rw [ht, hentry k ch]
      by_cases hk : m = k
      · subst hk
        rw [if_pos rfl, renewEntry_other (h.resolve_left (by simp))]
      · rw [if_neg hk]
    · intro e e'
      have he : e' = takeSample s.timebase (chanWindow s.settings ch) info (nextCounter s.image.counter) ch x e := by
        rw [← renewEntry_sample hg hp hx]
        exact (hentry m ch).trans (if_pos rfl)
      rw [hcounter, he]
      obtain ⟨h1, h2, h3, h4, h5, h6, h7⟩ := takeSample_stamp s.timebase (chanWindow s.settings ch) info
        (nextCounter s.image.counter) ch x e
      exact ⟨h1, h2, h3, h4, h5, h6, h7, fun ho => takeSample_open ho .., fun ho => takeSample_valid ho ..⟩
    · rw [ht, moduleImage_renewGroup, ← hstored, hr]
    · rw [← validSamples_eq, hcounter, ht, hr]
      rfl
    · refine Eq.trans ?_ (congrArg _ (if_congr (renewalHandsOff_iff m g samples info s) rfl rfl))
      rw [ht, hr]
  · intro bytes first f i x u m p y s h1 h2 h3 h4 h5 h6 h7 h8 h9 h10 h11 h12 h13 word info took restores restoring
    have h : PassAnswered bytes f i x u m p y s := ⟨h1, h2, h3, h4, h5, h6, h7, h8, h9, h10, h11, h12, h13⟩
    refine ⟨fun hrole n hn hlen hcount => ?_, fun hrole n hn hlen hcount => ?_⟩
    · intro samples r p'
      have hxs := cellSamples_some hlen hcount
      have hsamples : samples = _ :=
        eq_cellSource (n := n) (f := cellSample f.payload n) (fun _ => rfl) (fun _ => rfl) rfl rfl
      subst hn
      have hread := h.readCells (first := first) hrole hxs
      rw [← hsamples, List.any_map] at hread
      exact hread
    · intro samples r r' p'
      have hd := auxSamples_some hlen hcount
      have hsamples : samples = _ :=
        eq_auxSource (n := n) (f := tempSample f.payload n) (b := (wordAt f.payload (2 + 2 * n)).toNat)
          (d := (wordAt f.payload (4 + 2 * n)).toInt) (fun _ => rfl) (fun _ => rfl) rfl rfl
      subst hn
      have hread := h.readAux (first := first) hrole hd
      rw [← hsamples, auxCounted_eq (passesStand_renewGroup ..)] at hread
      exact hread
end

