-- ==== Sys2Proof/Proofs/KeptOnChain.lean ====
section
/-! PROOFS. KeptOnChain.lean: what is kept that reads the passes, the sweep and the Chain Map alone (R29, R43, R47). -/

namespace Sys2Proof.Machine

/-- A property reads the passes, the sweep and the map alone, holds after device reset, and is kept by the updates of
`Closed` that write one of these. -/
structure KeptOnChain (P : State → Prop) : Prop where
  reads : ∀ s t, t.passes = s.passes → t.aligned = s.aligned → t.sweep = s.sweep → t.map = s.map → P s → P t
  reset : P State.reset
  restart : ∀ s, P s → P (linkRestart (sweepRestart (passRestart (mapRestart s))))
  passChange : ∀ s t p p', s.passOf t = some p → p'.parts.map (·.module) = p.parts.map (·.module) →
    P s → P (s.setPass t (some p'))
  passEnd : ∀ s t, P s → P (s.setPass t none)
  passNew : ∀ s t p, mayCreate s t p → P s → P (s.setPass t (some p))
  strike : ∀ s g, P s → P (strikeRefs g s)
  sweep : ∀ s w, w.state = s.sweep.state → w.mode = s.sweep.mode → w.pointer = s.sweep.pointer →
    (w.visit = s.sweep.visit ∨ s.sweep.visit = .deciding ∧ s.sweep.state = .running) → P s → P (s.setSweep w)
  startSweep : ∀ s, s.sweep.state = .waiting → P s → P (startSweep s)
  endVisit : ∀ s, s.sweep.visit ≠ .idle → P s → P (endVisit s)
  endAligned : ∀ s, P s → P (endAlignedIfDone s)
  closeMap : ∀ s r, s.map.state = .enumerating → P s → P (startAfterEnd (closeMap r s))
  recordModule : ∀ s m d, s.map.state = .enumerating → P s → P (recordModule m d s)
  record : ∀ s m r, P s → P (s.setRecord m r)
  mapClock : ∀ s a b n, P s → P (s.setMap { s.map with retryDue := a, pauseEnd := b, nextNumber := n })

namespace KeptOnChain

variable {P : State → Prop} (h : KeptOnChain P)

include h

/-- A command between device reset and its release keeps it, and the release gives the reset state's passes, sweep and
map (R81). -/
theorem release {s t : State} (ht : execResetRelease s = .next t) (hs : P s) : P t := by
  unfold execResetRelease at ht
  split at ht
  · cases ht
    exact h.reads State.reset _ rfl rfl rfl rfl h.reset
  · cases ht
    exact hs

theorem deviceReset {s t : State} (ht : execDeviceReset s = .next t) (hs : P s) : P t := by
  unfold execDeviceReset at ht
  split at ht
  · cases ht
    exact hs
  · cases ht
    exact h.reads s _ rfl rfl rfl rfl hs

/-- Every update of a command keeps it. -/
theorem closed : Closed P where
  raised s _ := h.reads s _ rfl rfl rfl rfl
  sched s _ := h.reads s _ rfl rfl rfl rfl
  limits s _ := h.reads s _ rfl rfl rfl rfl
  reserved s _ := h.reads s _ rfl rfl rfl rfl
  token s _ := h.reads s _ rfl rfl rfl rfl
  chain s _ _ := h.reads s _ rfl rfl rfl rfl
  entries s _ _ _ := h.reads s _ rfl rfl rfl rfl
  renew s _ _ _ _ _ := h.reads s _ rfl rfl rfl rfl
  decided s _ _ _ _ := h.reads s _ (by simp) (by simp) (by simp) (by simp)
  balance s _ _ _ := h.reads s _ rfl rfl rfl rfl
  balanceAll s _ _ := h.reads s _ rfl rfl rfl rfl
  balanceClock s _ _ := h.reads s _ rfl rfl rfl rfl
  passChange := h.passChange
  passEnd := h.passEnd
  passNew := h.passNew
  strike := h.strike
  tickets s _ _ _ := h.reads s _ rfl rfl rfl rfl
  ticketNew s _ _ _ _ := h.reads s _ rfl rfl rfl rfl
  sweep := h.sweep
  startSweep := h.startSweep
  endVisit := h.endVisit
  endAligned := h.endAligned
  closeMap := h.closeMap
  recordModule := h.recordModule
  record := h.record
  mapClock := h.mapClock
  restart := h.restart
  orphan s _ _ := h.reads s _ rfl rfl rfl rfl
  send s r o n p _ := by
    obtain ⟨l, he⟩ := sendUnicast_eq r o n p s
    exact he ▸ h.reads s _ rfl rfl rfl rfl
  lane s _ _ _ := h.reads s _ rfl rfl rfl rfl
  statistics s _ _ _ := h.reads s _ rfl rfl rfl rfl
  window s _ _ := h.reads s _ rfl rfl rfl rfl
  resend s _ _ _ _ _ := h.reads s _ rfl rfl rfl rfl
  freeSlot s _ := h.reads s _ rfl rfl rfl rfl
  untag s _ _ _ := h.reads s _ rfl rfl rfl rfl
  badCheck s _ _ _ _ _ _ := h.reads s _ rfl rfl rfl rfl
  timeout s i x _ := by
    obtain ⟨l, he⟩ := timeoutSlot_eq i x s
    exact he ▸ h.reads s _ rfl rfl rfl rfl
  quarantine s _ := h.reads s _ rfl rfl rfl rfl
  portSlot s _ _ _ := h.reads s _ rfl rfl rfl rfl
  latch s _ _ _ _ _ _ := h.reads s _ rfl rfl rfl rfl
  clearHold s _ _ := h.reads s _ rfl rfl rfl rfl
  store s p _ hs := by
    unfold takeStoring
    split
    · exact hs
    · exact h.reads s _ rfl rfl rfl rfl hs
  pop s _ _ _ := h.reads s _ rfl rfl rfl rfl
  queueReset s _ _ := h.reads s _ rfl rfl rfl rfl
  portSetting s p k v _ _ _ hs := by
    unfold acceptPerPort
    split
    · exact h.reads s _ rfl rfl rfl rfl hs
    · exact h.reads s _ rfl rfl rfl rfl hs
    · exact hs
  settings s _ _ _ _ _ := h.reads s _ rfl rfl rfl rfl
  deviceReset _ _ ht := h.deviceReset ht
  release _ _ ht := h.release ht

/-- So does every step: the queue of commands and link time are not read. -/
theorem step {s t : State} (hs : P s) (ht : step s = .next t) : P t :=
  h.closed.step (fun s _ => h.reads s _ rfl rfl rfl rfl) (fun s _ => h.reads s _ rfl rfl rfl rfl) hs ht

end KeptOnChain

end Sys2Proof.Machine
end

