-- ==== Sys2Proof/Proofs/PassInvariant.lean ====
section
/-! PROOFS. PassInvariant.lean: at most one pass concerns a module, and an aligned pass stands alone (R29, R43). -/

namespace Sys2Proof.Machine

/-- Only the pass records are read. -/
theorem PassInv.of_eq {s t : State} (h : PassInv s) (hp : t.passes = s.passes) (ha : t.aligned = s.aligned) :
    PassInv t := by
  have hpass (u : Target) : t.passOf u = s.passOf u := by cases u <;> simp only [State.passOf, hp, ha]
  constructor
  · simpa only [hpass] using h.single
  · simpa only [hpass] using h.aligned
  · simpa only [hpass] using h.alone

/-- Without a pass there is nothing to say. -/
theorem PassInv.of_none {s : State} (h : ∀ u, s.passOf u = none) : PassInv s where
  single m p hp := by simp [h] at hp
  aligned p hp := by simp [h] at hp
  alone m _ := h (.one m)

/-- Each pass record may change or go, as long as its modules stay. -/
theorem PassInv.of_passes {s t : State} (h : PassInv s) (hp : ∀ u p', t.passOf u = some p' →
    ∃ p, s.passOf u = some p ∧ p'.parts.map (·.module) = p.parts.map (·.module)) : PassInv t where
  single m p' hp' := by
    obtain ⟨p, hs, hparts⟩ := hp (.one m) p' hp'
    rw [hparts]
    exact h.single m p hs
  aligned p' hp' := by
    obtain ⟨p, hs, hparts⟩ := hp .all p' hp'
    obtain ⟨hne, hasc⟩ := h.aligned p hs
    refine ⟨fun hnil => hne ?_, hparts ▸ hasc⟩
    rw [hnil, List.map_nil, eq_comm, List.map_eq_nil_iff] at hparts
    exact hparts
  alone m ha := by
    obtain ⟨a, ha⟩ := Option.isSome_iff_exists.1 ha
    obtain ⟨a', ha', -⟩ := hp .all a ha
    have hnone := h.alone m (by rw [ha']; rfl)
    cases hm : t.passOf (.one m) with
    | none => rfl
    | some p =>
      obtain ⟨p', hp', -⟩ := hp (.one m) p hm
      rw [hnone] at hp'
      cases hp'

/-- The passes that stand after one target's record is written: that record, and the others as before. -/
theorem State.passOf_setPass {t u : Target} {p : Option Pass} {s : State} :
    (s.setPass t p).passOf u = if t = u then p else s.passOf u := by
  split
  · next h => rw [h, State.passOf_setPass_same]
  · next h => exact State.passOf_setPass_other h p s

theorem anyPass_eq_false {s : State} : s.anyPass = false ↔ ∀ u, s.passOf u = none := by
  have hm (m : Mod) : m ∈ allMods := List.mem_finRange m
  unfold State.anyPass
  simp only [Bool.or_eq_false_iff, List.any_eq_false, Option.isSome_eq_false_iff, Option.isNone_iff_eq_none, hm,
    true_implies, Bool.not_eq_true]
  constructor
  · rintro ⟨ha, hs⟩ (m | -)
    · exact hs m
    · exact ha
  · exact fun h => ⟨h .all, fun m => h (.one m)⟩

theorem moduleFree_iff {s : State} {m : Mod} :
    s.moduleFree m = true ↔ s.passOf (.one m) = none ∧ s.passOf .all = none ∧ s.reserved = false := by
  simp [State.moduleFree, State.passOf, and_assoc]

/-- A pass is created only where none stands in its way (R29, R43). -/
theorem PassInv.create {s : State} (h : PassInv s) {t : Target} {p : Pass} (hc : mayCreate s t p) :
    PassInv (s.setPass t (some p)) := by
  cases t with
  | one m =>
    obtain ⟨hfree, hparts⟩ := hc
    obtain ⟨-, hall, -⟩ := moduleFree_iff.1 hfree
    refine ⟨fun k q hq => ?_, fun q hq => ?_, fun k ha => ?_⟩
    · rw [State.passOf_setPass] at hq
      split at hq
      · next hk =>
        cases hk
        cases hq
        exact hparts
      · exact h.single k q hq
    · rw [State.passOf_setPass, if_neg nofun, hall] at hq
      cases hq
    · rw [State.passOf_setPass, if_neg nofun, hall] at ha
      cases ha
  | all =>
    obtain ⟨hany, hne, hasc⟩ := hc
    have hnone (k : Mod) : (s.setPass .all (some p)).passOf (.one k) = none := anyPass_eq_false.1 hany (.one k)
    refine ⟨fun k q hq => ?_, fun q hq => ?_, fun k _ => hnone k⟩
    · rw [hnone] at hq
      cases hq
    · cases hq
      exact ⟨hne, hasc⟩

/-- The pass records keep their modules under every update of a command. -/
theorem passInv_keptOnChain : KeptOnChain PassInv where
  reads _ _ hp ha _ _ h := h.of_eq hp ha
  reset := .of_none fun u => by
    cases u with
    | one m => exact tget_tbuild _ m
    | all => rfl
  restart s _ := .of_none fun u => by
    cases u with
    | one m => exact tget_tbuild _ m
    | all => rfl
  passChange s t p p' hp hparts h := h.of_passes fun u q hq => by
    rw [State.passOf_setPass] at hq
    split at hq
    · next hu =>
      cases hq
      exact ⟨p, hu ▸ hp, hparts⟩
    · exact ⟨q, hq, rfl⟩
  passEnd s t h := h.of_passes fun u q hq => by
    rw [State.passOf_setPass] at hq
    split at hq
    · cases hq
    · exact ⟨q, hq, rfl⟩
  passNew _ _ _ hc h := h.create hc
  strike s g h := h.of_passes fun u q hq => by
    cases u with
    | one m =>
      simp only [State.passOf, strikeRefs, tget_tmap] at hq
      obtain ⟨p, hp, rfl⟩ := Option.map_eq_some_iff.1 hq
      exact ⟨p, hp, rfl⟩
    | all =>
      obtain ⟨p, hp, rfl⟩ := Option.map_eq_some_iff.1 hq
      exact ⟨p, hp, rfl⟩
  sweep _ _ _ _ _ _ h := h.of_eq rfl rfl
  startSweep s _ h := by
    obtain ⟨w, r, x, he, -⟩ := startSweep_eq s
    exact he ▸ h.of_eq rfl rfl
  endVisit s _ h := by
    obtain ⟨w, r, x, he⟩ := endVisit_eq s
    exact he ▸ h.of_eq rfl rfl
  endAligned s h := by
    obtain ⟨w, r, x, he⟩ := endAlignedIfDone_eq s
    exact he ▸ h.of_eq rfl rfl
  closeMap s reason _ h := by
    obtain ⟨c, w, r, x, he, -⟩ := startAfterEnd_closeMap_eq reason s
    exact he ▸ h.of_eq rfl rfl
  recordModule _ _ _ _ h := h.of_eq rfl rfl
  record _ _ _ h := h.of_eq rfl rfl
  mapClock _ _ _ _ h := h.of_eq rfl rfl

end Sys2Proof.Machine

open Sys2Proof Sys2Proof.Machine

/-- Settles O12: a pass is created only where no other stands in its way, and every other update leaves the modules of each
pass. -/
theorem stepsKeepOnePassPerModule : Obligations.StepsKeepOnePassPerModule := fun _ _ hs ht =>
  passInv_keptOnChain.step hs ht
end

