-- ==== Sys2Proof/Proofs/SweepInvariant.lean ====
section
/-! PROOFS. SweepInvariant.lean: the sweep state and pointer agree with the chain state and N (R47, R49, R82). -/

namespace Sys2Proof.Machine

/-- Of the map only the state and N are read, of the sweep the state, mode, pointer and visit. -/
theorem SweepInv.of_eq {s t : State} (h : SweepInv s) (hm : t.map.state = s.map.state) (hn : t.map.n = s.map.n)
    (hs : t.sweep.state = s.sweep.state) (hmode : t.sweep.mode = s.sweep.mode)
    (hp : t.sweep.pointer = s.sweep.pointer)
    (hv : t.sweep.visit ≠ .idle → s.sweep.visit ≠ .idle) : SweepInv t where
  count := hn ▸ h.count
  running := by rw [hm, hn]; exact h.running
  down := by rw [hm, hn]; exact h.down
  halted := by rw [hs, hm]; exact h.halted
  pointerHalted := by rw [hs, hp]; exact h.pointerHalted
  pointerWaiting := by rw [hs, hp]; exact h.pointerWaiting
  pointerRunning := by rw [hs, hp, hn]; exact h.pointerRunning
  visit hne := by rw [hs, hmode]; exact h.visit (hv hne)
  pointerAligned := by rw [hs, hmode, hp]; exact h.pointerAligned

/-- A chain that is not RUNNING has no sweep. -/
theorem SweepInv.of_halted {s : State} (hm : s.map.state ≠ .running) (hc : s.map.n ≤ 12)
    (hd : s.map.state = .down → s.map.n = 0) (hs : s.sweep.state = .halted) (hp : s.sweep.pointer = 0)
    (hv : s.sweep.visit = .idle) : SweepInv s where
  count := hc
  running h := absurd h hm
  down := hd
  halted := ⟨fun _ => hm, fun _ => hs⟩
  pointerHalted _ := hp
  pointerWaiting h := by rw [hs] at h; cases h
  pointerRunning h := by rw [hs] at h; cases h
  visit h := absurd hv h
  pointerAligned h := by rw [hs] at h; cases h

/-- On a RUNNING chain with N of 1..12 a sweep waits or runs. -/
theorem SweepInv.of_running {s : State} (hm : s.map.state = .running) (h1 : 1 ≤ s.map.n) (h12 : s.map.n ≤ 12)
    (hs : s.sweep.state ≠ .halted) (hw : s.sweep.state = .waiting → s.sweep.pointer = 1)
    (hr : s.sweep.state = .running → 1 ≤ s.sweep.pointer ∧ s.sweep.pointer ≤ s.map.n)
    (hv : s.sweep.visit ≠ .idle → s.sweep.state = .running ∧ s.sweep.mode = .rolling)
    (ha : s.sweep.state = .running → s.sweep.mode = .aligned → s.sweep.pointer = 1) : SweepInv s where
  count := h12
  running _ := h1
  down h := by rw [hm] at h; cases h
  halted := ⟨fun h => absurd h hs, fun h => absurd hm h⟩
  pointerHalted h := absurd h hs
  pointerWaiting := hw
  pointerRunning := hr
  visit := hv
  pointerAligned := ha

/-- A sweep that is not HALTED is one of a RUNNING chain. -/
theorem SweepInv.chainRunning {s : State} (h : SweepInv s) (hs : s.sweep.state ≠ .halted) : s.map.state = .running := by
  by_contra hm
  exact hs (h.halted.2 hm)

/-- While the chain is ENUMERATING no visit is under way. -/
theorem SweepInv.idle_of_enumerating {s : State} (h : SweepInv s) (hm : s.map.state = .enumerating) :
    s.sweep.state = .halted ∧ s.sweep.visit = .idle := by
  have hhalt : s.sweep.state = .halted := h.halted.2 (by rw [hm]; decide)
  refine ⟨hhalt, ?_⟩
  by_contra hv
  exact absurd (hhalt.symm.trans (h.visit hv).1) (by decide)

/-- The sweep has started, in the mode that SWEEP_MODE gives, or waits (R47, R48). -/
structure AtStart (m : SweepMode) (w : Sweep) : Prop where
  pointer : w.pointer = 1
  phase : w.state = .waiting ∧ w.visit = .idle
    ∨ w.state = .running ∧ w.mode = m ∧ w.visit = if m = .rolling then .deciding else .idle

theorem SweepInv.atStart {s : State} {m : SweepMode} (hm : s.map.state = .running) (h1 : 1 ≤ s.map.n)
    (h12 : s.map.n ≤ 12) (hw : AtStart m s.sweep) : SweepInv s := by
  obtain ⟨hp, hphase⟩ := hw
  refine .of_running hm h1 h12 ?_ (fun _ => hp) (fun _ => by omega) ?_ (fun _ _ => hp)
  · rcases hphase with ⟨hs, -⟩ | ⟨hs, -⟩ <;> rw [hs] <;> decide
  · intro hv
    rcases hphase with ⟨-, hidle⟩ | ⟨hs, hmode, hvisit⟩
    · exact absurd hidle hv
    · rw [hvisit] at hv
      refine ⟨hs, hmode.trans ?_⟩
      by_contra hne
      exact hv (if_neg hne)

theorem SweepInv.endSweep {s : State} (h : SweepInv s) (hs : s.sweep.state ≠ .halted) :
    SweepInv (endSweep s) := by
  have hm := h.chainRunning hs
  obtain ⟨w, r, x, he, hphase, hp⟩ := endSweep_eq s
  rw [he]
  exact .atStart hm (h.running hm) h.count ⟨hp, hphase⟩

/-- The sweep agrees with the chain under every update of a command. -/
theorem sweepInv_keptOnChain : KeptOnChain SweepInv where
  reads s t _ _ hw hm h := h.of_eq (by rw [hm]) (by rw [hm]) (by rw [hw]) (by rw [hw]) (by rw [hw]) (by rw [hw]; exact id)
  reset := .of_halted (by decide) (by decide) (by decide) rfl rfl rfl
  restart _ _ := .of_halted nofun (Nat.zero_le _) nofun rfl rfl rfl
  passChange _ _ _ _ _ _ h := h.of_eq (by simp) (by simp) (by simp) (by simp) (by simp) (by simp)
  passEnd _ _ h := h.of_eq (by simp) (by simp) (by simp) (by simp) (by simp) (by simp)
  passNew _ _ _ _ h := h.of_eq (by simp) (by simp) (by simp) (by simp) (by simp) (by simp)
  strike _ _ h := h.of_eq rfl rfl rfl rfl rfl id
  sweep s w hs hmode hp hv h := h.of_eq rfl rfl hs hmode hp fun hne => by
    rcases hv with hv | ⟨hv, -⟩
    · exact hv ▸ hne
    · rw [hv]
      decide
  startSweep s hs h := by
    have hm := h.chainRunning (by rw [hs]; decide)
    obtain ⟨w, r, x, he, h1, h2, h3, -, h5⟩ := startSweep_eq s
    rw [he]
    exact .atStart hm (h.running hm) h.count ⟨h2, .inr ⟨h1, h3, h5⟩⟩
  endVisit s hv h := by
    obtain ⟨hrun, hroll⟩ := h.visit hv
    have hne : s.sweep.state ≠ .halted := by rw [hrun]; decide
    unfold Machine.endVisit
    split
    · next hlt =>
      have hm := h.chainRunning hne
      refine .of_running hm (h.running hm) h.count hne ?_ (fun _ => ⟨Nat.le_add_left 1 _, hlt⟩)
        (fun _ => ⟨hrun, hroll⟩) ?_
      · intro hw
        exact absurd (hrun.symm.trans hw) (by decide)
      · intro _ hal
        exact absurd (hroll.symm.trans hal) (by decide)
    · exact h.endSweep hne
  endAligned s h := by
    unfold endAlignedIfDone
    split
    · next hc => exact h.endSweep (by rw [hc.1]; decide)
    · exact h
  closeMap s reason hen h := by
    obtain ⟨hhalt, hidle⟩ := h.idle_of_enumerating hen
    obtain ⟨c, w, r, x, he, hn, hstate, hw⟩ := startAfterEnd_closeMap_eq reason s
    rw [he]
    by_cases h0 : s.map.n = 0
    · rw [if_pos h0] at hstate hw
      subst hw
      exact .of_halted (by rw [hstate]; decide) (hn ▸ h.count) (fun _ => hn.trans h0) hhalt (h.pointerHalted hhalt) hidle
    · rw [if_neg h0] at hstate hw
      obtain ⟨w1, w2, w3, w4⟩ := hw
      exact .atStart hstate (by rw [hn]; omega) (hn ▸ h.count) ⟨w2, .inr ⟨w1, w3, w4⟩⟩
  recordModule s m d hen h := by
    obtain ⟨hhalt, hidle⟩ := h.idle_of_enumerating hen
    have hm : (recordModule m d s).map.state = .enumerating := hen
    exact .of_halted (by rw [hm]; decide) m.isLt (by rw [hm]; nofun) hhalt (h.pointerHalted hhalt) hidle
  record _ _ _ h := h.of_eq rfl rfl rfl rfl rfl id
  mapClock _ _ _ _ h := h.of_eq rfl rfl rfl rfl rfl id

end Sys2Proof.Machine

open Sys2Proof Sys2Proof.Machine

/-- Settles O13: sweeps start, go on and end on a RUNNING chain alone, and an enumeration begins with none. -/
theorem stepsKeepTheSweep : Obligations.StepsKeepTheSweep := fun _ _ hs ht => sweepInv_keptOnChain.step hs ht
end

