-- ==== Sys2Proof/Proofs/SweepEvents.lean ====
section
/-! PROOFS. SweepEvents.lean: the period boundary (R48), and the creation of directed and aligned passes (R43, R112). -/

namespace Sys2Proof.Machine

/-- Out of device reset an event is taken (R161). -/
theorem awake_eq {s : State} (hr : s.inReset = false) (act : State → State) : awake act s = act s :=
  if_neg (by rw [hr]; decide)

/-- An instant less than 2³¹ ticks back has been reached (log entry 4). -/
theorem reached_eq {now due : Tick} (h : (now - due).toNat < 2 ^ 31) : reached now due = true := decide_eq_true h

/-! ## Starts of a sweep (R47, R48) -/

/-- A start leaves the next boundary, and reserves a pass in ALIGNED mode alone. -/
theorem startSweep_leaves (s : State) : (startSweep s).sweep.nextBoundary = s.sweep.nextBoundary
    ∧ ((startSweep s).reserved = true ↔ s.reserved = true ∨ s.settings.sweepMode = .aligned) := by
  unfold startSweep
  cases s.settings.sweepMode with
  | rolling => simp
  | aligned =>
    dsimp only
    obtain ⟨x, hx⟩ := offers_eq (fun m => ItemKind.ping m) s.lostMods
      { s.setSweep { s.sweep with
          state := .running, mode := .aligned, pointer := 1, visit := .idle, pendingStart := false,
          alignedAux := cadenceUp s.sweep.alignedAux,
          alignedDue := decide (s.settings.auxCadence ≤ cadenceUp s.sweep.alignedAux),
          alignedOpen := true, pings := s.lostMods } with reserved := true }
    rw [hx]
    simp

end Sys2Proof.Machine

open Sys2Proof Sys2Proof.Machine

/-- Settles O58: while a sweep runs only the boundary, the pending start and the overruns are written; while none does the
event is that of a sweep's start. -/
theorem boundaryStartsOrCountsAnOverrun : Obligations.BoundaryStartsOrCountsAnOverrun := by
  intro b s hr hb hreached next
  have hdue : s.boundaryDue = some b := by
    unfold State.boundaryDue
    rw [hb, Option.filter_some, if_pos (reached_eq hreached)]
  have hexec : exec .periodBoundary s = .next (refreshItems (takeBoundary b s)) := by
    change Host.Outcome.next (awake _ s) = _
    rw [awake_eq hr, hdue]
  rw [hexec]
  refine ⟨fun hs => ⟨_, rfl, ?_⟩, fun hs => ⟨_, rfl, ?_⟩⟩
  · unfold takeBoundary
    dsimp only [State.setSweep]
    rw [hs]
    rfl
  · have htake : takeBoundary b s = startSweep (s.setSweep { s.sweep with nextBoundary := some next }) := by
      unfold takeBoundary
      dsimp only [State.setSweep]
      rw [hs]
      rfl
    obtain ⟨w, r, x, he, hstate, hpointer, hmode, hpending, hvisit⟩ :=
      startSweep_eq (s.setSweep { s.sweep with nextBoundary := some next })
    obtain ⟨hboundary, hreserved⟩ := startSweep_leaves (s.setSweep { s.sweep with nextBoundary := some next })
    rw [htake]
    rw [he] at hboundary hreserved ⊢
    exact ⟨rfl, hboundary, hstate, hmode, hpointer, hpending, hvisit, fun ha => hreserved.2 (.inr ha)⟩

/-- Settles O56: each creation writes its pass record, and what the ticket or the reservation becomes. -/
theorem passesAreCreated : Obligations.PassesAreCreated := by
  intro s hr
  constructor
  · intro p k hk
    have hexec : exec (.directedPassCreate p) s = .next (refreshItems (createDirected p s)) :=
      congrArg _ (awake_eq hr _)
    obtain ⟨hdemand, hfree⟩ := Option.filter_eq_some_iff.1 hk
    simp only [Bool.and_eq_true] at hfree
    obtain ⟨hone, hall, -⟩ := moduleFree_iff.1 hfree.1.1
    have hqueued : k.state = .queued := by
      unfold State.demand at hdemand
      split at hdemand
      · cases hdemand
      · simpa using List.find?_some hdemand
    rw [hexec]
    refine ⟨_, rfl, ?_, ?_, hqueued, hone, hall⟩
    · unfold createDirected
      rw [hk]
      rfl
    · refine mem_refreshItems _ _ ?_ (by intro m h; cases h)
      unfold createDirected
      rw [hk]
      exact mem_offer _ _
  · intro hres hany hne
    have hexec : exec .alignedPassCreate s = .next (refreshItems (createAligned s)) := by
      change Host.Outcome.next (awake _ s) = _
      rw [awake_eq hr, if_pos (by simp [State.alignedDue, hres, hany])]
    have hcreate : ∃ w, createAligned s = createPass .all (newPass s.settings w .sweepAligned none s.participants)
        { s with reserved := false } ∧ (w = .both ∨ w = .cells) := by
      unfold createAligned
      dsimp only
      rw [if_neg (by simpa using hne)]
      refine ⟨_, rfl, ?_⟩
      split <;> simp
    obtain ⟨w, hw, hwhat⟩ := hcreate
    rw [hexec, hw]
    refine ⟨_, rfl, rfl, mem_refreshItems _ _ (mem_offer _ _) (by intro m h; cases h), w, rfl, hwhat, fun m => ?_⟩
    have hm : m ∈ allMods := List.mem_finRange m
    simp [State.participants, State.onChain, hm]
end

