-- ==== Sys2Proof/Proofs/Sendings.lean ====
section
/-! PROOFS. Sendings.lean: the sending of a pass's CONVERT, and re-sends (R34, R77). -/

namespace Sys2Proof.Machine

/-! ## The sending of a CONVERT (R34) -/

theorem commandedSome_eq (c : Commanded) : commandedSome c = (c != .mask 0) := by
  cases c with
  | unknown => rfl
  | mask k => rw [Bool.eq_iff_iff]; simp [commandedSome]

/-- The pass after a sending of its CONVERT, the table of the modules' balance records as given. -/
def convertingPass (s : State) (p : Pass) : Pass :=
  { p with
    step := .converting, instant := some s.timebase
    parts := p.parts.map fun y => { y with
      balanced := !y.quiesced && (s.balanceOf y.module).commanded != .mask 0 } }

theorem convertSent_eq {u : Target} {p : Pass} {s : State} (hp : s.passOf u = some p) :
    convertSent u s = s.setPass u (some (convertingPass s p)) := by
  unfold convertSent convertingPass
  rw [updatePass_some hp]
  simp only [commandedSome_eq]

/-! ## Re-sends (R77) -/

theorem freshPayload_mask {x : TxnSlot} {m : Mod} (hr : x.role = .restore ∨ x.role = .update) (hn : x.node = modNumber m)
    (s : State) : freshPayload s x = .mask (s.balanceOf m).decided := by
  unfold freshPayload
  rw [hn, modOfNumber_modNumber]
  rcases hr with hr | hr <;> rw [hr]

theorem freshPayload_other {x : TxnSlot} (hr : x.role ≠ .restore ∧ x.role ≠ .update) (s : State) :
    freshPayload s x = x.payload := by
  unfold freshPayload
  split
  · next h _ => exact absurd h hr.1
  · next h _ => exact absurd h hr.2
  · rfl

/-- A quiet lane, a slot that waits and a tag make a re-send due. -/
theorem resendDue_eq {i : Fin 4} {x : TxnSlot} {tag : BitVec 4} {rest : List (Fin 4)} {s : State}
    (h1 : s.link.sending = none) (h2 : s.link.idleUntil = none) (h3 : s.link.gapUntil = none)
    (hq : s.link.resendQueue = i :: rest) (ht : drawTag s.link = some tag) (hx : s.slot i = some x) :
    s.resendDue = some (i, x, tag, rest) := by
  unfold State.resendDue
  rw [if_pos (by simp [laneQuiet, h1, h2, h3]), hq, ht]
  dsimp only
  rw [hx]
  rfl

theorem takeResend_convert {i : Fin 4} {x : TxnSlot} {tag : BitVec 4} {rest : List (Fin 4)} {u : Target} {s : State}
    (hd : s.resendDue = some (i, x, tag, rest)) (hr : x.role = .convert) (ho : x.owner = .pass u) :
    takeResend s = convertSent u (resendSlot i x tag rest s) := by
  unfold takeResend
  rw [hd]
  dsimp only
  rw [hr, ho]

theorem takeResend_other {i : Fin 4} {x : TxnSlot} {tag : BitVec 4} {rest : List (Fin 4)} {s : State}
    (hd : s.resendDue = some (i, x, tag, rest)) (h : x.role ≠ .convert ∨ ∀ u, x.owner ≠ .pass u) :
    takeResend s = resendSlot i x tag rest s := by
  unfold takeResend
  rw [hd]
  dsimp only
  split
  · next hr ho => exact h.elim (absurd hr) fun h => absurd ho (h _)
  · rfl

end Sys2Proof.Machine

open Sys2Proof Sys2Proof.Machine

/-- Settles O53: the payload is the one taken afresh; a pass is told of its CONVERT's sending and takes the instant. -/
theorem resendUsesAFreshTag : Obligations.ResendUsesAFreshTag := by
  intro i x tag rest s hr h1 h2 h3 hq ht hx
  have hdue := resendDue_eq h1 h2 h3 hq ht hx
  have hexec : exec .resend s = .next (takeResend s) := congrArg _ (awake_eq hr _)
  refine ⟨freshPayload s x, fun m hrole hn => freshPayload_mask hrole hn s, fun hrole => freshPayload_other hrole s,
    fun hother => ?_, fun u p hrole ho hp => ?_⟩
  · rw [hexec, takeResend_other hdue hother]
    rfl
  · have hpass : (resendSlot i x tag rest s).passOf u = some p := by rw [← hp]; cases u <;> rfl
    rw [hexec, takeResend_convert hdue hrole ho, convertSent_eq hpass]
    rfl
end

