-- ==== Sys2Proof/Proofs/PassTimers.lean ====
section
/-! PROOFS. PassTimers.lean: the timers of a pass, and the re-read that a NOT_READY starts (R33 to R36, R45). -/

namespace Sys2Proof.Machine

theorem setPass_setPass (u : Target) (p q : Option Pass) (s : State) : (s.setPass u p).setPass u q = s.setPass u q := by
  cases u with
  | one m => simp [State.setPass, tput_tput_same]
  | all => rfl

/-! ## The timers (R33, R34, R36, R45) -/

section Timer

variable {u : Target} {m : Mod} {x : Pass} {y : Part} {due : Tick} {k : PassTimerKind} {s : State}

theorem timerDue_eq (hp : s.passOf u = some x) (hx : x.timer = some { kind := k, due := due })
    (hd : (s.timebase - due).toNat < 2 ^ 31) : s.timerDue u k = true := by
  unfold State.timerDue
  rw [hp]
  dsimp only
  rw [hx]
  simp [reached_eq hd]

theorem firstRead_eq (w : What) : firstRead w = if w = .aux then .readAux else .readCells := by cases w <;> rfl

theorem clearTimer_eq (hp : s.passOf u = some x) : clearTimer u s = s.setPass u (some { x with timer := none }) :=
  updatePass_some hp _

/-- The pass with the reading of a part begun (R34, R45). -/
def readingPass (m : Mod) (x : Pass) : Pass :=
  { x with
    step := .reading, timer := none
    parts := x.parts.map fun z => if z.module = m then { z with step := .reading } else z }

theorem beginReading_eq (hp : s.passOf u = some x) : beginReading u m s =
    offer (.passStep u (if x.what = .aux then .readAux else .readCells)) (s.setPass u (some (readingPass m x))) := by
  unfold beginReading
  rw [hp]
  dsimp only
  rw [firstRead_eq]
  rfl

/-- After the wait an aligned pass reads its first waiting part. -/
theorem serveNext_clearTimer (hp : s.passOf .all = some x) (hy : (x.parts.find? fun z => z.step = .waiting) = some y) :
    serveNext (clearTimer .all s) = offer (.passStep .all (if x.what = .aux then .readAux else .readCells))
      (s.setPass .all (some (readingPass y.module x))) := by
  rw [clearTimer_eq hp]
  unfold serveNext
  change (match x.parts.find? fun z => z.step = .waiting with
    | some z => beginReading .all z.module (s.setPass .all (some { x with timer := none }))
    | none => endPass .all (s.setPass .all (some { x with timer := none }))) = _
  rw [hy]
  exact beginReading_eq (x := { x with timer := none }) rfl

/-- The read that is repeated is the one that had no samples ready (R36). -/
theorem repeatedRead_eq (x : Pass) (y : Part) :
    repeatedRead x y = if x.what = .aux ∨ y.cellRenewal ≠ 0 then .readAux else .readCells := by
  unfold repeatedRead
  by_cases hw : x.what = .aux
  · rw [if_pos hw, if_pos (.inl hw)]
  · rw [if_neg hw]
    by_cases hc : y.cellRenewal = 0
    · rw [if_pos hc, if_neg (by simp [hw, hc])]
    · rw [if_neg hc, if_pos (.inr hc)]

theorem offerReread_eq (hp : s.passOf u = some x)
    (hy : (x.parts.find? fun z => z.step = .reading ∨ z.step = .restoring) = some y) :
    offerReread u s = offer (.passStep u (if x.what = .aux ∨ y.cellRenewal ≠ 0 then .readAux else .readCells))
      (s.setPass u (some { x with timer := none })) := by
  unfold offerReread
  rw [hp]
  dsimp only
  rw [show servedPart x = some y from hy]
  dsimp only
  rw [repeatedRead_eq, clearTimer_eq hp]

/-- An offer of a pass's item writes the items alone, and the item stands. -/
theorem passStep_offered (act : PassAct) (s : State) :
    refreshItems (offer (.passStep u act) s) = { s with sched := (refreshItems (offer (.passStep u act) s)).sched }
    ∧ .passStep u act ∈ (refreshItems (offer (.passStep u act) s)).sched.items.map (·.kind) :=
  ⟨rfl, mem_refreshItems _ _ (mem_offer _ _) (by intro m h; cases h)⟩

end Timer

/-! ## The first NOT_READY to a read (R36) -/

/-- An answer with a status other than OK is taken by its originator alone, from the freed slot, in each order. -/
theorem releaseSlot_notOk (first : TakenFirst) (i : Fin 4) (x : TxnSlot) {st : Byte} (pl : List Byte) (s : State)
    (h : st ≠ 0) : ∃ x', x'.role = x.role ∧ x'.node = x.node ∧ x'.owner = x.owner
      ∧ releaseSlot first i x (.answered st pl) (upLaneOver s)
        = originatorOutcome first x' (.answered st pl) (slotFreed s i) := by
  by_cases hf : first = .chainMap
  · subst hf
    refine ⟨waitingSlot x, rfl, rfl, rfl, ?_⟩
    rw [releaseSlot_chainMap i x st pl s fun l => ⟨_, _, _, mapNotice_failing _ _ _ _ h⟩, mapNotice_failing _ _ _ _ h,
      setSlot_waiting_quiet]
  · exact ⟨x, rfl, rfl, rfl, by rw [releaseSlot_originator hf, mapNotice_failing _ _ _ _ h]⟩

section Reread

variable {first : TakenFirst} {u : Target} {m : Mod} {x : TxnSlot} {p : Pass} {y : Part} {s : State}

/-- The pass that waits to repeat a read of a module's part (R36). -/
def rereadingPass (cells : Bool) (m : Mod) (due : Tick) (p : Pass) : Pass :=
  { p with
    timer := some { kind := .reread, due := due }
    parts := p.parts.map fun z => if z.module = m then
      (if cells then { z with rereadCells := true } else { z with rereadAux := true }) else z }

theorem rereadLater_eq (hp : s.passOf u = some p) (cells : Bool) : rereadLater u m cells s
    = s.setPass u (some (rereadingPass cells m (s.timebase + BitVec.ofNat 32 p.waitTicks) p)) := by
  unfold rereadLater startWait
  rw [updatePass_some hp, updatePass_some (State.passOf_setPass_same u _ s), setPass_setPass]
  cases u <;> rfl

theorem passOutcome_notReady (hp : s.passOf u = some p) (hy : partOf p m = some y) (pl : List Byte)
    (h : x.role = .readCells ∧ y.rereadCells = false ∨ x.role = .readAux ∧ y.rereadAux = false) :
    passOutcome first u m x (.answered 1 pl) s = rereadLater u m (decide (x.role = .readCells)) s := by
  unfold passOutcome
  rw [hp]; dsimp only; rw [hy]; dsimp only
  rcases h with ⟨hr, hd⟩ | ⟨hr, hd⟩
  · rw [hr]
    exact if_neg (by rw [hd]; decide)
  · rw [hr]
    exact if_neg (by rw [hd]; decide)

end Reread

end Sys2Proof.Machine

open Sys2Proof Sys2Proof.Machine

/-- Settles O57: each timer at its instant clears itself and offers the next item; the first NOT_READY reaches its pass
alone, in each order, and the pass starts its wait. -/
theorem passTimersOfferTheNextStep : Obligations.PassTimersOfferTheNextStep := by
  constructor
  · intro u m x y due s hr hp hd offered
    refine ⟨fun ht => ?_, fun hu ht => ?_, fun hu ht hy => ?_, fun ht hy => ?_⟩
    · have hexec : exec (.settleExpiry u) s
          = .next (refreshItems (offer (.passStep u .convert) (clearTimer u s))) := by
        change Host.Outcome.next (awake _ s) = _
        rw [awake_eq hr, if_pos (timerDue_eq hp ht hd)]
      rw [clearTimer_eq hp] at hexec
      exact ⟨_, hexec, passStep_offered _ _⟩
    · subst hu
      have hexec : exec (.conversionWaitExpiry m) s = .next (refreshItems (beginReading (.one m) m s)) := by
        change Host.Outcome.next (awake _ s) = _
        rw [awake_eq hr, if_pos (timerDue_eq hp ht hd)]
      rw [beginReading_eq hp] at hexec
      exact ⟨_, hexec, passStep_offered _ _⟩
    · subst hu
      have hexec : exec .alignedWaitExpiry s = .next (refreshItems (serveNext (clearTimer .all s))) := by
        change Host.Outcome.next (awake _ s) = _
        rw [awake_eq hr, if_pos (timerDue_eq hp ht hd)]
      rw [serveNext_clearTimer hp hy] at hexec
      exact ⟨_, hexec, passStep_offered _ _⟩
    · have hexec : exec (.rereadWaitExpiry u) s = .next (refreshItems (offerReread u s)) := by
        change Host.Outcome.next (awake _ s) = _
        rw [awake_eq hr, if_pos (timerDue_eq hp ht hd)]
      rw [offerReread_eq hp hy] at hexec
      exact ⟨_, hexec, passStep_offered _ _⟩
  · intro bytes first f i x u m p y s hr hl hf h1 hx ht hn hm ho hp hy hread
    have hpass : (slotFreed s i).passOf u = some p := by rw [← hp]; cases u <;> rfl
    obtain ⟨x', hrole, hnode, howner, hrelease⟩ := releaseSlot_notOk first i x f.payload s (st := f.status)
      (by rw [h1]; decide)
    rw [originatorOutcome_pass first u m _ x' _ (hnode.trans hm) (howner.trans ho), h1,
      passOutcome_notReady hpass hy f.payload (by rw [hrole]; exact hread), rereadLater_eq hpass, hrole] at hrelease
    refine ⟨_, (responseArrival_releases bytes first f i x s hr hl hf hx ht hn (by rw [h1]; decide)).trans
      (by rw [h1, hrelease]), ?_⟩
    have hparts : rereadingPass (decide (x.role = .readCells)) m (s.timebase + BitVec.ofNat 32 p.waitTicks) p = { p with
        timer := some { kind := .reread, due := s.timebase + BitVec.ofNat 32 p.waitTicks }
        parts := p.parts.map fun z => if z.module = m then { z with
          rereadCells := z.rereadCells || x.role = .readCells,
          rereadAux := z.rereadAux || x.role = .readAux } else z } := by
      unfold rereadingPass
      rcases hread with ⟨hrole, -⟩ | ⟨hrole, -⟩ <;> simp [hrole]
    rw [← hparts]
    cases u <;> rfl
end

