-- ==== Sys2Proof/Proofs/Notices.lean ====
section
/-! PROOFS. Notices.lean: an OK that its originator and the Chain Map take in either order (R75, R86, R87). -/

namespace Sys2Proof.Machine

/-- From `s` to `t` the Chain Map has noticed an outcome: the map is `M`, the modules `hs` are handed on, and the records
`es` are raised. -/
structure MapNoticed (M : ChainMap) (hs : List Mod) (es : List Event) (s t : State) : Prop where
  eq : t = { s with
    map := M, balance := { s.balance with handoffs := s.balance.handoffs ++ hs }, raised := t.raised }
  raised : ∀ q, t.raised.get q = s.raised.get q ++ storing es

theorem MapNoticed.self (s : State) : MapNoticed s.map [] [] s s where
  eq := by rw [List.append_nil]
  raised q := by simp

/-- The notice that the Chain Map takes of an outcome, wherever the map, the settings and the time are those of `s`. -/
def NoticeOf (x : TxnSlot) (o : LinkOutcome) (M : ChainMap) (hs : List Mod) (es : List Event) (s : State) : Prop :=
  ∀ S : State, S.map = s.map → S.settings = s.settings → S.linkTime = s.linkTime →
    MapNoticed M hs es S (mapNotice x o S)

/-- An answer whose notice leaves the slots is taken by its originator from the freed slot, before the notice or after. -/
theorem releaseSlot_noticed {first : TakenFirst} {i : Fin 4} {x : TxnSlot} {st : Byte} {pl : List Byte} {s : State}
    {M : ChainMap} {hs : List Mod} {es : List Event} {K : State → State}
    (hN : NoticeOf x (.answered st pl) M hs es s)
    (hK : ∀ x', x'.role = x.role → x'.node = x.node → x'.owner = x.owner → x'.payload = x.payload →
      ∀ S, S.passes = s.passes → S.aligned = s.aligned → originatorOutcome first x' (.answered st pl) S = K S) :
    let t := releaseSlot first i x (.answered st pl) (upLaneOver s)
    t = mapNotice x (.answered st pl) (K (slotFreed s i))
      ∨ ∃ S, MapNoticed M hs es (slotFreed s i) S ∧ t = K S := by
  by_cases hf : first = .chainMap
  · subst hf
    let w : State :=
      { slotFreed s i with link := { s.link with slots := tput s.link.slots i (some (waitingSlot x)) } }
    have hw : MapNoticed M hs es w (mapNotice x (.answered st pl) w) := hN w rfl rfl rfl
    have hfree := setSlot_waiting s i (some (waitingSlot x)) M
      { s.balance with handoffs := s.balance.handoffs ++ hs } (mapNotice x (.answered st pl) w).raised
    have hS : MapNoticed M hs es (slotFreed s i) (State.setSlot i none (mapNotice x (.answered st pl) w)) :=
      ⟨(congrArg (State.setSlot i none) hw.eq).trans hfree, hw.raised⟩
    refine .inr ⟨_, hS, ?_⟩
    rw [releaseSlot_chainMap i x st pl s fun l => ⟨_, _, _, (hN { slotFreed s i with link := l } rfl rfl rfl).eq⟩]
    exact hK (waitingSlot x) rfl rfl rfl rfl _ ((congrArg State.passes hS.eq).trans rfl)
      ((congrArg State.aligned hS.eq).trans rfl)
  · left
    rw [releaseSlot_originator hf, hK x rfl rfl rfl rfl (slotFreed s i) rfl rfl]

/-- A success that is applied (R86). -/
theorem successNotice_noticed {m : Mod} {s S : State} (hm : S.map = s.map) (ht : S.linkTime = s.linkTime)
    (hh : s.health m ≠ .absent) (hmark : (s.record m).mark = false) :
    MapNoticed (successMap s m) (if s.health m = .active then [] else [m])
      (if s.health m = .lost then [{ kind := .moduleFound, time := s.timebase, module := some m }] else [])
      S (successNotice m S) := by
  have hr (k : Mod) : S.record k = s.record k := by unfold State.record; rw [hm]
  have htime : S.timebase = s.timebase := by unfold State.timebase State.ticks; rw [ht]
  have hhealth : S.health m = s.health m := congrArg ModuleRecord.state (hr m)
  have hsuccess : successMap S m = successMap s m := by unfold successMap successRecord; rw [hm, hr, htime]
  obtain ⟨r, he, hraised⟩ := successNotice_eq m S (by rw [hhealth]; exact hh) (by rw [hr]; exact hmark)
  rw [hsuccess, hhealth] at he
  rw [hhealth, htime] at hraised
  rw [he]
  exact ⟨rfl, hraised⟩

end Sys2Proof.Machine
end

