-- ==== Sys2Proof/Proofs/Visits.lean ====
section
/-! PROOFS. Visits.lean: the decision of a rolling visit, and an answered recovery PING (R49 to R54, R87). -/

namespace Sys2Proof.Machine

/-! ## The end of a visit (R53) -/

theorem endVisit_next {s : State} (h : s.sweep.pointer < s.map.n) :
    endVisit s = s.setSweep { s.sweep with pointer := s.sweep.pointer + 1, visit := .deciding } := if_pos h

theorem endVisit_waits {s : State} (h : s.map.n ≤ s.sweep.pointer) (hp : s.sweep.pendingStart = false) :
    endVisit s = s.setSweep { s.sweep with state := .waiting, pointer := 1, visit := .idle } := by
  unfold endVisit endSweep
  rw [if_neg (by omega), if_neg (by rw [hp]; decide)]

theorem endVisit_starts {s : State} (h : s.map.n ≤ s.sweep.pointer) (hp : s.sweep.pendingStart = true) :
    endVisit s = startSweep s := by
  unfold endVisit endSweep
  rw [if_neg (by omega), if_pos hp]

/-! ## The decision of a visit (R49 to R52) -/

/-- The aux cadence of the module under the pointer is counted (R50). -/
def auxTicked (m : Mod) (s : State) : State :=
  { s with sweep := { s.sweep with auxCount := tput s.sweep.auxCount m (min 8 (tget s.sweep.auxCount m + 1)) } }

theorem decideVisit_lost {m : Mod} {s : State} (h : s.health m = .lost) : decideVisit m s =
    offer (.ping m) ((auxTicked m s).setSweep { (auxTicked m s).sweep with visit := .pinging }) := if_pos h

theorem decideVisit_skips {m : Mod} {s : State} (h : s.health m ≠ .lost) (hskip : (auxTicked m s).skipVisit m = true) :
    decideVisit m s = endVisit (auxTicked m s) := (if_neg h).trans (if_pos hskip)

theorem decideVisit_creates {m : Mod} {s : State} (h : s.health m ≠ .lost)
    (hskip : (auxTicked m s).skipVisit m = false) : decideVisit m s =
      createPass (.one m) (newPass s.settings (if (auxTicked m s).auxDue m then .both else .cells) .sweepRolling none [m])
        ((auxTicked m s).setSweep { (auxTicked m s).sweep with visit := .passing }) :=
  (if_neg h).trans (if_neg (show ¬(auxTicked m s).skipVisit m = true by rw [hskip]; decide))

/-! ## An answered recovery PING (R52 to R54, R87) -/

theorem descriptorMatches_iff (r : ModuleRecord) (pl : List Byte) : descriptorMatches r pl = true ↔
    ∃ c k v : Byte, pl = [c, k, v] ∧ c.toNat = r.cellCount ∧ k.toNat = r.tempCount ∧ v.toNat = r.revision := by
  unfold descriptorMatches descriptorOf
  rw [beq_iff_eq]
  constructor
  · intro h
    split at h
    · next c k v =>
      simp only [Option.some.injEq, Prod.mk.injEq] at h
      obtain ⟨hc, hk, hv⟩ := h
      exact ⟨c, k, v, rfl, hc, hk, hv⟩
    · cases h
  · rintro ⟨c, k, v, rfl, h1, h2, h3⟩
    rw [← h1, ← h2, ← h3]

/-- The end of the PING reads the sweep and N alone. -/
theorem PingEnded.of_eq {m : Mod} {s t : State} {w : Sweep} (h : PingEnded m t w) (hs : t.sweep = s.sweep)
    (hn : t.map.n = s.map.n) : PingEnded m s w := by
  constructor
  · rw [← hs, ← hn]; exact h.nextVisit
  · rw [← hs, ← hn]; exact h.lastVisit
  · rw [← hs]; exact h.open_
  · rw [← hs]; exact h.done

/-- From `s` to `t` the answer to a recovery PING of the module has been taken: the map is `M`, `hs` are handed on, `es`
are raised, and the visit or the PING is over. -/
structure PingTaken (i : Fin 4) (m : Mod) (M : ChainMap) (hs : List Mod) (es : List Event) (s t : State) : Prop where
  eq : t = { s with
    upLane := s.upLane.tail, sched := t.sched, link := { s.link with slots := tput s.link.slots i none }, map := M,
    sweep := t.sweep, reserved := t.reserved, raised := t.raised,
    balance := { s.balance with handoffs := s.balance.handoffs ++ hs } }
  ended : PingEnded m s t.sweep
  raised : ∀ q, t.raised.get q = s.raised.get q ++ storing es

section Ping

variable {i : Fin 4} {m : Mod} {M : ChainMap} {hs : List Mod} {es : List Event} {s : State}

theorem PingTaken.refresh {t : State} (h : PingTaken i m M hs es s t) : PingTaken i m M hs es s (refreshItems t) where
  eq := congrArg (fun v : State => { v with sched := (refreshItems t).sched }) h.eq
  ended := h.ended
  raised := h.raised

/-- The Chain Map's notice first, then the end of the PING. -/
theorem pingTaken_noticed {S : State} (hn : M.n = s.map.n) (h : MapNoticed M hs es (slotFreed s i) S) :
    PingTaken i m M hs es s (endPing m S) := by
  obtain ⟨w, r, x, he, hended⟩ := endPing_eq m S
  have hS := h.eq
  rw [he]
  refine ⟨?_, hended.of_eq (by rw [hS]; rfl) (by rw [hS]; exact hn), h.raised⟩
  exact congrArg (fun v : State => { v with sweep := w, reserved := r, sched := x }) hS

/-- The end of the PING first, then the Chain Map's notice. -/
theorem pingTaken_ended {t : State} (h : MapNoticed M hs es (endPing m (slotFreed s i)) t) :
    PingTaken i m M hs es s t := by
  obtain ⟨w, r, x, he, hended⟩ := endPing_eq m (slotFreed s i)
  have ht := h.eq
  have hraised := h.raised
  rw [he] at ht hraised
  have hw : t.sweep = w := by rw [ht]
  refine ⟨?_, hw ▸ hended.of_eq rfl rfl, hraised⟩
  rw [ht]
  rfl

end Ping

section PingAnswer

variable {first : TakenFirst} {i : Fin 4} {x : TxnSlot} {m : Mod}
  {M : ChainMap} {hs : List Mod} {es : List Event} {s : State}

/-- An OK to a recovery PING, with whatever notice the Chain Map takes of its descriptor. -/
theorem releaseSlot_pingOk (pl : List Byte) (hm : x.node = modNumber m) (ho : x.owner = .sweep)
    (hN : NoticeOf x (.answered 0 pl) M hs es s) (hn : M.n = s.map.n) :
    PingTaken i m M hs es s (releaseSlot first i x (.answered 0 pl) (upLaneOver s)) := by
  rcases releaseSlot_noticed (first := first) (i := i) (K := endPing m) hN
    (fun x' _ hn ho' _ S _ _ => originatorOutcome_pingOk first m pl x' S (hn.trans hm) (ho'.trans ho)) with h | ⟨S, hS, h⟩
  · rw [h]
    obtain ⟨w, r, y, he, -⟩ := endPing_eq m (slotFreed s i)
    exact pingTaken_ended (hN _ (by rw [he]; rfl) (by rw [he]; rfl) (by rw [he]; rfl))
  · rw [h]
    exact pingTaken_noticed hn hS

theorem mapNotice_ping (pl : List Byte) (hm : x.node = modNumber m) (hr : x.role = .ping) (S : State) :
    mapNotice x (.answered 0 pl) S = pingNotice m pl S := by
  unfold mapNotice
  rw [hm, modOfNumber_modNumber]
  exact if_pos hr

/-- A failure of a LOST module is counted, and no more (R85). -/
theorem failureNotice_lost {S : State} (h : S.health m = .lost) :
    failureNotice m S = S.setRecord m { S.record m with failures := min 7 ((S.record m).failures + 1) } := by
  have h' : (S.record m).state = .lost := h
  unfold failureNotice
  dsimp only
  rw [h']

/-- The map with one record replaced, nothing handed on and nothing raised. -/
theorem MapNoticed.record {S : State} (r : ModuleRecord) :
    MapNoticed { S.map with records := tput S.map.records m r } [] [] S (S.setRecord m r) where
  eq := by rw [List.append_nil]; rfl
  raised q := by simp [State.setRecord]

/-- A failure of a LOST module, in any state with its record. -/
theorem failureNotice_lost_noticed {S : State} (h : S.health m = .lost) :
    MapNoticed { S.map with
        records := tput S.map.records m { S.record m with failures := min 7 ((S.record m).failures + 1) } } [] []
      S (failureNotice m S) := by
  rw [failureNotice_lost h]
  exact .record _

end PingAnswer

section Decided

variable {m : Mod} {s : State}

theorem exec_visitDecision (hr : s.inReset = false) (hv : s.visitDue = some m) :
    exec .visitDecision s = .next (refreshItems (decideVisit m s)) := by
  change Host.Outcome.next (awake _ s) = _
  rw [awake_eq hr, hv]

/-- A success of a marked module is discarded (R87). -/
theorem successNotice_marked (h : (s.record m).mark = true) : successNotice m s = s := if_pos h

theorem pingNotice_same {pl : List Byte} (h : descriptorMatches (s.record m) pl = true) :
    pingNotice m pl s = successNotice m s := if_pos h

theorem pingNotice_other {pl : List Byte} (h : ¬descriptorMatches (s.record m) pl = true) (hh : s.health m ≠ .absent) :
    pingNotice m pl s = failureNotice m (s.setRecord m { s.record m with mark := true }) :=
  (if_neg h).trans (if_neg hh)

end Decided

/-- The end of a skipped visit, refreshed (R53). -/
theorem endVisit_ends (s : State) : ∃ t, refreshItems (endVisit s) = t
    ∧ t = { s with sweep := t.sweep, reserved := t.reserved, sched := t.sched }
    ∧ (s.sweep.pointer < s.map.n →
      t.sweep = { s.sweep with pointer := s.sweep.pointer + 1, visit := .deciding } ∧ t.reserved = s.reserved)
    ∧ (s.map.n ≤ s.sweep.pointer → s.sweep.pendingStart = false →
      t.sweep = { s.sweep with state := .waiting, pointer := 1, visit := .idle } ∧ t.reserved = s.reserved)
    ∧ (s.map.n ≤ s.sweep.pointer → s.sweep.pendingStart = true →
      t.sweep.state = .running ∧ t.sweep.mode = s.settings.sweepMode ∧ t.sweep.pointer = 1
      ∧ t.sweep.pendingStart = false ∧ (t.reserved = true ↔ s.reserved = true ∨ s.settings.sweepMode = .aligned)) := by
  refine ⟨_, rfl, ?_, fun h => ?_, fun h hp => ?_, fun h hp => ?_⟩
  · obtain ⟨w, r, x, he⟩ := endVisit_eq s
    rw [he]
    rfl
  · rw [endVisit_next h]
    exact ⟨rfl, rfl⟩
  · rw [endVisit_waits h hp]
    exact ⟨rfl, rfl⟩
  · rw [endVisit_starts h hp]
    obtain ⟨w, r, x, he, hstate, hpointer, hmode, hpending, -⟩ := startSweep_eq s
    have hreserved := (startSweep_leaves s).2
    rw [he] at hreserved ⊢
    exact ⟨hstate, hmode, hpointer, hpending, hreserved⟩

section PingTaken

variable {i : Fin 4} {m : Mod} {r' : ModuleRecord} {hs : List Mod} {es : List Event} {s t : State}

/-- What the answered PING leaves, with the records and the hand-offs read off it. -/
theorem PingTaken.leaves (h : PingTaken i m { s.map with records := tput s.map.records m r' } hs es s t) :
    t = { s with
        upLane := s.upLane.tail, sched := t.sched, link := { s.link with slots := tput s.link.slots i none },
        map := { s.map with records := tput s.map.records m r' },
        sweep := t.sweep, reserved := t.reserved, raised := t.raised,
        balance := { s.balance with handoffs := t.balance.handoffs } }
      ∧ t.balance.handoffs = s.balance.handoffs ++ hs := by
  have hb : t.balance.handoffs = s.balance.handoffs ++ hs := by rw [h.eq]
  rw [hb]
  exact ⟨h.eq, rfl⟩

/-- Two pairs with the same record at each port are the same. -/
theorem PerPort.eq_of_get {α : Type} {a b : PerPort α} (h : ∀ q, a.get q = b.get q) : a = b := by
  cases a
  cases b
  exact congrArg₂ PerPort.mk (h .A) (h .B)

theorem PingTaken.quiet {M : ChainMap} (h : PingTaken i m M [] [] s t) :
    t.raised = s.raised ∧ t.balance.handoffs = s.balance.handoffs := by
  constructor
  · exact PerPort.eq_of_get fun q => (h.raised q).trans (List.append_nil _)
  · rw [h.eq]
    exact List.append_nil _

end PingTaken

/-! ## The notice taken of an answered PING (R85 to R87) -/

section PingNotices

variable {x : TxnSlot} {m : Mod} {pl : List Byte} {s : State}

/-- The recorded descriptor, the mark clear (R86). -/
theorem noticeOf_pingSame (hm : x.node = modNumber m) (hr : x.role = .ping) (hh : s.health m ≠ .absent)
    (hd : descriptorMatches (s.record m) pl = true) (hk : (s.record m).mark = false) :
    NoticeOf x (.answered 0 pl) (successMap s m) (if s.health m = .active then [] else [m])
      (if s.health m = .lost then [{ kind := .moduleFound, time := s.timebase, module := some m }] else []) s := by
  intro S hS _ ht
  have hrec : S.record m = s.record m := by unfold State.record; rw [hS]
  rw [mapNotice_ping pl hm hr, pingNotice_same (hrec ▸ hd)]
  exact successNotice_noticed hS ht hh hk

/-- The recorded descriptor, the mark set (R87). -/
theorem noticeOf_pingMarked (hm : x.node = modNumber m) (hr : x.role = .ping)
    (hd : descriptorMatches (s.record m) pl = true) (hk : (s.record m).mark = true) :
    NoticeOf x (.answered 0 pl) { s.map with records := tput s.map.records m (s.record m) } [] [] s := by
  intro S hS _ _
  have hrec : S.record m = s.record m := by unfold State.record; rw [hS]
  rw [mapNotice_ping pl hm hr, pingNotice_same (hrec ▸ hd), successNotice_marked (hrec ▸ hk)]
  unfold State.record
  rw [tput_tget, ← hS]
  exact .self S

/-- Another descriptor from a LOST module: the mark, and a failure (R87). -/
theorem noticeOf_pingOther (hm : x.node = modNumber m) (hr : x.role = .ping)
    (hd : ¬descriptorMatches (s.record m) pl = true) (hl : s.health m = .lost) :
    NoticeOf x (.answered 0 pl) { s.map with
      records := tput s.map.records m
        { s.record m with mark := true, failures := min 7 ((s.record m).failures + 1) } } [] [] s := by
  intro S hS _ _
  have hrec : S.record m = s.record m := by unfold State.record; rw [hS]
  have hhealth : S.health m = .lost := (congrArg ModuleRecord.state hrec).trans hl
  let marked : State := S.setRecord m { S.record m with mark := true }
  have hmarked : marked.record m = { S.record m with mark := true } := tget_tput_same _ _ _
  have hfail : failureNotice m marked = S.setRecord m
      { s.record m with mark := true, failures := min 7 ((s.record m).failures + 1) } := by
    rw [failureNotice_lost ((congrArg ModuleRecord.state hmarked).trans hhealth), hmarked, hrec]
    simp only [marked, State.setRecord, tput_tput_same]
  rw [mapNotice_ping pl hm hr, pingNotice_other (hrec ▸ hd) (by rw [hhealth]; decide), hfail, ← hS]
  exact .record _

/-- Any other status from a LOST module: a failure (R85). -/
theorem releaseSlot_pingFailed (first : TakenFirst) {i : Fin 4} {st : Byte} (h0 : st ≠ 0) (hm : x.node = modNumber m)
    (ho : x.owner = .sweep) (hl : s.health m = .lost) :
    PingTaken i m { s.map with
        records := tput s.map.records m { s.record m with failures := min 7 ((s.record m).failures + 1) } } [] [] s
      (releaseSlot first i x (.answered st pl) (upLaneOver s)) := by
  obtain ⟨x', -, hn', ho', he⟩ := releaseSlot_notOk first i x pl s h0
  rw [he, originatorOutcome_pingFailed first m st pl x' _ h0 (hn'.trans hm) (ho'.trans ho)]
  exact pingTaken_noticed rfl (failureNotice_lost_noticed (S := slotFreed s i) hl)

end PingNotices

end Sys2Proof.Machine

open Sys2Proof Sys2Proof.Machine

/-- Settles O55: the three branches of the decision, and the notice that the Chain Map takes of an answered PING. -/
theorem visitDecisionBeginsTheVisit : Obligations.VisitDecisionBeginsTheVisit := by
  constructor
  · intro m s hr hv s1
    rw [exec_visitDecision hr hv]
    refine ⟨fun hl => ⟨_, rfl, ?_⟩, fun hl hk => ⟨_, rfl, ?_⟩, fun hl hk => ?_⟩
    · rw [decideVisit_lost hl]
      exact ⟨rfl, mem_refreshItems _ _ (mem_offer _ _) (by intro k h; cases h)⟩
    · rw [decideVisit_creates hl hk]
      exact ⟨rfl, (passStep_offered _ _).2⟩
    · rw [decideVisit_skips hl hk]
      obtain ⟨t, rfl, ht⟩ := endVisit_ends s1
      exact ⟨_, rfl, ht⟩
  · intro bytes first f i x m s hr hl hf h4 hx ht hn hm hrole ho hh r same left ended quiet
    rw [responseArrival_releases bytes first f i x s hr hl hf hx ht hn h4]
    have key {r' : ModuleRecord} {hs : List Mod} {es : List Event} {t : State}
        (h : PingTaken i m { s.map with records := tput s.map.records m r' } hs es s t) : ended r' (refreshItems t) :=
      have w := h.refresh.ended
      ⟨h.refresh.leaves.1,
        fun h1 h2 h3 h4 => ⟨w.nextVisit h1 h2 h3 h4, w.lastVisit h1 h2 h3 h4⟩,
        fun h1 h2 => ⟨w.open_ h1 h2, w.done h1 h2⟩⟩
    have hd : descriptorMatches r f.payload = true ↔ same := descriptorMatches_iff r f.payload
    refine ⟨fun h0 hs hk => ?_, fun h0 hs hk => ?_, fun h0 hs hl => ?_, fun h0 hl => ?_⟩
    · rw [h0]
      have h := releaseSlot_pingOk (first := first) (i := i) (s := s) f.payload hm ho
        (noticeOf_pingSame hm hrole hh (hd.2 hs) hk) rfl
      exact ⟨_, rfl, key h, h.refresh.leaves.2, h.raised⟩
    · rw [h0]
      have h := releaseSlot_pingOk (first := first) (i := i) (s := s) f.payload hm ho
        (noticeOf_pingMarked hm hrole (hd.2 hs) hk) rfl
      exact ⟨_, rfl, key h, h.refresh.quiet⟩
    · rw [h0]
      have h := releaseSlot_pingOk (first := first) (i := i) (s := s) f.payload hm ho
        (noticeOf_pingOther hm hrole (mt hd.1 hs) hl) rfl
      exact ⟨_, rfl, key h, h.refresh.quiet⟩
    · have h := releaseSlot_pingFailed (pl := f.payload) first (i := i) h0 hm ho hl
      exact ⟨_, rfl, key h, h.refresh.quiet⟩

end

