-- ==== Sys2Proof/Proofs/PassGrants.lean ====
section
/-! PROOFS. PassGrants.lean: the grants of a pass's quiesce, CONVERT and restore (R31 to R37, R44, R106, R143). -/

namespace Sys2Proof.Machine

theorem quiesceNeeded_iff (s : State) (p : Pass) : quiesceNeeded s p = true ↔
    p.quiesce = true ∧ ∃ y ∈ p.parts, (s.balanceOf y.module).commanded ≠ .mask 0 := by
  unfold quiesceNeeded
  simp [commandedSome_eq]

/-! ## The pass item that leaves the scheduler (R102, R106) -/

/-- The port served last after the grant of an item of the pass. -/
def servedAfter (act : PassAct) (p : Pass) (s : State) : Port :=
  if act = .first ∧ p.origin = .directedA then .A
  else if act = .first ∧ p.origin = .directedB then .B else s.sched.lastServed

theorem servedAfter_first (p : Pass) (s : State) :
    servedAfter .first p s = (directedPort p.origin).getD s.sched.lastServed := by
  unfold servedAfter
  cases p.origin <;> rfl

section Granted

variable {u : Target} {act : PassAct} {p : Pass} {y : Part} {it : WorkItem} {s : State}

/-- A pass item's grant is taken without the item. -/
theorem exec_grant_passStep (hr : s.inReset = false) (hg : s.grantDue = some it) (hk : it.kind = .passStep u act) :
    exec .grant s = .next (refreshItems (grantPassItem u act (withdraw (· == it.kind) s))) := by
  rw [exec_grant s hr it hg, hk]
  rfl

theorem grantPassItem_first (h : s.passOf u = some p) :
    grantPassItem u .first s = quiesceOrConvert u p (servePort p.origin s) := by
  unfold grantPassItem
  rw [h]
  rfl

/-- The quiesce of a pass, to its one module or to all. -/
def sendQuiesce (u : Target) (p : Pass) (s : State) : State :=
  match u with
  | .one m => quiesceSent m (sendUnicast .quiesce (.pass u) (modNumber m) (.mask 0) s)
  | .all => quiesceSentAll p (sendBroadcast (verbCode .quiesce) (.mask 0) false s)

theorem quiesceOrConvert_quiesces {v : State} (h : quiesceNeeded s p = true)
    (hv : v.balance = s.balance := by rfl) : quiesceOrConvert u p v = sendQuiesce u p v := if_pos (by
  rw [quiesceNeeded_iff] at h ⊢
  unfold State.balanceOf at h ⊢
  rwa [hv])

theorem quiesceOrConvert_converts {v : State} (h : ¬quiesceNeeded s p = true)
    (hv : v.balance = s.balance := by rfl) : quiesceOrConvert u p v = sendConvert u p v := if_neg (by
  rw [quiesceNeeded_iff] at h ⊢
  unfold State.balanceOf at h ⊢
  rwa [hv])

theorem grantPassItem_convert (h : s.passOf u = some p) : grantPassItem u .convert s = sendConvert u p s := by
  unfold grantPassItem
  rw [h]

theorem grantPassItem_restore (h : s.passOf u = some p)
    (hy : (p.parts.find? fun z => z.step = .reading ∨ z.step = .restoring) = some y) :
    grantPassItem u .restore s = grantRestore u y.module s := by
  unfold grantPassItem servedPart
  rw [h]
  dsimp only
  rw [hy]

/-- Neither the withdrawal of an item nor the service of a port touches a pass. -/
theorem passOf_sched (c : Scheduler) : State.passOf { s with sched := c } u = s.passOf u := by cases u <;> rfl

/-- The first item of a pass that need not quiesce, and a CONVERT item, send the CONVERT. -/
theorem exec_grant_converts (hr : s.inReset = false) (hg : s.grantDue = some it) (hk : it.kind = .passStep u act)
    (hp : s.passOf u = some p) (h : act = .convert ∨ act = .first ∧ ¬quiesceNeeded s p = true) :
    ∃ c : Scheduler, c.lastServed = servedAfter act p s
      ∧ exec .grant s = .next (refreshItems (sendConvert u p { s with sched := c })) := by
  have hw : State.passOf (withdraw (· == it.kind) s) u = some p := (passOf_sched _).trans hp
  rw [exec_grant_passStep hr hg hk]
  rcases h with rfl | ⟨rfl, hq⟩
  · rw [grantPassItem_convert hw]
    exact ⟨(withdraw (· == it.kind) s).sched, rfl, rfl⟩
  · rw [grantPassItem_first hw, quiesceOrConvert_converts hq, servedAfter_first]
    exact ⟨(servePort p.origin (withdraw (· == it.kind) s)).sched, rfl, rfl⟩

/-- The first item of a pass that quiesces sends the quiesce, to the one module or to all. -/
theorem exec_grant_quiesces (hr : s.inReset = false) (hg : s.grantDue = some it) (hk : it.kind = .passStep u .first)
    (hp : s.passOf u = some p) (h : quiesceNeeded s p = true) :
    ∃ c : Scheduler, c.lastServed = servedAfter .first p s
      ∧ exec .grant s = .next (refreshItems (sendQuiesce u p { s with sched := c })) := by
  have hw : State.passOf (withdraw (· == it.kind) s) u = some p := (passOf_sched _).trans hp
  rw [exec_grant_passStep hr hg hk, grantPassItem_first hw, quiesceOrConvert_quiesces h, servedAfter_first]
  exact ⟨(servePort p.origin (withdraw (· == it.kind) s)).sched, rfl, rfl⟩

theorem exec_grant_restores (hr : s.inReset = false) (hg : s.grantDue = some it) (hk : it.kind = .passStep u .restore)
    (hp : s.passOf u = some p) (hy : (p.parts.find? fun z => z.step = .reading ∨ z.step = .restoring) = some y) :
    ∃ c : Scheduler, c.lastServed = servedAfter .restore p s
      ∧ exec .grant s = .next (refreshItems (grantRestore u y.module { s with sched := c })) := by
  have hw : State.passOf (withdraw (· == it.kind) s) u = some p := (passOf_sched _).trans hp
  rw [exec_grant_passStep hr hg hk, grantPassItem_restore hw hy]
  exact ⟨(withdraw (· == it.kind) s).sched, rfl, rfl⟩

end Granted

/-! ## What is sent (R32, R34, R37, R44) -/

section Sent

variable {m : Mod} {p : Pass} {s : State}

theorem setHold_eq (m : Mod) (on : Bool) (s : State) : ∃ r, setHold m on s =
    { s.setBalance m (decideModule (s.decisionInput m) (s.moduleImage m) { s.balanceOf m with hold := on }) with
      raised := r } := decideFrom_eq _ _ _ _ _

theorem quiesceSent_eq (hp : s.passOf (.one m) = some p) : ∃ r, quiesceSent m s =
    { s.setPass (.one m) (some (updatePart m (fun x => { x with quiesced := true }) { p with step := .quiescing })) with
      balance := { s.balance with
        modules := tput s.balance.modules m
          (decideModule (s.decisionInput m) (s.moduleImage m) { s.balanceOf m with hold := true }) }
      raised := r } := by
  unfold quiesceSent
  rw [updatePass_some hp]
  exact setHold_eq _ _ _

/-- The CONVERT of a single-module pass, sent in a slot of the link. -/
theorem sendConvert_one {l : Link} (hp : s.passOf (.one m) = some p)
    (hl : sendUnicast .convert (.pass (.one m)) (modNumber m) (.what p.what) s = { s with link := l }) :
    sendConvert (.one m) p s = { s with link := l, passes := tput s.passes m (some (convertingPass s p)) } := by
  have hsent : State.passOf { s with link := l } (.one m) = some p := hp
  change convertSent (.one m) (sendUnicast .convert (.pass (.one m)) (modNumber m) (.what p.what) s) = _
  rw [hl, convertSent_eq hsent]
  rfl

/-- The quiesce of a single-module pass, sent in a slot of the link. -/
theorem sendQuiesce_one {l : Link} (hp : s.passOf (.one m) = some p)
    (hl : sendUnicast .quiesce (.pass (.one m)) (modNumber m) (.mask 0) s = { s with link := l }) :
    ∃ r, sendQuiesce (.one m) p s = { s with
      link := l
      passes := tput s.passes m
        (some (updatePart m (fun x => { x with quiesced := true }) { p with step := .quiescing }))
      balance := { s.balance with
        modules := tput s.balance.modules m
          (decideModule (s.decisionInput m) (s.moduleImage m) { s.balanceOf m with hold := true }) }
      raised := r } := by
  have hsent : State.passOf { s with link := l } (.one m) = some p := hp
  change ∃ r, quiesceSent m (sendUnicast .quiesce (.pass (.one m)) (modNumber m) (.mask 0) s) = _
  rw [hl]
  exact quiesceSent_eq hsent

/-- The module's table once its hold period is over. -/
def released (m : Mod) (s : State) : BalanceModule :=
  if (s.balanceOf m).hold then decideModule (s.decisionInput m) (s.moduleImage m) { s.balanceOf m with hold := false }
  else s.balanceOf m

/-- A restore carries the decided mask after the hold period, whichever slot it is sent in. -/
theorem grantRestore_eq (u : Target) (m : Mod) (s : State) : ∃ r, grantRestore u m s =
    sendUnicast .restore (.pass u) (modNumber m) (.mask (released m s).decided)
      { s with balance := { s.balance with modules := tput s.balance.modules m (released m s) }, raised := r } := by
  unfold grantRestore released
  dsimp only
  by_cases h : (s.balanceOf m).hold = true
  · rw [if_pos h, if_pos h]
    obtain ⟨r, hr⟩ := setHold_eq m false s
    refine ⟨r, ?_⟩
    rw [setHold, decideFrom_balanceOf, if_pos rfl, ← setHold, hr]
    rfl
  · rw [if_neg h, if_neg h]
    refine ⟨s.raised, ?_⟩
    rw [show tput s.balance.modules m (s.balanceOf m) = s.balance.modules from tput_tget _ _]

/-- A restore that a slot and a tag are there for. -/
theorem grantRestore_sends {u : Target} {i : Fin 4} {tag : BitVec 4} (m : Mod) (hi : freeSlot s.link = some i)
    (ht : drawTag s.link = some tag) :
    let bytes : List Byte := commandBytes (modNumber m) 7 tag (.mask (released m s).decided)
    ∃ r, grantRestore u m s = { s with
      balance := { s.balance with modules := tput s.balance.modules m (released m s) }
      raised := r
      link := { s.link with
        lastTag := tag
        slots := tput s.link.slots i
          (some (newSlot s tag .restore (.pass u) (modNumber m) (.mask (released m s).decided)))
        sending := some { bytes := bytes, endAt := s.linkTime + 4 * bytes.length, slot := some i,
                          broadcast := false, release := false } } } := by
  obtain ⟨r, hr⟩ := grantRestore_eq u m s
  exact ⟨r, hr.trans (sendUnicast_sends _ _ _ _ i tag
    { s with balance := { s.balance with modules := tput s.balance.modules m (released m s) }, raised := r } hi ht)⟩

/-- The broadcast CONVERT, its wait timer started at the sending. -/
theorem sendConvert_all (hp : s.aligned = some p) : sendConvert .all p s =
    { sendBroadcast 4 (.what p.what) false s with aligned := some { convertingPass s p with
      timer := some { kind := .conversion, due := s.timebase + ticksOf p.waitTicks } } } := by
  have hsent : State.passOf (sendBroadcast 4 (.what p.what) false s) .all = some p := hp
  change startWait .all .conversion (convertSent .all (sendBroadcast 4 (.what p.what) false s)) = _
  rw [convertSent_eq hsent]
  unfold startWait
  rw [updatePass_some (State.passOf_setPass_same _ _ _), setPass_setPass]
  rfl

end Sent

/-! ## The broadcast quiesce (R44) -/

/-- The module's decision in its hold period, its commanded mask empty. -/
def heldEmpty (s : State) (m : Mod) : BalanceModule :=
  decideModule (s.decisionInput m) (s.moduleImage m) { s.balanceOf m with commanded := .mask 0, hold := true }

/-- The pass after the modules `ms` of it have been quiesced. -/
def quiescedPass (ms : List Mod) (p : Pass) : Pass :=
  { p with parts := p.parts.map fun y => if y.module ∈ ms then { y with quiesced := true } else y }

theorem quiescedPass_cons (a : Mod) (ms : List Mod) (p : Pass) :
    quiescedPass ms (quiescedPass [a] p) = quiescedPass (a :: ms) p := by
  unfold quiescedPass
  simp only [List.map_map, List.mem_cons]
  congr 2
  funext y
  by_cases h : y.module = a <;> by_cases h' : y.module ∈ ms <;> simp [h, h']

/-- From `s` to `t` the modules `ms` of the aligned pass `p` have been quiesced. -/
structure Quiesced (ms : List Mod) (p : Pass) (s t : State) : Prop where
  eq : t = { s with
    aligned := some (quiescedPass ms p)
    balance := { s.balance with modules := t.balance.modules }
    raised := t.raised }
  balance : ∀ k, t.balanceOf k = if k ∈ ms then heldEmpty s k else s.balanceOf k

/-- A participant is quiesced by the broadcast. -/
def quiesceModule (s : State) (m : Mod) : State :=
  setHold m true (setCommanded m (.mask 0) (updatePass .all (updatePart m fun x => { x with quiesced := true }) s))

theorem quiesceModule_quiesced {m : Mod} {p : Pass} {s : State} (hp : s.aligned = some p) :
    Quiesced [m] p s (quiesceModule s m) := by
  have hpass : { p with parts := p.parts.map fun x => if x.module = m then { x with quiesced := true } else x }
      = quiescedPass [m] p := by simp [quiescedPass]
  unfold quiesceModule
  rw [updatePass_some (u := .all) hp, show updatePart m _ p = _ from hpass]
  generalize hS : setCommanded m (.mask 0) (s.setPass .all (some (quiescedPass [m] p))) = S
  have hbalance (k : Mod) : S.balanceOf k =
      if m = k then { s.balanceOf m with commanded := .mask 0 } else s.balanceOf k := by
    rw [← hS]
    exact State.balanceOf_setBalance m k _ _
  have hdecides : decideModule (S.decisionInput m) (S.moduleImage m) { S.balanceOf m with hold := true }
      = heldEmpty s m := by
    rw [hbalance, if_pos rfl, ← hS]
    rfl
  constructor
  · obtain ⟨r, hr⟩ := setHold_eq m true S
    rw [hr, ← hS]
    rfl
  · intro k
    rw [setHold, decideFrom_balanceOf, hdecides, hbalance]
    simp only [List.mem_singleton]
    by_cases hk : m = k
    · rw [if_pos hk, if_pos hk.symm, hk]
    · rw [if_neg hk, if_neg hk, if_neg (Ne.symm hk)]

theorem Quiesced.trans {a : Mod} {ms : List Mod} {p : Pass} {s t v : State} (h : Quiesced [a] p s t)
    (h' : Quiesced ms (quiescedPass [a] p) t v) (ha : a ∉ ms) : Quiesced (a :: ms) p s v := by
  have ht := h.eq
  have hv := h'.eq
  constructor
  · rw [quiescedPass_cons] at hv
    rw [ht] at hv
    exact hv
  · intro k
    have hdecides : heldEmpty t k = decideModule (s.decisionInput k) (s.moduleImage k)
        { t.balanceOf k with commanded := .mask 0, hold := true } := by
      unfold heldEmpty
      rw [ht]
      rfl
    rw [h'.balance, hdecides, h.balance]
    by_cases hk : k = a
    · subst hk
      simp [ha]
    · simp only [List.mem_cons, hk, false_or]
      rfl

theorem foldl_quiesceModule {ms : List Mod} (hn : ms.Nodup) {p : Pass} {s : State} (hp : s.aligned = some p) :
    Quiesced ms p s (ms.foldl quiesceModule s) := by
  induction ms generalizing s p with
  | nil =>
    constructor
    · simp [quiescedPass, ← hp]
    · intro k
      simp
  | cons a ms ih =>
    obtain ⟨ha, hn⟩ := List.nodup_cons.1 hn
    have h := quiesceModule_quiesced (m := a) hp
    rw [List.foldl_cons]
    generalize quiesceModule s a = t at h
    have hq : t.aligned = some (quiescedPass [a] p) := by rw [h.eq]
    exact h.trans (ih hn hq) ha

/-- The participants that the broadcast quiesce reaches. -/
def notLost (p : Pass) (s : State) : List Mod := (p.parts.map (·.module)).filter fun m => s.health m != .lost

theorem mem_notLost {p : Pass} {s : State} {m : Mod} :
    m ∈ notLost p s ↔ (∃ y ∈ p.parts, y.module = m) ∧ s.health m ≠ .lost := by
  simp [notLost]

theorem quiescedPass_notLost (p : Pass) (s : State) : quiescedPass (notLost p s) p = { p with
    parts := p.parts.map fun y => if s.health y.module ≠ .lost then { y with quiesced := true } else y } := by
  have hmap : (p.parts.map fun y => if y.module ∈ notLost p s then { y with quiesced := true } else y)
      = p.parts.map fun y => if s.health y.module ≠ .lost then { y with quiesced := true } else y := by
    refine List.map_congr_left fun y hy => ?_
    have hiff : y.module ∈ notLost p s ↔ s.health y.module ≠ .lost :=
      mem_notLost.trans (and_iff_right ⟨y, hy, rfl⟩)
    simp only [hiff]
  unfold quiescedPass
  rw [hmap]

theorem quiesceSentAll_quiesces {p : Pass} {s : State} (hp : s.aligned = some p) (hn : (p.parts.map (·.module)).Nodup) :
    ∃ v, Quiesced (notLost p s) p s v ∧ quiesceSentAll p s = startSettle .all v :=
  ⟨_, foldl_quiesceModule (hn.filter _) hp, rfl⟩

/-- The aligned pass after its settle time has begun, or expired at once (R33). -/
def settlingPass (p : Pass) (s : State) : Pass :=
  { p with
    step := .settling
    timer := if p.settleTicks = 0 then none else some { kind := .settle, due := s.timebase + ticksOf p.settleTicks } }

theorem startSettle_all {p : Pass} {s : State} (hp : s.aligned = some p) : ∃ c : Scheduler,
    startSettle .all s = { s with aligned := some (settlingPass p s), sched := c }
      ∧ c.lastServed = s.sched.lastServed
      ∧ (p.settleTicks = 0 → .passStep .all .convert ∈ c.items.map (·.kind)) := by
  have hp' : s.passOf .all = some p := hp
  unfold startSettle settlingPass
  rw [hp']
  dsimp only
  by_cases h : p.settleTicks = 0
  · rw [if_pos h, if_pos h]
    exact ⟨_, rfl, rfl, fun _ => mem_offer _ _⟩
  · rw [if_neg h, if_neg h]
    exact ⟨_, rfl, rfl, fun h0 => absurd h0 h⟩

/-- The broadcast quiesce: the participants that are not LOST are quiesced and held, and the settle time begins. -/
theorem sendQuiesce_all {p : Pass} {s : State} (hp : s.aligned = some p) (hn : (p.parts.map (·.module)).Nodup) :
    let t := sendQuiesce .all p s
    t = { s with
        sched := t.sched, link := (sendBroadcast 7 (.mask 0) false s).link
        aligned := some (settlingPass (quiescedPass (notLost p s) p) s)
        balance := { s.balance with modules := t.balance.modules }, raised := t.raised }
      ∧ t.sched.lastServed = s.sched.lastServed
      ∧ (∀ m, t.balanceOf m = if m ∈ notLost p s then heldEmpty s m else s.balanceOf m)
      ∧ (p.settleTicks = 0 → .passStep .all .convert ∈ t.sched.items.map (·.kind)) := by
  obtain ⟨v, hv, hall⟩ := quiesceSentAll_quiesces (s := sendBroadcast 7 (.mask 0) false s) hp hn
  have he := hv.eq
  have haligned : v.aligned = some (quiescedPass (notLost p s) p) := by rw [he]; rfl
  have hserved : v.sched.lastServed = s.sched.lastServed := by rw [he]; rfl
  have hsettling : settlingPass (quiescedPass (notLost p s) p) v
      = settlingPass (quiescedPass (notLost p s) p) s := by rw [he]; rfl
  obtain ⟨c, hc, hlast, hoffered⟩ := startSettle_all haligned
  have ht : sendQuiesce .all p s = startSettle .all v := hall
  rw [ht, hc, hsettling]
  refine ⟨?_, hlast.trans hserved, hv.balance, hoffered⟩
  rw [he]
  rfl

end Sys2Proof.Machine

open Sys2Proof Sys2Proof.Machine

/-- Settles O46: which branch the grant of a pass's item takes, and what each branch sends and writes. -/
theorem convertGrantTakesTheInstant : Obligations.ConvertGrantTakesTheInstant := by
  intro u act x it s hr hg hk hp quiesces converts served converting decided broadcast
  have hq : quiesceNeeded s x = true ↔ quiesces := quiesceNeeded_iff s x
  have hconverts (h : converts) : ∃ c : Scheduler, c.lastServed = servedAfter act x s
      ∧ exec .grant s = .next (refreshItems (sendConvert u x { s with sched := c })) :=
    exec_grant_converts hr hg hk hp (by rwa [hq])
  have hquiesces (ha : act = .first) (h : quiesces) : ∃ c : Scheduler, c.lastServed = servedAfter act x s
      ∧ exec .grant s = .next (refreshItems (sendQuiesce u x { s with sched := c })) := by
    subst ha
    exact exec_grant_quiesces hr hg hk hp (hq.2 h)
  refine ⟨?_, ?_, ?_⟩
  · intro i tag hi ht unicast
    refine ⟨?_, ?_, ?_⟩
    · rintro m rfl h
      obtain ⟨c, hc, he⟩ := hconverts h
      rw [sendConvert_one (s := { s with sched := c }) hp (sendUnicast_sends _ _ _ _ i tag _ hi ht)] at he
      exact ⟨_, he, hc, rfl⟩
    · rintro m rfl ha h
      obtain ⟨c, hc, he⟩ := hquiesces ha h
      obtain ⟨r, hsent⟩ := sendQuiesce_one (s := { s with sched := c }) hp (sendUnicast_sends _ _ _ _ i tag _ hi ht)
      rw [hsent] at he
      exact ⟨_, he, hc, rfl⟩
    · rintro y rfl hy b b'
      obtain ⟨c, hc, he⟩ := exec_grant_restores hr hg hk hp hy
      obtain ⟨r, hsent⟩ := grantRestore_sends (s := { s with sched := c }) (u := u) y.module hi ht
      rw [hsent] at he
      exact ⟨_, he, hc, rfl⟩
  · rintro rfl h
    obtain ⟨c, hc, he⟩ := hconverts h
    rw [sendConvert_all (s := { s with sched := c }) hp] at he
    exact ⟨_, he, hc, rfl⟩
  · rintro rfl ha h hn
    obtain ⟨c, hc, he⟩ := hquiesces ha h
    obtain ⟨hsent, hserved, hbalance, hoffered⟩ := sendQuiesce_all (s := { s with sched := c }) hp hn
    generalize sendQuiesce .all x { s with sched := c } = t at he hsent hserved hbalance hoffered
    rw [quiescedPass_notLost] at hsent
    refine ⟨_, he, hserved.trans hc, ?_, ?_, fun h0 => ?_⟩
    · exact congrArg (fun v : State => { v with sched := (refreshItems t).sched }) hsent
    · intro m
      refine (hbalance m).trans ?_
      simp only [mem_notLost]
      rfl
    · exact mem_refreshItems _ _ (hoffered h0) (by intro k h; cases h)

end

