-- ==== Sys2Proof/Proofs/UpdateAnswers.lean ====
section
/-! PROOFS. UpdateAnswers.lean: the answer to a stand-alone balance update (R75, R85, R86, R145). -/

namespace Sys2Proof.Machine

/-! ## The OK (R145) -/

section Updated

variable {first : TakenFirst} {i : Fin 4} {x : TxnSlot} {m : Mod} {k : CellMask} {pl : List Byte} {s : State}
  {M : ChainMap} {hs : List Mod} {es : List Event}

/-- The OK to an update is a success notice (R75). -/
theorem mapNotice_update (hm : x.node = modNumber m) (hr : x.role = .update) (ho : x.owner = .balance) (S : State) :
    mapNotice x (.answered 0 pl) S = successNotice m S := by
  have hw : wrongSamples x (S.record m) pl = false := by
    unfold wrongSamples
    rw [ho]
  unfold mapNotice
  rw [hm, modOfNumber_modNumber]
  change (if x.role = .ping then _ else if wrongSamples x (S.record m) pl = true then S else successNotice m S) = _
  rw [if_neg (by rw [hr]; decide), if_neg (by rw [hw]; decide)]

/-- The notice taken of the OK to an update: a success, unless the descriptor mark is set (R86, R87). -/
theorem noticeOf_update (hm : x.node = modNumber m) (hr : x.role = .update) (ho : x.owner = .balance)
    (hh : s.health m ≠ .absent) :
    let r := s.record m
    NoticeOf x (.answered 0 pl)
      { s.map with records := tput s.map.records m (if r.mark = true then r else successRecord s m) }
      (if r.mark = false ∧ r.state ≠ .active then [m] else [])
      (if r.mark = false ∧ r.state = .lost
        then [{ kind := .moduleFound, time := s.timebase, module := some m }] else []) s := by
  intro r S hS _ ht
  rw [mapNotice_update hm hr ho]
  cases hk : r.mark with
  | true =>
    have hrec : S.record m = s.record m := by unfold State.record; rw [hS]
    have hrecords : tput s.map.records m r = s.map.records := tput_tget _ _
    rw [if_pos rfl, if_neg (by simp), if_neg (by simp), successNotice_marked (hrec ▸ hk), hrecords]
    exact hS ▸ .self S
  | false =>
    have hnotice := successNotice_noticed (S := S) hS ht hh hk
    have hhandOff : (if s.health m = .active then [] else [m]) = if r.state ≠ .active then [m] else [] :=
      (ite_not _ _ _).symm
    rw [hhandOff] at hnotice
    simp only [true_and, Bool.false_eq_true, if_false]
    exact hnotice

/-- What the OK to an update leaves, with the notice that the Chain Map takes of it. -/
theorem releaseSlot_updated (hm : x.node = modNumber m) (ho : x.owner = .balance) (hp : x.payload = .mask k)
    (hN : NoticeOf x (.answered 0 pl) M hs es s) :
    let t := releaseSlot first i x (.answered 0 pl) (upLaneOver s)
    t = { s with
        upLane := s.upLane.tail, link := { s.link with slots := tput s.link.slots i none }, map := M, raised := t.raised
        balance := { s.balance with
          modules := tput s.balance.modules m { s.balanceOf m with commanded := .mask k }
          handoffs := s.balance.handoffs ++ hs } }
      ∧ ∀ q, t.raised.get q = s.raised.get q ++ storing es := by
  intro t
  rcases releaseSlot_noticed (first := first) (i := i) (K := setCommanded m (.mask k)) hN (fun x' _ hn' ho' hp' S _ _ =>
    originatorOutcome_updated first m k pl x' S (hn'.trans hm) (ho'.trans ho) (hp'.trans hp)) with h | ⟨S, hS, h⟩
  · have ht : MapNoticed M hs es (setCommanded m (.mask k) (slotFreed s i)) t :=
      (show t = _ from h) ▸ hN _ rfl rfl rfl
    exact ⟨ht.eq, ht.raised⟩
  · have ht : t = setCommanded m (.mask k) S := h
    refine ⟨?_, ht ▸ hS.raised⟩
    rw [ht, hS.eq]
    rfl

end Updated

/-! ## Any other status (R85, R145) -/

section UpdateFailed

variable {i : Fin 4} {x : TxnSlot} {m : Mod} {st : Byte} {s : State}

/-- An update that fails: the mask is UNKNOWN, and the failure is noticed once. -/
theorem releaseSlot_updateFailed (first : TakenFirst) (pl : List Byte) (h0 : st ≠ 0) (hm : x.node = modNumber m)
    (ho : x.owner = .balance) : releaseSlot first i x (.answered st pl) (upLaneOver s)
      = failureNotice m (setCommanded m .unknown (slotFreed s i)) := by
  obtain ⟨x', -, hn', ho', he⟩ := releaseSlot_notOk first i x pl s h0
  rw [he]
  exact originatorOutcome_updateFailed first m st pl x' _ (hn'.trans hm) (ho'.trans ho) h0

end UpdateFailed

/-- A failure that makes no module LOST, in any state with the map, the settings and the time of `s`. -/
theorem failureNotice_noticed {s S : State} {m : Mod} (h : SameMap s S) (hh : s.health m ≠ .absent)
    (hn : ¬NewlyLost s m) : MapNoticed (failedMap s m) (if s.health m = .active then [m] else [])
      (if s.health m = .active then [suspectEvent s m] else []) S (failureNotice m S) := by
  rw [(failureNotice_cases s S m h hh).2 hn]
  have hmap : (S.setRecord m (failedRecord s m)).map = failedMap s m := by
    unfold State.setRecord failedMap
    rw [h.map]
  by_cases ha : s.health m = .active
  · rw [if_pos ha, if_pos ha, if_pos ha]
    obtain ⟨r, hr⟩ := raiseBoth_eq [suspectEvent s m] (S.setRecord m (failedRecord s m))
    have hg := raiseBoth_storing [suspectEvent s m] (S.setRecord m (failedRecord s m))
    rw [hr] at hg ⊢
    rw [← hmap]
    exact ⟨rfl, hg⟩
  · rw [if_neg ha, if_neg ha, if_neg ha, ← hmap]
    exact .record _

end Sys2Proof.Machine
end

