-- ==== Sys2Proof/Proofs/PassAnswers.lean ====
section
/-! PROOFS. PassAnswers.lean: the OK to a quiesce, a CONVERT or a restore of a pass (R32 to R38, R45). -/

namespace Sys2Proof.Machine

theorem passOf_eq {s S : State} (u : Target) (hp : S.passes = s.passes) (ha : S.aligned = s.aligned) :
    S.passOf u = s.passOf u := by cases u <;> simp only [State.passOf, hp, ha]

/-! ## The originator goes on from the freed slot -/

/-- The success of a module that is ACTIVE is written, and nothing else. -/
theorem MapNoticed.eq_withMap {M : ChainMap} {S t : State} (h : MapNoticed M [] [] S t) : t = { S with map := M } := by
  have hraised : t.raised = S.raised := PerPort.eq_of_get fun q => (h.raised q).trans (List.append_nil _)
  have he := h.eq
  rw [hraised, List.append_nil] at he
  exact he

section Success

variable {bytes : List Byte} {first : TakenFirst} {f : ResponseFrame} {i : Fin 4} {x : TxnSlot} {u : Target} {m : Mod}
  {p : Pass} {y : Part} {s : State}

theorem noticeOf_active {pl : List Byte} (hm : x.node = modNumber m)
    (hr : x.role = .quiesce ∨ x.role = .convert ∨ x.role = .restore) (hh : s.health m = .active)
    (hk : (s.record m).mark = false) : NoticeOf x (.answered 0 pl) (successMap s m) [] [] s := by
  intro S hS _ ht
  have hping : x.role ≠ .ping := by rcases hr with hr | hr | hr <;> rw [hr] <;> decide
  have hw : wrongSamples x (s.record m) pl = false := by
    unfold wrongSamples
    rcases hr with hr | hr | hr <;> rw [hr] <;> cases x.owner <;> rfl
  have hrec : S.record m = s.record m := by unfold State.record; rw [hS]
  have htime : S.timebase = s.timebase := by unfold State.timebase State.ticks; rw [ht]
  rw [mapNotice_active s S x m pl hm hping hw hrec hh hk, htime, successMap_active hh, ← hS]
  exact .record _

/-- The OK to a transaction of a pass that reads nothing: what its originator does, with the success in the map. -/
theorem PassAnswered.exec_noticed (h : PassAnswered bytes f i x u m p y s) (K : State → State)
    (hr : x.role = .quiesce ∨ x.role = .convert ∨ x.role = .restore)
    (hK : ∀ x' S, x'.role = x.role → x'.payload = x.payload → S.passOf u = some p →
      passOutcome first u m x' (.answered 0 f.payload) S = K S)
    (hKp : ∀ S, PassesOnly S (K S)) :
    ∃ M, M.n = s.map.n ∧ exec (.responseArrival bytes first) s = .next (noticed m s (K (freedWith s i M))) := by
  have hN : NoticeOf x (.answered 0 f.payload) (successMap s m) [] [] s := noticeOf_active h.module hr h.active h.mark
  have hrel : ∃ M, M.n = s.map.n ∧ releaseSlot first i x (.answered 0 f.payload) (upLaneOver s)
      = { K (freedWith s i M) with map := successMap s m } := by
    rcases releaseSlot_noticed (first := first) (i := i) (K := K) hN (fun x' hr' hn' ho' hp' S hS hS' =>
      (originatorOutcome_pass first u m _ x' S (hn'.trans h.module) (ho'.trans h.owner)).trans
        (hK x' S hr' hp' ((passOf_eq u hS hS').trans h.pass))) with ht | ⟨S, hS, ht⟩
    · have hk := hKp (slotFreed s i)
      refine ⟨s.map, rfl, ht.trans ?_⟩
      exact (hN (K (slotFreed s i)) hk.map hk.settings hk.linkTime).eq_withMap
    · refine ⟨successMap s m, rfl, ht.trans ?_⟩
      rw [hS.eq_withMap]
      exact (with_map_self (hKp (freedWith s i (successMap s m))).map).symm
  obtain ⟨M, hn, hM⟩ := hrel
  refine ⟨M, hn, ?_⟩
  rw [responseArrival_releases bytes first f i x s h.inReset h.link h.frame h.slot h.tag h.node (by rw [h.ok]; decide),
    h.ok, hM]
  rfl

end Success

/-! ## What the originator does (R32, R34, R37) -/

section Outcomes

variable {first : TakenFirst} {u : Target} {m : Mod} {x : TxnSlot} {p : Pass} {y : Part} {k : CellMask} {s : State}

theorem passOutcome_quiesced (hp : s.passOf u = some p) (hy : partOf p m = some y) (hr : x.role = .quiesce)
    (pl : List Byte) : passOutcome first u m x (.answered 0 pl) s = startSettle u (setCommanded m (.mask 0) s) := by
  unfold passOutcome
  rw [hp]
  dsimp only
  rw [hy]
  dsimp only
  rw [hr]
  rfl

theorem passOutcome_converted (hp : s.passOf u = some p) (hy : partOf p m = some y) (hr : x.role = .convert)
    (pl : List Byte) : passOutcome first u m x (.answered 0 pl) s = startWait u .conversion s := by
  unfold passOutcome
  rw [hp]
  dsimp only
  rw [hy]
  dsimp only
  rw [hr]
  rfl

/-- A restore that is answered OK: the mask of that sending is the commanded one, and the part is done. -/
def restored (u : Target) (m : Mod) (k : CellMask) (s : State) : State :=
  partDone u m .complete (setCommanded m (.mask k) s)

theorem passOutcome_restored (hp : s.passOf u = some p) (hy : partOf p m = some y) (hr : x.role = .restore)
    (hk : x.payload = .mask k) (pl : List Byte) :
    passOutcome first u m x (.answered 0 pl) s = restored u m k s := by
  unfold passOutcome
  rw [hp]
  dsimp only
  rw [hy]
  dsimp only
  rw [hr, hk]
  rfl

end Outcomes

/-! ## What it leaves -/

section Leaves

variable {m : Mod} {p : Pass} {s : State}

theorem startSettle_one (hp : s.passOf (.one m) = some p) : ∃ c : Scheduler,
    startSettle (.one m) s = { s with passes := tput s.passes m (some (settlingPass p s)), sched := c }
      ∧ (p.settleTicks = 0 → .passStep (.one m) .convert ∈ c.items.map (·.kind)) := by
  unfold startSettle settlingPass
  rw [hp]
  dsimp only
  by_cases h : p.settleTicks = 0
  · rw [if_pos h, if_pos h]
    exact ⟨_, rfl, fun _ => mem_offer _ _⟩
  · rw [if_neg h, if_neg h]
    exact ⟨_, rfl, fun h0 => absurd h0 h⟩

/-- The end of a single-module pass leaves every commanded mask. -/
theorem commanded_partDone_one {y : Part} {t : State} (k : Mod) (o : PassOutcome) (h : PassKept m p y s t)
    (ht : TicketInv s) (hn : NoTicketWaits s) :
    ((partDone (.one m) m o t).balanceOf k).commanded = (t.balanceOf k).commanded := by
  obtain ⟨q, z, hq, hz, -⟩ := h.pass
  obtain ⟨q', z', he, -⟩ := partDone_eq m q z o t hq hz
  rw [he]
  generalize hC : ({ t with passes := tput t.passes m (some q') } : State) = c
  have hpass : c.passOf (.one m) = some q' := by
    rw [← hC]
    exact tget_tput_same t.passes m _
  have htickets (r : Port) : c.ticketQueue r = s.ticketQueue r := by
    unfold State.ticketQueue
    rw [← hC, ← h.tickets]
  have hcommanded : (c.balanceOf k).commanded = (t.balanceOf k).commanded := by rw [← hC]; rfl
  obtain ⟨tk, r, b, l, x, hE, -, -, -, -, hc⟩ := endPass_eq (.one m) q' c hpass
    (fun r => by rw [htickets]; exact ht r) (fun r => by rw [htickets]; exact hn r)
  obtain ⟨w, rs, sx, hw⟩ := sweepPassEnd_eq q' { c.setPass (.one m) none with
    tickets := tk, raised := r, link := { c.link with slots := l }, sched := { c.sched with items := x }
    balance := { c.balance with modules := b } }
  rw [hE, hw, ← hcommanded]
  exact hc k

end Leaves

/-! ## The answered transactions -/

/-- What the OK to a quiesce or a CONVERT of a single-module pass leaves: the pass, the module's table, the items, and the
success of the module. -/
def afterPassOk (i : Fin 4) (m : Mod) (s : State) (p : Pass) (b : BalanceModule) (c : Scheduler) : State :=
  { s with
    upLane := s.upLane.tail, sched := c, link := { s.link with slots := tput s.link.slots i none }
    passes := tput s.passes m (some p), balance := { s.balance with modules := tput s.balance.modules m b }
    map := successMap s m }

section Answered

variable {bytes : List Byte} {f : ResponseFrame} {i : Fin 4} {x : TxnSlot} {u : Target} {m : Mod} {p : Pass} {y : Part}
  {s : State} {k : CellMask}

theorem PassAnswered.quiesce (h : PassAnswered bytes f i x (.one m) m p y s) (hr : x.role = .quiesce)
    (first : TakenFirst) : ∃ c : Scheduler, exec (.responseArrival bytes first) s
        = .next (afterPassOk i m s (settlingPass p s) { s.balanceOf m with commanded := .mask 0 } c)
      ∧ (p.settleTicks = 0 → .passStep (.one m) .convert ∈ c.items.map (·.kind)) := by
  obtain ⟨M, -, hM⟩ := h.exec_noticed (first := first) (fun S => startSettle (.one m) (setCommanded m (.mask 0) S))
    (.inl hr) (fun x' S hr' _ hp => passOutcome_quiesced hp h.part (hr'.trans hr) _)
    (fun S => (PassesOnly.setCommanded m _ S).trans (PassesOnly.startSettle _ _))
  obtain ⟨c, hc, hoffered⟩ := startSettle_one (s := setCommanded m (.mask 0) (freedWith s i M)) h.pass
  rw [hc] at hM
  exact ⟨_, hM, fun h0 => mem_refreshItems _ _ (hoffered h0) (by intro _ h; cases h)⟩

theorem PassAnswered.convert (h : PassAnswered bytes f i x (.one m) m p y s) (hr : x.role = .convert)
    (first : TakenFirst) : ∃ c : Scheduler, exec (.responseArrival bytes first) s
      = .next (afterPassOk i m s
          { p with timer := some { kind := .conversion, due := s.timebase + ticksOf p.waitTicks } } (s.balanceOf m) c) := by
  obtain ⟨M, -, hM⟩ := h.exec_noticed (first := first) (startWait (.one m) .conversion) (.inr (.inl hr))
    (fun x' S hr' _ hp => passOutcome_converted hp h.part (hr'.trans hr) _) (fun S => PassesOnly.startWait _ _ S)
  have hpass : (freedWith s i M).passOf (.one m) = some p := h.pass
  have hmodules : tput s.balance.modules m (s.balanceOf m) = s.balance.modules := tput_tget _ _
  unfold startWait at hM
  rw [updatePass_some hpass] at hM
  unfold afterPassOk
  rw [hmodules]
  exact ⟨_, hM⟩

/-- The OK to a restore, up to the end of the pass or part. -/
theorem PassAnswered.restore (h : PassAnswered bytes f i x u m p y s) (hr : x.role = .restore) (hk : x.payload = .mask k)
    (first : TakenFirst) : ∃ M, M.n = s.map.n
      ∧ exec (.responseArrival bytes first) s = .next (noticed m s (restored u m k (freedWith s i M))) :=
  h.exec_noticed (restored u m k) (.inr (.inr hr))
    (fun _ _ hr' hp' hp => passOutcome_restored hp h.part (hr'.trans hr) (hp'.trans hk) _)
    (fun S => (PassesOnly.setCommanded m _ S).trans (PassesOnly.partDone _ _ _ _))

/-- The Image stands and the slot is free after the OK to a restore, and the success is in the map. -/
theorem noticed_restored (ha : s.health m = .active) (M : ChainMap) :
    let t := noticed m s (restored u m k (freedWith s i M))
    t.image = s.image ∧ t.slot i = none ∧ t.map = { s.map with
      records := tput s.map.records m { s.record m with failures := 0, lastSuccess := some s.timebase } } := by
  have hfree : (setCommanded m (.mask k) (freedWith s i M)).slot i = none := tget_tput_same _ i none
  refine ⟨?_, ?_, successMap_active ha⟩
  · exact (PassesOnly.partDone u m .complete (setCommanded m (.mask k) (freedWith s i M))).image
  · exact (LossKeeps.partDone u m .complete _).none_of hfree

theorem commanded_setCommanded (m : Mod) (c : Commanded) (s : State) :
    ((setCommanded m c s).balanceOf m).commanded = c := by
  unfold setCommanded
  rw [State.balanceOf_setBalance, if_pos rfl]

theorem noticed_restored_one {M : ChainMap} (hp : s.passOf (.one m) = some p) (hy : partOf p m = some y)
    (hM : M.n = s.map.n) (ht : TicketInv s) (hn : NoTicketWaits s) :
    let t := noticed m s (restored (.one m) m k (freedWith s i M))
    (t.balanceOf m).commanded = .mask k ∧ PassEnded m p y.cellRenewal y.auxRenewal s t := by
  have hkept : PassKept m p y s (setCommanded m (.mask k) (freedWith s i M)) :=
    (PassKept.self hp hy).of_eq rfl rfl rfl rfl hM rfl
  exact ⟨(commanded_partDone_one m .complete hkept ht hn).trans (commanded_setCommanded m _ _),
    (hkept.partDone .complete ht hn).mono rfl rfl rfl rfl (.of_eq rfl)⟩

theorem noticed_restored_all {M : ChainMap} (hp : s.passOf .all = some p) (ht : TicketInv s) (hn : NoTicketWaits s) :
    let t := noticed m s (restored .all m k (freedWith s i M))
    (t.balanceOf m).commanded = .mask k ∧ AlignedPartEnded m .complete p s t := by
  have hkept : AlignedKept p s (setCommanded m (.mask k) (freedWith s i M)) := ⟨hp, rfl, rfl, rfl, rfl⟩
  exact ⟨(commanded_partDone_all m m .complete hkept ht hn).trans (commanded_setCommanded m _ _),
    (hkept.partDone .complete ht hn).mono rfl rfl rfl rfl (.of_eq rfl)
      (fun a ha => mem_refreshItems _ _ ha (by intro _ h; cases h))⟩

end Answered

end Sys2Proof.Machine
end

