-- ==== Sys2Proof/Proofs/FailedAnswers.lean ====
section
/-! PROOFS. FailedAnswers.lean: a transaction of a pass that is answered as failed (R30, R39, R46, R85). -/

namespace Sys2Proof.Machine

/-! ## The commanded mask after the failure -/

section Masks

variable {m : Mod} {x : TxnSlot} {i : Fin 4} {s : State}

theorem unknownMask_eq (m : Mod) (x : TxnSlot) (s : State) : unknownMask m x s =
    { s with balance := { s.balance with
        modules := tput s.balance.modules m { s.balanceOf m with
          commanded := if x.role = .quiesce ∨ x.role = .restore then .unknown else (s.balanceOf m).commanded } } } := by
  unfold unknownMask
  split
  · rfl
  · have hmodules : tput s.balance.modules m (s.balanceOf m) = s.balance.modules := tput_tget _ _
    change s = { s with balance := { s.balance with modules := tput s.balance.modules m (s.balanceOf m) } }
    rw [hmodules]

/-- The freed slot, the mask UNKNOWN where the transaction set it. -/
def failedFreed (s : State) (i : Fin 4) (m : Mod) (x : TxnSlot) : State := unknownMask m x (slotFreed s i)

theorem sameMap_failedFreed : SameMap s (failedFreed s i m x) := by
  unfold failedFreed
  rw [unknownMask_eq]
  exact ⟨rfl, rfl, rfl, rfl⟩

theorem commanded_failedFreed (h : x.role = .quiesce ∨ x.role = .restore) :
    ((failedFreed s i m x).balanceOf m).commanded = .unknown := by
  unfold failedFreed unknownMask
  rw [if_pos h]
  exact commanded_setCommanded m _ _

theorem passOf_failedFreed (u : Target) : (failedFreed s i m x).passOf u = s.passOf u := by
  unfold failedFreed
  rw [unknownMask_eq]
  exact passOf_eq u rfl rfl

end Masks

/-! ## What is quiesced is restored (R39) -/

/-- The pass with a module's part ABORTED and its restore begun. -/
def abortedRestore (u : Target) (m : Mod) (p : Pass) : Pass :=
  updatePart m (fun z => { z with step := .restoring, outcome := some .aborted })
    { p with step := if u = .all then p.step else .restoring, timer := none }

theorem afterFailure_restores {u : Target} {m : Mod} {x : TxnSlot} {p : Pass} {S : State} (hr : x.role ≠ .restore)
    (hp : S.passOf u = some p) (hl : S.health m ≠ .lost) :
    afterFailure u m x true S = offer (.passStep u .restore) (S.setPass u (some (abortedRestore u m p))) := by
  unfold afterFailure
  rw [if_neg hr]
  change (if S.health m = .lost then _ else offerRestore u m (some .aborted) S) = _
  rw [if_neg hl]
  unfold offerRestore
  rw [updatePass_some hp]
  rfl

/-- The part that the obligation's two rewritings of the parts give. -/
theorem abortedRestore_eq (u : Target) (m : Mod) (p : Pass) : abortedRestore u m p = { p with
    step := if u = .all then p.step else .restoring, timer := none
    parts := (p.parts.map fun z => if z.module = m then { z with outcome := some .aborted } else z).map
      fun z => if z.module = m then { z with step := .restoring } else z } := by
  unfold abortedRestore updatePart
  rw [List.map_map]
  congr 2
  funext z
  by_cases hz : z.module = m <;> simp [hz]

/-! ## What is not ends (R39, R46) -/

section Ends

variable {u : Target} {m : Mod} {x : TxnSlot} {p : Pass} {y : Part} {s S : State} {q : Bool}

/-- The pass with a module's part ABORTED. -/
def abortedPass (m : Mod) (p : Pass) : Pass := updatePart m (fun z => { z with outcome := some .aborted }) p

theorem afterFailure_ends (hl : S.health m ≠ .lost) (hq : q = false ∨ x.role = .restore) : afterFailure u m x q S =
    partDone u m .aborted (if x.role = .restore then updatePass u (abortedPass m) S else S) := by
  unfold afterFailure
  by_cases hr : x.role = .restore
  · rw [if_pos hr, if_pos hr]
    rfl
  · rw [if_neg hr, if_neg hr, hq.resolve_right hr]
    change (if S.health m = .lost then _ else partDone u m .aborted S) = _
    rw [if_neg hl]

theorem passKept_aborted (h : PassKept m p y s S) : PassKept m p y s (updatePass (.one m) (abortedPass m) S) :=
  PassKept.upd (f := abortedPass m) h (fun r _ hz =>
    ⟨_, partOf_map (f := fun z => { z with outcome := some .aborted }) (fun _ => rfl) hz r rfl, rfl, rfl⟩)
    (fun _ => rfl) (fun _ => rfl) (fun _ => rfl)

theorem afterFailure_ends_one (h : PassKept m p y s S) (hl : S.health m ≠ .lost) (hq : q = false ∨ x.role = .restore)
    (ht : TicketInv s) (hn : NoTicketWaits s) :
    PassEnded m p y.cellRenewal y.auxRenewal s (afterFailure (.one m) m x q S) := by
  rw [afterFailure_ends hl hq]
  split
  · exact (passKept_aborted h).partDone .aborted ht hn
  · exact h.partDone .aborted ht hn

theorem afterFailure_ends_all (h : AlignedKept p s S) (hl : S.health m ≠ .lost) (hq : q = false ∨ x.role = .restore)
    (ht : TicketInv s) (hn : NoTicketWaits s) :
    AlignedPartEnded m .aborted (if x.role = .restore then abortedPass m p else p) s (afterFailure .all m x q S) := by
  rw [afterFailure_ends hl hq]
  split
  · rw [updatePass_some (u := .all) h.pass]
    exact AlignedKept.partDone (B := S.setPass .all (some (abortedPass m p)))
      ⟨rfl, h.passes, h.tickets, h.sweep, h.lt⟩ .aborted ht hn
  · exact h.partDone .aborted ht hn

/-- Whatever the failure does to a single-module pass, the pass has moved on or has ended. -/
theorem afterFailure_keptOrEnded (h : PassKept m p y s S) (ht : TicketInv s) (hn : NoTicketWaits s) :
    KeptOrEnded m p y s (afterFailure (.one m) m x q S) := by
  unfold afterFailure
  split
  · exact .inr ((passKept_aborted h).partDone .aborted ht hn)
  · exact .abort h q ht hn

end Ends

/-! ## The release of the slot, in either order (R75, R85) -/

/-- The hand-off of a failure that makes no module LOST. -/
def suspectHandOff (s : State) (m : Mod) : List Mod := if s.health m = .active then [m] else []

/-- The records of a failure that makes no module LOST. -/
def suspectRecords (s : State) (m : Mod) : List Event := if s.health m = .active then [suspectEvent s m] else []

section Released

variable {first : TakenFirst} {i : Fin 4} {u : Target} {m : Mod} {x : TxnSlot} {f : ResponseFrame} {s : State} {p : Pass}
  {y : Part}

theorem health_ne_absent (h : s.health m = .active ∨ s.health m = .suspect) : s.health m ≠ .absent := by
  rcases h with h | h <;> rw [h] <;> decide

theorem health_ne_lost (h : s.health m = .active ∨ s.health m = .suspect) : s.health m ≠ .lost := by
  rcases h with h | h <;> rw [h] <;> decide

theorem failedRecord_suspect (hl : s.health m ≠ .lost) (hn : ¬NewlyLost s m) : (failedRecord s m).state = .suspect := by
  unfold failedRecord
  refine if_neg ?_
  rintro (h | h)
  · exact hl h
  · exact hn ⟨hl, h⟩

/-- A failure that makes no module LOST is noticed after the pass has gone on, or before. -/
theorem releaseSlot_failedAnswer_noticed (hfi : first ≠ .originatorAndGrant) (hp : s.passOf u = some p)
    (hy : partOf p m = some y)
    (hm : x.node = modNumber m) (ho : x.owner = .pass u) (h : FailedAnswer f x y (s.record m))
    (hab : s.health m = .active ∨ s.health m = .suspect) (hn : ¬NewlyLost s m) :
    let a := failedFreed s i m x
    let k := afterFailure u m x y.quiesced
    let t := releaseSlot first i x (.answered f.status f.payload) (upLaneOver s)
    MapNoticed (failedMap s m) (suspectHandOff s m) (suspectRecords s m) (k a) t
      ∨ ∃ v, MapNoticed (failedMap s m) (suspectHandOff s m) (suspectRecords s m) a v ∧ t = k v := by
  intro a k t
  obtain ⟨ho', hc, -⟩ := releaseSlot_failedAnswer first hfi i u m x f s p y hp hy hm ho h hab (fun hl => hn hl.1)
  have hnoticed {S : State} (hS : SameMap s S) := failureNotice_noticed hS (health_ne_absent hab) hn
  have hsame : SameMap s a := sameMap_failedFreed
  by_cases hf : first = .chainMap
  · exact .inr ⟨_, hnoticed hsame, hc hf hn⟩
  · have hfirst : first = .originator := by cases first <;> trivial
    have ht : t = failureNotice m (k a) := ho' hfirst
    rw [ht]
    exact .inl (hnoticed (hsame.mono _ _ _ (PassesOnly.afterFailure u m x y.quiesced a)))

/-- What was quiesced is restored. -/
theorem releaseSlot_failed_restores (hfi : first ≠ .originatorAndGrant) (hp : s.passOf u = some p)
    (hy : partOf p m = some y) (hm : x.node = modNumber m) (ho : x.owner = .pass u)
    (h : FailedAnswer f x y (s.record m)) (hab : s.health m = .active ∨ s.health m = .suspect) (hn : ¬NewlyLost s m)
    (hq : y.quiesced = true) (hr : x.role ≠ .restore) :
    let t := releaseSlot first i x (.answered f.status f.payload) (upLaneOver s)
    t = { s.setPass u (some (abortedRestore u m p)) with
        upLane := s.upLane.tail, sched := t.sched, link := { s.link with slots := tput s.link.slots i none }
        balance := {
          modules := tput s.balance.modules m { s.balanceOf m with
            commanded := if x.role = .quiesce ∨ x.role = .restore then .unknown else (s.balanceOf m).commanded }
          onTimer := s.balance.onTimer
          handoffs := s.balance.handoffs ++ suspectHandOff s m }
        map := failedMap s m, raised := t.raised }
      ∧ (∀ q, t.raised.get q = s.raised.get q ++ storing (suspectRecords s m))
      ∧ .passStep u .restore ∈ t.sched.items.map (·.kind) := by
  intro t
  have hl := health_ne_lost hab
  have hsame : SameMap s (failedFreed s i m x) := sameMap_failedFreed
  have ha := unknownMask_eq m x (slotFreed s i)
  rw [show unknownMask m x (slotFreed s i) = failedFreed s i m x from rfl] at ha
  rcases releaseSlot_failedAnswer_noticed (i := i) hfi hp hy hm ho h hab hn with ht | ⟨v, hv, ht⟩
  · have hlost : (failedFreed s i m x).health m ≠ .lost := by
      rw [ha]
      exact hl
    rw [hq, afterFailure_restores hr ((passOf_failedFreed u).trans hp) hlost] at ht
    have hsched : t.sched = _ := congrArg State.sched ht.eq
    refine ⟨ht.eq.trans ?_, fun q => (ht.raised q).trans ?_, ?_⟩
    · rw [hsched, ha]
      cases u <;> rfl
    · rw [ha]
      cases u <;> rfl
    · rw [hsched]
      exact mem_offer _ _
  · have hpass : v.passOf u = some p := by
      rw [hv.eq]
      exact (passOf_eq u rfl rfl).trans ((passOf_failedFreed u).trans hp)
    have hlost : v.health m ≠ .lost := by
      rw [health_failedMap s v m m (by rw [hv.eq]), if_pos rfl, failedRecord_suspect hl hn]
      decide
    have htv : t = offer (.passStep u .restore) (v.setPass u (some (abortedRestore u m p))) := by
      rw [← afterFailure_restores hr hpass hlost, ← hq]
      exact ht
    rw [htv]
    refine ⟨?_, fun q => ?_, mem_offer _ _⟩
    · rw [hv.eq, ha]
      cases u <;> rfl
    · refine Eq.trans ?_ ((hv.raised q).trans ?_)
      · cases u <;> rfl
      · rw [ha]
        rfl

/-- The freed slot leaves the pass of the module as it was. -/
theorem passKept_failedFreed (hp : s.passOf (.one m) = some p) (hy : partOf p m = some y) :
    PassKept m p y s (failedFreed s i m x) := by
  unfold failedFreed
  rw [unknownMask_eq]
  exact (PassKept.self hp hy).of_eq rfl rfl rfl rfl rfl rfl

theorem alignedKept_failedFreed (hp : s.passOf .all = some p) : AlignedKept p s (failedFreed s i m x) := by
  unfold failedFreed
  rw [unknownMask_eq]
  exact ⟨hp, rfl, rfl, rfl, rfl⟩

/-- What a failed answer that is not restored leaves: the mask, the map and the Image, and the end of the pass or part. -/
structure FailureEnds (u : Target) (m : Mod) (x : TxnSlot) (p : Pass) (y : Part) (s t : State) : Prop where
  map : t.map = failedMap s m
  image : t.image = s.image
  commanded : x.role = .quiesce ∨ x.role = .restore → (t.balanceOf m).commanded = .unknown
  one : u = .one m → PassEnded m p y.cellRenewal y.auxRenewal s t
  all : u = .all → AlignedPartEnded m .aborted (if x.role = .restore then abortedPass m p else p) s t

/-- What was not quiesced ends, and so does a part whose restore fails. -/
theorem releaseSlot_failed_ends (hfi : first ≠ .originatorAndGrant) (hp : s.passOf u = some p)
    (hy : partOf p m = some y) (hm : x.node = modNumber m) (ho : x.owner = .pass u)
    (h : FailedAnswer f x y (s.record m)) (hab : s.health m = .active ∨ s.health m = .suspect) (hn : ¬NewlyLost s m)
    (hq : y.quiesced = false ∨ x.role = .restore) (ht : TicketInv s) (hw : NoTicketWaits s) :
    FailureEnds u m x p y s (releaseSlot first i x (.answered f.status f.payload) (upLaneOver s)) := by
  have hl := health_ne_lost hab
  have hsame : SameMap s (failedFreed s i m x) := sameMap_failedFreed
  have hcommanded := commanded_failedFreed (s := s) (i := i) (m := m) (x := x)
  rcases releaseSlot_failedAnswer_noticed (i := i) hfi hp hy hm ho h hab hn with hv | ⟨v, hv, he⟩
  · have hlost : (failedFreed s i m x).health m ≠ .lost := by
      unfold State.health State.record
      rw [hsame.map]
      exact hl
    have hsame' : SameMap s _ := hsame.mono _ _ _ (PassesOnly.afterFailure u m x y.quiesced (failedFreed s i m x))
    have hkeeps := LossKeeps.afterFailure u m x y.quiesced (failedFreed s i m x)
    have hgrows : RaisedGrows _ _ := fun q => ⟨_, hv.raised q⟩
    generalize releaseSlot first i x (.answered f.status f.payload) (upLaneOver s) = t at hv hgrows
    have heq := hv.eq
    refine ⟨by rw [heq], ?_, fun hr => ?_, ?_, ?_⟩
    · exact (congrArg State.image heq).trans hsame'.image
    · refine Eq.trans ?_ (hkeeps.cmd m (hcommanded hr))
      rw [heq]
      rfl
    · rintro rfl
      exact (afterFailure_ends_one (passKept_failedFreed hp hy) hlost hq ht hw).mono (by rw [heq]) (by rw [heq])
        (by rw [heq]) (by rw [heq]) hgrows
    · rintro rfl
      exact (afterFailure_ends_all (alignedKept_failedFreed hp) hlost hq ht hw).mono (by rw [heq]) (by rw [heq])
        (by rw [heq]) (by rw [heq]) hgrows (fun a hi => by rw [heq]; exact hi)
  · have heq := hv.eq
    have hmap : v.map = failedMap s m := by rw [heq]
    have hlost : v.health m ≠ .lost := by
      rw [health_failedMap s v m m hmap, if_pos rfl, failedRecord_suspect hl hn]
      decide
    have hleft := PassesOnly.afterFailure u m x y.quiesced v
    have hkeeps := LossKeeps.afterFailure u m x y.quiesced v
    rw [he]
    refine ⟨hleft.map.trans hmap, ?_, fun hr => hkeeps.cmd m ?_, ?_, ?_⟩
    · exact hleft.image.trans ((congrArg State.image heq).trans hsame.image)
    · rw [heq]
      exact hcommanded hr
    · rintro rfl
      have hkept : PassKept m p y s v := (passKept_failedFreed (i := i) (x := x) hp hy).of_eq (by rw [heq])
        (by rw [heq]) (by rw [heq]) (by rw [heq]) (by rw [hmap, hsame.map]; rfl) (by rw [heq])
      exact afterFailure_ends_one hkept hlost hq ht hw
    · rintro rfl
      have hkept : AlignedKept p s v := (alignedKept_failedFreed (i := i) (m := m) (x := x) hp).of_eq (by rw [heq])
        (by rw [heq]) (by rw [heq]) (by rw [heq]) (by rw [heq])
      exact afterFailure_ends_all hkept hlost hq ht hw

/-- The failure that makes the module LOST ends its single-module pass, taken before it or by it. -/
theorem releaseSlot_failed_lost (hfi : first ≠ .originatorAndGrant) (hp : s.passOf (.one m) = some p)
    (hy : partOf p m = some y) (hm : x.node = modNumber m) (ho : x.owner = .pass (.one m))
    (h : FailedAnswer f x y (s.record m)) (hab : s.health m = .active ∨ s.health m = .suspect) (hn : NewlyLost s m)
    (hlast : ¬LastModule s m) (hi : PassInv s) (ht : TicketInv s) (hw : NoTicketWaits s) :
    let t := releaseSlot first i x (.answered f.status f.payload) (upLaneOver s)
    t.map = failedMap s m ∧ (∀ q, [lostEvent s m] ∈ t.raised.get q)
      ∧ PassEnded m p y.cellRenewal y.auxRenewal s t := by
  have hnl : ¬(NewlyLost s m ∧ LastModule s m) := fun hl => hlast hl.2
  obtain ⟨ho', -, hc⟩ := releaseSlot_failedAnswer first hfi i (.one m) m x f s p y hp hy hm ho h hab hnl
  have hsame : SameMap s (failedFreed s i m x) := sameMap_failedFreed
  have hkept : PassKept m p y s (failedFreed s i m x) := passKept_failedFreed hp hy
  have hlost {B : State} (hB : SameMap s B) (hk : KeptOrEnded m p y s B) :
      (failureNotice m B).map = failedMap s m ∧ (∀ q, [lostEvent s m] ∈ (failureNotice m B).raised.get q)
        ∧ PassEnded m p y.cellRenewal y.auxRenewal s (failureNotice m B) := by
    have hnoted := failureNotice_noted s B m hB (health_ne_absent hab) hnl
    refine ⟨hnoted.map, hnoted.lost hn, ?_⟩
    rw [failureNotice_loss m s B hB (health_ne_absent hab) hnl hn]
    exact lossAfter_passEnded m p y s B hk hp hi ht hw
  by_cases hf : first = .chainMap
  · intro t
    rw [show t = failureNotice m (failedFreed s i m x) from hc hf hn]
    exact hlost hsame (.inl hkept)
  · intro t
    have hfirst : first = .originator := by cases first <;> trivial
    rw [show t = failureNotice m (afterFailure (.one m) m x y.quiesced (failedFreed s i m x)) from ho' hfirst]
    exact hlost (hsame.mono _ _ _ (PassesOnly.afterFailure _ _ _ _ _)) (afterFailure_keptOrEnded hkept ht hw)

end Released

end Sys2Proof.Machine
end

