-- ==== Sys2Proof/Proofs/TransactionAnswers.lean ====
section
/-! PROOFS. TransactionAnswers.lean: O50, the answers to a stand-alone update and to the transactions of a pass. -/

namespace Sys2Proof.Machine

section Failure

variable {s : State} {m : Mod}

/-- The record after a failure of a module that was not LOST. -/
theorem failedMap_eq (hl : s.health m ≠ .lost) : failedMap s m = { s.map with
    records := tput s.map.records m { s.record m with
      failures := failureCount s m
      state := if s.settings.lostThreshold ≤ failureCount s m then .lost else .suspect } } := by
  unfold failedMap failedRecord
  simp only [hl, false_or]

end Failure

theorem partOf_single {p : Pass} {y : Part} {m : Mod} (hp : p.parts = [y]) (hy : y.module = m) : partOf p m = some y := by
  unfold partOf
  rw [hp]
  exact List.find?_cons_of_pos (by simpa using hy)

end Sys2Proof.Machine

open Sys2Proof Sys2Proof.Machine

/-- Settles O50: an update by the notice that goes with its mask, an OK of a pass by what its originator does from the freed
slot, and a failed answer by the failure noticed before or after the pass goes on. -/
theorem updateAnsweredSetsTheCommandedMask : Obligations.UpdateAnsweredSetsTheCommandedMask := by
  refine ⟨?_, ?_, ?_, ?_⟩
  · intro bytes first f i x m k s hr hl hf h0 hx ht hn hm hrole ho hp hh r
    rw [responseArrival_releases bytes first f i x s hr hl hf hx ht hn (by rw [h0]; decide), h0]
    obtain ⟨he, hraised⟩ := releaseSlot_updated (first := first) (i := i) (pl := f.payload) hm ho hp
      (noticeOf_update hm hrole ho hh)
    generalize releaseSlot first i x (.answered 0 f.payload) (upLaneOver s) = t at he hraised
    exact ⟨_, rfl, congrArg (fun v : State => { v with sched := (refreshItems t).sched }) he, hraised⟩
  · intro bytes first f i x m s hr hl hf h0 h4 hx ht hn hm hrole ho hh count newlyLost lastOne hlast
    rw [responseArrival_releases bytes first f i x s hr hl hf hx ht hn h4, releaseSlot_updateFailed first f.payload h0 hm ho]
    have hsame : SameMap s (setCommanded m .unknown (slotFreed s i)) := ⟨rfl, rfl, rfl, rfl⟩
    have hnoted := failureNotice_noted s _ m hsame hh hlast
    have hkeeps := failureNotice_keeps s _ m hsame hh hlast
    refine ⟨_, rfl, hkeeps.none_of (tget_tput_same _ i none), hkeeps.cmd m (commanded_setCommanded m _ _), hnoted.map,
      hnoted.lost, fun hnl => ?_⟩
    have hnoticed := failureNotice_noticed hsame hh hnl
    generalize failureNotice m (setCommanded m .unknown (slotFreed s i)) = t at hnoted hnoticed
    have he := hnoticed.eq
    rw [← hnoted.map] at he
    exact ⟨congrArg (fun v : State => { v with sched := (refreshItems t).sched }) he, hnoticed.raised⟩
  · intro bytes first f i x m p y s hr hl hf hx ht hn hm ho hp hparts hy hh hk success took
    have hanswered (h0 : f.status = 0) : PassAnswered bytes f i x (.one m) m p y s :=
      ⟨hr, hl, hf, h0, hx, ht, hn, hm, ho, hp, partOf_single hparts hy, hh, hk⟩
    have hsuccess : successMap s m = success := successMap_active hh
    refine ⟨fun hrole h0 => ?_, fun hrole h0 => ?_, fun k hrole h0 hpay hti hnt => ?_⟩
    · obtain ⟨c, he, hoffered⟩ := (hanswered h0).quiesce hrole first
      refine ⟨_, he, ?_, rfl, rfl, hoffered⟩
      unfold took
      rw [← hsuccess]
      rfl
    · obtain ⟨c, he⟩ := (hanswered h0).convert hrole first
      refine ⟨_, he, ?_, rfl, rfl⟩
      unfold took
      rw [← hsuccess]
      rfl
    · obtain ⟨M, hM, he⟩ := (hanswered h0).restore hrole hpay first
      obtain ⟨himage, hslot, hmap⟩ := noticed_restored (i := i) (u := .one m) (k := k) hh M
      obtain ⟨hcommanded, hended⟩ := noticed_restored_one (i := i) (k := k) hp (partOf_single hparts hy) hM hti hnt
      exact ⟨_, he, hcommanded, hmap, himage, hslot, hended⟩
  · intro bytes first f i x u m p y s hr hl hf h4 hx ht hn hm ho hp hy
    refine ⟨?_, ?_⟩
    · rintro k hrole h0 hpay rfl hh hk hti hnt
      have hanswered : PassAnswered bytes f i x .all m p y s := ⟨hr, hl, hf, h0, hx, ht, hn, hm, ho, hp, hy, hh, hk⟩
      obtain ⟨M, hM, he⟩ := hanswered.restore hrole hpay first
      obtain ⟨himage, hslot, hmap⟩ := noticed_restored (i := i) (u := .all) (k := k) hh M
      obtain ⟨hcommanded, hended⟩ := noticed_restored_all (i := i) (m := m) (k := k) (M := M) hp hti hnt
      exact ⟨_, he, hcommanded, hslot, himage, hended, hmap⟩
    · intro again short c k hfail hfi hab count lastOne failed aborted
      have hfailed : failedMap s m = failed := failedMap_eq (health_ne_lost hab)
      have hFail : FailedAnswer f x y (s.record m) := hfail
      rw [responseArrival_releases bytes first f i x s hr hl hf hx ht hn h4]
      refine ⟨fun hq hrole hcount => ?_, fun hq hcount hti hnt => ?_, ?_⟩
      · have hnl : ¬NewlyLost s m := fun h => absurd h.2 (Nat.not_le.2 hcount)
        obtain ⟨he, hraised, hoffered⟩ :=
          releaseSlot_failed_restores (i := i) hfi hp hy hm ho hFail hab hnl hq hrole
        generalize releaseSlot first i x (.answered f.status f.payload) (upLaneOver s) = t at he hraised hoffered
        simp only [hrole, or_false] at he
        rw [abortedRestore_eq, hfailed] at he
        exact ⟨_, rfl, congrArg (fun v : State => { v with sched := (refreshItems t).sched }) he, hraised,
          mem_refreshItems _ _ hoffered (by intro _ h; cases h)⟩
      · have hnl : ¬NewlyLost s m := fun h => absurd h.2 (Nat.not_le.2 hcount)
        have h := releaseSlot_failed_ends (i := i) hfi hp hy hm ho hFail hab hnl hq hti hnt
        exact ⟨_, rfl, h.map.trans hfailed, h.image, h.commanded,
          fun hu => (h.one hu).mono rfl rfl rfl rfl (.of_eq rfl),
          fun hu => (h.all hu).mono rfl rfl rfl rfl (.of_eq rfl)
            (fun a ha => mem_refreshItems _ _ ha (by intro _ h; cases h))⟩
      · rintro rfl hcount hlast hi hti hnt
        obtain ⟨hmap, hlost, hended⟩ := releaseSlot_failed_lost (i := i) hfi hp hy hm ho hFail hab
          ⟨health_ne_lost hab, hcount⟩ hlast hi hti hnt
        exact ⟨_, rfl, hmap.trans hfailed, hlost, hended.mono rfl rfl rfl rfl (.of_eq rfl)⟩

end

