-- ==== Sys2Proof/Proofs/LinkInvariant.lean ====
section
/-! PROOFS. LinkInvariant.lean: what keeps the outstanding-transaction table good (R69 to R71, R76, R77). -/

namespace Sys2Proof.Machine

/-! ## Tags -/

theorem mem_heldSlots {l : Link} {x : TxnSlot} : x ∈ heldSlots l ↔ ∃ i, tget l.slots i = some x := by
  simp only [heldSlots, List.mem_filterMap, List.mem_finRange, true_and]

/-- A tag is not busy when no slot holds it and it is not in quarantine (R70). -/
theorem tagBusy_eq_false {l : Link} {t : BitVec 4} : tagBusy l t = false ↔
    (∀ i x, tget l.slots i = some x → x.tag ≠ some t) ∧ t ∉ l.quarantine.map (·.tag) := by
  simp only [tagBusy, Bool.or_eq_false_iff, List.any_eq_false, mem_heldSlots, beq_iff_eq, List.mem_map, not_exists,
    not_and, forall_exists_index]
  exact and_congr_left' forall_comm

/-- The tag that a slot gives up to quarantine (R71). -/
theorem quarantineTag_tags (now : Nat) (x : TxnSlot) : (quarantineTag now x).map (·.tag) = x.tag.toList := by
  unfold quarantineTag
  cases x.tag <;> rfl

/-- A matched slot holds the frame's tag (R73). -/
theorem matchSlot_tag {l : Link} {f : ResponseFrame} {i : Fin 4} {x : TxnSlot} (h : matchSlot l f = some i)
    (hx : tget l.slots i = some x) : x.tag = some f.tag := by
  have hi := List.find?_some h
  rw [hx] at hi
  simp only [Bool.and_eq_true, beq_iff_eq] at hi
  exact hi.1

/-- What a re-send needs (R77). -/
theorem resendDue_some {i : Fin 4} {x : TxnSlot} {t : BitVec 4} {rest : List (Fin 4)} {s : State}
    (h : s.resendDue = some (i, x, t, rest)) :
    s.link.resendQueue = i :: rest ∧ drawTag s.link = some t ∧ s.slot i = some x := by
  unfold State.resendDue at h
  split at h
  · split at h
    · next hq ht =>
      obtain ⟨y, hy, he⟩ := Option.map_eq_some_iff.1 h
      cases he
      exact ⟨hq, ht, hy⟩
    · cases h
  · cases h

/-- A timeout is that of a held slot whose window runs (R76). -/
theorem timeoutDue_some {i : Fin 4} {x : TxnSlot} {s : State} (h : s.timeoutDue i = some x) :
    s.slot i = some x ∧ x.windowEnd ≠ none := by
  obtain ⟨hx, hp⟩ := Option.filter_eq_some_iff.1 h
  refine ⟨hx, fun hw => ?_⟩
  rw [hw] at hp
  cases hp

/-! ## The parts of a good table -/

/-- A slot as it may stand in place of another: the same tag or none, no window without a tag, the same attempts. -/
structure SlotLess (x x' : TxnSlot) : Prop where
  tag : x'.tag = none ∨ x'.tag = x.tag
  window : x'.tag = none → x'.windowEnd = none
  used : x'.attemptsUsed = x.attemptsUsed
  limit : x'.attemptLimit = x.attemptLimit

theorem SlotLess.untag (x : TxnSlot) : SlotLess x (waitingSlot x) :=
  ⟨.inl rfl, fun _ => rfl, rfl, rfl⟩

namespace LinkGood

variable {l : Link} (h : LinkGood l)

include h

/-- Only the slots, the re-send queue and the quarantine are read. -/
theorem of_eq {l' : Link} (hs : l'.slots = l.slots) (hq : l'.resendQueue = l.resendQueue)
    (hz : l'.quarantine = l.quarantine) : LinkGood l' := by
  constructor
  · simpa only [hs] using h.tags
  · simpa only [hs, hz] using h.apart
  · simpa only [hz] using h.once
  · simpa only [hs] using h.attempts
  · simpa only [hs] using h.window
  · simpa only [hq] using h.queueOnce
  · simpa only [hs, hq] using h.waiting

theorem slotLess_self {i : Fin 4} {x : TxnSlot} (hx : tget l.slots i = some x) : SlotLess x x :=
  ⟨.inr rfl, h.window i x hx, rfl, rfl⟩

/-- A slot with a tag does not wait for a re-send. -/
theorem not_waiting {i : Fin 4} {x : TxnSlot} (hx : tget l.slots i = some x) (ht : x.tag ≠ none) :
    i ∉ l.resendQueue := fun hi => ht (h.waiting i hi x hx).1

/-- Slots may be freed and give up their tags. -/
theorem shrink {v : Vector (Option TxnSlot) 4}
    (hv : ∀ i x', tget v i = some x' → ∃ x, tget l.slots i = some x ∧ SlotLess x x') :
    LinkGood { l with slots := v } where
  tags i j x' y' t hx' hy' htx hty := by
    obtain ⟨x, hx, hlx⟩ := hv i x' hx'
    obtain ⟨y, hy, hly⟩ := hv j y' hy'
    refine h.tags i j x y t hx hy ?_ ?_
    · rcases hlx.tag with hn | he
      · rw [hn] at htx; cases htx
      · rw [← he, htx]
    · rcases hly.tag with hn | he
      · rw [hn] at hty; cases hty
      · rw [← he, hty]
  apart i x' t hx' ht := by
    obtain ⟨x, hx, hl⟩ := hv i x' hx'
    rcases hl.tag with hn | he
    · rw [hn] at ht; cases ht
    · exact h.apart i x t hx (he ▸ ht)
  once := h.once
  attempts i x' hx' := by
    obtain ⟨x, hx, hl⟩ := hv i x' hx'
    rw [hl.used, hl.limit]
    exact h.attempts i x hx
  window i x' hx' := by
    obtain ⟨x, hx, hl⟩ := hv i x' hx'
    exact hl.window
  queueOnce := h.queueOnce
  waiting i hi x' hx' := by
    obtain ⟨x, hx, hl⟩ := hv i x' hx'
    obtain ⟨hn, hlt⟩ := h.waiting i hi x hx
    rw [hl.used, hl.limit]
    exact ⟨hl.tag.elim id fun he => he.trans hn, hlt⟩

/-- The same of one slot. -/
theorem shrinkOne {i : Fin 4} {v : Option TxnSlot}
    (hv : ∀ x', v = some x' → ∃ x, tget l.slots i = some x ∧ SlotLess x x') :
    LinkGood { l with slots := tput l.slots i v } := by
  refine h.shrink fun j x' hx' => ?_
  rw [tget_tput] at hx'
  split at hx'
  · next hij => exact hij ▸ hv x' hx'
  · exact ⟨x', hx', h.slotLess_self hx'⟩

/-- A slot gives up its tag. -/
theorem untag {i : Fin 4} {x : TxnSlot} (hx : tget l.slots i = some x) :
    LinkGood { l with slots := tput l.slots i (some (waitingSlot x)) } := by
  refine h.shrinkOne ?_
  rintro _ ⟨rfl⟩
  exact ⟨x, hx, SlotLess.untag x⟩

/-- The window of a slot with a tag starts (R67). -/
theorem startWindow (i : Fin 4) (now : Nat) :
    LinkGood { l with slots := tput l.slots i ((tget l.slots i).map (Machine.startWindow now)) } := by
  refine h.shrinkOne fun x' hx' => ?_
  obtain ⟨x, hx, rfl⟩ := Option.map_eq_some_iff.1 hx'
  refine ⟨x, hx, ?_⟩
  unfold Machine.startWindow
  split
  · next ht =>
    refine ⟨.inr rfl, fun hn => ?_, rfl, rfl⟩
    rw [show x.tag = none from hn] at ht
    cases ht
  · exact h.slotLess_self hx

/-- A slot is filled under a tag that is not busy (R69, R70). -/
theorem fill {i : Fin 4} {x : TxnSlot} {t : BitVec 4} (ht : x.tag = some t) (hfree : tagBusy l t = false)
    (ha : 1 ≤ x.attemptsUsed ∧ x.attemptsUsed ≤ x.attemptLimit) (hq : i ∉ l.resendQueue) :
    LinkGood { l with slots := tput l.slots i (some x) } := by
  obtain ⟨hheld, hquar⟩ := tagBusy_eq_false.1 hfree
  have split_slot {j : Fin 4} {y : TxnSlot} (hy : tget (tput l.slots i (some x)) j = some y) :
      i = j ∧ x = y ∨ i ≠ j ∧ tget l.slots j = some y := by
    rw [tget_tput] at hy
    split at hy
    · next hij => exact .inl ⟨hij, Option.some.inj hy⟩
    · next hij => exact .inr ⟨hij, hy⟩
  constructor
  case tags =>
    intro j k y z u hy hz hty htz
    rcases split_slot hy with ⟨rfl, rfl⟩ | ⟨-, hy⟩ <;> rcases split_slot hz with ⟨rfl, rfl⟩ | ⟨-, hz⟩
    · rfl
    · exact absurd (htz.trans (hty.symm.trans ht)) (hheld k z hz)
    · exact absurd (hty.trans (htz.symm.trans ht)) (hheld j y hy)
    · exact h.tags j k y z u hy hz hty htz
  case apart =>
    intro j y u hy hu
    rcases split_slot hy with ⟨rfl, rfl⟩ | ⟨-, hy⟩
    · cases ht.symm.trans hu
      exact hquar
    · exact h.apart j y u hy hu
  case once => exact h.once
  case attempts =>
    intro j y hy
    rcases split_slot hy with ⟨rfl, rfl⟩ | ⟨-, hy⟩
    · exact ha
    · exact h.attempts j y hy
  case window =>
    intro j y hy hn
    rcases split_slot hy with ⟨rfl, rfl⟩ | ⟨-, hy⟩
    · cases ht.symm.trans hn
    · exact h.window j y hy hn
  case queueOnce => exact h.queueOnce
  case waiting =>
    intro j hj y hy
    rcases split_slot hy with ⟨rfl, rfl⟩ | ⟨-, hy⟩
    · exact absurd hj hq
    · exact h.waiting j hj y hy

/-- A slot without a tag and with attempts left joins the re-send queue (R73, R76). -/
theorem enqueue {i : Fin 4} (hi : i ∉ l.resendQueue)
    (hx : ∀ x, tget l.slots i = some x → x.tag = none ∧ x.attemptsUsed < x.attemptLimit) :
    LinkGood { l with resendQueue := l.resendQueue ++ [i] } :=
  { h with
    queueOnce := List.nodup_append.2 ⟨h.queueOnce, List.nodup_singleton i, fun _ ha _ hb hab =>
      hi (List.mem_singleton.1 hb ▸ hab ▸ ha)⟩
    waiting := fun j hj x hjx => by
      rcases List.mem_append.1 hj with hj | hj
      · exact h.waiting j hj x hjx
      · cases List.mem_singleton.1 hj
        exact hx x hjx }

/-- The slot at the head leaves the re-send queue (R77). -/
theorem dequeue {i : Fin 4} {rest : List (Fin 4)} (hq : l.resendQueue = i :: rest) :
    LinkGood { l with resendQueue := rest } :=
  { h with
    queueOnce := (List.nodup_cons.1 (hq ▸ h.queueOnce)).2
    waiting := fun j hj => h.waiting j (hq ▸ List.mem_cons_of_mem i hj) }

/-- Tags that no slot holds and that are not in quarantine enter it (R71). -/
theorem intoQuarantine {q : List Quarantined} (hq : (q.map (·.tag)).Nodup)
    (hfree : ∀ t ∈ q.map (·.tag), tagBusy l t = false) : LinkGood { l with quarantine := l.quarantine ++ q } :=
  { h with
    apart := fun i x t hx ht hm => by
      rw [List.map_append, List.mem_append] at hm
      rcases hm with hm | hm
      · exact h.apart i x t hx ht hm
      · exact (tagBusy_eq_false.1 (hfree t hm)).1 i x hx ht
    once := by
      rw [List.map_append, List.nodup_append]
      refine ⟨h.once, hq, fun t ht u hu htu => ?_⟩
      exact (tagBusy_eq_false.1 (hfree u hu)).2 (htu ▸ ht) }

/-- The ends of some quarantines (R71). -/
theorem filterQuarantine (g : Quarantined → Bool) : LinkGood { l with quarantine := l.quarantine.filter g } :=
  have hsub : ((l.quarantine.filter g).map (·.tag)).Sublist (l.quarantine.map (·.tag)) :=
    List.Sublist.map _ List.filter_sublist
  { h with
    apart := fun i x t hx ht hm => h.apart i x t hx ht (hsub.subset hm)
    once := hsub.nodup h.once }

/-- No two held slots give up one tag. -/
theorem heldTags : ((heldSlots l).flatMap fun x => x.tag.toList).Nodup := by
  have he : (heldSlots l).flatMap (fun x => x.tag.toList)
      = (List.finRange 4).filterMap fun i => (tget l.slots i).bind (·.tag) := by
    unfold heldSlots
    rw [← List.filterMap_eq_flatMap_toList, List.filterMap_filterMap]
  rw [he]
  refine (List.nodup_finRange 4).filterMap fun i j t hi hj => ?_
  obtain ⟨x, hx, hxt⟩ := Option.bind_eq_some_iff.1 hi
  obtain ⟨y, hy, hyt⟩ := Option.bind_eq_some_iff.1 hj
  exact h.tags i j x y t hx hy hxt hyt

/-! ## What the link does -/

/-- A bad check leaves the slot waiting for its re-send, without a tag (R73). -/
theorem badCheck {i : Fin 4} {x : TxnSlot} (hx : tget l.slots i = some x) (ht : x.tag ≠ none)
    (hl : x.attemptsUsed < x.attemptLimit) :
    LinkGood { l with
      slots := tput l.slots i (some (waitingSlot x))
      resendQueue := l.resendQueue ++ [i] } := by
  refine (h.untag hx).enqueue (h.not_waiting hx ht) fun y hy => ?_
  cases (tget_tput_same l.slots i _).symm.trans hy
  exact ⟨rfl, hl⟩

/-- The tag of a slot goes into quarantine (R71). -/
theorem giveUpTag {i : Fin 4} {x : TxnSlot} (hx : tget l.slots i = some x) (now : Nat) :
    LinkGood { l with
      slots := tput l.slots i (some (waitingSlot x))
      quarantine := l.quarantine ++ quarantineTag now x } := by
  refine (h.untag hx).intoQuarantine ?_ fun t ht => ?_
  · rw [quarantineTag_tags]
    cases x.tag <;> simp
  · rw [quarantineTag_tags, Option.mem_toList] at ht
    refine tagBusy_eq_false.2 ⟨fun j y hy hyt => ?_, h.apart i x t hx ht⟩
    rw [tget_tput] at hy
    split at hy
    · cases hy
      cases hyt
    · next hij => exact hij (h.tags i j x y t hx hy ht hyt)

/-- A chain restart frees every slot, and the held tags go into quarantine (R79). -/
theorem restart (now : Nat) :
    LinkGood { l with
      slots := tbuild fun _ => none
      resendQueue := []
      quarantine := l.quarantine ++ (heldSlots l).flatMap (quarantineTag now) } := by
  have hfree : LinkGood { l with slots := tbuild fun _ => none, resendQueue := [] } :=
    { h.shrink (v := tbuild fun _ => none) (fun i x' hx' => by rw [tget_tbuild] at hx'; cases hx') with
      queueOnce := List.nodup_nil
      waiting := fun i hi => absurd hi List.not_mem_nil }
  have hmap : ((heldSlots l).flatMap (quarantineTag now)).map (·.tag)
      = (heldSlots l).flatMap fun x => x.tag.toList := by
    rw [List.map_flatMap]
    simp only [quarantineTag_tags]
  refine hfree.intoQuarantine (hmap ▸ h.heldTags) fun t ht => ?_
  rw [hmap, List.mem_flatMap] at ht
  obtain ⟨x, hx, ht⟩ := ht
  obtain ⟨i, hx⟩ := mem_heldSlots.1 hx
  refine tagBusy_eq_false.2 ⟨fun j y hy => ?_, h.apart i x t hx (Option.mem_toList.1 ht)⟩
  rw [tget_tbuild] at hy
  cases hy

end LinkGood

theorem linkGood_reset : LinkGood resetLink := by
  have hs (i : Fin 4) (x : TxnSlot) : tget resetLink.slots i ≠ some x := by simp [resetLink]
  exact ⟨fun i _ x _ _ hx => absurd hx (hs i x), fun i x _ hx => absurd hx (hs i x), List.nodup_nil,
    fun i x hx => absurd hx (hs i x), fun i x hx => absurd hx (hs i x), List.nodup_nil, nofun⟩

/-! ## Every update keeps the table good -/

/-- Only the link is read. -/
theorem LinkInv.of_link {s t : State} (h : LinkInv s) (hl : t.link = s.link) : LinkInv t := by
  unfold LinkInv
  rwa [hl]

theorem LinkInv.send {s : State} (h : LinkInv s) (r : Role) (o : Owner) (n : Nat) (p : Payload)
    (hq : s.link.resendQueue = []) : LinkInv (sendUnicast r o n p s) := by
  cases hi : freeSlot s.link with
  | none => rwa [show sendUnicast r o n p s = s by unfold sendUnicast; rw [hi]]
  | some i =>
    cases ht : drawTag s.link with
    | none => rwa [show sendUnicast r o n p s = s by unfold sendUnicast; rw [hi, ht]]
    | some t =>
      rw [sendUnicast_sends r o n p i t s hi ht]
      have hfill := LinkGood.fill h (i := i) (x := newSlot s t r o n p) rfl (drawTag_free ht)
        ⟨le_refl 1, Nat.le_add_right 1 _⟩ (hq ▸ List.not_mem_nil)
      exact hfill.of_eq rfl rfl rfl

theorem LinkInv.resend {s : State} (h : LinkInv s) {i : Fin 4} {x : TxnSlot} {t : BitVec 4} {rest : List (Fin 4)}
    (hd : s.resendDue = some (i, x, t, rest)) : LinkInv (resendSlot i x t rest s) := by
  obtain ⟨hq, ht, hx⟩ := resendDue_some hd
  obtain ⟨-, hl⟩ := LinkGood.waiting h i (hq ▸ List.mem_cons_self) x hx
  have hi : i ∉ rest := (List.nodup_cons.1 (hq ▸ LinkGood.queueOnce h)).1
  have hfill := (LinkGood.dequeue h hq).fill (i := i) (t := t)
    (x := { x with tag := some t, payload := freshPayload s x, sendInstant := s.timebase, windowEnd := none,
                   attemptsUsed := x.attemptsUsed + 1 })
    rfl (drawTag_free ht) ⟨Nat.le_add_left 1 _, hl⟩ hi
  exact hfill.of_eq rfl rfl rfl

theorem LinkInv.timeout {s : State} (h : LinkInv s) {i : Fin 4} {x : TxnSlot} (hd : s.timeoutDue i = some x) :
    LinkInv (timeoutSlot i x s) := by
  obtain ⟨hx, hw⟩ := timeoutDue_some hd
  have ht : x.tag ≠ none := fun hn => hw (LinkGood.window h i x hx hn)
  have hup := LinkGood.giveUpTag h hx s.linkTime
  unfold timeoutSlot
  dsimp only
  split
  · next hl =>
    refine hup.enqueue (LinkGood.not_waiting h hx ht) fun y hy => ?_
    cases (tget_tput_same s.link.slots i _).symm.trans hy
    exact ⟨rfl, hl⟩
  · exact hup

theorem LinkInv.orphan {s : State} (h : LinkInv s) (u : Target) (n : Option Nat) : LinkInv (orphanSlots u n s) := by
  refine LinkGood.shrink h fun i x' hx' => ?_
  rw [tget_tmap] at hx'
  obtain ⟨x, hx, rfl⟩ := Option.map_eq_some_iff.1 hx'
  have hself := LinkGood.slotLess_self h hx
  refine ⟨x, hx, ?_⟩
  unfold orphanSlot
  split
  · exact ⟨hself.tag, hself.window, rfl, rfl⟩
  · exact hself

/-- The outstanding-transaction table is kept good by every update of a command. -/
theorem linkInv_closed : Closed LinkInv where
  raised _ _ h := h
  sched _ _ h := h
  limits _ _ h := h
  reserved _ _ h := h
  token _ _ h := h
  chain _ _ _ h := h
  entries _ _ _ _ h := h
  renew _ _ _ _ _ _ h := h
  decided _ _ _ _ _ h := h.of_link (by simp)
  balance _ _ _ _ h := h
  balanceAll _ _ _ h := h
  balanceClock _ _ _ h := h
  passChange _ _ _ _ _ _ h := h.of_link (by simp)
  passEnd _ _ h := h.of_link (by simp)
  passNew _ _ _ _ h := h.of_link (by simp)
  strike _ _ h := h
  tickets _ _ _ _ h := h
  ticketNew _ _ _ _ _ h := h
  sweep _ _ _ _ _ _ h := h
  startSweep s _ h := by
    obtain ⟨w, r, x, he, -⟩ := startSweep_eq s
    exact he ▸ h
  endVisit s _ h := by
    obtain ⟨w, r, x, he⟩ := endVisit_eq s
    exact he ▸ h
  endAligned s h := by
    obtain ⟨w, r, x, he⟩ := endAlignedIfDone_eq s
    exact he ▸ h
  closeMap s reason _ h := by
    obtain ⟨c, w, r, x, he, -⟩ := startAfterEnd_closeMap_eq reason s
    exact he ▸ h
  recordModule _ _ _ _ h := h
  record _ _ _ h := h
  mapClock _ _ _ _ h := h
  restart s h := (LinkGood.restart h s.linkTime).of_eq rfl rfl rfl
  orphan _ u n h := h.orphan u n
  send _ r o n p hq h := h.send r o n p hq
  lane _ _ _ _ h := LinkGood.of_eq h rfl rfl rfl
  statistics _ _ _ _ h := LinkGood.of_eq h rfl rfl rfl
  window _ i now h := LinkGood.startWindow h i now
  resend _ _ _ _ _ hd h := h.resend hd
  freeSlot _ _ h := LinkGood.shrinkOne h nofun
  untag _ _ _ hx h := LinkGood.untag h hx
  badCheck _ _ _ _ hm hx hl h := LinkGood.badCheck h hx (by rw [matchSlot_tag hm hx]; nofun) hl
  timeout _ _ _ hd h := h.timeout hd
  quarantine _ g h := LinkGood.filterQuarantine h g
  portSlot _ _ _ _ h := h
  latch _ _ _ _ _ _ _ h := h
  clearHold _ _ _ h := h
  store s p _ h := by
    unfold takeStoring
    split
    · exact h
    · exact h
  pop _ _ _ _ h := h
  queueReset _ _ _ h := h
  portSetting s p k v _ _ _ h := by
    unfold acceptPerPort
    split
    · exact h
    · exact h
    · exact h
  settings _ _ _ _ _ _ h := h
  deviceReset s t ht h := by
    unfold execDeviceReset at ht
    split at ht
    · cases ht
      exact h
    · cases ht
      exact LinkGood.of_eq h rfl rfl rfl
  release s t ht h := by
    unfold execResetRelease at ht
    split at ht
    · cases ht
      exact linkGood_reset
    · cases ht
      exact h

end Sys2Proof.Machine

open Sys2Proof Sys2Proof.Machine

/-- Settles O10: a slot gives up its tag before it waits or the tag goes into quarantine, and is filled under a tag that is
not busy; every other update leaves tags and attempts. -/
theorem stepsKeepTheTransactions : Obligations.StepsKeepTheTransactions := fun _ _ hs ht =>
  linkInv_closed.step (fun _ _ h => h) (fun _ _ h => h) hs ht
end

