-- ==== Sys2Proof/Proofs/LinkEvents.lean ====
section
/-! PROOFS. LinkEvents.lean: the end of a frame, the link's timers, the arrivals on the up lane (R56, R67, R68, R71 to R74,
R88), and a step with no command waiting. -/

namespace Sys2Proof.Machine

/-! ## The end of a frame (R56, R67, R68) -/

/-- The slots after a frame's end: the window of a unicast's slot has started (R67). -/
def slotsAfter (f : Sending) (s : State) : Vector (Option TxnSlot) 4 :=
  match f.slot with
  | some i => tput s.link.slots i ((tget s.link.slots i).map (startWindow s.linkTime))
  | none => s.link.slots

theorem slotsAfter_other {f : Sending} {i : Fin 4} (h : some i ≠ f.slot) (s : State) :
    tget (slotsAfter f s) i = s.slot i := by
  unfold slotsAfter
  split
  · next j hj => rw [tget_tput, if_neg fun hji => h (by rw [← hji, hj])]; rfl
  · rfl

theorem slotsAfter_same {f : Sending} {i : Fin 4} {x : TxnSlot} {s : State} (h : f.slot = some i)
    (hx : s.slot i = some x) (ht : x.tag ≠ none) :
    tget (slotsAfter f s) i = some { x with windowEnd := some (s.linkTime + x.window) } := by
  have hstart : startWindow s.linkTime x = { x with windowEnd := some (s.linkTime + x.window) } :=
    if_pos (Option.isSome_iff_ne_none.2 ht)
  unfold slotsAfter
  rw [h]
  dsimp only
  rw [tget_tput_same, show tget s.link.slots i = some x from hx, Option.map_some, hstart]

/-- What the end of a frame writes: the lane, the timers, the slots' windows and the chain. -/
theorem endTransmission_eq (f : Sending) (noise : List (List Byte)) (s : State) :
    endTransmission f noise s = { s with
      link := { s.link with
        sending := none, idleUntil := some (s.linkTime + 2)
        gapUntil := if f.broadcast then some (s.linkTime + 20) else s.link.gapUntil
        slots := slotsAfter f s }
      map := { s.map with pauseEnd := if f.release then some (s.linkTime + 1000) else s.map.pauseEnd }
      chain := (deliver (s.chainEpoch + s.linkTime) 0 f.bytes.tail noise s.chain).1
      upLane := s.upLane ++ (deliver (s.chainEpoch + s.linkTime) 0 f.bytes.tail noise s.chain).2 } := by
  unfold endTransmission
  cases f.release <;> rfl

/-- The last bit of the frame on the lane has left (R67). -/
theorem transmissionDue_eq {f : Sending} {s : State} (h : s.link.sending = some f) (he : f.endAt ≤ s.linkTime) :
    s.transmissionDue = some f := by
  unfold State.transmissionDue
  rw [h, Option.filter_some, if_pos (decide_eq_true he)]

theorem exec_frameTransmissionEnd {f : Sending} {s : State} (hr : s.inReset = false) (h : s.link.sending = some f)
    (he : f.endAt ≤ s.linkTime) (noise : List (List Byte)) :
    exec (.frameTransmissionEnd noise) s = .next (endTransmission f noise s) := by
  refine congrArg _ ((awake_eq hr _).trans ?_)
  rw [transmissionDue_eq h he]

/-! ## Timers (R56, R68, R71, R88) -/

/-- A link time that has been set and is not ahead has been reached (R56). -/
theorem passed_some {due : Option Nat} {at_ : Nat} {s : State} (h : due = some at_) (hle : at_ ≤ s.linkTime) :
    s.passed due = true := by
  rw [h]
  exact decide_eq_true hle

theorem quarantineDue_of_mem {tag : BitVec 4} {at_ : Nat} {s : State} (h : ⟨tag, at_⟩ ∈ s.link.quarantine)
    (hle : at_ ≤ s.linkTime) : s.quarantineDue tag = true :=
  List.any_eq_true.2 ⟨_, h, by simp [hle]⟩

/-- The end of the release pause offers the first ASSIGN (R88). -/
theorem takePauseEnd_offers (s : State) : .assign ∈ (takePauseEnd s).sched.items.map (·.kind) :=
  mem_refreshItems _ _ (mem_offer .assign _) nofun

/-! ## Arrivals (R72 to R74) -/

section Arrivals

variable {bytes : List Byte} {s : State}

theorem exec_responseArrival_noFrame (hr : s.inReset = false) (h : receive bytes = .noFrame) (first : TakenFirst) :
    exec (.responseArrival bytes first) s = .next (upLaneOver s) := by
  refine congrArg _ ((awake_eq (s := upLaneOver s) hr _).trans ?_)
  rw [h]

theorem exec_responseArrival_bad (hr : s.inReset = false) (h : receive bytes = .bad) (first : TakenFirst) :
    exec (.responseArrival bytes first) s = .next (countBad (upLaneOver s)) := by
  refine congrArg _ ((awake_eq (s := upLaneOver s) hr _).trans ?_)
  rw [h]

theorem exec_responseArrival_good {f : ResponseFrame} (hr : s.inReset = false) (h : receive bytes = .good f)
    (first : TakenFirst) :
    exec (.responseArrival bytes first) s = .next (refreshItems (takeResponse first f (upLaneOver s))) := by
  refine congrArg _ ((awake_eq (s := upLaneOver s) hr _).trans ?_)
  rw [h]

end Arrivals

/-- A good frame that matches no held slot is counted late (R74). -/
theorem takeResponse_late {f : ResponseFrame} {s : State}
    (h : ∀ i x, s.slot i = some x → x.tag = some f.tag → x.node ≠ f.node) (first : TakenFirst) :
    takeResponse first f s = { s with link := { s.link with late := countUp s.link.late } } := by
  unfold takeResponse
  rw [matchSlot_none s.link f h]

/-- BAD_CHECK_SEEN of a slot with attempts left has it sent again (R73). -/
theorem takeResponse_badCheck {f : ResponseFrame} {i : Fin 4} {x : TxnSlot} {s : State} (hl : LinkInv s)
    (hx : s.slot i = some x) (ht : x.tag = some f.tag) (hn : x.node = f.node) (h4 : f.status = 4)
    (ha : x.attemptsUsed < x.attemptLimit) (first : TakenFirst) : takeResponse first f s = joinResend i x s := by
  unfold takeResponse completeSlot
  rw [matchSlot_some hl hx ht hn]
  dsimp only
  rw [hx]
  dsimp only
  rw [if_pos h4, if_pos ha]

/-! ## Steps with no command waiting -/

theorem step_of_nil {s : State} (h : s.pending = []) : step s = idleStep s := by
  unfold step
  rw [h]

/-- In device reset no event is the part's own (R161). -/
theorem ownEvent_inReset {s : State} (h : s.inReset = true) : s.ownEvent = none := if_pos h

theorem idleStep_some {s : State} {i : Instr} (h : s.ownEvent = some i) : idleStep s = exec i s := by
  unfold idleStep
  rw [h]

theorem idleStep_none {s : State} (h : s.ownEvent = none) : idleStep s = .next (advanceTime s) := by
  unfold idleStep
  rw [h]

end Sys2Proof.Machine

open Sys2Proof Sys2Proof.Machine

/-- Settles O47: each timer by the frame's kind, and the slots by the frame's own. -/
theorem transmissionEndStartsTheTimers : Obligations.TransmissionEndStartsTheTimers := by
  intro f noise s hr hf he
  refine ⟨_, exec_frameTransmissionEnd hr hf he noise, ?_⟩
  rw [endTransmission_eq]
  exact ⟨rfl, rfl, rfl, rfl, fun i hi => slotsAfter_other hi s, fun i x hi hx ht => slotsAfter_same hi hx ht, rfl⟩

/-- Settles O48: each timer is found due, and its event writes its own fields. -/
theorem linkTimersEnd : Obligations.LinkTimersEnd := by
  intro s at_ hr hle
  refine ⟨fun h => ?_, fun h => ?_, fun tag h => ?_, fun h => ?_⟩
  · exact congrArg _ ((awake_eq hr _).trans (if_pos (passed_some h hle)))
  · exact congrArg _ ((awake_eq hr _).trans (if_pos (passed_some h hle)))
  · exact congrArg _ ((awake_eq hr _).trans (if_pos (quarantineDue_of_mem h hle)))
  · have hexec : exec .releasePauseExpiry s = .next (takePauseEnd s) :=
      congrArg _ ((awake_eq hr _).trans (if_pos (passed_some h hle)))
    exact ⟨_, hexec, rfl, takePauseEnd_offers s⟩

/-- Settles O49: what arrives is no frame, bad, late, or the matched slot's. -/
theorem arrivalsAreCountedOrMatched : Obligations.ArrivalsAreCountedOrMatched := by
  intro bytes first s hr
  refine ⟨congrArg _ (awake_eq (s := upLaneOver s) hr _), fun h => exec_responseArrival_bad hr h first,
    fun h => exec_responseArrival_noFrame hr h first, fun f hf => ⟨fun hlate => ?_, fun i x hl hx ht hn h4 ha => ?_⟩⟩
  · refine ⟨_, exec_responseArrival_good hr hf first, ?_⟩
    rw [takeResponse_late (s := upLaneOver s) hlate]
    rfl
  · refine ⟨_, exec_responseArrival_good hr hf first, ?_⟩
    rw [takeResponse_badCheck (s := upLaneOver s) hl hx ht hn h4 ha]
    rfl

/-- Settles O2: an own event that can be taken is executed; otherwise time passes, but not in device reset. -/
theorem idleStepLetsTimePass : Obligations.IdleStepLetsTimePass := by
  intro s hp
  rw [step_of_nil hp]
  refine ⟨fun i hi => idleStep_some hi, fun hr hn => ?_, fun hr => ?_⟩
  · rw [idleStep_none hn, advanceTime, if_neg (by rw [hr]; decide)]
  · rw [idleStep_none (ownEvent_inReset hr), advanceTime, if_pos hr]
end

