-- ==== Sys2Proof/Proofs/ChainFrames.lean ====
section
/-! PROOFS. ChainFrames.lean: the frames on the chain's lanes, read back (R57, R58, R221). -/

namespace Sys2Proof.Machine

/-! ## Fields of the bytes -/

/-- A byte of two 4-bit fields. -/
theorem fields_toNat {hi lo : Nat} (hh : hi < 16) (hl : lo < 16) :
    (BitVec.ofNat 8 (hi * 16 + lo)).toNat = hi * 16 + lo := by
  rw [BitVec.toNat_ofNat]
  omega

theorem nodeTag_node {node : Nat} (hn : node < 16) (tag : BitVec 4) :
    (BitVec.ofNat 8 (node * 16 + tag.toNat)).toNat / 16 = node := by
  have ht : tag.toNat < 16 := tag.isLt
  rw [fields_toNat hn ht]
  omega

theorem nodeTag_tag {node : Nat} (hn : node < 16) (tag : BitVec 4) :
    (BitVec.ofNat 8 (node * 16 + tag.toNat)).setWidth 4 = tag := by
  have ht : tag.toNat < 16 := tag.isLt
  apply BitVec.eq_of_toNat_eq
  rw [BitVec.toNat_setWidth, fields_toNat hn ht]
  omega

/-- A 16-bit field is its high and its low byte. -/
theorem halves_append (c : BitVec 16) : c.extractLsb' 8 8 ++ c.extractLsb' 0 8 = c := by
  have happend := BitVec.extractLsb'_append_extractLsb'_eq_extractLsb' (len₁ := 8) (len₂ := 8) (x := c)
    (show 8 = 0 + 8 from rfl)
  exact happend.trans BitVec.extractLsb'_eq_self

/-! ## Response frames (R58, R72) -/

/-- A frame that begins with its start marker, is as long as its length byte says and whose check agrees is good (R72). -/
theorem receive_good {nodeTag status len : Byte} {payload : List Byte} (hl : payload.length = len.toNat)
    (h35 : len.toNat ≤ 35) (hs : status.toNat ≤ 4) :
    receive (0x6A#8 :: nodeTag :: status :: len :: (payload ++ bytes16 (crc16 (nodeTag :: status :: len :: payload))))
      = .good { node := nodeTag.toNat / 16, tag := nodeTag.setWidth 4, status := status, payload := payload } := by
  have hshort : ¬Config.longestPayload < len.toNat := Nat.not_lt.2 h35
  generalize hc : crc16 (nodeTag :: status :: len :: payload) = c
  have htake : (payload ++ bytes16 c).take len.toNat = payload := hl ▸ List.take_left
  have hdrop : (payload ++ bytes16 c).drop len.toNat = [c.extractLsb' 8 8, c.extractLsb' 0 8] := hl ▸ List.drop_left
  unfold receive
  simp only [htake, hdrop, if_neg hshort, hc, halves_append, hl, beq_self_eq_true, decide_eq_true hs]
  rfl

/-- A module's answer spelled as the receiver reads it. -/
theorem responseBytes_eq (node : Nat) (tag : BitVec 4) (status : Byte) (payload : List Byte) :
    responseBytes node tag status payload =
      0x6A#8 :: BitVec.ofNat 8 (node * 16 + tag.toNat) :: status :: BitVec.ofNat 8 payload.length ::
        (payload ++ bytes16 (crc16 (BitVec.ofNat 8 (node * 16 + tag.toNat) :: status ::
          BitVec.ofNat 8 payload.length :: payload))) := rfl

theorem receive_responseBytes {node : Nat} {status : Byte} {payload : List Byte} (tag : BitVec 4) (hn : node < 16)
    (hs : status.toNat ≤ 4) (hl : payload.length ≤ 35) :
    receive (responseBytes node tag status payload)
      = .good { node := node, tag := tag, status := status, payload := payload } := by
  have hlen : (BitVec.ofNat 8 payload.length).toNat = payload.length := by
    rw [BitVec.toNat_ofNat]
    omega
  rw [responseBytes_eq, receive_good hlen.symm (hlen.symm ▸ hl) hs, nodeTag_node hn, nodeTag_tag hn]

/-! ## Command frames (R57, R60) -/

theorem payloadBytes_length (p : Payload) : (payloadBytes p).length ≤ 2 := by
  cases p <;> simp [payloadBytes, bytes16]

/-- A frame that ends in the CRC of what comes before is read without it, and its check passes when the payload is as
long as the length field says (R60). -/
theorem readCommand_append (nodeTag verbLength : Byte) (payload : List Byte) :
    readCommand (nodeTag :: verbLength :: payload ++ bytes16 (crc16 (nodeTag :: verbLength :: payload)))
      = ({ node := nodeTag.toNat / 16, tag := nodeTag.setWidth 4, verb := verbLength.toNat / 16, payload := payload },
        decide (verbLength.toNat % 4 ≤ 2) && verbLength.toNat % 4 == payload.length) := by
  have hn : (nodeTag :: verbLength :: payload ++ bytes16 (crc16 (nodeTag :: verbLength :: payload))).length - 2
      = (nodeTag :: verbLength :: payload).length := by simp [bytes16]
  have h4 : 4 ≤ (nodeTag :: verbLength :: payload ++ bytes16 (crc16 (nodeTag :: verbLength :: payload))).length := by
    simp [bytes16]
  unfold readCommand
  simp only [hn, List.take_left, List.drop_left, decide_eq_true h4, beq_self_eq_true, Bool.true_and]
  rfl

theorem readCommand_commandBytes {node verb : Nat} (tag : BitVec 4) (p : Payload) (hn : node < 16) (hv : verb < 16) :
    readCommand (commandBytes node verb tag p).tail
      = ({ node := node, tag := tag, verb := verb, payload := payloadBytes p }, true) := by
  have hp := payloadBytes_length p
  have hfield := fields_toNat hv (show (payloadBytes p).length < 16 by omega)
  have hverb : (verb * 16 + (payloadBytes p).length) / 16 = verb := by omega
  have hlength : (verb * 16 + (payloadBytes p).length) % 4 = (payloadBytes p).length := by omega
  refine (readCommand_append _ _ _).trans ?_
  rw [nodeTag_node hn, nodeTag_tag hn, hfield, hverb, hlength, decide_eq_true hp, beq_self_eq_true]
  rfl

end Sys2Proof.Machine

open Sys2Proof Sys2Proof.Machine

/-- Settles O54: each field of a frame is read back from its byte, and the check is over the bytes that were sent. -/
theorem chainFramesReadBack : Obligations.ChainFramesReadBack :=
  ⟨fun _ tag _ _ hn hs hl => receive_responseBytes tag hn hs hl,
    fun _ _ tag p hn hv => readCommand_commandBytes tag p hn hv⟩
end

