-- ==== Sys2Proof/Proofs/ItemGrants.lean ====
section
/-! PROOFS. ItemGrants.lean: the choice of a grant, and the grants that send a transaction of their own (R67, R69, R70, R102
to R106). -/

namespace Sys2Proof.Machine

/-! ## The lane and the choice (R67, R102) -/

theorem laneFree_iff {l : Link} : laneFree l = true ↔
    l.sending = none ∧ l.idleUntil = none ∧ l.gapUntil = none ∧ l.resendQueue = [] := by
  simp [laneFree, laneQuiet, and_assoc]

/-- A grant is due when the lane is free and an item is chosen (R102). -/
theorem grantDue_eq_some {s : State} {it : WorkItem} :
    s.grantDue = some it ↔ laneFree s.link = true ∧ chooseItem s = some it := by
  unfold State.grantDue
  split
  · next h => simp [h]
  · next h => simp [h]

theorem grantDue_eq_none {s : State} :
    s.grantDue = none ↔ laneFree s.link ≠ true ∨ ∀ jt ∈ s.sched.items, grantable s jt = false := by
  rw [← chooseItem_none]
  unfold State.grantDue
  split
  · next h => simp [h]
  · next h => simp [h]

/-- Without a grant that is due GRANT does nothing. -/
theorem exec_grant_none {s : State} (hr : s.inReset = false) (h : s.grantDue = none) : exec .grant s = .next s := by
  refine congrArg _ ((awake_eq hr _).trans ?_)
  unfold takeGrant
  rw [h]

/-! ## The ladder (R103 to R106) -/

/-- The order of the keys, field by field. -/
theorem keyBefore_four (a b c d a' b' c' d' : Nat) : keyBefore [a', b', c', d'] [a, b, c, d] = false ↔
    a < a' ∨ a = a' ∧ (b < b' ∨ b = b' ∧ (c < c' ∨ c = c' ∧ d ≤ d')) := by
  simp only [← Bool.not_eq_true, keyBefore, Bool.or_eq_true, Bool.and_eq_true, decide_eq_true_eq, beq_iff_eq,
    Bool.false_eq_true, and_false, or_false]
  omega

theorem directedPort_eq_some {o : Source} {p : Port} : directedPort o = some p ↔ o = directedOrigin p := by
  cases o <;> cases p <;> decide

/-- The rung of a pass's first item (R103, R104). -/
theorem rungOf_first {u : Target} {p : Pass} {s : State} (h : s.passOf u = some p) :
    rungOf s (.passStep u .first) = if p.origin = .directedA ∨ p.origin = .directedB then 5
      else if p.parts.any (fun y => s.urgentModule y.module) then 4 else 7 := by
  simp only [rungOf, h, urgentPass]
  cases p.origin <;> rfl

theorem servedLast_first {u : Target} {p : Pass} {s : State} (h : s.passOf u = some p) :
    servedLast s (.passStep u .first) = if p.origin = directedOrigin s.sched.lastServed then 1 else 0 := by
  simp only [servedLast, h, Option.bind_some]
  cases hd : directedPort p.origin with
  | none =>
    have hne : p.origin ≠ directedOrigin s.sched.lastServed := fun he => by
      rw [directedPort_eq_some.2 he] at hd
      cases hd
    exact (if_neg hne).symm
  | some q =>
    rw [directedPort_eq_some] at hd
    have hiff : p.origin = directedOrigin s.sched.lastServed ↔ q = s.sched.lastServed := by
      rw [hd]
      cases q <;> cases s.sched.lastServed <;> decide
    simp only [hiff]

/-- A recovery PING is urgent while a module after it has urgent entries yet to visit (R104). -/
theorem urgentPing_iff {s : State} {m : Mod} : urgentPing s m = true ↔ s.sweep.visit = .pinging
    ∧ s.sweep.pointer = modNumber m ∧ ∃ k, modNumber m < modNumber k ∧ modNumber k ≤ s.map.n ∧ s.urgentModule k = true := by
  simp only [urgentPing, Bool.and_eq_true, beq_iff_eq, List.any_eq_true, decide_eq_true_eq, State.onChain, and_assoc,
    allMods, List.mem_finRange, true_and]
  refine and_congr_right fun _ => and_congr_right fun hp => ?_
  rw [hp]

/-! ## Items that need a slot (R69, R70) -/

/-- An item that is no broadcast is grantable only where a slot is free and a tag can be drawn (R102). -/
theorem grantable_unicast {s : State} {it : WorkItem} (h : grantable s it = true) (hb : isBroadcast it.kind = false) :
    ∃ i tag, freeSlot s.link = some i ∧ drawTag s.link = some tag := by
  simp only [grantable, hb, Bool.false_or, Bool.and_eq_true] at h
  obtain ⟨⟨-, hi, ht⟩, -⟩ := h
  obtain ⟨i, hi⟩ := Option.isSome_iff_exists.1 hi
  obtain ⟨tag, ht⟩ := Option.isSome_iff_exists.1 ht
  exact ⟨i, tag, hi, ht⟩

/-- Once its update is on its way, a module wants no other (R145). -/
theorem wantsUpdate_sent {s : State} {m : Mod} {p : Payload} {i : Fin 4} {tag : BitVec 4}
    (hi : freeSlot s.link = some i) (ht : drawTag s.link = some tag) :
    (sendUnicast .update .balance (modNumber m) p s).wantsUpdate m = false := by
  rw [sendUnicast_sends _ _ _ _ i tag s hi ht, ← Bool.not_eq_true, wantsUpdate_iff]
  intro h
  exact (h.2 i _ (tget_tput_same _ i _) rfl).2 rfl

section Granted

variable {s : State} {it : WorkItem}

/-- The item that is granted leaves the scheduler (R102). -/
theorem granted_item_leaves (hg : s.grantDue = some it) :
    it.kind ∉ (refreshItems (grantItem it.kind (withdraw (· == it.kind) s))).sched.items.map (·.kind) := by
  have hgone : it.kind ∉ (withdraw (· == it.kind) s).sched.items.map (·.kind) := by
    simp [withdraw]
  have hstays : it.kind ∉ (grantItem it.kind (withdraw (· == it.kind) s)).sched.items.map (·.kind) := fun hm => by
    rcases grantItem_offers _ _ _ hm with h | ⟨hfirst, hconvert⟩
    · exact hgone h
    · cases hfirst.symm.trans hconvert
  intro hm
  rw [mem_refreshItems_iff] at hm
  cases hk : it.kind with
  | update m =>
    obtain ⟨-, hgrantable, -⟩ := chooseItem_first (grantDue_eq_some.1 hg).2
    obtain ⟨i, tag, hi, ht⟩ := grantable_unicast hgrantable (by rw [hk]; rfl)
    rw [hk] at hm
    have hnot := wantsUpdate_sent (s := withdraw (· == .update m) s) (m := m)
      (p := .mask ((withdraw (· == .update m) s).balanceOf m).decided) hi ht
    exact Bool.false_ne_true (hnot.symm.trans hm)
  | _ =>
    rw [hk] at hm hstays
    exact hstays hm

/-! ## What is sent (R57, R67, R88) -/

theorem grantPassItem_readCells {u : Target} {p : Pass} {y : Part} (h : s.passOf u = some p)
    (hy : (p.parts.find? fun z => z.step = .reading ∨ z.step = .restoring) = some y) :
    grantPassItem u .readCells s = sendUnicast .readCells (.pass u) (modNumber y.module) .empty s := by
  unfold grantPassItem servedPart
  rw [h]
  dsimp only
  rw [hy]

theorem grantPassItem_readAux {u : Target} {p : Pass} {y : Part} (h : s.passOf u = some p)
    (hy : (p.parts.find? fun z => z.step = .reading ∨ z.step = .restoring) = some y) :
    grantPassItem u .readAux s = sendUnicast .readAux (.pass u) (modNumber y.module) .empty s := by
  unfold grantPassItem servedPart
  rw [h]
  dsimp only
  rw [hy]

/-- RELEASE_ALL is broadcast: no slot, no tag (R68, R88). -/
theorem exec_grant_release (hr : s.inReset = false) (hg : s.grantDue = some it) (hk : it.kind = .release) :
    ∃ t, exec .grant s = .next t ∧ t = { s with
      sched := t.sched
      link := { s.link with
        sending := some { bytes := commandBytes 15 1 0 .empty, endAt := s.linkTime + 20, slot := none,
                          broadcast := true, release := true } } } := by
  refine ⟨_, exec_grant s hr it hg, ?_⟩
  rw [hk]
  rfl

/-- A granted item that is a transaction of its own fills the slot under the tag (R69, R70). -/
theorem exec_grant_sends {role : Role} {owner : Owner} {node : Nat} {payload : Payload} {i : Fin 4} {tag : BitVec 4}
    (hr : s.inReset = false) (hg : s.grantDue = some it)
    (hsend : grantItem it.kind (withdraw (· == it.kind) s)
      = sendUnicast role owner node payload (withdraw (· == it.kind) s))
    (hi : freeSlot s.link = some i) (ht : drawTag s.link = some tag) :
    ∃ t, exec .grant s = .next t ∧ t = { s with sched := t.sched, link := { s.link with
      lastTag := tag
      slots := tput s.link.slots i (some (newSlot s tag role owner node payload))
      sending := some
        { bytes := commandBytes node (verbCode role) tag payload
          endAt := s.linkTime + 4 * (commandBytes node (verbCode role) tag payload).length, slot := some i
          broadcast := false, release := false } } } := by
  refine ⟨_, exec_grant s hr it hg, ?_⟩
  rw [hsend, sendUnicast_sends _ _ _ _ i tag (withdraw (· == it.kind) s) hi ht]
  rfl

end Granted

end Sys2Proof.Machine

open Sys2Proof Sys2Proof.Machine

/-- Settles O45: the choice by the keys of the ladder, and each item's sending. -/
theorem grantSendsTheChosenItem : Obligations.GrantSendsTheChosenItem := by
  intro s hr rung served ready notAfter free
  have hfree : free ↔ laneFree s.link = true := laneFree_iff.symm
  have hrung (k : ItemKind) : rung k = rungOf s k := by
    cases k with
    | passStep u act =>
      cases act with
      | first =>
        cases hp : s.passOf u with
        | none => simp only [rung, rungOf, hp]
        | some p =>
          rw [rungOf_first hp]
          simp only [rung, hp]
      | _ => rfl
    | ping m =>
      show (if _ then 4 else 8) = if urgentPing s m = true then 4 else 8
      simp only [urgentPing_iff]
    | _ => rfl
  have hserved (k : ItemKind) : served k = servedLast s k := by
    cases k with
    | passStep u act =>
      cases act with
      | first =>
        cases hp : s.passOf u with
        | none => simp only [served, servedLast, hp, Option.bind_none]
        | some p =>
          rw [servedLast_first hp]
          simp only [served, hp]
      | _ => rfl
    | _ => rfl
  have hnotAfter (it jt : WorkItem) : notAfter it jt ↔ keyBefore (itemKey s jt) (itemKey s it) = false := by
    simp only [itemKey, keyBefore_four, notAfter, hrung, hserved]
    rfl
  refine ⟨fun h => exec_grant_none hr (grantDue_eq_none.2 (h.imp_left fun hn hl => hn (hfree.2 hl))),
    fun hl ⟨jt, hj, hjg⟩ => ?_, fun it hg => ?_⟩
  · refine Option.ne_none_iff_exists'.1 fun hn => ?_
    rcases grantDue_eq_none.1 hn with h | h
    · exact h (hfree.1 hl)
    · rw [h jt hj] at hjg
      cases hjg
  · obtain ⟨hlane, hchosen⟩ := grantDue_eq_some.1 hg
    obtain ⟨hmem, hgrantable, hfirst⟩ := chooseItem_first hchosen
    refine ⟨hfree.2 hlane, hmem, hgrantable, fun jt hj hjg => (hnotAfter it jt).2 (hfirst jt hj hjg),
      ⟨_, exec_grant s hr it hg, granted_item_leaves hg⟩, exec_grant_release hr hg, ?_⟩
    intro role owner node verb payload i tag hitem hi ht
    have hsends : grantItem it.kind (withdraw (· == it.kind) s)
        = sendUnicast role owner node payload (withdraw (· == it.kind) s) ∧ verbCode role = verb := by
      rcases hitem with ⟨hk, rfl, rfl, rfl, rfl, rfl⟩ | ⟨hk, rfl, rfl, rfl, rfl, rfl⟩ |
        ⟨m, hk, rfl, rfl, rfl, rfl, rfl⟩ | ⟨m, hk, rfl, rfl, rfl, rfl, rfl⟩ |
        ⟨u, p, y, hp, hy, rfl, rfl, rfl, ⟨hk, rfl, rfl⟩ | ⟨hk, rfl, rfl⟩⟩
      · exact ⟨hk ▸ rfl, rfl⟩
      · exact ⟨hk ▸ rfl, rfl⟩
      · exact ⟨hk ▸ rfl, rfl⟩
      · exact ⟨hk ▸ rfl, rfl⟩
      · exact ⟨hk ▸ grantPassItem_readCells ((passOf_sched _).trans hp) hy, rfl⟩
      · exact ⟨hk ▸ grantPassItem_readAux ((passOf_sched _).trans hp) hy, rfl⟩
    obtain ⟨hgrant, rfl⟩ := hsends
    obtain ⟨t, hexec, heq⟩ := exec_grant_sends hr hg hgrant hi ht
    exact ⟨t, hexec, heq, drawTag_free ht, freeSlot_free hi⟩
end

