-- ==== Sys2Proof/Proofs/ChainRestarts.lean ====
section
/-! PROOFS. ChainRestarts.lean: what a chain restart empties, leaves and reports (R93, R116, R157), CHAIN_RESTART and
READ_MAP (R97, R98). -/

namespace Sys2Proof.Machine

/-! ## The parts on the chain (R41, R47, R79, R107) -/

/-- What the restarts of the map, the passes, the sweep, the link and the items write, and that nothing else is. -/
theorem chainPart_eq (s : State) : ∃ l x, chainPart s = { s with
      map := (mapRestart s).map, passes := tbuild fun _ => none, aligned := none, reserved := false,
      sweep := resetSweep, link := l, sched := x }
    ∧ (∀ i, tget l.slots i = none) ∧ l.resendQueue = [] := by
  have hsweep : sweepRestart (passRestart (mapRestart s)) = { s with
      map := (mapRestart s).map, passes := tbuild fun _ => none, aligned := none, reserved := false,
      sweep := resetSweep } := rfl
  unfold chainPart
  rw [hsweep]
  exact ⟨_, _, rfl, fun i => tget_tbuild _ i, rfl⟩

/-! ## The records of a chain restart (R116, R156) -/

/-- A ticket's report at a restart, from the part of its module, if the ticket rode on a pass. -/
theorem doneEvent_restart (now : Tick) (part : Option Part) (k : Ticket) :
    doneEvent now true part k =
      { ticketReport now k.module ((part.map (·.cellRenewal)).getD 0) ((part.map (·.auxRenewal)).getD 0) k with
        cause := some .restart } := by
  unfold doneEvent ticketReport
  cases part with
  | none => cases k.what <;> rfl
  | some y => cases k.what <;> simp [namedRenewals, highestRenewal]

theorem restartTickets_raised (p q : Port) (s : State) :
    (restartTickets p s).raised.get q = s.raised.get q ++ if q = p then storing (ticketRestarts p s) else [] := by
  unfold restartTickets
  dsimp only
  rw [raiseTo_storing]
  unfold ticketRestarts
  simp only [doneEvent_restart]
  rfl

theorem requestedBy_restartClaims (p : Port) (b : BalanceModule) (c : Fin 16) :
    requestedBy p (tget (restartClaims b).cells c) = false := by
  simp only [restartClaims, tget_tmap]
  cases p <;> rfl

/-- With no request left, a decision reports no cell BLOCKED. -/
theorem blockedEvents_restartClaims (now : Tick) (m : Mod) (p : Port) (di : DecisionInput) (mi : ModuleImage)
    (before b : BalanceModule) : blockedEvents now m p before (decideModule di mi (restartClaims b)) = [] := by
  have hnone (k : BlockCause) : maskOf (fun c => reportedBlocked p k (tget before.cells c)
      (tget (decideModule di mi (restartClaims b)).cells c)) = 0 := by
    rw [maskOf_eq_zero]
    simp [reportedBlocked, requestedBy_decideModule, requestedBy_restartClaims]
  simp [blockedEvents, hnone]

theorem decideFrom_restartClaims_raised (m : Mod) (before b : BalanceModule) (s : State) :
    (decideFrom m none before (restartClaims b) s).raised = s.raised := by
  unfold decideFrom
  simp only [blockedEvents_restartClaims, List.append_nil]
  rfl

theorem foldl_restartClaims_raised (ms : List Mod) : ∀ s : State,
    (ms.foldl (fun s m => decideFrom m none (s.balanceOf m) (restartClaims (s.balanceOf m)) s) s).raised
      = s.raised := by
  induction ms with
  | nil => exact fun _ => rfl
  | cons m ms ih =>
    intro s
    rw [List.foldl_cons, ih, decideFrom_restartClaims_raised]

/-- The requests of a module that end at a restart are all that the port has. -/
theorem endedEvents_restartClaims (now : Tick) (m : Mod) (p : Port) (b : BalanceModule) :
    endedEvents now m p .restart b (restartClaims b) =
      if (List.finRange 16).any fun c => requestedBy p (tget b.cells c)
      then [maskEvent .balanceEnded now m (maskOf fun c => requestedBy p (tget b.cells c)) .restart] else [] := by
  unfold endedEvents
  simp only [requestedBy_restartClaims, Bool.not_false, Bool.and_true, maskOf_eq_zero]
  cases (List.finRange 16).any fun c => requestedBy p (tget b.cells c) <;> rfl

/-- All modules' ended requests are the port's BALANCE_ENDED (RESTART) records. -/
theorem flatMap_endedEvents (p : Port) (s : State) :
    (allMods.flatMap fun m => endedEvents s.timebase m p .restart (s.balanceOf m) (restartClaims (s.balanceOf m)))
      = requestRestarts p s := by
  simp only [endedEvents_restartClaims]
  rfl

theorem balanceRestart_raised (q : Port) (s : State) :
    (balanceRestart s).raised.get q = s.raised.get q ++ storing (requestRestarts q s) := by
  unfold balanceRestart
  simp only [flatMap_endedEvents]
  rw [foldl_restartClaims_raised, raiseTo_storing, raiseTo_storing]
  cases q <;> simp

theorem imageRestart_eq (s : State) : ∃ i b, imageRestart s = { s with
    image := { s.image with modules := i }, balance := { s.balance with handoffs := b } } :=
  (foldl_restartImage allMods s (List.nodup_finRange 12)).1

/-- What a port hears of its requests hangs on the balance table and the time alone. -/
theorem requestRestarts_congr {s t : State} (p : Port) (hb : t.balance.modules = s.balance.modules)
    (ht : t.linkTime = s.linkTime) : requestRestarts p t = requestRestarts p s := by
  have hnow : t.timebase = s.timebase := congrArg (fun x => BitVec.ofNat 32 (x / Config.microsPerTick)) ht
  unfold requestRestarts State.balanceOf
  rw [hb, hnow]

theorem ticketRestarts_restartTickets (s : State) : ticketRestarts .B (restartTickets .A s) = ticketRestarts .B s := by
  obtain ⟨r, hr⟩ := restartTickets_fields .A s
  rw [hr]
  rfl

/-- The records of a restart: a port's tickets in one event, its requests in a later one (log entries 6 and 9). -/
theorem beginRestart_raised (q : Port) (s : State) :
    (beginRestart s).raised.get q
      = s.raised.get q ++ storing (ticketRestarts q s) ++ storing (requestRestarts q s) := by
  have hrestart : beginRestart s
      = balanceRestart (imageRestart (chainPart (restartTickets .B (restartTickets .A s)))) := rfl
  have htickets : (restartTickets .B (restartTickets .A s)).raised.get q
      = s.raised.get q ++ storing (ticketRestarts q s) := by
    rw [restartTickets_raised, restartTickets_raised, ticketRestarts_restartTickets]
    cases q <;> simp
  have hbalance : (restartTickets .B (restartTickets .A s)).balance = s.balance
      ∧ (restartTickets .B (restartTickets .A s)).linkTime = s.linkTime := by
    obtain ⟨ra, ha⟩ := restartTickets_fields .A s
    obtain ⟨rb, hb⟩ := restartTickets_fields .B (restartTickets .A s)
    rw [hb, ha]
    exact ⟨rfl, rfl⟩
  rw [hrestart]
  generalize restartTickets .B (restartTickets .A s) = u at htickets hbalance
  obtain ⟨l, x, hchain, -⟩ := chainPart_eq u
  obtain ⟨i, b, himage⟩ := imageRestart_eq (chainPart u)
  have hraised : (imageRestart (chainPart u)).raised = u.raised := by rw [himage, hchain]
  have hrequests : requestRestarts q (imageRestart (chainPart u)) = requestRestarts q s := by
    apply requestRestarts_congr
    · rw [himage, hchain, hbalance.1]
    · rw [himage, hchain, hbalance.2]
  rw [balanceRestart_raised, hraised, hrequests, htickets]

/-! ## What a chain restart empties and what it leaves (R93) -/

/-- No pass, sweep, ticket or transaction is left, and the DOWN retry timer does not run. -/
structure RestartEmpties (t : State) : Prop where
  retryDue : t.map.retryDue = none
  passes : ∀ u, t.passOf u = none
  reserved : t.reserved = false
  sweep : t.sweep = resetSweep
  tickets : ∀ q, (t.ticketQueue q).tickets = []
  slots : ∀ i, t.slot i = none
  resends : t.link.resendQueue = []

/-- The renewal counter, the time, the limit states, the queues and the modules stand. -/
structure RestartKeeps (s t : State) : Prop where
  counter : t.image.counter = s.image.counter
  linkTime : t.linkTime = s.linkTime
  limits : t.limits = s.limits
  queues : t.queues = s.queues
  chain : t.chain = s.chain

theorem beginRestart_chain (s : State) :
    RestartEmpties (beginRestart s) ∧ RestartKeeps s (beginRestart s) := by
  obtain ⟨tk, r, i, b, h, htk, -, -⟩ := beginRestart_fields s
  obtain ⟨l, x, hc, hslots, hresends⟩ := chainPart_eq s
  have he : beginRestart s = { chainPart s with
      tickets := tk, raised := r, image := { s.image with modules := i }, balance := b } := h
  rw [he, hc]
  refine ⟨⟨rfl, fun u => ?_, rfl, rfl, htk, hslots, hresends⟩, rfl, rfl, rfl, rfl, rfl⟩
  cases u with
  | one m => exact tget_tbuild _ m
  | all => rfl

theorem chanEntry_beginRestart (s : State) (m : Mod) (ch : Chan) :
    chanEntry ((beginRestart s).moduleImage m) ch = restartEntry (chanEntry (s.moduleImage m) ch) := by
  obtain ⟨tk, r, i, b, h, -, hentries, -⟩ := beginRestart_fields s
  rw [h]
  exact hentries m ch

/-- A module's claims after a restart: no request, the inhibit marks and the ON times as they were (R157). -/
theorem beginRestart_claims (s : State) (m : Mod) :
    ((beginRestart s).balanceOf m).commanded = .mask 0 ∧ ((beginRestart s).balanceOf m).hold = false
    ∧ ∀ c, requested (tget ((beginRestart s).balanceOf m).cells c) = false
      ∧ (tget ((beginRestart s).balanceOf m).cells c).inhibit = (tget (s.balanceOf m).cells c).inhibit
      ∧ (tget ((beginRestart s).balanceOf m).cells c).onTime = (tget (s.balanceOf m).cells c).onTime := by
  obtain ⟨tk, r, i, b, h, -, -, hclaims⟩ := beginRestart_fields s
  obtain ⟨di, mi, hd⟩ := hclaims m
  have hb : (beginRestart s).balanceOf m = decideModule di mi (restartClaims (s.balanceOf m)) := by rw [h]; exact hd
  rw [hb]
  refine ⟨rfl, rfl, fun c => ⟨?_, ?_, ?_⟩⟩
  · simp only [requested, requestedBy_decideModule, requestedBy_restartClaims, Bool.or_self]
  · simp [decideModule, restartClaims, dropRequests]
  · simp [decideModule, restartClaims, dropRequests]

/-! ## CHAIN_RESTART and DOWN_RETRY_EXPIRY (R95, R97) -/

section Commands

variable {p : Port} {fill : List Byte} {s : State}

theorem exec_chainRestart (h : s.frameEnding p = true) :
    exec (.chainRestart p (goodRest 0x70 [] fill)) s = .next (takeChainRestart p (endFrame p s)) := by
  change Host.Outcome.next (takeFrame p 0x70 (goodRest 0x70 [] fill) _ s) = _
  rw [takeFrame_request p 0x70 [] fill _ h rfl]

/-- The holder's lease restarts with its current length. -/
theorem restartLease_endFrame {l : Nat} {d : Tick} (h : s.token = .held p l d) :
    restartLease (endFrame p s) = stored p l s.settings s := by
  unfold restartLease
  rw [show (endFrame p s).token = .held p l d from h]
  rfl

theorem holds_iff : s.holds p = true ↔ ∃ l d, s.token = .held p l d := by
  unfold State.holds
  cases s.token with
  | free => simp
  | held q l d => simp

/-- The answer to an accepted request of the holder, beside what the event leaves. -/
theorem answerLater_refreshed {a : Answer} {l : Nat} {st : Settings} {E : State}
    (h : E.ports = (stored p l st s).ports) :
    answerLater p a (refreshItems E) = { refreshItems E with ports := (storedAnswered p a l st s).ports } :=
  answerLater_stored h

theorem takeChainRestart_holder {l : Nat} {d : Tick} (h : s.token = .held p l d) :
    takeChainRestart p (endFrame p s) =
      { refreshItems (beginRestart (stored p l s.settings s)) with
        ports := (storedAnswered p (okAnswer 0x70 []) l s.settings s).ports } := by
  have hholds : (endFrame p s).holds p = true := holds_iff.2 ⟨l, d, h⟩
  have hports : (beginRestart (stored p l s.settings s)).ports = (stored p l s.settings s).ports := by
    rw [← refreshItems_ports]
    exact (restarted_beginRestart _).ports
  unfold takeChainRestart
  rw [if_pos hholds, restartLease_endFrame h, answerLater_refreshed hports]

theorem takeChainRestart_refused (h : ∀ l d, s.token ≠ .held p l d) :
    takeChainRestart p (endFrame p s) = s.answered p (waitsFor (refusal .noToken 0x70)) := by
  have hholds : ¬(endFrame p s).holds p = true := fun hh =>
    have ⟨l, d, ht⟩ := holds_iff.1 hh
    h l d ht
  unfold takeChainRestart
  rw [if_neg hholds, answerLater_endFrame]

/-- Said for every state, so that the states it is used at are not unfolded. -/
theorem State.with_own_ports (t : State) : ∃ Q, t = { t with ports := Q } := ⟨t.ports, rfl⟩

theorem exec_downRetryExpiry {due : Tick} (hr : s.inReset = false) (hd : s.map.retryDue = some due)
    (h : (s.timebase - due).toNat < 2 ^ 31) :
    exec .downRetryExpiry s = .next (refreshItems (beginRestart s)) := by
  have hexpired : s.retryExpired = true := by
    unfold State.retryExpired
    rw [hd]
    exact reached_eq h
  change Host.Outcome.next (awake _ s) = _
  rw [awake_eq hr, if_pos hexpired]

/-! ## READ_MAP (R98) -/

theorem exec_readMap (h : s.frameEnding p = true) :
    exec (.readMap p (goodRest 0x71 [] fill)) s = .next (s.answered p (waitsFor (okAnswer 0x71 (mapBytes s)))) := by
  change Host.Outcome.next (takeFrame p 0x71 (goodRest 0x71 [] fill) _ s) = _
  rw [takeFrame_request p 0x71 [] fill _ h rfl]
  exact congrArg _ (answerLater_endFrame p _ s)

end Commands

/-- Three flags in bits 0, 1 and 2 (R220). -/
theorem flagByte_three (a b c : Bool) :
    flagByte a ||| (flagByte b <<< 1) ||| (flagByte c <<< 2)
      = (if a then 1 else 0) + (if b then 2 else 0) + (if c then 4 else 0) := by
  revert a b c
  decide

end Sys2Proof.Machine

open Sys2Proof Sys2Proof.Machine

/-- Settles O43: from the holder the restart begins in the state with the lease restarted, at the DOWN retry's expiry in
the state as it stands; neither the port nor the token has a part in what it leaves. -/
theorem chainRestartEndsEverythingOnTheChain : Obligations.ChainRestartEndsEverythingOnTheChain := by
  intro s restarted
  have leaves {S T : State} (hS : ∃ P k, S = { s with ports := P, token := k })
      (hT : ∃ Q, T = { refreshItems (beginRestart S) with ports := Q }) : restarted T := by
    obtain ⟨P, k, rfl⟩ := hS
    obtain ⟨Q, rfl⟩ := hT
    have hmap := restarted_beginRestart { s with ports := P, token := k }
    obtain ⟨hgone, hkept⟩ := beginRestart_chain { s with ports := P, token := k }
    have hsweep := hgone.sweep
    have hentries := chanEntry_beginRestart { s with ports := P, token := k }
    have hclaims := beginRestart_claims { s with ports := P, token := k }
    have hraised := (beginRestart_raised · { s with ports := P, token := k })
    obtain ⟨x, hx⟩ := refreshItems_eq (beginRestart { s with ports := P, token := k })
    rw [hx] at hmap ⊢
    generalize beginRestart { s with ports := P, token := k } = B at hmap hgone hkept hsweep hentries hclaims hraised
    exact ⟨hmap.state, hmap.n, hgone.retryDue, hmap.absent, hentries, hkept.counter, hkept.linkTime,
      hgone.passes, hgone.reserved, congrArg Sweep.state hsweep, congrArg Sweep.pointer hsweep,
      congrArg Sweep.nextBoundary hsweep, hgone.tickets, hgone.slots, hgone.resends, hmap.items, hclaims, hraised,
      hmap.settings, hkept.limits, hkept.queues, hkept.chain⟩
  refine ⟨fun p fill l d hf ht => ?_, fun p fill hf ht => ?_, fun due hr hd hreached => ?_⟩
  · have hout := restarted_beginRestart (stored p l s.settings s)
    have hleft {T : State} := leaves (S := stored p l s.settings s) (T := T) ⟨_, _, rfl⟩
    rw [exec_chainRestart hf, takeChainRestart_holder ht]
    generalize refreshItems (beginRestart (stored p l s.settings s)) = T at hout hleft ⊢
    exact ⟨_, rfl, hleft ⟨_, rfl⟩, hout.token, rfl⟩
  · rw [exec_chainRestart hf, takeChainRestart_refused ht]
    rfl
  · have hout := restarted_beginRestart s
    have hleft {T : State} := leaves (S := s) (T := T) ⟨_, _, rfl⟩
    rw [exec_downRetryExpiry hr hd hreached]
    generalize refreshItems (beginRestart s) = T at hout hleft ⊢
    exact ⟨T, rfl, hleft (State.with_own_ports T), hout.token, hout.ports⟩

/-- Settles O44: the answer is the map's payload, byte by byte as R220 lays it out. -/
theorem readMapAnswersTheMap : Obligations.ReadMapAnswersTheMap := by
  intro p fill s h
  rw [exec_readMap h]
  unfold mapBytes
  simp only [recordBytes, flagByte_three, beq_iff_eq]
  rfl
end

