-- ==== Sys2Proof/Proofs/PortInvariants.lean ====
section
/-! PROOFS. PortInvariants.lean: what is kept that reads the ticket queues and the hold buffers alone (R25, R109, R171). -/

namespace Sys2Proof.Machine

/-! ## Reading the tickets and the hold buffers -/

/-- A property reads the ticket queues and the hold buffers alone, holds after device reset, and is kept by the updates of
`Closed` that write one of these: a ticket leaves or is issued, and a hold buffer is filled or cleared. -/
structure KeptAtPorts (P : State → Prop) : Prop where
  reads : ∀ s t, t.tickets = s.tickets → (∀ p, (t.port p).hold = (s.port p).hold) → P s → P t
  reset : P State.reset
  hold : ∀ s p h, HoldGood h.hold → P s → P (s.setPort p h)
  tickets : ∀ s p q, (q.tickets.map (·.id)).Sublist ((s.ticketQueue p).tickets.map (·.id)) →
    P s → P (s.setTickets p q)
  ticketNew : ∀ s p t, t.id = nextId (s.ticketQueue p) → (s.ticketQueue p).tickets.length < Config.ticketLimit →
    P s → P (s.setTickets p { tickets := (s.ticketQueue p).tickets ++ [t], lastId := t.id })

theorem State.port_setPort (p q : Port) (h : HostPort) (s : State) :
    (s.setPort p h).port q = if p = q then h else s.port q := PerPort.get_set s.ports p q h

theorem State.ticketQueue_setTickets (p q : Port) (x : TicketQueue) (s : State) :
    (s.setTickets p x).ticketQueue q = if p = q then x else s.ticketQueue q := PerPort.get_set s.tickets p q x

/-- An empty buffer has no header. -/
theorem HoldGood.empty : HoldGood { copies := [], header := none } where
  size := Nat.zero_le _
  header := ⟨fun _ => rfl, fun _ => rfl⟩
  ascending := .nil

/-- The copies of a LATCH are good: one for each index of a run that is neither empty nor longer than 32 (R25). -/
theorem HoldGood.latched {s : State} {first count : Nat} {option : Byte}
    (h : latchArgsGood first count option = true) (header : LatchHeader) :
    HoldGood { copies := copyRun s first count, header := some header } := by
  obtain ⟨-, hpos, hmax, hrun⟩ := (latchArgsGood_iff _ _ _).1 h
  have hlen : (copyRun s first count).length = count := length_copyRun hrun
  refine ⟨hlen.trans_le hmax, ⟨nofun, fun hnil => ?_⟩, ?_⟩
  · rw [show copyRun s first count = [] from hnil, List.length_nil] at hlen
    omega
  · rw [← List.pairwise_map (f := fun c : HoldCopy => entryIndex c.module c.chan) (R := (· < ·)),
      copyRun_indices s first count hrun]
    exact List.pairwise_map.2 (List.pairwise_lt_range.imp fun hlt => Nat.add_lt_add_left hlt first)

namespace KeptAtPorts

variable {P : State → Prop} (h : KeptAtPorts P)

include h

/-- It is kept where neither the tickets nor the ports are written. -/
theorem stands (s t : State) (ht : t.tickets = s.tickets) (hp : t.ports = s.ports) (hs : P s) : P t :=
  h.reads s t ht (fun p => by simp only [State.port, hp]) hs

/-- Device reset cuts the frames off and leaves the hold buffers (R161). -/
theorem deviceReset {s t : State} (ht : execDeviceReset s = .next t) (hs : P s) : P t := by
  unfold execDeviceReset at ht
  split at ht <;> cases ht
  · exact hs
  · exact h.reads s _ rfl (fun p => by cases p <;> rfl) hs

/-- The release of device reset gives the reset state's tickets and hold buffers (R161). -/
theorem release {s t : State} (ht : execResetRelease s = .next t) (hs : P s) : P t := by
  unfold execResetRelease at ht
  split at ht <;> cases ht
  · exact h.reads State.reset _ rfl (fun p => by cases p <;> rfl) h.reset
  · exact hs

/-- Every update of a command keeps it. -/
theorem closed : Closed P where
  raised s _ := h.stands s _ rfl rfl
  sched s _ := h.stands s _ rfl rfl
  limits s _ := h.stands s _ rfl rfl
  reserved s _ := h.stands s _ rfl rfl
  token s _ := h.stands s _ rfl rfl
  chain s _ _ := h.stands s _ rfl rfl
  entries s _ _ _ := h.stands s _ rfl rfl
  renew s _ _ _ _ _ := h.stands s _ rfl rfl
  decided s _ _ _ _ := h.stands s _ (by simp) (by simp)
  balance s _ _ _ := h.stands s _ rfl rfl
  balanceAll s _ _ := h.stands s _ rfl rfl
  balanceClock s _ _ := h.stands s _ rfl rfl
  passChange s _ _ _ _ _ := h.stands s _ (by simp) (by simp)
  passEnd s _ := h.stands s _ (by simp) (by simp)
  passNew s _ _ _ := h.stands s _ (by simp) (by simp)
  strike s _ := h.stands s _ rfl rfl
  tickets := h.tickets
  ticketNew := h.ticketNew
  sweep s _ _ _ _ _ := h.stands s _ rfl rfl
  startSweep s _ := by
    obtain ⟨w, r, x, he, -⟩ := startSweep_eq s
    exact he ▸ h.stands s _ rfl rfl
  endVisit s _ := by
    obtain ⟨w, r, x, he⟩ := endVisit_eq s
    exact he ▸ h.stands s _ rfl rfl
  endAligned s := by
    obtain ⟨w, r, x, he⟩ := endAlignedIfDone_eq s
    exact he ▸ h.stands s _ rfl rfl
  closeMap s reason _ := by
    obtain ⟨c, w, r, x, he, -⟩ := startAfterEnd_closeMap_eq reason s
    exact he ▸ h.stands s _ rfl rfl
  recordModule s _ _ _ := h.stands s _ rfl rfl
  record s _ _ := h.stands s _ rfl rfl
  mapClock s _ _ _ := h.stands s _ rfl rfl
  restart s := h.stands s _ rfl rfl
  orphan s _ _ := h.stands s _ rfl rfl
  send s r o n p _ := by
    obtain ⟨l, he⟩ := sendUnicast_eq r o n p s
    exact he ▸ h.stands s _ rfl rfl
  lane s _ _ _ := h.stands s _ rfl rfl
  statistics s _ _ _ := h.stands s _ rfl rfl
  window s _ _ := h.stands s _ rfl rfl
  resend s _ _ _ _ _ := h.stands s _ rfl rfl
  freeSlot s _ := h.stands s _ rfl rfl
  untag s _ _ _ := h.stands s _ rfl rfl
  badCheck s _ _ _ _ _ _ := h.stands s _ rfl rfl
  timeout s i x _ := by
    obtain ⟨l, he⟩ := timeoutSlot_eq i x s
    exact he ▸ h.stands s _ rfl rfl
  quarantine s _ := h.stands s _ rfl rfl
  portSlot s p f r := h.reads s _ rfl fun q => by
    rw [State.port_setPort]
    split
    · next hq => rw [← hq]
    · rfl
  latch s p _ _ _ header hl := h.hold s p _ (HoldGood.latched hl header)
  clearHold s p _ := h.hold s p _ HoldGood.empty
  store s p _ hs := by
    unfold takeStoring
    split
    · exact hs
    · exact h.stands s _ rfl rfl hs
  pop s _ _ _ := h.stands s _ rfl rfl
  queueReset s _ _ := h.stands s _ rfl rfl
  portSetting s p k v _ _ _ hs := by
    unfold acceptPerPort
    split
    · exact h.stands s _ rfl rfl hs
    · exact h.stands s _ rfl rfl hs
    · exact hs
  settings s _ _ _ _ _ := h.stands s _ rfl rfl
  deviceReset _ _ ht := h.deviceReset ht
  release _ _ ht := h.release ht

/-- So does every step: the queue of commands and link time are not read. -/
theorem step {s t : State} (hs : P s) (ht : step s = .next t) : P t :=
  h.closed.step (fun s _ => h.stands s _ rfl rfl) (fun s _ => h.stands s _ rfl rfl) hs ht

end KeptAtPorts

/-! ## Live tickets (R109) -/

/-- One port's queue is written, and is as R109 has it. -/
theorem TicketInv.write {s : State} (h : TicketInv s) (p : Port) {q : TicketQueue} (hl : q.tickets.length ≤ 4)
    (hn : (q.tickets.map (·.id)).Nodup) : TicketInv (s.setTickets p q) := by
  intro r
  rw [State.ticketQueue_setTickets]
  split
  · exact ⟨hl, hn⟩
  · exact h r

/-- A ticket is issued only where fewer than four are live, under an id that no live ticket has, and every other update
takes tickets away. -/
theorem ticketInv_keptAtPorts : KeptAtPorts TicketInv where
  reads s t ht _ h p := by
    rw [State.ticketQueue, ht]
    exact h p
  reset p := by cases p <;> decide
  hold _ _ _ _ h := h
  tickets s p q hsub h := by
    obtain ⟨hlen, hids⟩ := h p
    exact h.write p (by simpa using hsub.length_le.trans (by simpa using hlen)) (hids.sublist hsub)
  ticketNew s p t hid hroom h := by
    obtain ⟨-, hids⟩ := h p
    refine h.write p (by simpa using hroom) ?_
    have hnew := nextId_not_live _ hroom
    rw [← hid] at hnew
    rw [List.map_append, List.map_singleton, ← List.concat_eq_append]
    exact hids.concat hnew

/-! ## Hold buffers (R25, R171) -/

/-- A port's buffer is written only when a LATCH fills it or a session reset clears it. -/
theorem holdInv_keptAtPorts : KeptAtPorts HoldInv where
  reads s t _ hp h p := by
    rw [hp]
    exact h p
  reset p := by
    cases p with
    | A => exact HoldGood.empty
    | B => exact HoldGood.empty
  hold s p x hx h q := by
    rw [State.port_setPort]
    split
    · exact hx
    · exact h q
  tickets _ _ _ _ h := h
  ticketNew _ _ _ _ _ h := h

end Sys2Proof.Machine

open Sys2Proof Sys2Proof.Machine

/-- Settles O9: each of the two invariants is kept by every update that a command is built from. -/
theorem stepsKeepTicketsAndHoldBuffers : Obligations.StepsKeepTicketsAndHoldBuffers := fun _ _ ht =>
  ⟨fun hs => ticketInv_keptAtPorts.step hs ht, fun hs => holdInv_keptAtPorts.step hs ht⟩
end

