-- ==== Sys2Proof/Proofs/Tickets.lean ====
section
/-! PROOFS. Tickets.lean: DIRECT and CANCEL at the Directed Measurement Unit (R109 to R111, R115). -/

namespace Sys2Proof.Machine

/-! ## Records of passes -/

/-- A pass rewritten leaves everything but the pass records. -/
theorem updatePass_fields (t : Target) (f : Pass → Pass) (s : State) :
    ∃ v a, updatePass t f s = { s with passes := v, aligned := a } := by
  unfold updatePass
  split
  · cases t <;> exact ⟨_, _, rfl⟩
  · exact ⟨_, _, rfl⟩

theorem passOf_updatePass (t u : Target) (f : Pass → Pass) (s : State) :
    (updatePass t f s).passOf u = if t = u then (s.passOf u).map f else s.passOf u := by
  by_cases htu : t = u
  · subst htu
    rw [if_pos rfl]
    unfold updatePass
    cases hp : s.passOf t with
    | none => exact hp
    | some x => exact State.passOf_setPass_same t _ s
  · rw [if_neg htu]
    unfold updatePass
    split
    · exact State.passOf_setPass_other htu _ s
    · rfl

/-- A ticket is struck from every pass record alike (R115, R117). -/
theorem passOf_strikeRefs (gone : TicketRef → Bool) (u : Target) (s : State) :
    (strikeRefs gone s).passOf u = (s.passOf u).map fun x =>
      { x with owner := x.owner.filter fun r => !gone r, joined := x.joined.filter fun r => !gone r } := by
  cases u with
  | one m => exact tget_tmap _ _ m
  | all => rfl

/-- The answer of a block beside what it leaves, where it writes nothing of the ports. -/
theorem answerLater_of_ports {p : Port} {s t : State} (a : Answer) (h : t.ports = (endFrame p s).ports) :
    answerLater p a t
      = { t with ports := s.ports.set p { s.port p with frame := .idle, slot := waitsFor a } } := by
  have hp : t.port p = { s.port p with frame := .idle } := by simp [State.port, h, endFrame]
  unfold answerLater
  rw [hp]
  simp only [State.setPort, h, endFrame, PerPort.set_set, waitsFor]

/-! ## DIRECT (R109 to R111) -/

/-- The ticket that a DIRECT issues: under the next free id, JOINED to the pass that covers it or QUEUED. -/
def newTicket (p : Port) (m : Mod) (w : What) (s : State) : Ticket :=
  { id := nextId (s.ticketQueue p), module := m, what := w,
    state := match s.joinable m w with
      | some u => .joined u
      | none => .queued }

/-- The new ticket stands as the newest of its port. -/
def withTicket (p : Port) (m : Mod) (w : What) (s : State) : State :=
  s.setTickets p { tickets := (s.ticketQueue p).tickets ++ [newTicket p m w s], lastId := nextId (s.ticketQueue p) }

/-- A pass with one more joined ticket. -/
def joinTicket (r : TicketRef) (x : Pass) : Pass := { x with joined := x.joined ++ [r] }

theorem placeTicket_queued {p : Port} {m : Mod} {w : What} {s : State} (h : s.joinable m w = none) :
    placeTicket p m w s = withTicket p m w s := by
  simp only [placeTicket, withTicket, newTicket, h]

theorem placeTicket_joined {p : Port} {m : Mod} {w : What} {s : State} {u : Target} (h : s.joinable m w = some u) :
    placeTicket p m w s
      = updatePass u (joinTicket { port := p, id := nextId (s.ticketQueue p) }) (withTicket p m w s) := by
  simp only [placeTicket, withTicket, newTicket, h]
  rfl

/-- Placing a ticket writes the port's queue and the pass records alone. -/
theorem placeTicket_fields (p : Port) (m : Mod) (w : What) (s : State) :
    ∃ v a, placeTicket p m w s = { withTicket p m w s with passes := v, aligned := a } := by
  cases hj : s.joinable m w with
  | none => exact ⟨_, _, placeTicket_queued hj⟩
  | some u =>
    rw [placeTicket_joined hj]
    exact updatePass_fields _ _ _

theorem passOf_withTicket (p : Port) (m : Mod) (w : What) (u : Target) (s : State) :
    (withTicket p m w s).passOf u = s.passOf u := by cases u <;> rfl

/-- The ticket joins the pass that covers it, and no other record changes. -/
theorem passOf_placeTicket (p : Port) (m : Mod) (w : What) (u : Target) (s : State) :
    (placeTicket p m w s).passOf u = if s.joinable m w = some u
      then (s.passOf u).map (joinTicket { port := p, id := nextId (s.ticketQueue p) })
      else s.passOf u := by
  cases hj : s.joinable m w with
  | none => rw [placeTicket_queued hj, passOf_withTicket, if_neg nofun]
  | some v =>
    rw [placeTicket_joined hj, passOf_updatePass, passOf_withTicket]
    simp only [Option.some.injEq]

theorem exec_direct (p : Port) (n b : Byte) (fill : List Byte) {s : State} (h : s.frameEnding p = true) :
    exec (.direct p (goodRest 0x30 [n, b] fill)) s = .next (takeDirect p n.toNat (whatOf b) (endFrame p s)) := by
  change Host.Outcome.next (takeFrame p 0x30 (goodRest 0x30 [n, b] fill) _ s) = _
  rw [takeFrame_request p 0x30 [n, b] fill _ h rfl]
  rfl

/-- No refusal of R110 applies. -/
theorem directRefusal_none {p : Port} {n : Nat} {m : Mod} {w : What} {s : State} (hm : modOfNumber n = some m)
    (hn : n ≤ s.map.n) (he : s.map.state ≠ .enumerating) (hl : (s.ticketQueue p).tickets.length < 4) :
    directRefusal s p n (some w) = none := by
  have hpos : n ≠ 0 := by
    rw [← modNumber_of_modOfNumber hm]
    exact Nat.succ_ne_zero _
  unfold directRefusal
  rw [if_neg (by simp), if_neg he, if_neg (by omega), if_neg (Nat.not_le.2 hl)]

theorem takeDirect_accepted {p : Port} {n : Nat} {m : Mod} {w : What} {s : State}
    (hr : directRefusal s p n (some w) = none) (hm : modOfNumber n = some m) :
    takeDirect p n (some w) s
      = answerLater p (okAnswer 0x30 [nextId (s.ticketQueue p), if (s.joinable m w).isSome then 2 else 1])
          (placeTicket p m w s) := by
  unfold takeDirect
  rw [hr, hm]

/-! ## CANCEL (R115) -/

section Cancel

variable {p : Port} {id : BitVec 8} {k : Ticket} {s : State}

theorem exec_cancel (fill : List Byte) (h : s.frameEnding p = true) :
    exec (.cancel p (goodRest 0x31 [id] fill)) s = .next (takeCancel p id (endFrame p s)) := by
  change Host.Outcome.next (takeFrame p 0x31 (goodRest 0x31 [id] fill) _ s) = _
  rw [takeFrame_request p 0x31 [id] fill _ h rfl]
  rfl

theorem takeCancel_unknown (h : ∀ k ∈ (s.ticketQueue p).tickets, k.id ≠ id) :
    takeCancel p id s = answerLater p (refusal .noTicket 0x31) s := by
  have hf : (s.ticketQueue p).tickets.find? (fun k => k.id = id) = none := by simpa using h
  unfold takeCancel
  rw [hf]

theorem takeCancel_running {u : Target} (hf : (s.ticketQueue p).tickets.find? (fun k => k.id = id) = some k)
    (hk : k.state = .running u) : takeCancel p id s = answerLater p (refusal .tooLate 0x31) s := by
  unfold takeCancel
  rw [hf]
  simp only [hk]

theorem takeCancel_queued (hf : (s.ticketQueue p).tickets.find? (fun k => k.id = id) = some k)
    (hk : k.state = .queued) : takeCancel p id s = answerLater p (okAnswer 0x31 [1]) (removeTicket p id s) := by
  unfold takeCancel
  rw [hf]
  simp only [hk]

theorem takeCancel_joined {u : Target} (hf : (s.ticketQueue p).tickets.find? (fun k => k.id = id) = some k)
    (hk : k.state = .joined u) : takeCancel p id s = answerLater p (okAnswer 0x31 [1])
      (strikeRefs (fun r => r.port = p && r.id = id) (removeTicket p id s)) := by
  unfold takeCancel
  rw [hf]
  simp only [hk]

end Cancel

end Sys2Proof.Machine

open Sys2Proof Sys2Proof.Machine

/-- Settles O26: the new ticket and the pass it joins are the writes of `placeTicket`, under the id that `nextId` finds. -/
theorem directIssuesATicket : Obligations.DirectIssuesATicket := by
  intro p n b w m fill s h hb hm hn he hl
  have hr : directRefusal (endFrame p s) p n.toNat (some w) = none := directRefusal_none hm hn he hl
  obtain ⟨v, a, hplace⟩ := placeTicket_fields p m w (endFrame p s)
  refine ⟨nextId (s.ticketQueue p), _, exec_direct p n b fill h, nextId_not_live _ hl, nextId_first _ hl, ?_, ?_⟩
  all_goals rw [hb, takeDirect_accepted hr hm]
  · rw [answerLater_of_ports _ (s := s) (by rw [hplace]; rfl), hplace]
    rfl
  · intro u
    refine Eq.trans ?_ (passOf_placeTicket p m w u (endFrame p s))
    cases u <;> rfl

/-- Settles O27: by the ticket that CANCEL finds under the id, and its state. -/
theorem cancelRemovesATicket : Obligations.CancelRemovesATicket := by
  intro p id fill s h
  rw [exec_cancel fill h]
  refine ⟨fun hno => ?_, fun k hf => ⟨fun u hk => ?_, fun hk => ?_⟩⟩
  · rw [takeCancel_unknown (s := endFrame p s) hno, answerLater_endFrame]
    rfl
  · rw [takeCancel_running (s := endFrame p s) hf hk, answerLater_endFrame]
    rfl
  · refine ⟨_, rfl, ?_⟩
    obtain hk | ⟨v, hk⟩ := hk
    · rw [takeCancel_queued (s := endFrame p s) hf hk, answerLater_of_ports (s := s) _ (by rfl)]
      refine ⟨rfl, fun u => ?_⟩
      rw [if_pos hk]
      cases u <;> rfl
    · rw [takeCancel_joined (s := endFrame p s) hf hk, answerLater_of_ports (s := s) _ (by rfl)]
      refine ⟨rfl, fun u => ?_⟩
      rw [if_neg (by simp [hk])]
      refine Eq.trans ?_ (passOf_strikeRefs (fun r => r.port = p && r.id = id) u s)
      cases u <;> rfl
end

