-- ==== Sys2Proof/Proofs/Refusals.lean ====
section
/-! PROOFS. Refusals.lean: the refusals of DIRECT, BALANCE and SET (R110, R148, R203). -/

namespace Sys2Proof.Machine

/-! ## DIRECT (R110) -/

theorem bits_toNat_eq_zero {w : Nat} {x : BitVec w} : x.toNat = 0 ↔ x = 0 := BitVec.toNat_inj (y := 0#w)

/-- The first refusal of R110 that applies. -/
theorem directRefusal_eq_some {p : Port} {n : Byte} {w : Option What} {st : Status} {s : State}
    (h : w = none ∧ st = .badArgument
      ∨ w.isSome ∧ s.map.state = .enumerating ∧ st = .restarting
      ∨ w.isSome ∧ s.map.state ≠ .enumerating ∧ (n = 0 ∨ s.map.n < n.toNat) ∧ st = .noModule
      ∨ w.isSome ∧ s.map.state ≠ .enumerating ∧ n ≠ 0 ∧ n.toNat ≤ s.map.n
        ∧ 4 ≤ (s.ticketQueue p).tickets.length ∧ st = .queueFull) :
    directRefusal s p n.toNat w = some st := by
  have present (hw : w.isSome) : ¬w.isNone = true := by simpa [Option.isSome_iff_ne_none] using hw
  unfold directRefusal
  simp only [bits_toNat_eq_zero]
  obtain ⟨rfl, rfl⟩ | ⟨hw, he, rfl⟩ | ⟨hw, he, hn, rfl⟩ | ⟨hw, he, hn, hle, hfull, rfl⟩ := h
  · rfl
  · rw [if_neg (present hw), if_pos he]
  · rw [if_neg (present hw), if_neg he, if_pos hn]
  · rw [if_neg (present hw), if_neg he, if_neg (not_or.2 ⟨hn, Nat.not_lt.2 hle⟩), if_pos hfull]

theorem takeDirect_refused {p : Port} {n : Nat} {w : Option What} {st : Status} {s : State}
    (h : directRefusal s p n w = some st) : takeDirect p n w s = answerLater p (refusal st 0x30) s := by
  unfold takeDirect
  rw [h]

/-! ## BALANCE (R148) -/

section Balance

variable {p : Port} {n : Byte} {mask : CellMask} {seconds : Nat} {s : State}

theorem exec_balance (p : Port) (n mh ml sh sl : Byte) (fill : List Byte) {s : State} (h : s.frameEnding p = true) :
    exec (.balance p (goodRest 0x40 [n, mh, ml, sh, sl] fill)) s
      = .next (takeBalance p n.toNat (mh ++ ml) (sh ++ sl).toNat (endFrame p s)) := by
  change Host.Outcome.next (takeFrame p 0x40 (goodRest 0x40 [n, mh, ml, sh, sl] fill) _ s) = _
  rw [takeFrame_request p 0x40 [n, mh, ml, sh, sl] fill _ h rfl]
  rfl

/-- The seconds or the mask of a BALANCE are out of range. -/
abbrev BadBalance (mask : CellMask) (seconds : Nat) : Prop := seconds = 0 ∨ 3600 < seconds ∨ mask = 0

theorem takeBalance_badArgument (h : BadBalance mask seconds) :
    takeBalance p n.toNat mask seconds s = answerLater p (refusal .badArgument 0x40) s := if_pos h

theorem takeBalance_restarting (h : ¬BadBalance mask seconds) (he : s.map.state = .enumerating) :
    takeBalance p n.toNat mask seconds s = answerLater p (refusal .restarting 0x40) s := by
  unfold takeBalance
  rw [if_neg h, if_pos he]

/-- No module has this number. -/
theorem modOfNumber_none {n : Nat} (h : n = 0 ∨ 12 < n) : modOfNumber n = none := dif_neg (by omega)

theorem takeBalance_noModule (h : ¬BadBalance mask seconds) (he : s.map.state ≠ .enumerating)
    (hn : n = 0 ∨ 12 < n.toNat ∨ s.map.n < n.toNat) :
    takeBalance p n.toNat mask seconds s = answerLater p (refusal .noModule 0x40) s := by
  unfold takeBalance
  rw [if_neg h, if_neg he]
  by_cases hbeyond : s.map.n < n.toNat
  · rw [if_pos hbeyond]
  · rw [← bits_toNat_eq_zero] at hn
    rw [if_neg hbeyond, modOfNumber_none (by omega)]

/-- The mask names an UNPOPULATED cell. -/
theorem namesUnpopulated_of_cell {m : Mod} {c : Fin 16} (hc : inMask mask c = true)
    (hp : populated (tget (s.moduleImage m).cell c) = false) : namesUnpopulated s m mask = true := by
  have hin : inMask (mask &&& unpopulatedMask (s.moduleImage m)) c = true := by
    have hun : inMask (unpopulatedMask (s.moduleImage m)) c = true := by simp [unpopulatedMask, hp]
    unfold inMask at hc hun ⊢
    rw [BitVec.getLsbD_and, hc, hun, Bool.and_self]
  unfold namesUnpopulated
  rw [bne_iff_ne]
  intro hzero
  rw [hzero] at hin
  simp [inMask] at hin

theorem takeBalance_unpopulated {m : Mod} {c : Fin 16} (h : ¬BadBalance mask seconds)
    (he : s.map.state ≠ .enumerating) (hn : n.toNat ≤ s.map.n) (hm : modOfNumber n.toNat = some m)
    (hc : inMask mask c = true) (hp : populated (tget (s.moduleImage m).cell c) = false) :
    takeBalance p n.toNat mask seconds s = answerLater p (refusal .badArgument 0x40) s := by
  unfold takeBalance
  rw [if_neg h, if_neg he, if_neg (Nat.not_lt.2 hn), hm]
  exact if_pos (namesUnpopulated_of_cell hc hp)

end Balance

/-! ## SET (R203) -/

section Set

variable {p : Port} {code index : Byte} {k : SettingId} {v : Int} {s : State}

theorem exec_set (p : Port) (code index b0 b1 b2 b3 : Byte) (fill : List Byte) {s : State} (h : s.frameEnding p = true) :
    exec (.set p (goodRest 0x62 [code, index, b0, b1, b2, b3] fill)) s
      = .next (takeSet p code index ((b0 ++ b1) ++ (b2 ++ b3)).toInt (endFrame p s)) := by
  change Host.Outcome.next (takeFrame p 0x62 (goodRest 0x62 [code, index, b0, b1, b2, b3] fill) _ s) = _
  rw [takeFrame_request p 0x62 [code, index, b0, b1, b2, b3] fill _ h rfl]
  rfl

theorem takeSet_noSetting (h : settingOf code = none) :
    takeSet p code index v s = answerLater p (refusal .badArgument 0x62) s := by
  unfold takeSet
  rw [h]

theorem takeSet_badValue (hk : settingOf code = some k)
    (hbad : (setIndexGood k index.toNat && settingInRange k v) = false) :
    takeSet p code index v s = answerLater p (refusal .badArgument 0x62) s := by
  unfold takeSet
  rw [hk]
  exact if_pos (by rw [← Bool.not_and, hbad]; rfl)

theorem perPort_eq_false (h : k ∉ [.subscribe, .alertMask]) : perPort k = false := by
  cases k with
  | subscribe => simp at h
  | alertMask => simp at h
  | _ => rfl

theorem takeSet_noToken (hk : settingOf code = some k) (hi : setIndexGood k index.toNat = true)
    (hr : settingInRange k v = true) (hp : perPort k = false) (ht : ∀ l d, s.token ≠ .held p l d) :
    takeSet p code index v s = answerLater p (refusal .noToken 0x62) s := by
  have hholds : s.holds p = false := by
    rw [← Bool.not_eq_true, holds_iff]
    rintro ⟨l, d, hh⟩
    exact ht l d hh
  unfold takeSet
  rw [hk]
  simp only [hi, hr, hp, hholds, Bool.not_true, Bool.or_self, Bool.false_eq_true, if_false, Bool.not_false, if_true]

end Set

/-- A refusal that its block makes leaves the slot waiting for it, and nothing else changed (R165). -/
theorem refused_endFrame {p : Port} {code : Byte} {st : Status} {s t : State}
    (h : t = answerLater p (refusal st code) (endFrame p s)) :
    Host.Outcome.next t = (Host.Outcome.next
      (s.answered p (waitsFor { status := st, echo := code, payload := [] })) : Result) := by
  rw [h, answerLater_endFrame]
  rfl

end Sys2Proof.Machine

open Sys2Proof Sys2Proof.Machine

/-- Settles O41: each refusal is one branch of its block's meaning, reached in the order of R110, R148 and R203. -/
theorem refusalsChangeOnlyTheSlot : Obligations.RefusalsChangeOnlyTheSlot := by
  intro p fill st s h
  refine ⟨fun n b hr => ?_, ?_, fun code index b0 b1 b2 b3 hr => ?_⟩
  · rw [exec_direct p n b fill h]
    exact refused_endFrame (takeDirect_refused (directRefusal_eq_some hr))
  · intro n mh ml sh sl bad hr
    have hbad : bad ↔ BadBalance (mh ++ ml) (sh ++ sl).toNat :=
      or_congr_right (or_congr_right bits_toNat_eq_zero)
    rw [exec_balance p n mh ml sh sl fill h]
    apply refused_endFrame
    obtain ⟨hb, rfl⟩ | ⟨hb, he, rfl⟩ | ⟨hb, he, hn, rfl⟩ | ⟨hb, he, hn, rfl, m, c, hm, hc, hp⟩ := hr
    · exact takeBalance_badArgument (hbad.1 hb)
    · exact takeBalance_restarting (hbad.not.1 hb) he
    · exact takeBalance_noModule (hbad.not.1 hb) he hn
    · exact takeBalance_unpopulated (hbad.not.1 hb) he hn hm hc hp
  · rw [exec_set p code index b0 b1 b2 b3 fill h]
    apply refused_endFrame
    obtain ⟨hk, rfl⟩ | ⟨k, hk, ⟨hb, rfl⟩ | ⟨hi, hv, hp, ht, rfl⟩⟩ := hr
    · exact takeSet_noSetting hk
    · exact takeSet_badValue hk hb
    · exact takeSet_noToken hk hi hv (perPort_eq_false hp) ht
end

