-- ==== Sys2Proof/Proofs/Judgements.lean ====
section
/-! PROOFS. Judgements.lean: what the Limit Checker makes of one sample (R120 to R124). -/

namespace Sys2Proof.Machine

/-! ## Kinds, thresholds and hystereses (R120) -/

/-- The HIGH kind of a class with its threshold and its hysteresis. -/
def highSide (st : Settings) : Chan → Option (LimitKind × Int × Int)
  | .cell _ => some (.ov, st.cellOv, st.hystCell)
  | .temp _ => some (.th, st.tempHigh, st.hystTemp)
  | .die => some (.dh, st.dieHigh, st.hystTemp)
  | .block => none

/-- The LOW kind of a class with its threshold and its hysteresis. -/
def lowSide (st : Settings) : Chan → Option (LimitKind × Int × Int)
  | .cell _ => some (.uv, st.cellUv, st.hystCell)
  | .temp _ => some (.tl, st.tempLow, st.hystTemp)
  | .die => none
  | .block => none

section Judged

variable {st : Settings} {ch : Chan} {v : Int} {e : Entry} {k : LimitKind} {top bottom h : Int}

theorem highSide_some (hs : highSide st ch = some (k, top, h)) (v : Int) :
    highKind ch = some k ∧ farSide st k v = decide (top < v) ∧ clearing st k v = decide (v ≤ top - h) := by
  cases ch with
  | cell c => cases hs; exact ⟨rfl, rfl, rfl⟩
  | temp c => cases hs; exact ⟨rfl, rfl, rfl⟩
  | die => cases hs; exact ⟨rfl, rfl, rfl⟩
  | block => cases hs

theorem lowSide_some (hs : lowSide st ch = some (k, bottom, h)) (v : Int) :
    lowKind ch = some k ∧ farSide st k v = decide (v < bottom) ∧ clearing st k v = decide (bottom + h ≤ v) := by
  cases ch with
  | cell c => cases hs; exact ⟨rfl, rfl, rfl⟩
  | temp c => cases hs; exact ⟨rfl, rfl, rfl⟩
  | die => cases hs
  | block => cases hs

theorem highSide_of_highKind (hk : highKind ch = some k) : ∃ top h, highSide st ch = some (k, top, h) := by
  cases ch with
  | cell c => cases hk; exact ⟨_, _, rfl⟩
  | temp c => cases hk; exact ⟨_, _, rfl⟩
  | die => cases hk; exact ⟨_, _, rfl⟩
  | block => cases hk

theorem lowSide_of_lowKind (hk : lowKind ch = some k) : ∃ bottom h, lowSide st ch = some (k, bottom, h) := by
  cases ch with
  | cell c => cases hk; exact ⟨_, _, rfl⟩
  | temp c => cases hk; exact ⟨_, _, rfl⟩
  | die => cases hk
  | block => cases hk

theorem ne_block_of_highSide (hs : highSide st ch = some (k, top, h)) : ch ≠ .block := by
  rintro rfl
  cases hs

theorem ne_block_of_lowSide (hs : lowSide st ch = some (k, bottom, h)) : ch ≠ .block := by
  rintro rfl
  cases hs

/-! ## The far side of a sample (R122) -/

/-- The class's HIGH kind does not count a sample at its threshold or below. -/
theorem highFar_none (hv : ∀ k top h, highSide st ch = some (k, top, h) → v ≤ top) :
    ((highKind ch).filter fun k => farSide st k v) = none := by
  rw [Option.filter_eq_none_iff]
  intro k hk
  obtain ⟨top, h, hs⟩ := highSide_of_highKind (st := st) hk
  obtain ⟨-, hfar, -⟩ := highSide_some hs v
  rw [hfar, decide_eq_true_eq]
  exact not_lt.2 (hv k top h hs)

/-- The class's LOW kind does not count a sample at its threshold or above. -/
theorem lowFar_none (hv : ∀ k bottom h, lowSide st ch = some (k, bottom, h) → bottom ≤ v) :
    ((lowKind ch).filter fun k => farSide st k v) = none := by
  rw [Option.filter_eq_none_iff]
  intro k hk
  obtain ⟨bottom, h, hs⟩ := lowSide_of_lowKind (st := st) hk
  obtain ⟨-, hfar, -⟩ := lowSide_some hs v
  rw [hfar, decide_eq_true_eq]
  exact not_lt.2 (hv k bottom h hs)

/-- Past the HIGH threshold the HIGH side counts, whatever the LOW threshold is. -/
theorem sideOf_high (hs : highSide st ch = some (k, top, h)) (hv : top < v) :
    sideOf st ch v = some (k, .high, .high) := by
  obtain ⟨hk, hfar, -⟩ := highSide_some hs v
  unfold sideOf
  rw [hk, Option.filter_some_pos (by rw [hfar, decide_eq_true hv])]

theorem sideOf_low (hh : ∀ k top h, highSide st ch = some (k, top, h) → v ≤ top)
    (hs : lowSide st ch = some (k, bottom, h)) (hv : v < bottom) : sideOf st ch v = some (k, .low, .low) := by
  obtain ⟨hk, hfar, -⟩ := lowSide_some hs v
  unfold sideOf
  rw [highFar_none hh, hk, Option.filter_some_pos (by rw [hfar, decide_eq_true hv])]
  rfl

theorem sideOf_none (hh : ∀ k top h, highSide st ch = some (k, top, h) → v ≤ top)
    (hl : ∀ k bottom h, lowSide st ch = some (k, bottom, h) → bottom ≤ v) : sideOf st ch v = none := by
  unfold sideOf
  rw [highFar_none hh, lowFar_none hl]
  rfl

/-! ## The judgement by the entry's limit state (R121 to R124) -/

theorem judge_block (st : Settings) (v : Int) (e : Entry) : judge st .block v e = { entry := e, event := none } :=
  if_pos rfl

theorem judge_within (hb : ch ≠ .block) (hw : e.limit = .within) : judge st ch v e = judgeWithin st ch v e := by
  unfold judge
  rw [if_neg hb, hw]

theorem judge_high (hs : highSide st ch = some (k, top, h)) (hl : e.limit = .high) :
    judge st ch v e = judgeOutside st k v e := by
  obtain ⟨hk, -, -⟩ := highSide_some hs v
  unfold judge
  rw [if_neg (ne_block_of_highSide hs), hl, hk]

theorem judge_low (hs : lowSide st ch = some (k, bottom, h)) (hl : e.limit = .low) :
    judge st ch v e = judgeOutside st k v e := by
  obtain ⟨hk, -, -⟩ := lowSide_some hs v
  unfold judge
  rw [if_neg (ne_block_of_lowSide hs), hl, hk]

/-- A counted sample crosses under STREAK_BYPASS, or when its streak reaches STREAK_LIMIT (R122, R123). -/
theorem countFar_eq (st : Settings) (k : LimitKind) (l : LimitState) (d : StreakSide) (e : Entry) :
    countFar st k l d e =
      let n := if e.side = d then e.streak + 1 else 1
      if bypassed st k = true ∨ st.streakLimit ≤ n
      then { entry := { e with limit := l, streak := 0, side := .none }, event := some (.limitCrossed, k) }
      else { entry := { e with streak := n, side := d }, event := none } :=
  if_congr (by rw [Bool.or_eq_true, decide_eq_true_eq]) rfl rfl

theorem judgeWithin_some {l : LimitState} {d : StreakSide} (hs : sideOf st ch v = some (k, l, d)) :
    judgeWithin st ch v e = countFar st k l d e := by
  unfold judgeWithin
  rw [hs]

theorem judgeWithin_none (hs : sideOf st ch v = none) :
    judgeWithin st ch v e = { entry := { e with streak := 0, side := .none }, event := none } := by
  unfold judgeWithin
  rw [hs]

/-- A sample back by the hysteresis is the one that `clearing` counts (R124). -/
theorem judgeOutside_eq {p : Prop} [Decidable p] (hc : clearing st k v = decide p) :
    judgeOutside st k v e = if p then
        if st.streakLimit ≤ e.streak + 1
        then { entry := { e with limit := .within, streak := 0, side := .none }, event := some (.limitCleared, k) }
        else { entry := { e with streak := e.streak + 1 }, event := none }
      else { entry := { e with streak := 0 }, event := none } :=
  if_congr (by rw [hc, decide_eq_true_eq]) rfl rfl

end Judged

end Sys2Proof.Machine

open Sys2Proof Sys2Proof.Machine

/-- Settles O59: the entry's limit state gives the branch, and the class's thresholds the side. -/
theorem judgementCountsStreaks : Obligations.JudgementCountsStreaks := by
  intro st ch v e
  refine ⟨?block, fun hw k top h hs hv => ?high, fun hw hh k bottom h hs hv => ?low, fun hb hw hh hl => ?neither,
    fun hl k top h hs => ?inHigh, fun hl k bottom h hs => ?inLow⟩
  case block =>
    rintro rfl
    exact judge_block st v e
  case high =>
    have hb : ch ≠ .block := ne_block_of_highSide (st := st) hs
    rw [judge_within hb hw, judgeWithin_some (sideOf_high hs hv), countFar_eq]
    rfl
  case low =>
    have hb : ch ≠ .block := ne_block_of_lowSide (st := st) hs
    rw [judge_within hb hw, judgeWithin_some (sideOf_low hh hs hv), countFar_eq]
    rfl
  case neither => rw [judge_within hb hw, judgeWithin_none (sideOf_none hh hl)]
  case inHigh =>
    obtain ⟨-, -, hclear⟩ := highSide_some hs v
    rw [judge_high hs hl, judgeOutside_eq hclear]
  case inLow =>
    obtain ⟨-, -, hclear⟩ := lowSide_some hs v
    rw [judge_low hs hl, judgeOutside_eq hclear]
end

