-- ==== Sys2Proof/Proofs/LimitEvents.lean ====
section
/-! PROOFS. LimitEvents.lean: the two events of the Limit Checker, with their records and their hand-offs (R121, R125,
R129 to R131). -/

namespace Sys2Proof.Machine

/-- Records to both ports write nothing but what waits to be stored (R187). -/
theorem raiseBoth_stored (es : List Event) (s : State) :
    ∃ r, raiseBoth es s = { s with raised := r } ∧ ∀ q, r.get q = s.raised.get q ++ storing es := by
  obtain ⟨r, hr⟩ := raiseBoth_eq es s
  have hstored := raiseBoth_storing es s
  rw [hr] at hstored
  exact ⟨r, hr, hstored⟩

section Events

variable {m : Mod} {rest : List LimitWork} {s : State}

/-- The list without its oldest member (R121). -/
theorem dropWork_eq {w : LimitWork} (hw : s.limits.work = w :: rest) :
    dropWork s = { s with limits := { s.limits with work := rest } } := by
  unfold dropWork
  rw [hw, List.tail_cons]

/-! ## RECEIPT_EVENT (R121, R125) -/

theorem exec_receiptEvent {n : BitVec 32} {xs : List (Chan × Int)} (hr : s.inReset = false)
    (hw : s.limits.work = .receipt m n xs :: rest) :
    exec .receiptEvent s = .next (takeReceipt m xs { s with limits := { s.limits with work := rest } }) := by
  refine congrArg _ ((awake_eq hr _).trans ?_)
  rw [← dropWork_eq hw, hw]

/-- No limit state of the module differs. -/
theorem limitsKept_iff (before after : ModuleImage) :
    (chansWhere (fun _ b a => b.limit != a.limit) before after).isEmpty = true
      ↔ ¬∃ ch ∈ allChans, (chanEntry after ch).limit ≠ (chanEntry before ch).limit := by
  simp only [List.isEmpty_iff, List.eq_nil_iff_forall_not_mem, mem_chansWhere, bne_iff_ne, not_exists, not_and,
    mem_allChans, forall_const, ne_comm]

/-- A receipt writes its module's entries, its records and its hand-off, and nothing else. -/
theorem takeReceipt_eq (m : Mod) (xs : List (Chan × Int)) (s : State) :
    let after := mapEntries (judgeEntry s.settings xs) (s.moduleImage m)
    ∃ r, takeReceipt m xs s = { s.setModuleImage m after with
        raised := r
        balance := { s.balance with handoffs := s.balance.handoffs ++
          if ∃ ch ∈ allChans, (chanEntry ((s.setModuleImage m after).moduleImage m) ch).limit
            ≠ (chanEntry (s.moduleImage m) ch).limit then [m] else [] } }
      ∧ ∀ q, r.get q = s.raised.get q ++ storing (receiptEvents s.timebase s.settings m xs (s.moduleImage m)) := by
  intro after
  obtain ⟨r, hr, hstored⟩ :=
    raiseBoth_stored (receiptEvents s.timebase s.settings m xs (s.moduleImage m)) (s.setModuleImage m after)
  refine ⟨r, ?_, hstored⟩
  unfold takeReceipt
  dsimp only
  rw [hr, State.moduleImage_setModuleImage, if_pos rfl]
  by_cases hc : ∃ ch ∈ allChans, (chanEntry after ch).limit ≠ (chanEntry (s.moduleImage m) ch).limit
  · rw [if_neg (mt (limitsKept_iff _ _).1 (not_not.2 hc)), if_pos hc]
    rfl
  · rw [if_pos ((limitsKept_iff _ _).2 hc), if_neg hc, List.append_nil]
    rfl

/-! ## SUM_CHECK_EVENT (R129 to R131) -/

theorem exec_sumCheckEvent {c a : BitVec 32} (hr : s.inReset = false)
    (hw : s.limits.work = .sumCheck m c a :: rest) :
    exec .sumCheckEvent s = .next (takeSumCheck m c a { s with limits := { s.limits with work := rest } }) := by
  refine congrArg _ ((awake_eq hr _).trans ?_)
  rw [← dropWork_eq hw, hw]

/-- The sum state that a sum check leaves: judged where the check is made, and standing where it is void. -/
def sumStateAfter (m : Mod) (c a : BitVec 32) (s : State) : SumState :=
  if sumCheckMade (s.moduleImage m) c a = true
  then (if s.settings.sumTolerance < (sumDifference (s.moduleImage m)).natAbs then .mismatch else .clear)
  else tget s.limits.sums m

/-- The record of a changed sum state (R131). -/
def sumRecord (m : Mod) (after : SumState) (s : State) : Event :=
  { kind := if after = .mismatch then .sumMismatch else .sumCleared, time := s.timebase, module := some m,
    value := some (sumDifference (s.moduleImage m)) }

/-- A sum check that leaves the sum state changes nothing. -/
theorem takeSumCheck_kept {c a : BitVec 32} (h : sumStateAfter m c a s = tget s.limits.sums m) :
    takeSumCheck m c a s = s := by
  unfold sumStateAfter at h
  unfold takeSumCheck
  by_cases hm : sumCheckMade (s.moduleImage m) c a = true
  · rw [if_pos hm] at h
    dsimp only
    rw [if_pos hm, if_pos h.symm]
  · exact if_neg hm

/-- A sum check that changes the sum state writes it, raises its record and hands the module on. -/
theorem takeSumCheck_changed {c a : BitVec 32} (h : sumStateAfter m c a s ≠ tget s.limits.sums m) :
    takeSumCheck m c a s = handOff m { raiseBoth [sumRecord m (sumStateAfter m c a s) s] s with
      limits := { s.limits with sums := tput s.limits.sums m (sumStateAfter m c a s) } } := by
  have hm : sumCheckMade (s.moduleImage m) c a = true := by
    by_contra hm
    exact h (if_neg hm)
  have hafter : sumStateAfter m c a s
      = if s.settings.sumTolerance < (sumDifference (s.moduleImage m)).natAbs then .mismatch else .clear := if_pos hm
  rw [hafter] at h ⊢
  unfold takeSumCheck
  dsimp only
  rw [if_pos hm, if_neg h.symm, raiseBoth_limits]
  rfl

/-- A sum check writes its module's sum state, and a change of it brings its record and its hand-off. -/
theorem takeSumCheck_eq (m : Mod) (c a : BitVec 32) (s : State) :
    let after := sumStateAfter m c a s
    ∃ r, takeSumCheck m c a s = { s with
        limits := { s.limits with sums := tput s.limits.sums m after }
        raised := r
        balance := { s.balance with
          handoffs := s.balance.handoffs ++ if after = tget s.limits.sums m then [] else [m] } }
      ∧ ∀ q, r.get q = s.raised.get q
          ++ storing (if after = tget s.limits.sums m then [] else [sumRecord m after s]) := by
  intro after
  by_cases h : after = tget s.limits.sums m
  · refine ⟨s.raised, ?_, fun q => ?_⟩
    · rw [takeSumCheck_kept h, if_pos h, List.append_nil, h, tput_tget]
    · rw [if_pos h, storing_nil, List.append_nil]
  · obtain ⟨r, hr, hstored⟩ := raiseBoth_stored [sumRecord m after s] s
    refine ⟨r, ?_, fun q => ?_⟩
    · rw [takeSumCheck_changed h, hr, if_neg h]
      rfl
    · rw [if_neg h, hstored]

end Events

end Sys2Proof.Machine

open Sys2Proof Sys2Proof.Machine

/-- Settles O60: each event is its own operation on the list without its oldest member, and the operation's equation
gives every field. -/
theorem limitEventsTakeTheOldest : Obligations.LimitEventsTakeTheOldest := by
  intro m rest s hr
  refine ⟨fun n xs hw => ?receipt, fun c a hw => ?sumCheck⟩
  case receipt =>
    obtain ⟨r, ht, hstored⟩ := takeReceipt_eq m xs { s with limits := { s.limits with work := rest } }
    refine ⟨_, exec_receiptEvent hr hw, ?_⟩
    rw [ht]
    refine ⟨rfl, fun k ch => ?_, fun q => ?_, rfl⟩
    · exact (chanEntry_setModuleImage m k (judgeEntry s.settings xs) ch s).trans (if_congr eq_comm rfl rfl)
    · have hevents := receiptEvents_eq s.timebase s.settings m xs (s.moduleImage m)
      exact (hstored q).trans (congrArg (fun es => s.raised.get q ++ storing es) hevents)
  case sumCheck =>
    obtain ⟨r, ht, hstored⟩ := takeSumCheck_eq m c a { s with limits := { s.limits with work := rest } }
    refine ⟨_, exec_sumCheckEvent hr hw, ?_⟩
    rw [ht]
    refine ⟨rfl, fun k hk => ?_, tget_tput_same _ _ _, fun q => ?_, ?_⟩
    · dsimp only
      rw [tget_tput, if_neg hk.symm]
    · dsimp only
      rw [tget_tput_same]
      exact hstored q
    · dsimp only
      rw [tget_tput_same]
end

