-- ==== Sys2Proof/Proofs/Decisions.lean ====
section
/-! PROOFS. Decisions.lean: what a decision of the Balance Controller writes, its ranking and its choice (R138 to R141). -/

namespace Sys2Proof.Machine

/-! ## What a decision writes (R141) -/

/-- A decision writes the balance states of the cells and nothing else of their records. -/
theorem decideModule_cell (i : DecisionInput) (mi : ModuleImage) (b : BalanceModule) (c : Fin 16) :
    tget (decideModule i mi b).cells c = { tget b.cells c with state := decideCell i mi b c } := by
  simp [decideModule]

theorem decideModule_state (i : DecisionInput) (mi : ModuleImage) (b : BalanceModule) (c : Fin 16) :
    (tget (decideModule i mi b).cells c).state = decideCell i mi b c := by
  rw [decideModule_cell]

theorem decideModule_commanded (i : DecisionInput) (mi : ModuleImage) (b : BalanceModule) :
    (decideModule i mi b).commanded = b.commanded := by
  unfold decideModule
  rfl

theorem decideModule_hold (i : DecisionInput) (mi : ModuleImage) (b : BalanceModule) :
    (decideModule i mi b).hold = b.hold := by
  unfold decideModule
  rfl

/-- A candidate is a requested cell with no block cause (R141, step 3). -/
theorem candidate_iff {i : DecisionInput} {mi : ModuleImage} {b : BalanceModule} {c : Fin 16} :
    candidate i mi b c = true ↔
      requested (tget b.cells c) = true ∧ blockCauseOf i mi c (tget b.cells c) = none := by
  simp [candidate]

/-- A candidate is chosen while fewer than BALANCE_CAPACITY candidates rank above it (R141, step 4). -/
theorem chosen_iff {i : DecisionInput} {mi : ModuleImage} {b : BalanceModule} {c : Fin 16} :
    chosen i mi b c = true ↔ candidate i mi b c = true ∧ rankOf i mi b c < i.capacity := by
  simp [chosen]

/-- A cell that no port requests is IDLE. -/
theorem decideCell_unrequested {i : DecisionInput} {mi : ModuleImage} {b : BalanceModule} {c : Fin 16}
    (h : requested (tget b.cells c) = false) : decideCell i mi b c = .idle := by
  simp [decideCell, h]

/-- A requested cell is BLOCKED with its first cause; with none it is ON or HELD if it is chosen, and WAITING if not. -/
theorem decideCell_requested {i : DecisionInput} {mi : ModuleImage} {b : BalanceModule} {c : Fin 16}
    (h : requested (tget b.cells c) = true) :
    decideCell i mi b c = match blockCauseOf i mi c (tget b.cells c) with
      | some k => .blocked k
      | none => if rankOf i mi b c < i.capacity then (if b.hold then .held else .on) else .waiting := by
  unfold decideCell
  dsimp only
  rw [if_pos h]
  cases hcause : blockCauseOf i mi c (tget b.cells c) with
  | some k => rfl
  | none =>
    have hchosen : chosen i mi b c = true ↔ rankOf i mi b c < i.capacity := by
      rw [chosen_iff, candidate_iff]
      exact and_iff_right ⟨h, hcause⟩
    simp only [hchosen]

/-! ## Block causes (R140) -/

/-- The causes of R140 in their order of precedence. -/
theorem blockCauseOf_eq (i : DecisionInput) (mi : ModuleImage) (c : Fin 16) (r : CellRecord) :
    blockCauseOf i mi c r =
      if r.inhibit.a ∨ r.inhibit.b then some .inhibited
      else if i.down then some .moduleDown
      else if (∃ x, (tget mi.temp x).limit = .high) ∨ mi.die.limit = .high then some .moduleHot
      else if i.mismatch then some .sum
      else if (tget mi.cell c).quality ≠ .fresh then some .data
      else if (tget mi.cell c).limit = .low then some .cellLow
      else none := by
  simp [blockCauseOf, moduleHot]

/-- A cell has no block cause when none of the six applies. -/
theorem blockCauseOf_eq_none {i : DecisionInput} {mi : ModuleImage} {c : Fin 16} {r : CellRecord}
    (h : blockCauseOf i mi c r = none) :
    r.inhibit.a = false ∧ r.inhibit.b = false ∧ i.down = false ∧ i.mismatch = false ∧ mi.die.limit ≠ .high
      ∧ (∀ x, (tget mi.temp x).limit ≠ .high) ∧ (tget mi.cell c).quality = .fresh
      ∧ (tget mi.cell c).limit ≠ .low := by
  rw [blockCauseOf_eq] at h
  split_ifs at h with hinhibited hdown hhot hsum hdata hlow
  obtain ⟨ha, hb⟩ := not_or.1 hinhibited
  obtain ⟨htemp, hdie⟩ := not_or.1 hhot
  exact ⟨Bool.eq_false_of_not_eq_true ha, Bool.eq_false_of_not_eq_true hb, Bool.eq_false_of_not_eq_true hdown,
    Bool.eq_false_of_not_eq_true hsum, hdie, not_exists.1 htemp, not_not.1 hdata, hlow⟩

/-! ## The ranking (R141, step 3) -/

section Ranking

variable {i : DecisionInput} {mi : ModuleImage} {b : BalanceModule} {c d e : Fin 16}

/-- Candidates rank by value, equal values by channel. -/
theorem ranksAbove_iff : ranksAbove mi e c = true ↔
    (tget mi.cell c).value < (tget mi.cell e).value
      ∨ (tget mi.cell e).value = (tget mi.cell c).value ∧ e.val < c.val := by
  simp only [ranksAbove, Bool.or_eq_true, Bool.and_eq_true, beq_iff_eq, decide_eq_true_eq,
    eq_comm (a := (tget mi.cell c).value)]

theorem ranksAbove_irrefl : ranksAbove mi c c = false := by
  simp [ranksAbove]

theorem ranksAbove_trans (hde : ranksAbove mi d e = true) (hec : ranksAbove mi e c = true) :
    ranksAbove mi d c = true := by
  rw [ranksAbove_iff] at *
  omega

/-- Of two cells one ranks above the other: no two tie. -/
theorem ranksAbove_total (h : e ≠ c) : ranksAbove mi e c = true ∨ ranksAbove mi c e = true := by
  have hval : e.val ≠ c.val := fun he => h (Fin.ext he)
  rw [ranksAbove_iff, ranksAbove_iff]
  omega

/-- The rank as the number of candidates above. -/
theorem rankOf_eq_card (i : DecisionInput) (mi : ModuleImage) (b : BalanceModule) (c : Fin 16) :
    rankOf i mi b c = (Finset.univ.filter fun d => (candidate i mi b d && ranksAbove mi d c) = true).card := by
  have hcount := (List.nodup_finRange 16).card_eq_countP
    (P := fun d => (candidate i mi b d && ranksAbove mi d c) = true)
  rw [List.toFinset_finRange] at hcount
  rw [hcount]
  simp [rankOf]

/-- The rank falls strictly from a cell to a candidate above it: what is above the candidate is above the cell, and so is
the candidate itself. -/
theorem rankOf_lt (he : candidate i mi b e = true) (hec : ranksAbove mi e c = true) :
    rankOf i mi b e < rankOf i mi b c := by
  rw [rankOf_eq_card, rankOf_eq_card]
  apply Finset.card_lt_card
  rw [Finset.ssubset_iff_of_subset]
  · exact ⟨e, by simp [he, hec], by simp [ranksAbove_irrefl]⟩
  · intro d hd
    simp only [Finset.mem_filter, Finset.mem_univ, true_and, Bool.and_eq_true] at hd ⊢
    exact ⟨hd.1, ranksAbove_trans hd.2 hec⟩

/-- Candidates of one rank are one cell. -/
theorem rankOf_injective (hc : candidate i mi b c = true) (he : candidate i mi b e = true)
    (h : rankOf i mi b c = rankOf i mi b e) : c = e := by
  by_contra hne
  obtain habove | hbelow := ranksAbove_total (mi := mi) hne
  · exact (rankOf_lt hc habove).ne h
  · exact (rankOf_lt he hbelow).ne h.symm

/-- No more than BALANCE_CAPACITY cells are chosen: their ranks differ and stay below it. -/
theorem countP_chosen_le (i : DecisionInput) (mi : ModuleImage) (b : BalanceModule) :
    ((List.finRange 16).countP fun c => chosen i mi b c) ≤ i.capacity := by
  have hcount := (List.nodup_finRange 16).card_eq_countP (P := fun c => chosen i mi b c = true)
  simp only [Bool.decide_eq_true] at hcount
  rw [← hcount, ← Finset.card_range i.capacity]
  refine Finset.card_le_card_of_injOn (rankOf i mi b) (fun c hc => ?_) fun c hc e he => ?_
  · have hc : chosen i mi b c = true := by simpa using hc
    simpa using (chosen_iff.1 hc).2
  · have hc : chosen i mi b c = true := by simpa using hc
    have he : chosen i mi b e = true := by simpa using he
    exact rankOf_injective (chosen_iff.1 hc).1 (chosen_iff.1 he).1

/-- A candidate with a higher value than a chosen cell is chosen too. -/
theorem chosen_of_above (hc : chosen i mi b c = true) (he : candidate i mi b e = true)
    (hec : ranksAbove mi e c = true) : chosen i mi b e = true :=
  chosen_iff.2 ⟨he, (rankOf_lt he hec).trans (chosen_iff.1 hc).2⟩

end Ranking

/-- What a decision reads beside its table and its entries (R138). -/
theorem decisionInput_eq (s : State) (m : Mod) : s.decisionInput m =
    { capacity := s.settings.balanceCapacity,
      down := decide (s.health m = .suspect ∨ s.health m = .lost),
      mismatch := decide (tget s.limits.sums m = .mismatch) } := by
  have hdown : (s.health m == .suspect || s.health m == .lost)
      = decide (s.health m = .suspect ∨ s.health m = .lost) := by
    simp [Bool.decide_or, beq_eq_decide]
  unfold State.decisionInput
  rw [hdown, beq_eq_decide]

end Sys2Proof.Machine

open Sys2Proof Sys2Proof.Machine

/-- Settles O31: the statement's causes and ranks are the model's, the ranks of the candidates differ, and a chosen cell's
state says so. -/
theorem decisionRespectsBlocksAndCapacity : Obligations.DecisionRespectsBlocksAndCapacity := by
  refine ⟨decisionInput_eq, ?_⟩
  intro i mi b d asked cause above rank
  have hasked (c : Fin 16) : asked c = requested (tget b.cells c) := rfl
  have hcause (c : Fin 16) : cause c = blockCauseOf i mi c (tget b.cells c) := (blockCauseOf_eq i mi c _).symm
  have habove (e c : Fin 16) : above e c = ranksAbove mi e c := by
    rw [Bool.eq_iff_iff, ranksAbove_iff]
    exact decide_eq_true_iff
  have hrank (c : Fin 16) : rank c = rankOf i mi b c := by
    refine List.countP_congr fun e _ => ?_
    rw [decide_eq_true_iff, hasked, hcause, habove, Bool.and_eq_true, candidate_iff, and_assoc]
  have hdecided (c : Fin 16) : inMask d.decided c = chosen i mi b c := inMask_decideModule i mi b c
  refine ⟨?_, fun c => ?_, fun c => ?_, fun c => ?_, decideModule_commanded i mi b,
    decideModule_hold i mi b, fun c hc => ?_⟩
  · simp only [hdecided]
    exact countP_chosen_le i mi b
  · rw [hdecided, hasked, hcause, hrank, chosen_iff, candidate_iff, and_assoc]
  · rw [decideModule_state, hasked, hcause, hrank]
    by_cases hr : requested (tget b.cells c) = true
    · rw [if_pos hr]
      exact decideCell_requested hr
    · rw [if_neg hr]
      exact decideCell_unrequested (by simpa using hr)
  · rw [decideModule_cell]
    exact ⟨rfl, rfl, rfl⟩
  · rw [hdecided] at hc
    obtain ⟨hreq, hnone⟩ := candidate_iff.1 (chosen_iff.1 hc).1
    obtain ⟨ha, hb, hdown, hsum, hdie, htemp, hfresh, hlow⟩ := blockCauseOf_eq_none hnone
    refine ⟨hreq, ha, hb, hdown, hsum, hdie, htemp, hfresh, hlow, fun e hre hne hlt => ?_⟩
    rw [hdecided]
    exact chosen_of_above hc (candidate_iff.2 ⟨hre, hne⟩) (ranksAbove_iff.2 (.inl hlt))
end

