-- ==== Sys2Proof/Proofs/BalanceInvariant.lean ====
section
/-! PROOFS. BalanceInvariant.lean: every update of a command leaves the balance table as a decision left it (R136, R141). -/

namespace Sys2Proof.Machine

/-! ## A module's table -/

/-- A decided cell is IDLE exactly without a request. -/
theorem decideCell_idle_iff {i : DecisionInput} {mi : ModuleImage} {b : BalanceModule} {c : Fin 16} :
    decideCell i mi b c = .idle ↔ requested (tget b.cells c) = false := by
  cases hr : requested (tget b.cells c) with
  | false => simp [decideCell_unrequested hr]
  | true =>
    rw [decideCell_requested hr]
    repeat' split
    all_goals simp

/-- A decided cell is HELD in a hold period alone, and ON outside one alone. -/
theorem decideCell_hold {i : DecisionInput} {mi : ModuleImage} {b : BalanceModule} {c : Fin 16} :
    (decideCell i mi b c = .held → b.hold = true) ∧ (decideCell i mi b c = .on → b.hold = false) := by
  cases hr : requested (tget b.cells c) with
  | false => simp [decideCell_unrequested hr]
  | true =>
    rw [decideCell_requested hr]
    repeat' split
    all_goals simp_all

/-- A decision leaves its table good, whatever the table was before. -/
theorem BalanceGood.decide (i : DecisionInput) (mi : ModuleImage) (b : BalanceModule) :
    BalanceGood (decideModule i mi b) where
  decided := by
    simp only [decideModule_state]
    rfl
  idle c := by
    rw [decideModule_state, decideCell_idle_iff]
    simp only [requested, requestedBy_decideModule]
  held c h := by
    rw [decideModule_state] at h
    rw [decideModule_hold]
    exact decideCell_hold.1 h
  on c h := by
    rw [decideModule_state] at h
    rw [decideModule_hold]
    exact decideCell_hold.2 h

/-- Marks, ON times and the commanded mask have no part in it. -/
theorem BalanceGood.same {b c : BalanceModule} (h : BalanceGood b) (hs : SameDecision b c) : BalanceGood c where
  decided := by
    simp only [hs.state]
    rw [hs.decided, h.decided]
  idle k := by
    have hreq : requested (tget c.cells k) = requested (tget b.cells k) := by
      simp only [requested, requestedBy, hs.request]
    rw [hs.state, hreq]
    exact h.idle k
  held k hk := by
    rw [hs.state] at hk
    rw [hs.hold]
    exact h.held k hk
  on k hk := by
    rw [hs.state] at hk
    rw [hs.hold]
    exact h.on k hk

/-- The table after device reset is good (R159). -/
theorem BalanceGood.reset : BalanceGood resetBalanceModule where
  decided := by decide
  idle := by decide
  held := by decide
  on := by decide

/-! ## The whole table -/

/-- Only the modules' tables are read. -/
theorem BalanceInv.of_eq {s t : State} (h : BalanceInv s) (hb : t.balance.modules = s.balance.modules) :
    BalanceInv t := by
  intro m
  unfold State.balanceOf
  rw [hb]
  exact h m

/-- One module's table is written. -/
theorem BalanceInv.write {s : State} (h : BalanceInv s) (m : Mod) {b : BalanceModule} (hb : BalanceGood b) :
    BalanceInv (s.setBalance m b) := by
  intro k
  rw [State.balanceOf_setBalance]
  split
  · exact hb
  · exact h k

theorem BalanceInv.decided {s : State} (h : BalanceInv s) (m : Mod) (e : Option EventCause) (b c : BalanceModule) :
    BalanceInv (decideFrom m e b c s) := by
  obtain ⟨r, hr⟩ := decideFrom_eq m e b c s
  rw [hr]
  exact (h.write m (BalanceGood.decide _ _ c)).of_eq rfl

theorem balanceInv_reset : BalanceInv State.reset := by
  intro m
  have hm : State.reset.balanceOf m = resetBalanceModule := by
    simp [State.balanceOf, State.reset, resetBalance]
  rw [hm]
  exact .reset

/-- Every update of a command keeps the tables good: a decision makes its table afresh, and nothing else writes what a
decision has written. -/
theorem balanceInv_closed : Closed BalanceInv where
  raised _ _ h := h.of_eq rfl
  sched _ _ h := h.of_eq rfl
  limits _ _ h := h.of_eq rfl
  reserved _ _ h := h.of_eq rfl
  token _ _ h := h.of_eq rfl
  chain _ _ _ h := h.of_eq rfl
  entries _ _ _ _ h := h.of_eq rfl
  renew _ _ _ _ _ _ h := h.of_eq rfl
  decided _ m e b c h := h.decided m e b c
  balance _ m _ hs h := h.write m ((h m).same hs)
  balanceAll s f hs h m := by
    have hm : (mapBalance f s).balanceOf m = f m (s.balanceOf m) := tget_tmap _ _ _
    rw [hm]
    exact (h m).same (hs m _)
  balanceClock _ _ _ h := h.of_eq rfl
  passChange _ _ _ _ _ _ h := h.of_eq (by simp)
  passEnd _ _ h := h.of_eq (by simp)
  passNew _ _ _ _ h := h.of_eq (by simp)
  strike _ _ h := h.of_eq rfl
  tickets _ _ _ _ h := h.of_eq rfl
  ticketNew _ _ _ _ _ h := h.of_eq rfl
  sweep _ _ _ _ _ _ h := h.of_eq rfl
  startSweep s _ h := by
    obtain ⟨w, r, x, he, -⟩ := startSweep_eq s
    exact he ▸ h.of_eq rfl
  endVisit s _ h := by
    obtain ⟨w, r, x, he⟩ := endVisit_eq s
    exact he ▸ h.of_eq rfl
  endAligned s h := by
    obtain ⟨w, r, x, he⟩ := endAlignedIfDone_eq s
    exact he ▸ h.of_eq rfl
  closeMap s reason _ h := by
    obtain ⟨c, w, r, x, he, -⟩ := startAfterEnd_closeMap_eq reason s
    exact he ▸ h.of_eq rfl
  recordModule _ _ _ _ h := h.of_eq rfl
  record _ _ _ h := h.of_eq rfl
  mapClock _ _ _ _ h := h.of_eq rfl
  restart _ h := h.of_eq rfl
  orphan _ _ _ h := h.of_eq rfl
  send s r o n p _ h := by
    obtain ⟨l, he⟩ := sendUnicast_eq r o n p s
    exact he ▸ h.of_eq rfl
  lane _ _ _ _ h := h.of_eq rfl
  statistics _ _ _ _ h := h.of_eq rfl
  window _ _ _ h := h.of_eq rfl
  resend _ _ _ _ _ _ h := h.of_eq rfl
  freeSlot _ _ h := h.of_eq rfl
  untag _ _ _ _ h := h.of_eq rfl
  badCheck _ _ _ _ _ _ _ h := h.of_eq rfl
  timeout s i x _ h := by
    obtain ⟨l, he⟩ := timeoutSlot_eq i x s
    exact he ▸ h.of_eq rfl
  quarantine _ _ h := h.of_eq rfl
  portSlot _ _ _ _ h := h.of_eq rfl
  latch _ _ _ _ _ _ _ h := h.of_eq rfl
  clearHold _ _ _ h := h.of_eq rfl
  store s p _ h := by
    unfold takeStoring
    split
    · exact h
    · exact h.of_eq rfl
  pop _ _ _ _ h := h.of_eq rfl
  queueReset _ _ _ h := h.of_eq rfl
  portSetting s p k v _ _ _ h := by
    unfold acceptPerPort
    split
    · exact h.of_eq rfl
    · exact h.of_eq rfl
    · exact h
  settings _ _ _ _ _ _ h := h.of_eq rfl
  deviceReset s t ht h := by
    unfold execDeviceReset at ht
    split at ht
    · cases ht
      exact h
    · cases ht
      exact h.of_eq rfl
  release s t ht h := by
    unfold execResetRelease at ht
    split at ht
    · cases ht
      exact balanceInv_reset.of_eq rfl
    · cases ht
      exact h

end Sys2Proof.Machine

open Sys2Proof Sys2Proof.Machine

/-- Settles O11: the tables are kept good by every update that a command is built from (`Closed`), and the queue of commands
and link time are not read. -/
theorem stepsKeepTheBalanceTable : Obligations.StepsKeepTheBalanceTable := fun _ _ hs ht =>
  balanceInv_closed.step (fun _ _ h => h.of_eq rfl) (fun _ _ h => h.of_eq rfl) hs ht
end
-- ==== Sys2Proof/Proofs/BalanceRequests.lean ====
section
/-! PROOFS. BalanceRequests.lean: the requests at the Balance Controller (R147 to R150, R153, R155). -/

namespace Sys2Proof.Machine

/-! ## A decision within an event -/

theorem balanceOf_refreshItems (s : State) (m : Mod) : (refreshItems s).balanceOf m = s.balanceOf m := rfl

/-- A decision and the offering of the updates write the module's table, the records that wait and the items; the records
are those of R142 and R156. -/
theorem refreshItems_decideFrom (m : Mod) (ended : Option EventCause) (before claims : BalanceModule) (s : State) :
    let after := decideModule (s.decisionInput m) (s.moduleImage m) claims
    ∃ r x, refreshItems (decideFrom m ended before claims s) = { s with
        balance := { s.balance with modules := tput s.balance.modules m after }, raised := r, sched := x }
      ∧ ∀ q, r.get q = s.raised.get q ++ storing (balanceRecords s.timebase m q ended before after) := by
  intro after
  obtain ⟨r, hr⟩ := decideFrom_eq m ended before claims s
  have hraised := decideFrom_raised m ended before claims s
  rw [hr] at hraised
  obtain ⟨x, hx⟩ := refreshItems_eq (decideFrom m ended before claims s)
  refine ⟨r, x, ?_, hraised⟩
  rw [hx, hr]
  rfl

/-- A request whose block takes a decision leaves the answer on its way and the decision's table, and nothing else but the
records and the items (R139, R165). -/
theorem exec_decided {c : Instr} {p : Port} {a : Answer} {m : Mod} {before claims : BalanceModule} {s : State}
    (h : exec c s = .next (answerLater p a (refreshItems (decideFrom m none before claims (endFrame p s))))) :
    ∃ t, exec c s = .next t ∧ t = { s with
      ports := s.ports.set p { s.port p with frame := .idle, slot := waitsFor a }
      balance := { s.balance with
        modules := tput s.balance.modules m (decideModule (s.decisionInput m) (s.moduleImage m) claims) }
      raised := t.raised
      sched := t.sched } := by
  refine ⟨_, h, ?_⟩
  obtain ⟨r, x, ht, -⟩ := refreshItems_decideFrom m none before claims (endFrame p s)
  rw [ht]
  simp only [answerLater, endFrame, State.setPort, State.port, PerPort.set_set, PerPort.get_set_same]
  rfl

/-! ## BALANCE (R148) -/

/-- The mask names populated cells alone. -/
theorem namesUnpopulated_eq_false {s : State} {m : Mod} {mask : CellMask}
    (h : ∀ c, inMask mask c = true → populated (tget (s.moduleImage m).cell c) = true) :
    namesUnpopulated s m mask = false := by
  have hzero : mask &&& unpopulatedMask (s.moduleImage m) = 0 := by
    refine mask_ext fun c => ?_
    have hun : inMask (unpopulatedMask (s.moduleImage m)) c = !populated (tget (s.moduleImage m).cell c) := by
      simp [unpopulatedMask]
    have hc := h c
    unfold inMask at hc hun ⊢
    rw [BitVec.getLsbD_and, hun]
    cases hin : mask.getLsbD c.val with
    | false => simp
    | true => simp [hc hin]
  simp [namesUnpopulated, hzero]

/-- An accepted BALANCE takes the decision over the port's new requests, and answers from what it decided. -/
theorem takeBalance_accepted {p : Port} {n : Byte} {mask : CellMask} {seconds : Nat} {m : Mod} {s : State}
    (h : ¬BadBalance mask seconds) (he : s.map.state ≠ .enumerating) (hn : n.toNat ≤ s.map.n)
    (hm : modOfNumber n.toNat = some m)
    (hp : ∀ c, inMask mask c = true → populated (tget (s.moduleImage m).cell c) = true) :
    let claims := onCells mask (setRequest p (some (s.timebase + ticksOf (seconds * Config.ticksPerSecond))))
      (s.balanceOf m)
    let after := decideModule (s.decisionInput m) (s.moduleImage m) claims
    takeBalance p n.toNat mask seconds s =
      answerLater p (okAnswer 0x40 (bytes16 after.decided ++ bytes16 (blockedOf mask after)))
        (refreshItems (decideFrom m none (s.balanceOf m) claims s)) := by
  intro claims after
  have hafter : (refreshItems (decideFrom m none (s.balanceOf m) claims s)).balanceOf m = after := by
    rw [balanceOf_refreshItems, decideFrom_balanceOf, if_pos rfl]
  unfold takeBalance
  rw [if_neg h, if_neg he, if_neg (Nat.not_lt.2 hn), hm]
  dsimp only
  rw [namesUnpopulated_eq_false hp, if_neg Bool.false_ne_true, hafter]

/-! ## UNBALANCE, INHIBIT and UNINHIBIT (R149, R150) -/

section Claims

variable {p : Port} {n : Byte} {mask : CellMask} {m : Mod} {s : State}

theorem exec_unbalance (p : Port) (n mh ml : Byte) (fill : List Byte) {s : State} (h : s.frameEnding p = true) :
    exec (.unbalance p (goodRest 0x41 [n, mh, ml] fill)) s
      = .next (takeUnbalance p n.toNat (mh ++ ml) (endFrame p s)) := by
  change Host.Outcome.next (takeFrame p 0x41 (goodRest 0x41 [n, mh, ml] fill) _ s) = _
  rw [takeFrame_request p 0x41 [n, mh, ml] fill _ h rfl]
  rfl

theorem exec_inhibit (p : Port) (n mh ml : Byte) (fill : List Byte) {s : State} (h : s.frameEnding p = true) :
    exec (.inhibit p (goodRest 0x42 [n, mh, ml] fill)) s
      = .next (takeInhibit p 0x42 true n.toNat (mh ++ ml) (endFrame p s)) := by
  change Host.Outcome.next (takeFrame p 0x42 (goodRest 0x42 [n, mh, ml] fill) _ s) = _
  rw [takeFrame_request p 0x42 [n, mh, ml] fill _ h rfl]
  rfl

theorem exec_uninhibit (p : Port) (n mh ml : Byte) (fill : List Byte) {s : State} (h : s.frameEnding p = true) :
    exec (.uninhibit p (goodRest 0x43 [n, mh, ml] fill)) s
      = .next (takeInhibit p 0x43 false n.toNat (mh ++ ml) (endFrame p s)) := by
  change Host.Outcome.next (takeFrame p 0x43 (goodRest 0x43 [n, mh, ml] fill) _ s) = _
  rw [takeFrame_request p 0x43 [n, mh, ml] fill _ h rfl]
  rfl

theorem takeUnbalance_accepted (he : s.map.state ≠ .enumerating) (hn : n.toNat ≤ s.map.n)
    (hm : modOfNumber n.toNat = some m) :
    takeUnbalance p n.toNat mask s =
      answerLater p (okAnswer 0x41 (bytes16 (requestsOf p mask (s.balanceOf m))))
        (refreshItems (decideFrom m none (s.balanceOf m) (onCells mask (setRequest p none) (s.balanceOf m)) s)) := by
  unfold takeUnbalance
  rw [if_neg he, if_neg (Nat.not_lt.2 hn), hm]

/-- The marks of a module of a chain that is not ENUMERATING are decided in the event that changes them. -/
theorem takeInhibit_decided (code : Byte) (on : Bool) (he : s.map.state ≠ .enumerating) (hn : n.toNat ≤ s.map.n)
    (hm : modOfNumber n.toNat = some m) :
    takeInhibit p code on n.toNat mask s =
      answerLater p (okAnswer code (bytes16 (inhibitedMask (onCells mask (setInhibit p on) (s.balanceOf m)))))
        (refreshItems (decideFrom m none (s.balanceOf m) (onCells mask (setInhibit p on) (s.balanceOf m)) s)) := by
  have hdecides : (s.onChain m && s.map.state != .enumerating) = true := by
    rw [← modNumber_of_modOfNumber hm] at hn
    simp [State.onChain, hn, he]
  unfold takeInhibit
  rw [hm]
  dsimp only
  rw [if_pos hdecides]

end Claims

/-! ## READ_BALANCE (R153, R220) -/

theorem exec_readBalance (p : Port) (n : Byte) (fill : List Byte) {s : State} (h : s.frameEnding p = true) :
    exec (.readBalance p (goodRest 0x44 [n] fill)) s
      = .next (s.answered p (waitsFor (readBalanceAnswer s n.toNat))) := by
  change Host.Outcome.next (takeFrame p 0x44 (goodRest 0x44 [n] fill) _ s) = _
  rw [takeFrame_request p 0x44 [n] fill _ h rfl]
  exact congrArg _ (answerLater_endFrame p _ s)

/-- Two flags in bits 0 and 1 (R220). -/
theorem flagByte_two (a b : Bool) :
    flagByte a ||| (flagByte b <<< 1) = (if a then 1 else 0) + (if b then 2 else 0) := by
  revert a b
  decide

/-- The block cause byte, cause by cause (R219, R220). -/
theorem stateCause_eq (st : BalanceState) : stateCause st = match st with
    | .blocked .inhibited => 0x40 | .blocked .moduleDown => 0x41 | .blocked .moduleHot => 0x42
    | .blocked .sum => 0x43 | .blocked .data => 0x44 | .blocked .cellLow => 0x45
    | _ => 0 := by
  cases st with
  | blocked k => cases k <;> rfl
  | _ => rfl

theorem updatePending_iff {s : State} {m : Mod} :
    s.updatePending m = true ↔ .update m ∈ s.sched.items.map (·.kind) := by
  simp [State.updatePending]

theorem byteOf_modNumber {n : Byte} {m : Mod} (h : modOfNumber n.toNat = some m) : byteOf (modNumber m) = n := by
  simp [byteOf, modNumber_of_modOfNumber h]

/-! ## CLEAR_BALANCE_TIME (R155) -/

section ClearTime

variable {p : Port} {n : Nat} {s : State}

theorem exec_clearBalanceTime (p : Port) (n : Byte) (fill : List Byte) {s : State} (h : s.frameEnding p = true) :
    exec (.clearBalanceTime p (goodRest 0x45 [n] fill)) s = .next (takeClearTime p n.toNat (endFrame p s)) := by
  change Host.Outcome.next (takeFrame p 0x45 (goodRest 0x45 [n] fill) _ s) = _
  rw [takeFrame_request p 0x45 [n] fill _ h rfl]
  rfl

theorem takeClearTime_badArgument (h : 12 < n) :
    takeClearTime p n s = answerLater p (refusal .badArgument 0x45) s := if_pos h

theorem takeClearTime_noToken (h : n ≤ 12) (ht : s.holds p = false) :
    takeClearTime p n s = answerLater p (refusal .noToken 0x45) s := by
  unfold takeClearTime
  rw [if_neg (Nat.not_lt.2 h), if_pos (by rw [ht]; rfl)]

/-- For the holder the lease restarts and the ON times of the modules meant are cleared. -/
theorem takeClearTime_holder {l : Nat} {d : Tick} (h : n ≤ 12) (ht : s.token = .held p l d) :
    takeClearTime p n (endFrame p s) = { storedAnswered p (okAnswer 0x45 []) l s.settings s with
      balance := { s.balance with
        modules := tmap s.balance.modules fun m b => if n = 0 ∨ modNumber m = n then clearOnTimes b else b } } := by
  have hholds : (endFrame p s).holds p = true := holds_iff.2 ⟨l, d, ht⟩
  unfold takeClearTime
  rw [if_neg (Nat.not_lt.2 h), if_neg (by rw [hholds]; decide), restartLease_endFrame ht]
  simp only [answerLater, mapBalance, stored, State.setPort, State.port, PerPort.set_set, PerPort.get_set_same]
  rfl

theorem clearOnTimes_cell (b : BalanceModule) (c : Fin 16) :
    tget (clearOnTimes b).cells c = { tget b.cells c with onTime := 0 } := by
  simp [clearOnTimes]

end ClearTime

end Sys2Proof.Machine

open Sys2Proof Sys2Proof.Machine

/-- Settles O28: no refusal applies, and the decision over the new requests is taken in the event of the frame's end. -/
theorem balanceRecordsTheRequests : Obligations.BalanceRecordsTheRequests := by
  intro p n mh ml sh sl m fill s h hlow hhigh hmask he hm hn hp due b
  have hgood : ¬BadBalance (mh ++ ml) (sh ++ sl).toNat := by
    rintro (hzero | hlong | hempty)
    · omega
    · omega
    · exact hmask (bits_toNat_eq_zero.2 hempty)
  exact exec_decided ((exec_balance p n mh ml sh sl fill h).trans
    (congrArg _ (takeBalance_accepted (s := endFrame p s) hgood he hn hm hp)))

/-- Settles O29: each of the three is a decision over the changed claims in the event of the frame's end. -/
theorem claimsAreWithdrawnAndMarked : Obligations.ClaimsAreWithdrawnAndMarked := by
  intro p n mh ml m fill s h hm hn he mask result
  refine ⟨?unbalance, ?inhibit, ?uninhibit⟩
  case unbalance =>
    exact exec_decided ((exec_unbalance p n mh ml fill h).trans
      (congrArg _ (takeUnbalance_accepted (s := endFrame p s) he hn hm)))
  case inhibit =>
    exact exec_decided ((exec_inhibit p n mh ml fill h).trans
      (congrArg _ (takeInhibit_decided (s := endFrame p s) 0x42 true he hn hm)))
  case uninhibit =>
    exact exec_decided ((exec_uninhibit p n mh ml fill h).trans
      (congrArg _ (takeInhibit_decided (s := endFrame p s) 0x43 false he hn hm)))

/-- Settles O30: the answer is the table's payload byte by byte, and the three outcomes of CLEAR_BALANCE_TIME are its
argument's check, the token's and the clearing. -/
theorem balanceTimesAreReadAndCleared : Obligations.BalanceTimesAreReadAndCleared := by
  intro p n fill s h seconds cell table
  refine ⟨fun m hm => ?_, fun hm => ?_, fun hn => ?_, fun hn ht => ?_, fun l d hn ht => ?_⟩
  · have hcell (r : CellRecord) : cellBytes s.timebase r = cell r := by
      unfold cellBytes
      rw [flagByte_two, stateCause_eq]
      rfl
    have htable : balanceBytes m s = table m := by
      unfold balanceBytes
      simp only [hcell, byteOf_modNumber hm, flagByte, updatePending_iff]
      rfl
    rw [exec_readBalance p n fill h, readBalanceAnswer, hm, ← htable]
    rfl
  · rw [exec_readBalance p n fill h, readBalanceAnswer, hm]
    rfl
  · rw [exec_clearBalanceTime p n fill h, takeClearTime_badArgument hn, answerLater_endFrame]
    rfl
  · rw [exec_clearBalanceTime p n fill h, takeClearTime_noToken (s := endFrame p s) hn ht, answerLater_endFrame]
    rfl
  · rw [exec_clearBalanceTime p n fill h, takeClearTime_holder hn ht]
    refine ⟨_, rfl, rfl, fun m => ?_⟩
    simp only [State.balanceOf, tget_tmap, ← bits_toNat_eq_zero]
    split
    · exact ⟨rfl, clearOnTimes_cell _⟩
    · exact ⟨rfl, fun _ => rfl⟩
end

