-- ==== Sys2Proof/Proofs/BalanceEvents.lean ====
section
/-! PROOFS. BalanceEvents.lean: BALANCE_DECISION, REQUEST_EXPIRY and ON_TIME_TIMER_EXPIRY (R139, R142, R151, R154, R156). -/

namespace Sys2Proof.Machine

section Events

variable {m : Mod} {s : State}

/-! ## BALANCE_DECISION and REQUEST_EXPIRY (R139, R151) -/

theorem exec_balanceDecision (hr : s.inReset = false) : exec (.balanceDecision m) s = .next (takeHandoff m s) := by
  change Host.Outcome.next (awake (takeHandoff m) s) = _
  rw [awake_eq hr]

/-- A module's table with the requests whose end has not been reached (R151). -/
def unexpired (now : Tick) (b : BalanceModule) : BalanceModule :=
  { b with cells := tmap b.cells fun _ r => { r with
      request := { a := r.request.a.filter fun due => !reached now due,
                   b := r.request.b.filter fun due => !reached now due } } }

/-- A request stands while its end has not been reached. -/
theorem requestDue_filter (now : Tick) (request : Option Tick) :
    (if requestDue now request then none else request) = request.filter fun due => !reached now due := by
  cases request with
  | none => rfl
  | some due => cases hd : reached now due <;> simp [requestDue, Option.filter, hd]

theorem expireModuleRequests_eq (m : Mod) (s : State) : expireModuleRequests m s =
    decideFrom m (some .expired) (s.balanceOf m) (unexpired s.timebase (s.balanceOf m)) s := by
  unfold expireModuleRequests
  simp only [expireRequests, requestDue_filter]
  rfl

theorem exec_requestExpiry (hr : s.inReset = false) (hd : s.requestsDue m = true) :
    exec (.requestExpiry m) s = .next (refreshItems
      (decideFrom m (some .expired) (s.balanceOf m) (unexpired s.timebase (s.balanceOf m)) s)) := by
  change Host.Outcome.next (awake _ s) = _
  rw [awake_eq hr, if_pos hd, expireModuleRequests_eq]

theorem unexpired_request (now : Tick) (b : BalanceModule) (c : Fin 16) (q : Port) :
    (tget (unexpired now b).cells c).request.get q
      = ((tget b.cells c).request.get q).filter fun due => !reached now due := by
  cases q <;> simp [unexpired]

/-! ## ON_TIME_TIMER_EXPIRY (R154) -/

theorem exec_onTimeTimerExpiry (hr : s.inReset = false) (hd : s.balance.onTimer ≤ s.ticks) :
    exec .onTimeTimerExpiry s = .next (takeOnTimer s) := by
  have hdue : s.onTimerDue = true := decide_eq_true hd
  change Host.Outcome.next (awake _ s) = _
  rw [awake_eq hr, if_pos hdue]

/-- One second of ON time goes to the cells whose switch is commanded closed, and to none while the mask is UNKNOWN. -/
theorem countOnTime_cell (b : BalanceModule) (c : Fin 16) :
    tget (countOnTime b).cells c = match b.commanded with
      | .mask closed => if inMask closed c = true
          then { tget b.cells c with
            onTime := if (tget b.cells c).onTime = BitVec.allOnes 32
              then BitVec.allOnes 32 else (tget b.cells c).onTime + 1 }
          else tget b.cells c
      | .unknown => tget b.cells c := by
  unfold countOnTime
  cases b.commanded with
  | unknown => rfl
  | mask closed =>
    simp only [onCells, tget_tmap]
    split
    · unfold addOnSecond
      split
      · next hfull => rw [← hfull]
      · rfl
    · rfl

/-- The count writes the cells' records alone. -/
theorem countOnTime_frame (b : BalanceModule) : countOnTime b = { b with cells := (countOnTime b).cells } := by
  unfold countOnTime
  split <;> rfl

theorem takeOnTimer_balanceOf (s : State) (k : Mod) :
    (takeOnTimer s).balanceOf k = countOnTime (s.balanceOf k) := tget_tmap _ _ _

end Events

end Sys2Proof.Machine

open Sys2Proof Sys2Proof.Machine

/-- Settles O32: the first two events are decisions, over the claims as they stand and over the requests that have not
ended; the third rewrites every table by the count of its commanded mask. -/
theorem balanceEventsDecideAndCount : Obligations.BalanceEventsDecideAndCount := by
  intro m s hr
  refine ⟨?decision, fun hd => ?expiry, fun hd => ?count⟩
  case decision =>
    obtain ⟨r, x, ht, hraised⟩ := refreshItems_decideFrom m none (s.balanceOf m) (s.balanceOf m)
      { s with balance := { s.balance with handoffs := s.balance.handoffs.erase m } }
    refine ⟨_, (exec_balanceDecision hr).trans (congrArg _ ht), rfl, fun q => ?_⟩
    simp only [State.balanceOf, tget_tput_same]
    exact hraised q
  case expiry =>
    obtain ⟨r, x, ht, hraised⟩ := refreshItems_decideFrom m (some .expired) (s.balanceOf m)
      (unexpired s.timebase (s.balanceOf m)) s
    refine ⟨_, (exec_requestExpiry hr hd).trans (congrArg _ ht), rfl, fun k hk => ?_, ?_, fun q => ?_, fun c q => ?_⟩
    · exact (tget_tput _ _ _ _).trans (if_neg hk.symm)
    · exact tget_tput_same _ _ _
    · simp only [State.balanceOf, tget_tput_same]
      exact hraised q
    · simp only [State.balanceOf, tget_tput_same, decideModule_cell]
      exact unexpired_request _ _ c q
  case count =>
    refine ⟨_, exec_onTimeTimerExpiry hr hd, rfl, fun k => ?_⟩
    rw [takeOnTimer_balanceOf]
    exact ⟨countOnTime_frame _, countOnTime_cell _⟩
end

