-- ==== Sys2Proof/Proofs/CommandForms.lean ====
section
/-! PROOFS. CommandForms.lean: the five forms that a command's meaning has, and the queue of commands (R164, R170). -/

namespace Sys2Proof.Machine

/-! ## The forms of a command -/

/-- What the meaning of a command can be: the end of a request's frame; an event that device reset holds back, with or
without a frame of the up lane that is over; a write of the frame on a port; and the three commands that stand alone. -/
inductive CommandForm : Instr → Prop
  | request {i : Instr} {p : Port} {code : Byte} {rest : List Byte} (act : List Byte → State → State)
      (hi : i.request = some (p, code, rest)) (he : ∀ s, exec i s = .next (takeFrame p code rest act s)) : CommandForm i
  | event {i : Instr} (act : State → State) (hi : i.request = none)
      (he : ∀ s, exec i s = .next (awake act s)) : CommandForm i
  | arrival {i : Instr} (act : State → State) (hi : i.request = none)
      (he : ∀ s, exec i s = .next (awake act (upLaneOver s))) : CommandForm i
  | frame {i : Instr} (p : Port) (hi : i.request = none)
      (he : ∀ s, ∃ f, exec i s = .next (s.setPort p { s.port p with frame := f })) : CommandForm i
  | unknownRequest (p : Port) (code : Byte) : CommandForm (.unknownRequest p code)
  | deviceReset : CommandForm .deviceReset
  | resetRelease : CommandForm .resetRelease

theorem State.setPort_port (p : Port) (s : State) : s.setPort p (s.port p) = s := by
  simp only [State.setPort, State.port, PerPort.set_get]

theorem exec_frameStart_writes (p : Port) (s : State) :
    ∃ f, exec (.frameStart p) s = .next (s.setPort p { s.port p with frame := f }) := by
  change ∃ f, execFrameStart p s = _
  unfold execFrameStart
  split
  · exact ⟨_, rfl⟩
  · exact ⟨(s.port p).frame, congrArg _ (s.setPort_port p).symm⟩

theorem exec_frameDiscarded_writes (p : Port) (s : State) :
    ∃ f, exec (.frameDiscarded p) s = .next (s.setPort p { s.port p with frame := f }) := by
  change ∃ f, execFrameDiscarded p s = _
  unfold execFrameDiscarded
  split
  · exact ⟨(s.port p).frame, congrArg _ (s.setPort_port p).symm⟩
  · exact ⟨.idle, rfl⟩

/-- Every command has one of the forms. -/
theorem commandForm (i : Instr) : CommandForm i := by
  cases i with
  | deviceReset => exact .deviceReset
  | resetRelease => exact .resetRelease
  | frameStart p => exact .frame p rfl (exec_frameStart_writes p)
  | frameEmpty p => exact .frame p rfl fun _ => ⟨.idle, rfl⟩
  | frameDiscarded p => exact .frame p rfl (exec_frameDiscarded_writes p)
  | unknownRequest p code => exact .unknownRequest p code
  | nop | ident | status | sessionReset | readEntry | latch | readHold | direct | cancel | balance | unbalance
  | inhibit | uninhibit | readBalance | clearBalanceTime | popEvents | eventCount | takeToken | dropToken | set | get
  | chainRestart | readMap => exact .request _ rfl fun _ => rfl
  | responseArrival | upLaneFellIdle => exact .arrival _ rfl fun _ => rfl
  | _ => exact .event _ rfl fun _ => rfl

/-- A request's meaning is the end of the frame that carried it (R160, R164). -/
theorem exec_request {i : Instr} {p : Port} {code : Byte} {rest : List Byte} (hi : i.request = some (p, code, rest)) :
    ∃ act, ∀ s, exec i s = .next (takeFrame p code rest act s) := by
  cases commandForm i with
  | request act h he =>
    cases h.symm.trans hi
    exact ⟨act, he⟩
  | event _ h | arrival _ h | frame _ h => cases h.symm.trans hi
  | unknownRequest | deviceReset | resetRelease => cases hi

theorem exec_unknownRequest {p : Port} {code : Byte} (hc : code ∉ requestCodes) (s : State) :
    exec (.unknownRequest p code) s = .next (if s.frameTaken p
      then answerNow p (refusal .unknownRequest code) (endFrame p s) else endFrame p s) := by
  change execUnknownRequest p code s = _
  unfold execUnknownRequest
  rw [if_neg (by simpa using hc)]
  split <;> rfl

/-! ## Every command completes -/

theorem exec_completes (i : Instr) (s : State) : ∃ t, exec i s = .next t := by
  cases commandForm i with
  | request act _ he => exact ⟨_, he s⟩
  | event act _ he => exact ⟨_, he s⟩
  | arrival act _ he => exact ⟨_, he s⟩
  | frame p _ he =>
    obtain ⟨f, hf⟩ := he s
    exact ⟨_, hf⟩
  | unknownRequest p code =>
    change ∃ t, execUnknownRequest p code s = .next t
    unfold execUnknownRequest
    split
    · exact ⟨_, rfl⟩
    · split <;> exact ⟨_, rfl⟩
  | deviceReset =>
    change ∃ t, execDeviceReset s = .next t
    unfold execDeviceReset
    split <;> exact ⟨_, rfl⟩
  | resetRelease =>
    change ∃ t, execResetRelease s = .next t
    unfold execResetRelease
    split <;> exact ⟨_, rfl⟩

/-! ## The commands that wait -/

/-- The queue of commands is written by no update, device reset and its release among them. -/
theorem pending_closed (l : List Instr) : Closed (fun s => s.pending = l) where
  raised _ _ := id
  sched _ _ := id
  limits _ _ := id
  reserved _ _ := id
  token _ _ := id
  chain _ _ _ := id
  entries _ _ _ _ := id
  renew _ _ _ _ _ _ := id
  decided _ _ _ _ _ h := by rwa [decideFrom_pending]
  balance _ _ _ _ := id
  balanceAll _ _ _ := id
  balanceClock _ _ _ := id
  passChange _ _ _ _ _ _ h := by rwa [State.setPass_pending]
  passEnd _ _ h := by rwa [State.setPass_pending]
  passNew _ _ _ _ h := by rwa [State.setPass_pending]
  strike _ _ := id
  tickets _ _ _ _ := id
  ticketNew _ _ _ _ _ := id
  sweep _ _ _ _ _ _ := id
  startSweep s _ h := by
    obtain ⟨w, r, x, he, -⟩ := startSweep_eq s
    rwa [he]
  endVisit s _ h := by
    obtain ⟨w, r, x, he⟩ := endVisit_eq s
    rwa [he]
  endAligned s h := by
    obtain ⟨w, r, x, he⟩ := endAlignedIfDone_eq s
    rwa [he]
  closeMap s reason _ h := by
    obtain ⟨c, w, r, x, he, -⟩ := startAfterEnd_closeMap_eq reason s
    rwa [he]
  recordModule _ _ _ _ := id
  record _ _ _ := id
  mapClock _ _ _ _ := id
  restart _ := id
  orphan _ _ _ := id
  send s r o n p _ h := by
    obtain ⟨x, he⟩ := sendUnicast_eq r o n p s
    rwa [he]
  lane _ _ _ _ := id
  statistics _ _ _ _ := id
  window _ _ _ := id
  resend _ _ _ _ _ _ := id
  freeSlot _ _ := id
  untag _ _ _ _ := id
  badCheck _ _ _ _ _ _ _ := id
  timeout s i x _ h := by
    obtain ⟨l, he⟩ := timeoutSlot_eq i x s
    rwa [he]
  quarantine _ _ := id
  portSlot _ _ _ _ := id
  latch _ _ _ _ _ _ _ := id
  clearHold _ _ _ := id
  store s p _ h := by
    unfold takeStoring
    split <;> exact h
  pop _ _ _ _ := id
  queueReset _ _ _ := id
  portSetting s p k v _ _ _ h := by
    unfold acceptPerPort
    split <;> exact h
  settings _ _ _ _ _ _ := id
  deviceReset s t ht h := by
    unfold execDeviceReset at ht
    split at ht <;> cases ht <;> exact h
  release s t ht h := by
    unfold execResetRelease at ht
    split at ht <;> cases ht <;> exact h

end Sys2Proof.Machine

open Sys2Proof Sys2Proof.Machine

/-- Settles O1: the queue that is not empty gives its front to `exec`. -/
theorem stepTakesTheFrontCommand : Obligations.StepTakesTheFrontCommand := fun _ _ _ => rfl

/-- Settles O3: each form of a command ends in a next state, and no update that a command is built from writes the
queue. -/
theorem everyCommandCompletesAndLeavesTheQueue : Obligations.EveryCommandCompletesAndLeavesTheQueue := fun i s =>
  have ⟨t, ht⟩ := exec_completes i s
  ⟨t, ht, (pending_closed s.pending).exec rfl ht⟩
end

