-- ==== Sys2Proof/Proofs/PortFrames.lean ====
section
/-! PROOFS. PortFrames.lean: how the frame of a port begins and ends, and when its request is looked at (R160 to
R168). -/

namespace Sys2Proof.Machine

/-! ## When a request is looked at (R160, R161, R166) -/

/-- A request is not looked at in device reset, after a cut, after a NOT_READY output, and while the slot waits. -/
theorem State.frameTaken_eq_false {p : Port} {out : List Byte} {echo : Byte} {a : Answer} {s : State}
    (h : s.inReset = true ∨ (s.port p).frame = .cut ∨ (s.port p).frame = .running out true
      ∨ (s.port p).slot = .preparing echo a) : s.frameTaken p = false := by
  unfold State.frameTaken
  obtain hr | hf | hf | hs := h
  · rw [hr]; rfl
  · rw [hf, Bool.and_false]; rfl
  · rw [hf]; simp
  · rw [hs, Bool.and_false]

/-- A request that is not looked at ends its frame and does nothing else. -/
theorem exec_request_discarded {i : Instr} {p : Port} {code : Byte} {rest : List Byte} {s : State}
    (hi : i.request = some (p, code, rest)) (ht : s.frameTaken p = false) : exec i s = .next (endFrame p s) := by
  obtain ⟨act, he⟩ := exec_request hi
  rw [he, takeFrame_not_taken p code rest act ht]

/-! ## The checks of a frame (R164) -/

/-- The byte after the arguments is there and is their CRC-8. -/
theorem frameGood_iff {code : Byte} {rest : List Byte} : frameGood code rest = true ↔
    rest[argumentBytes code]? = some (crc8 (code :: rest.take (argumentBytes code))) := by
  rw [← List.head?_drop]
  unfold frameGood
  dsimp only
  cases rest.drop (argumentBytes code) with
  | nil => simp
  | cons c fill => rw [List.head?_cons, Option.some_inj, beq_iff_eq, eq_comm]

/-- A frame that is too short, or whose CRC-8 does not agree, fails its checks. -/
theorem frameGood_eq_false {code : Byte} {rest : List Byte} (h : rest.length ≤ argumentBytes code
    ∨ ∃ c, rest[argumentBytes code]? = some c ∧ c ≠ crc8 (code :: rest.take (argumentBytes code))) :
    frameGood code rest = false := by
  rw [← Bool.not_eq_true, frameGood_iff]
  obtain hshort | ⟨c, hc, hne⟩ := h
  · rw [List.getElem?_eq_none hshort]
    nofun
  · rw [hc, Option.some_inj]
    exact hne

/-! ## The beginning of a frame (R162) -/

theorem exec_frameStart {p : Port} {s : State} (h : (s.port p).frame = .idle) :
    exec (.frameStart p) s = .next (s.setPort p { s.port p with frame := frameAtStart s p }) := if_pos h

theorem frameAtStart_inReset {p : Port} {s : State} (h : s.inReset = true) : frameAtStart s p = .cut := if_pos h

theorem frameAtStart_ready {p : Port} {a : Answer} {s : State} (hr : s.inReset = false)
    (h : (s.port p).slot = .ready a) : frameAtStart s p = .running (answerBytes a) false := by
  unfold frameAtStart
  rw [if_neg (by simp [hr]), h]

theorem frameAtStart_preparing {p : Port} {echo : Byte} {a : Answer} {s : State} (hr : s.inReset = false)
    (h : (s.port p).slot = .preparing echo a) :
    frameAtStart s p = .running (answerBytes (notReadyOutput echo)) true := by
  unfold frameAtStart
  rw [if_neg (by simp [hr]), h]

theorem exec_portReceivesAnswer {p : Port} {echo : Byte} {a : Answer} {s : State} (hr : s.inReset = false)
    (h : (s.port p).slot = .preparing echo a) :
    exec (.portReceivesAnswer p) s = .next (s.setPort p { s.port p with slot := .ready a }) := by
  change Host.Outcome.next (awake (deliverAnswer p) s) = _
  unfold awake deliverAnswer
  rw [if_neg (by simp [hr]), h]

/-! ## A request outside any frame (log entry 5) -/

/-- The state in which FRAME_START leaves a port that is outside any frame. -/
def frameBegun (p : Port) (s : State) : State := s.setPort p { s.port p with frame := frameAtStart s p }

theorem endFrame_frameBegun (p : Port) (s : State) : endFrame p (frameBegun p s) = endFrame p s := by
  simp only [endFrame, frameBegun, State.setPort_setPort, State.port_setPort_same]

/-- A frame that begins on an idle port is looked at exactly when the port's request without a frame is. -/
theorem frameTaken_frameBegun {p : Port} {s : State} (h : (s.port p).frame = .idle) :
    (frameBegun p s).frameTaken p = s.frameTaken p := by
  unfold State.frameTaken frameBegun
  rw [State.port_setPort_same, State.setPort_inReset, h]
  cases hr : s.inReset with
  | true => rfl
  | false =>
    cases hs : (s.port p).slot with
    | ready a => rw [frameAtStart_ready hr hs]; rfl
    | preparing echo a => rw [frameAtStart_preparing hr hs]; rfl

/-- The end of a frame reads the state only through whether it is looked at and what stands when it has ended. -/
theorem takeFrame_congr {p : Port} {s t : State} (ht : t.frameTaken p = s.frameTaken p)
    (he : endFrame p t = endFrame p s) (code : Byte) (rest : List Byte) (act : List Byte → State → State) :
    takeFrame p code rest act t = takeFrame p code rest act s := by
  unfold takeFrame
  rw [ht, he]

end Sys2Proof.Machine

open Sys2Proof Sys2Proof.Machine

/-- Settles O14: the frame's output is fixed by the reset and the slot, and an answer on its way is the slot's. -/
theorem framesClockOutTheSlot : Obligations.FramesClockOutTheSlot := by
  refine ⟨fun p echo a s hr hs => exec_portReceivesAnswer hr hs,
    fun p s hf => ⟨fun a hr hs => ?ready, fun echo a hr hs => ?preparing, fun hr => ?inReset⟩⟩
  case ready =>
    rw [exec_frameStart hf, frameAtStart_ready hr hs]
    rfl
  case preparing =>
    rw [exec_frameStart hf, frameAtStart_preparing hr hs]
    rfl
  case inReset => rw [exec_frameStart hf, frameAtStart_inReset hr]

/-- Settles O15: each of the three ends the frame, and a NOP's block does nothing. -/
theorem someFramesOnlyEnd : Obligations.SomeFramesOnlyEnd := by
  refine fun p s => ⟨rfl, fun out hf => ?discarded, fun fill hf => ?nop⟩
  case discarded =>
    change execFrameDiscarded p s = _
    unfold execFrameDiscarded
    rw [hf]
    rfl
  case nop => exact congrArg _ (takeFrame_request p 0x10 [] fill (fun _ s => s) hf rfl)

/-- Settles O16: a request reaches its block only through the checks of its frame. -/
theorem badFramesAreRefused : Obligations.BadFramesAreRefused := by
  refine ⟨fun p code s hf hc => ?unknown, fun i p code rest s hi hf hbad => ?bad⟩
  case unknown =>
    rw [exec_unknownRequest hc, if_pos (State.frameTaken_of_frameEnding hf), answerNow_endFrame]
    rfl
  case bad =>
    obtain ⟨act, he⟩ := exec_request hi
    rw [he, takeFrame_bad p code rest act (State.frameTaken_of_frameEnding hf) (frameGood_eq_false hbad),
      answerNow_endFrame]
    rfl

/-- Settles O17: in each of the four cases the request is not looked at. -/
theorem untakenRequestIsDiscarded : Obligations.UntakenRequestIsDiscarded :=
  fun _ _ _ _ _ _ _ _ hi h => exec_request_discarded hi (State.frameTaken_eq_false h)

/-- Settles O18: beginning the frame changes neither whether its end is looked at nor what stands after the end. -/
theorem requestWithoutAFrameIsAWholeFrame : Obligations.RequestWithoutAFrameIsAWholeFrame := by
  intro i p s hf ⟨code, rest, hi⟩
  have ht := frameTaken_frameBegun hf
  have hend := endFrame_frameBegun p s
  refine ⟨frameBegun p s, exec_frameStart hf, ?_⟩
  obtain hi | ⟨rfl, hc⟩ := hi
  · obtain ⟨act, he⟩ := exec_request hi
    rw [he, he, takeFrame_congr ht hend]
  · rw [exec_unknownRequest hc, exec_unknownRequest hc, ht, hend]
end

