-- ==== Sys2Proof/Proofs/DeviceReset.lean ====
section
/-! PROOFS. DeviceReset.lean: device reset, what is held until its release, and the state after it (R161, R182). -/

namespace Sys2Proof.Machine

/-! ## What device reset holds (R161) -/

/-- From `s` to `t` nothing is written but the frames on the ports and what is on the up lane. -/
def HeldInReset (s t : State) : Prop :=
  t = { s with ports := t.ports, upLane := t.upLane }
    ∧ ∀ p, (t.port p).slot = (s.port p).slot ∧ (t.port p).hold = (s.port p).hold

namespace HeldInReset

theorem refl (s : State) : HeldInReset s s := ⟨rfl, fun _ => ⟨rfl, rfl⟩⟩

theorem upLaneOver (s : State) : HeldInReset s (upLaneOver s) := ⟨rfl, fun _ => ⟨rfl, rfl⟩⟩

theorem setFrame (p : Port) (f : FrameState) (s : State) :
    HeldInReset s (s.setPort p { s.port p with frame := f }) := by
  refine ⟨rfl, fun q => ?_⟩
  rw [State.port_setPort]
  split
  · next hq => subst hq; exact ⟨rfl, rfl⟩
  · exact ⟨rfl, rfl⟩

end HeldInReset

theorem awake_inReset (act : State → State) {s : State} (h : s.inReset = true) : awake act s = s := if_pos h

/-- In device reset a command of every form but RESET_RELEASE is held. -/
theorem exec_inReset {i : Instr} {s : State} (hr : s.inReset = true) (hi : i ≠ .resetRelease) :
    ∃ t, exec i s = .next t ∧ HeldInReset s t := by
  have untaken (p : Port) : s.frameTaken p = false := by
    unfold State.frameTaken
    rw [hr]
    rfl
  cases commandForm i with
  | request _ hreq _ => exact ⟨_, exec_request_discarded hreq (untaken _), .setFrame _ _ s⟩
  | event act _ he => exact ⟨s, by rw [he, awake_inReset act hr], .refl s⟩
  | arrival act _ he => exact ⟨_, by rw [he, awake_inReset act (s := Machine.upLaneOver s) hr], .upLaneOver s⟩
  | frame p _ he =>
    obtain ⟨f, hf⟩ := he s
    exact ⟨_, hf, .setFrame p f s⟩
  | unknownRequest p code =>
    by_cases hc : code ∈ requestCodes
    · exact ⟨s, if_pos (by simpa using hc), .refl s⟩
    · exact ⟨_, by rw [exec_unknownRequest hc, if_neg (by simp [untaken p])]; rfl, .setFrame p .idle s⟩
  | deviceReset => exact ⟨s, if_pos hr, .refl s⟩
  | resetRelease => exact absurd rfl hi

/-- A frame in progress is cut off; a port outside any frame stays so (R160, R161). -/
theorem cutFrame_frame (h : HostPort) : (cutFrame h).frame = if h.frame = .idle then .idle else .cut := by
  unfold cutFrame
  cases h.frame <;> rfl

/-! ## The state after device reset (R27, R55, R81, R99, R108, R118, R135, R159, R184, R198, R215) -/

theorem chanEntry_reset (m : Mod) (ch : Chan) : chanEntry (State.reset.moduleImage m) ch = clearedEntry := by
  have hm : State.reset.moduleImage m = clearedModule := tget_tbuild _ m
  rw [hm]
  cases ch with
  | cell c => exact tget_tbuild _ c
  | temp c => exact tget_tbuild _ c
  | block => rfl
  | die => rfl

theorem passOf_reset (u : Target) : State.reset.passOf u = none := by
  cases u with
  | one m => exact tget_tbuild _ m
  | all => rfl

theorem auxCount_reset (m : Mod) : State.reset.auxCount m = 0 := tget_tbuild _ m

theorem slot_reset (i : Fin 4) : State.reset.slot i = none := tget_tbuild _ i

theorem record_reset (m : Mod) : State.reset.record m = absentRecord := tget_tbuild _ m

theorem sums_reset (m : Mod) : tget State.reset.limits.sums m = .clear := tget_tbuild _ m

theorem balanceOf_reset (m : Mod) : State.reset.balanceOf m = resetBalanceModule := tget_tbuild _ m

theorem cell_resetBalanceModule (c : Fin 16) : tget resetBalanceModule.cells c = resetCell := tget_tbuild _ c

theorem ticketQueue_reset (p : Port) : State.reset.ticketQueue p = resetTickets := by
  cases p <;> rfl

theorem queue_reset (p : Port) : State.reset.queue p = resetQueue := by
  cases p <;> rfl

theorem raised_reset (p : Port) : State.reset.raised.get p = [] := by
  cases p <;> rfl

/-- An empty queue with no mask is good. -/
theorem QueueGood.reset : QueueGood false resetQueue where
  size := Nat.zero_le _
  reserve _ := Nat.zero_le _
  newest _ h := absurd h List.not_mem_nil
  numbers _ h := absurd h List.not_mem_nil
  next := by decide
  subscribe := by decide
  alertMask := by decide
  line := rfl

theorem queueInv_reset : QueueInv State.reset := fun p => queue_reset p ▸ QueueGood.reset

/-- The state that the release of device reset gives: the state after reset but for the commands that wait, the frames
on the ports, and the chain with its time and what is on the up lane (log entries 13, 14). -/
def stateAtRelease (s : State) : State :=
  { State.reset with
    pending := s.pending
    chainEpoch := s.chainTime
    ports := { a := releasedPort s.ports.a, b := releasedPort s.ports.b }
    chain := s.chain
    upLane := s.upLane }

theorem exec_resetRelease {s : State} (h : s.inReset = true) : exec .resetRelease s = .next (stateAtRelease s) :=
  if_pos h

theorem port_stateAtRelease (s : State) (p : Port) : (stateAtRelease s).port p = releasedPort (s.port p) := by
  cases p <;> rfl

end Sys2Proof.Machine

open Sys2Proof Sys2Proof.Machine

/-- Settles O4: DEVICE_RESET writes the two ports alike, and until the release no form of a command but RESET_RELEASE
does more than write a port's frame or take a frame off the up lane. -/
theorem deviceResetCutsFramesAndHolds : Obligations.DeviceResetCutsFramesAndHolds := by
  refine ⟨fun s hr => ⟨_, if_neg (by simp [hr]), rfl, fun p => ?_⟩, fun i s t hr hi ht => ?_⟩
  · cases p with
    | A => exact ⟨rfl, rfl, cutFrame_frame _, rfl⟩
    | B => exact ⟨rfl, rfl, cutFrame_frame _, rfl⟩
  · obtain ⟨u, hu, held⟩ := exec_inReset hr hi
    cases hu.symm.trans ht
    exact held

/-- Settles O5: the release gives the state after reset, whose blocks hold the values of their chapters. -/
theorem resetReleaseGivesResetValues : Obligations.ResetReleaseGivesResetValues := by
  intro s h
  have balance (m : Mod) : (stateAtRelease s).balanceOf m = resetBalanceModule := balanceOf_reset m
  refine ⟨stateAtRelease s, exec_resetRelease h, rfl,
    rfl, rfl, rfl, rfl, rfl,
    chanEntry_reset, rfl,
    passOf_reset, rfl, rfl, rfl, rfl, rfl, rfl, auxCount_reset, rfl, rfl,
    rfl, rfl, rfl, slot_reset, rfl, rfl, rfl, rfl, rfl, rfl, rfl,
    rfl, rfl, rfl, rfl, rfl, record_reset,
    rfl, rfl,
    rfl, sums_reset,
    fun m => ?_, rfl, rfl,
    rfl, rfl, raised_reset, fun p => ?_⟩
  · rw [balance]
    exact ⟨rfl, rfl, rfl, cell_resetBalanceModule⟩
  · rw [port_stateAtRelease]
    exact ⟨ticketQueue_reset p, rfl, rfl, rfl, queue_reset p⟩

/-- Settles O6: each invariant holds of the reset values of the block that it reads. -/
theorem resetSatisfiesTheInvariants : Obligations.ResetSatisfiesTheInvariants :=
  ⟨queueInv_reset, imageInv_reset, ticketInv_keptAtPorts.reset, holdInv_keptAtPorts.reset, linkGood_reset,
    balanceInv_reset, passInv_keptOnChain.reset, sweepInv_keptOnChain.reset⟩
end

