-- ==== Sys2Proof/Proofs/PortAnswers.lean ====
section
/-! PROOFS. PortAnswers.lean: what the port answers itself, IDENT, STATUS and READ_HOLD (R173, R175, R176), and a SET of
its own sets (R181, R195, R204). -/

namespace Sys2Proof.Machine

/-! ## IDENT and STATUS (R175, R176) -/

/-- A good request that the port answers at once leaves the answer in the slot. -/
theorem takeFrame_answerNow (p : Port) (code : Byte) (args fill : List Byte) (answer : List Byte → State → Answer)
    {s : State} (h : s.frameEnding p = true) (hl : args.length = argumentBytes code) :
    takeFrame p code (goodRest code args fill) (fun a s => answerNow p (answer a s) s) s
      = s.answered p (.ready (answer args (endFrame p s))) := by
  rw [takeFrame_request p code args fill _ h hl, answerNow_endFrame]

theorem identBytes_eq (p : Port) :
    identBytes p = [0x0C, 0x24, 0x01, if p = .A then 1 else 2, 12, 0x01, 0x08, 32, 32, 4, 4] := by
  cases p <;> decide

theorem holderCode_eq (t : Token) : holderCode t = match t with
    | .free => 0
    | .held q _ _ => portCode q := by
  cases t <;> rfl

theorem remainingLease_eq (s : State) : remainingLease s = match s.token with
    | .free => 0
    | .held _ _ due => ceilDiv (ticksLeft s.timebase due) 10 := by
  unfold remainingLease
  cases s.token <;> rfl

/-! ## READ_HOLD (R173) -/

theorem exec_readHold (p : Port) (start count : Byte) (fill : List Byte) {s : State} (h : s.frameEnding p = true) :
    exec (.readHold p (goodRest 0x22 [start, count] fill)) s
      = .next (s.answered p (.ready (readHoldAnswer (s.port p).hold start.toNat count.toNat))) := by
  have hhold : ((endFrame p s).port p).hold = (s.port p).hold := by
    rw [endFrame, State.port_setPort_same]
  refine congrArg _ ((takeFrame_answerNow p 0x22 [start, count] fill
    (fun a s => readHoldAnswer (s.port p).hold (arg8 a 0).toNat (arg8 a 1).toNat) h rfl).trans ?_)
  rw [hhold]
  rfl

/-- The run of a buffer that is not empty has a copy at every place. -/
theorem holdRun_eq_map {copies : List HoldCopy} (h : 0 < copies.length) (start count : Nat) :
    holdRun copies start count
      = (List.range count).map fun i => copies[(start + i) % copies.length]'(Nat.mod_lt _ h) := by
  rw [← List.filterMap_eq_map']
  exact List.filterMap_congr fun i _ => List.getElem?_eq_getElem (Nat.mod_lt _ h)

theorem length_holdRun {copies : List HoldCopy} (h : 0 < copies.length) (start count : Nat) :
    (holdRun copies start count).length = count := by
  rw [holdRun_eq_map h, List.length_map, List.length_range]

theorem getElem?_holdRun {copies : List HoldCopy} (h : 0 < copies.length) (start : Nat) {count i : Nat}
    (hi : i < count) :
    (holdRun copies start count)[i]? = copies[(start + i) % copies.length]? := by
  rw [holdRun_eq_map h, List.getElem?_map, List.getElem?_range hi]
  exact (List.getElem?_eq_getElem (Nat.mod_lt _ h)).symm

/-- READ_HOLD is refused of an empty buffer, from a slot that holds no copy, and for a count that is not 1..32. -/
theorem readHoldAnswer_refused {h : HoldBuffer} {start count : Nat} (hg : HoldGood h)
    (hbad : h.copies = [] ∨ h.copies.length ≤ start ∨ count = 0 ∨ 32 < count) :
    readHoldAnswer h start count = refusal .badArgument 0x22 := by
  unfold readHoldAnswer
  obtain hempty | hargs := hbad
  · rw [hg.header.2 hempty]
  · split
    · exact if_pos hargs
    · rfl

theorem readHoldAnswer_ok {h : HoldBuffer} {header : LatchHeader} {start count : Nat} (hh : h.header = some header)
    (hs : start < h.copies.length) (h1 : 1 ≤ count) (h32 : count ≤ 32) :
    readHoldAnswer h start count = okAnswer 0x22 (headerBytes header h.copies.length
      ++ (holdRun h.copies start count).flatMap fun c => entryBytes c.module c.chan c.record) := by
  unfold readHoldAnswer
  rw [hh]
  exact if_neg (by omega)

/-! ## SET of SUBSCRIBE and ALERT_MASK (R181, R195) -/

section KindSets

variable {v : BitVec 32}

theorem and_kinds (hv : v &&& ~~~0x3FFFE#32 = 0) : v &&& 0x3FFFE#32 = v := by
  apply BitVec.eq_of_getLsbD_eq
  intro i hi
  have hbit := congrArg (·.getLsbD i) hv
  simp only [BitVec.getLsbD_and, BitVec.getLsbD_not, hi, decide_true, Bool.true_and] at hbit ⊢
  revert hbit
  cases v.getLsbD i <;> simp

/-- A set of event kinds is a number up to 3FFFEH, bit 0 apart (R220). -/
theorem toNat_of_kinds (hv : v &&& ~~~0x3FFFE#32 = 0) : v.toNat ≤ 0x3FFFE ∧ v.toNat % 2 = 0 := by
  rw [← and_kinds hv, BitVec.toNat_and]
  refine ⟨Nat.and_le_right, ?_⟩
  rw [Nat.and_mod_two_pow (n := 1)]
  exact Nat.and_zero _

theorem kindsInRange_of_kinds (hv : v &&& ~~~0x3FFFE#32 = 0) : kindsInRange v.toInt = true := by
  obtain ⟨hmax, heven⟩ := toNat_of_kinds hv
  have hint : v.toInt = v.toNat := BitVec.toInt_eq_toNat_of_lt (by omega)
  simp only [kindsInRange, Bool.and_eq_true, decide_eq_true_eq, beq_iff_eq]
  omega

end KindSets

section PerPortSet

variable {p : Port} {code b0 b1 b2 b3 : Byte} {k : SettingId} {s : State}

/-- A good SET of a per-port setting is written at the port, whoever holds the token. -/
theorem takeSet_perPort {index : Byte} {v : Int} (hk : settingOf code = some k)
    (hi : setIndexGood k index.toNat = true) (hr : settingInRange k v = true) (hp : perPort k = true) :
    takeSet p code index v s = answerLater p (setAnswer code index v 0) (acceptPerPort p k v s) := by
  unfold takeSet
  rw [hk]
  simp only [hi, hr, hp, Bool.not_true, Bool.or_self, Bool.false_eq_true, if_false, if_true]

theorem setAnswer_perPort : setAnswer code 0 ((b0 ++ b1) ++ (b2 ++ b3)).toInt 0
    = okAnswer 0x62 [code, 0, b0, b1, b2, b3, 0, 0] := by
  unfold setAnswer
  rw [BitVec.ofInt_toInt, bytes32_append]
  rfl

/-- The answer of a block that writes the port's queue alone. -/
theorem answerLater_setQueue (a : Answer) (q : EventQueue) :
    answerLater p a ((endFrame p s).setQueue p q) = (s.answered p (waitsFor a)).setQueue p q := by
  rw [← answerLater_endFrame]
  rfl

theorem acceptPerPort_subscribe (v : BitVec 32) :
    acceptPerPort p .subscribe v.toInt s = s.setQueue p { s.queue p with subscribe := v } := by
  unfold acceptPerPort
  rw [BitVec.ofInt_toInt]

theorem acceptPerPort_alertMask (v : BitVec 32) : acceptPerPort p .alertMask v.toInt s
    = s.setQueue p { s.queue p with alertMask := v, alert := (s.queue p).records.any (alerts v) } := by
  unfold acceptPerPort
  rw [BitVec.ofInt_toInt]
  rfl

end PerPortSet

end Sys2Proof.Machine

open Sys2Proof Sys2Proof.Machine

/-- Settles O19: the port answers both at once, IDENT with fixed bytes and STATUS with the fields as they stand. -/
theorem identAndStatusAnswer : Obligations.IdentAndStatusAnswer := by
  refine fun p fill s h => ⟨?ident, ?status⟩
  case ident =>
    refine congrArg _ ((takeFrame_answerNow p 0x11 [] fill (fun _ _ => okAnswer 0x11 (identBytes p)) h rfl).trans ?_)
    rw [identBytes_eq]
    rfl
  case status =>
    refine congrArg _ ((takeFrame_answerNow p 0x12 [] fill (fun _ s => okAnswer 0x12 (statusBytes p s)) h rfl).trans ?_)
    rw [statusBytes, holderCode_eq, remainingLease_eq]
    rfl

/-- Settles O23: an empty buffer has no header, and the slots of a buffer that is not empty wrap at its count. -/
theorem readHoldReturnsTheCopies : Obligations.ReadHoldReturnsTheCopies := by
  refine fun p start count fill s hf hg => ⟨fun hbad => ?refused, fun header hh hs h1 h32 => ?accepted⟩
  case refused =>
    rw [exec_readHold p start count fill hf, readHoldAnswer_refused hg]
    · rfl
    · simpa only [bits_toNat_eq_zero] using hbad
  case accepted =>
    have hpos : 0 < (s.port p).hold.copies.length := by omega
    refine ⟨holdRun (s.port p).hold.copies start.toNat count.toNat, fun i hi => getElem?_holdRun hpos _ hi,
      length_holdRun hpos _ _, ?_⟩
    rw [exec_readHold p start count fill hf, readHoldAnswer_ok hh hs h1 h32]
    rfl

/-- Settles O40: the value is in the range of a set of event kinds, and the port's own sets need no token. -/
theorem setWritesAPortsOwnSets : Obligations.SetWritesAPortsOwnSets := by
  intro p b0 b1 b2 b3 fill s hf v hv
  have hrange : kindsInRange v.toInt = true := kindsInRange_of_kinds hv
  refine ⟨?subscribe, ?alertMask⟩
  case subscribe =>
    have hk : settingOf 0x1C = some .subscribe := by decide
    rw [exec_set p 0x1C 0 b0 b1 b2 b3 fill hf, takeSet_perPort hk rfl hrange rfl, setAnswer_perPort,
      acceptPerPort_subscribe, answerLater_setQueue]
    rfl
  case alertMask =>
    have hk : settingOf 0x1D = some .alertMask := by decide
    rw [exec_set p 0x1D 0 b0 b1 b2 b3 fill hf, takeSet_perPort hk rfl hrange rfl, setAnswer_perPort,
      acceptPerPort_alertMask, answerLater_setQueue]
    rfl
end

