-- ==== Sys2Proof/Proofs/SessionReset.lean ====
section
/-! PROOFS. SessionReset.lean: SESSION_RESET at the port and at the blocks that hold its claims (R108, R117, R158, R178,
R179, R197, R213). -/

namespace Sys2Proof.Machine

/-! ## The Balance Controller (R158) -/

/-- A module's table without the claims of a port. -/
def withoutClaims (p : Port) (b : BalanceModule) : BalanceModule :=
  { b with cells := tmap b.cells fun _ r => dropClaims p r }

theorem holdsClaim_iff {p : Port} {b : BalanceModule} : holdsClaim p b = true ↔
    ∃ c, (tget b.cells c).request.get p ≠ none ∨ (tget b.cells c).inhibit.get p = true := by
  simp [holdsClaim, requestedBy, Option.isSome_iff_ne_none]

/-- A cell without claims of the port loses nothing. -/
theorem dropClaims_eq_self {p : Port} {r : CellRecord} (hr : r.request.get p = none) (hi : r.inhibit.get p = false) :
    dropClaims p r = r := by
  unfold dropClaims setInhibit setRequest
  rw [← hr, ← hi, PerPort.set_get, PerPort.set_get]

theorem withoutClaims_eq_self {p : Port} {b : BalanceModule} (h : ¬holdsClaim p b = true) : withoutClaims p b = b := by
  have hcells : (tmap b.cells fun _ r => dropClaims p r) = b.cells := by
    refine table_ext fun c => ?_
    rw [holdsClaim_iff, not_exists] at h
    obtain ⟨hr, hi⟩ := not_or.1 (h c)
    rw [tget_tmap]
    exact dropClaims_eq_self (not_not.1 hr) (Bool.eq_false_of_not_eq_true hi)
  unfold withoutClaims
  rw [hcells]

/-- The table that a session reset leaves: the decision over what is left of the claims, where the port had any. -/
def afterSessionReset (p : Port) (i : DecisionInput) (mi : ModuleImage) (b : BalanceModule) : BalanceModule :=
  if holdsClaim p b then decideModule i mi (withoutClaims p b) else b

/-- From `b` to `b'` the port's claims on a cell are withdrawn; the other port's claims, the ON time, the commanded mask
and the hold period stand. -/
def ClaimsWithdrawn (p : Port) (b b' : BalanceModule) (c : Fin 16) : Prop :=
  (tget b'.cells c).request = (tget b.cells c).request.set p none
    ∧ (tget b'.cells c).inhibit = (tget b.cells c).inhibit.set p false
    ∧ (tget b'.cells c).onTime = (tget b.cells c).onTime ∧ b'.commanded = b.commanded ∧ b'.hold = b.hold

theorem claimsWithdrawn_withoutClaims (p : Port) (b : BalanceModule) (c : Fin 16) :
    ClaimsWithdrawn p b (withoutClaims p b) c := by
  simp only [ClaimsWithdrawn, withoutClaims, tget_tmap, dropClaims, setInhibit, setRequest, and_self]

theorem claimsWithdrawn_afterSessionReset (p : Port) (i : DecisionInput) (mi : ModuleImage) (b : BalanceModule)
    (c : Fin 16) : ClaimsWithdrawn p b (afterSessionReset p i mi b) c := by
  have hw := claimsWithdrawn_withoutClaims p b c
  unfold afterSessionReset
  split
  · simpa only [ClaimsWithdrawn, decideModule_cell, decideModule_commanded, decideModule_hold] using hw
  · next h => rwa [withoutClaims_eq_self h] at hw

theorem afterSessionReset_eq (p : Port) (i : DecisionInput) (mi : ModuleImage) (b : BalanceModule) :
    afterSessionReset p i mi b =
      if ∃ c, (tget b.cells c).request.get p ≠ none ∨ (tget b.cells c).inhibit.get p = true
      then decideModule i mi (withoutClaims p b) else b := by
  unfold afterSessionReset
  simp only [holdsClaim_iff]

/-- A session reset at the Balance Controller writes the tables and raises the records of their decisions. -/
theorem balanceSessionReset_fields (p : Port) (s : State) :
    (∃ i r, balanceSessionReset p s = { s with balance := { s.balance with modules := i }, raised := r })
    ∧ ∀ m, (balanceSessionReset p s).balanceOf m
        = afterSessionReset p (s.decisionInput m) (s.moduleImage m) (s.balanceOf m) := by
  obtain ⟨⟨i, r, hfold⟩, htable⟩ := foldl_dropModuleClaims p allMods s (List.nodup_finRange 12)
  obtain ⟨r', hone⟩ := asOneEvent_eq (fun s => allMods.foldl (dropModuleClaims p) s) s
  refine ⟨⟨i, r', hone.trans (congrArg (fun t : State => { t with raised := r' }) hfold)⟩, fun m => ?_⟩
  have hm : (balanceSessionReset p s).balanceOf m = (allMods.foldl (dropModuleClaims p) s).balanceOf m :=
    congrArg (·.balanceOf m) hone
  rw [hm, htable]
  simp only [show m ∈ allMods from List.mem_finRange m, true_and]
  rfl

/-! ## The token, the port and the tickets (R117, R178, R197, R213) -/

theorem tokenSessionReset_eq (p : Port) (s : State) : tokenSessionReset p s = { s with token := match s.token with
    | .held q _ _ => if q = p then .free else s.token
    | .free => s.token } := by
  unfold tokenSessionReset State.holds
  cases ht : s.token with
  | free => simp [← ht]
  | held q l d =>
    by_cases hq : q = p
    · simp [hq]
    · simp [hq, ← ht]

theorem portSessionReset_endFrame (p : Port) (s : State) : portSessionReset p (endFrame p s)
    = s.setPort p { frame := .idle, slot := .ready sessionAnswer, hold := { copies := [], header := none } } := by
  simp only [portSessionReset, endFrame, State.setPort_setPort, State.port_setPort_same]

/-- A port's tickets are struck from the passes (R117). -/
theorem passOf_ticketsSessionReset (p : Port) (u : Target) (s : State) :
    (ticketsSessionReset p s).passOf u = (s.passOf u).map fun x =>
      { x with owner := x.owner.filter fun r => r.port != p, joined := x.joined.filter fun r => r.port != p } := by
  refine (passOf_strikeRefs (fun r => r.port = p) u _).trans ?_
  cases u <;> rfl

/-! ## Work items (R108, R138) -/

/-- After an event the items of every kind but the balance updates are those that were offered before, and an update is
offered for exactly the modules that want one. -/
theorem refreshItems_items (s : State) : ∃ items,
    refreshItems s = { s with sched := { s.sched with items := items } }
    ∧ (∀ k, (∀ m, k ≠ .update m) → (k ∈ items.map (·.kind) ↔ k ∈ s.sched.items.map (·.kind)))
    ∧ ∀ m, .update m ∈ items.map (·.kind) ↔ (s.balanceOf m).commanded ≠ .mask (s.balanceOf m).decided
        ∧ ∀ i x, s.slot i = some x → x.node = modNumber m → x.role ≠ .restore ∧ x.role ≠ .update := by
  refine ⟨(refreshItems s).sched.items, rfl, fun k hk => ?_, fun m => ?_⟩
  · rw [mem_refreshItems_iff]
    cases k with
    | update m => exact absurd rfl (hk m)
    | _ => rfl
  · rw [mem_refreshItems_iff]
    exact wantsUpdate_iff s m

/-! ## The whole session reset (R178) -/

/-- The state after a session reset's part at the port, its queue and its tickets. -/
def portCleared (p : Port) (s : State) : State :=
  { s with
    ports := s.ports.set p
      { frame := .idle, slot := .ready sessionAnswer, hold := { copies := [], header := none } }
    queues := s.queues.set p resetSessionQueue
    tickets := s.tickets.set p resetTickets
    passes := (ticketsSessionReset p s).passes
    aligned := (ticketsSessionReset p s).aligned }

/-- The state that a session reset leaves, with the tables `modules`, the records that wait `raised` and the items. -/
def sessionOver (p : Port) (modules : Vector BalanceModule 12) (raised : PerPort (List (List Event)))
    (items : List WorkItem) (s : State) : State :=
  { portCleared p s with
    token := match s.token with
      | .held q _ _ => if q = p then .free else s.token
      | .free => s.token
    balance := { s.balance with modules := modules }
    raised := raised
    sched := { s.sched with items := items } }

theorem resetSession_endFrame (p : Port) (s : State) : resetSession p (endFrame p s)
    = refreshItems (tokenSessionReset p (balanceSessionReset p (portCleared p s))) := by
  unfold resetSession
  rw [portSessionReset_endFrame]
  rfl

/-- Each block does its part, and the parts do not meet: the tables follow the decisions, and the items the masks. -/
theorem resetSession_fields (p : Port) (s : State) : ∃ modules raised items,
    resetSession p (endFrame p s) = sessionOver p modules raised items s
    ∧ (∀ m, tget modules m = afterSessionReset p (s.decisionInput m) (s.moduleImage m) (s.balanceOf m))
    ∧ (∀ k, (∀ m, k ≠ .update m) → (k ∈ items.map (·.kind) ↔ k ∈ s.sched.items.map (·.kind)))
    ∧ ∀ m, .update m ∈ items.map (·.kind) ↔ (tget modules m).commanded ≠ .mask (tget modules m).decided
        ∧ ∀ i x, s.slot i = some x → x.node = modNumber m → x.role ≠ .restore ∧ x.role ≠ .update := by
  obtain ⟨⟨modules, raised, hbalance⟩, htable⟩ := balanceSessionReset_fields p (portCleared p s)
  have htoken := tokenSessionReset_eq p (balanceSessionReset p (portCleared p s))
  rw [hbalance] at htable htoken
  obtain ⟨items, hitems, hothers, hupdates⟩ := refreshItems_items (tokenSessionReset p
    { portCleared p s with balance := { (portCleared p s).balance with modules := modules }, raised := raised })
  rw [htoken] at hitems hothers hupdates
  refine ⟨modules, raised, items, ?_, htable, hothers, hupdates⟩
  rw [resetSession_endFrame, hbalance, htoken, hitems]
  rfl

end Sys2Proof.Machine

open Sys2Proof Sys2Proof.Machine

/-- Settles O20: the port's own state is cleared, each block withdraws the port's claims, and the items follow the
masks. -/
theorem sessionResetWithdrawsThePortsClaims : Obligations.SessionResetWithdrawsThePortsClaims := by
  intro p fill s h
  obtain ⟨modules, raised, items, hreset, htable, hothers, hupdates⟩ := resetSession_fields p s
  have hexec := (takeFrame_request p 0x13 [] fill (fun _ s => resetSession p s) h rfl).trans hreset
  refine ⟨sessionOver p modules raised items s, congrArg _ hexec, rfl, rfl, fun m c => ?claims, fun m => ?tables,
    hothers, hupdates, fun u => ?passes⟩
  case claims =>
    change ClaimsWithdrawn p (s.balanceOf m) (tget modules m) c
    rw [htable]
    exact claimsWithdrawn_afterSessionReset p _ _ _ c
  case tables => exact (htable m).trans (afterSessionReset_eq p _ _ _)
  case passes =>
    refine Eq.trans ?_ (passOf_ticketsSessionReset p u s)
    cases u <;> rfl
end

