-- ==== Sys2Proof/Proofs/EventQueues.lean ====
section
/-! PROOFS. EventQueues.lean: the storing of a record, EVENT_STORE, POP_EVENTS and EVENT_COUNT at a port's queue (R187
to R194). -/

namespace Sys2Proof.Machine

/-! ## OVERFLOW records (R190) -/

theorem isOverflow_iff {r : EventRecord} : isOverflow r = true ↔ r.event.kind = .overflow := beq_iff_eq

theorem hasOverflow_false_iff {q : EventQueue} :
    hasOverflow q = false ↔ ∀ r ∈ q.records, r.event.kind ≠ .overflow := by
  simp only [hasOverflow, List.any_eq_false, isOverflow_iff, ne_eq]

/-- A drop is counted into an OVERFLOW record. -/
theorem countDrop_overflow {r : EventRecord} {n : Int} (hk : r.event.kind = .overflow) (hn : r.event.value = some n) :
    countDrop r = { r with event := { r.event with value := some (min 65535 (n + 1)) } } := by
  unfold countDrop
  rw [if_pos (isOverflow_iff.2 hk), hn]
  rfl

/-- A record of another kind counts no drop. -/
theorem countDrop_eq_self {r : EventRecord} (hk : r.event.kind ≠ .overflow) : countDrop r = r :=
  if_neg (mt isOverflow_iff.1 hk)

@[simp] theorem isOverflow_countDrop (r : EventRecord) : isOverflow (countDrop r) = isOverflow r := by
  unfold countDrop
  split <;> rfl

@[simp] theorem seq_countDrop (r : EventRecord) : (countDrop r).seq = r.seq := by
  unfold countDrop
  split <;> rfl

theorem any_isOverflow_map_countDrop (records : List EventRecord) :
    (records.map countDrop).any isOverflow = records.any isOverflow := by
  rw [List.any_map]
  exact List.any_congr rfl isOverflow_countDrop

/-! ## The storing of a record (R188 to R191) -/

section Storing

variable {now : Tick} {e : Event} {q : EventQueue}

/-- A kind outside SUBSCRIBE is not stored. -/
theorem storeRecord_filtered (hs : inKinds q.subscribe e.kind = false) : storeRecord now e q = q :=
  if_pos (by rw [hs]; rfl)

/-- With an OVERFLOW record held the record is dropped and counted. -/
theorem storeRecord_dropped (hs : inKinds q.subscribe e.kind = true) (ho : hasOverflow q = true) :
    storeRecord now e q = { q with records := q.records.map countDrop } := by
  simp only [storeRecord, hs, ho, Bool.not_true, Bool.false_eq_true, if_false, if_true]

/-- With a place free beside the reserve the record is appended. -/
theorem storeRecord_appended (hs : inKinds q.subscribe e.kind = true) (ho : hasOverflow q = false)
    (hl : q.records.length < 31) : storeRecord now e q = appendRecord e q := by
  have hroom : q.records.length < Config.queueSize - 1 := hl
  simp only [storeRecord, hs, ho, hroom, Bool.not_true, Bool.false_eq_true, if_false, if_true]

/-- With the reserve alone left an OVERFLOW record takes it. -/
theorem storeRecord_overflowed (hs : inKinds q.subscribe e.kind = true) (ho : hasOverflow q = false)
    (hl : 31 ≤ q.records.length) : storeRecord now e q = appendRecord (overflowEvent now e.kind) q := by
  have hfull : ¬q.records.length < Config.queueSize - 1 := Nat.not_lt.2 hl
  simp only [storeRecord, hs, ho, hfull, Bool.not_true, Bool.false_eq_true, if_false]

/-- The drop is counted in the OVERFLOW record, which is the newest. -/
theorem map_countDrop_newest {rs : List EventRecord} {r : EventRecord} {n : Int} (hk : r.event.kind = .overflow)
    (hothers : ∀ x ∈ rs, x.event.kind ≠ .overflow) (hn : r.event.value = some n) :
    (rs ++ [r]).map countDrop
      = rs ++ [{ r with event := { r.event with value := some (min 65535 (n + 1)) } }] := by
  have hrest : rs.map countDrop = rs :=
    (List.map_congr_left fun x hx => countDrop_eq_self (hothers x hx)).trans (List.map_id rs)
  rw [List.map_append, List.map_singleton, hrest, countDrop_overflow hk hn]

end Storing

/-- The oldest storing event leaves the list, and its records are stored whole (R187). -/
theorem takeStoring_cons {p : Port} {es : List Event} {rest : List (List Event)} {s : State}
    (h : s.raised.get p = es :: rest) : takeStoring p s =
      { s.setQueue p (storeAll s.timebase es (s.queue p)) with raised := s.raised.set p rest } := by
  unfold takeStoring
  rw [h]

/-! ## POP_EVENTS (R192) -/

section Pop

variable {p : Port} {s : State} {n : Nat}

theorem exec_popEvents (p : Port) (count : Byte) (fill : List Byte) {s : State} (h : s.frameEnding p = true) :
    exec (.popEvents p (goodRest 0x50 [count] fill)) s = .next (takePop p count.toNat (endFrame p s)) :=
  congrArg _ (takeFrame_request p 0x50 [count] fill (fun a s => takePop p (arg8 a 0).toNat s) h rfl)

/-- A count that is not 1..8 is refused. -/
theorem takePop_refused (hn : n = 0 ∨ 8 < n) :
    takePop p n (endFrame p s) = s.answered p (.ready (refusal .badArgument 0x50)) := by
  unfold takePop
  rw [if_pos hn, answerNow_endFrame]

/-- A good count takes that many records from the queue. -/
theorem takePop_pops (h1 : 1 ≤ n) (h8 : n ≤ 8) : takePop p n (endFrame p s)
    = (s.answered p (.ready (okAnswer 0x50 (popBytes n (s.queue p))))).setQueue p (popRecords n (s.queue p)) := by
  unfold takePop
  rw [if_neg (by omega), ← answerNow_endFrame]
  rfl

/-- The places that hold no record carry 18 zero bytes each (R219). -/
theorem popBytes_eq (n : Nat) (q : EventQueue) : popBytes n q =
    [byteOf (q.records.take n).length, byteOf (q.records.drop n).length] ++ (q.records.take n).flatMap eventBytes
      ++ List.replicate (18 * (8 - (q.records.take n).length)) 0 := by
  unfold popBytes emptyPlace
  dsimp only
  rw [List.flatten_replicate_replicate, Nat.mul_comm, List.length_drop]

end Pop

/-! ## EVENT_COUNT (R193) -/

/-- The sequence number of the oldest record, 0 of an empty queue. -/
theorem oldestSequence_eq (records : List EventRecord) : (records.head?.map (·.seq)).getD 0 = match records with
    | r :: _ => r.seq
    | [] => 0 := by
  cases records <;> rfl

theorem exec_eventCount (p : Port) (fill : List Byte) {s : State} (h : s.frameEnding p = true) :
    exec (.eventCount p (goodRest 0x51 [] fill)) s
      = .next (s.answered p (.ready (okAnswer 0x51 (countBytes (s.queue p))))) :=
  congrArg _ (takeFrame_answerNow p 0x51 [] fill (fun _ s => okAnswer 0x51 (countBytes (s.queue p))) h rfl)

end Sys2Proof.Machine

open Sys2Proof Sys2Proof.Machine

/-- Settles O33: a good count splits the queue's records into those that the answer carries and those that are left. -/
theorem popRemovesTheOldest : Obligations.PopRemovesTheOldest := by
  refine fun p count fill s h => ⟨fun hbad => ?refused, fun h1 h8 => ?popped⟩
  case refused =>
    rw [exec_popEvents p count fill h, takePop_refused (hbad.imp_left bits_toNat_eq_zero.2)]
    rfl
  case popped =>
    rw [exec_popEvents p count fill h, takePop_pops h1 h8, popBytes_eq]
    rfl

/-- Settles O34: the answer reads the queue, and the port's frame and slot alone are written. -/
theorem eventCountAnswersTheQueue : Obligations.EventCountAnswersTheQueue := by
  intro p fill s h
  rw [exec_eventCount p fill h]
  unfold countBytes
  rw [oldestSequence_eq]
  rfl

/-- Settles O35: the row of R190's table is chosen by SUBSCRIBE, by an OVERFLOW record held, and by the records held. -/
theorem storingFollowsTheTable : Obligations.StoringFollowsTheTable := by
  refine fun now e q => ⟨storeRecord_filtered, fun hs hno => ⟨fun hroom => ?appended, fun hfull => ?overflowed⟩,
    fun rs r n hs hq hk hothers hn => ?dropped⟩
  case appended => exact storeRecord_appended hs (hasOverflow_false_iff.2 hno) hroom
  case overflowed => exact storeRecord_overflowed hs (hasOverflow_false_iff.2 hno) hfull
  case dropped =>
    have ho : hasOverflow q = true :=
      List.any_eq_true.2 ⟨r, hq ▸ List.mem_append_right rs (List.mem_singleton_self r), isOverflow_iff.2 hk⟩
    rw [storeRecord_dropped hs ho, hq, map_countDrop_newest hk hothers hn]

/-- Settles O36: the oldest storing event is taken out of device reset, and the line is judged after its last record. -/
theorem eventStoreTakesTheOldest : Obligations.EventStoreTakesTheOldest := by
  intro p es rest s hr h
  refine congrArg Host.Outcome.next ?_
  rw [awake_eq hr, takeStoring_cons h]
  rfl
end

