-- ==== Sys2Proof/Proofs/QueueInvariant.lean ====
section
/-! PROOFS. QueueInvariant.lean: every update of a command leaves both event queues good (R189, R190, R194). -/

namespace Sys2Proof.Machine

/-! ## One queue

Storing a record and taking records away let the line stand until it is judged. What they keep is said of the queue with
its line judged: `QueueGood false (judgeAlert q)`. -/

section OneQueue

variable {e : Event} {q : EventQueue} {held : Bool}

/-- A good queue is good with its line judged afresh. -/
theorem QueueGood.judged (h : QueueGood held q) : QueueGood false (judgeAlert q) :=
  { h with line := rfl }

/-- The sequence number after one of 1..65535 is one of these (R189). -/
theorem nextSequence_range {n : Nat} (h : 1 ≤ n ∧ n ≤ 65535) :
    1 ≤ nextSequence n ∧ nextSequence n ≤ 65535 := by
  unfold nextSequence
  split <;> omega

/-- A record may be appended where no OVERFLOW record is held; the last place is taken by an OVERFLOW record alone. -/
theorem QueueGood.append (h : QueueGood false (judgeAlert q)) (hno : hasOverflow q = false)
    (hroom : q.records.length < 31 ∨ e.kind = .overflow) : QueueGood false (judgeAlert (appendRecord e q)) where
  size := by
    have hl : q.records.length ≤ 31 := h.reserve hno
    change (q.records ++ [_]).length ≤ 32
    rw [List.length_append, List.length_singleton]
    omega
  reserve hnone := by
    change (q.records ++ [_]).length ≤ 31
    obtain hlt | hover := hroom
    · rw [List.length_append, List.length_singleton]
      omega
    · exact absurd hover (hasOverflow_false_iff.1 hnone _ (List.mem_append_right _ (List.mem_singleton_self _)))
  newest r hr := by
    change r ∈ (q.records ++ [_]).dropLast at hr
    rw [List.dropLast_concat] at hr
    exact Bool.eq_false_of_not_eq_true (List.any_eq_false.1 hno r hr)
  numbers r hr := by
    obtain hold | hnew := List.mem_append.1 hr
    · exact h.numbers r hold
    · rw [List.mem_singleton.1 hnew]
      exact h.next
  next := nextSequence_range h.next
  subscribe := h.subscribe
  alertMask := h.alertMask
  line := rfl

/-- Counting a drop leaves the number of records, their kinds and their sequence numbers. -/
theorem QueueGood.countDrops (h : QueueGood false (judgeAlert q)) :
    QueueGood false (judgeAlert { q with records := q.records.map countDrop }) where
  size := by
    change (q.records.map countDrop).length ≤ 32
    rw [List.length_map]
    exact h.size
  reserve hnone := by
    change (q.records.map countDrop).length ≤ 31
    rw [List.length_map]
    exact h.reserve ((any_isOverflow_map_countDrop q.records).symm.trans hnone)
  newest r hr := by
    change r ∈ (q.records.map countDrop).dropLast at hr
    rw [← List.map_dropLast] at hr
    obtain ⟨x, hx, rfl⟩ := List.mem_map.1 hr
    rw [isOverflow_countDrop x]
    exact h.newest x hx
  numbers r hr := by
    obtain ⟨x, hx, rfl⟩ := List.mem_map.1 hr
    rw [seq_countDrop]
    exact h.numbers x hx
  next := h.next
  subscribe := h.subscribe
  alertMask := h.alertMask
  line := rfl

/-- Each row of R190's table keeps the queue good. -/
theorem QueueGood.storeRecord (now : Tick) (e : Event) (h : QueueGood false (judgeAlert q)) :
    QueueGood false (judgeAlert (storeRecord now e q)) := by
  cases hs : inKinds q.subscribe e.kind with
  | false => rwa [storeRecord_filtered hs]
  | true =>
    cases ho : hasOverflow q with
    | true =>
      rw [storeRecord_dropped hs ho]
      exact h.countDrops
    | false =>
      obtain hroom | hfull := Nat.lt_or_ge q.records.length 31
      · rw [storeRecord_appended hs ho hroom]
        exact h.append ho (.inl hroom)
      · rw [storeRecord_overflowed hs ho hfull]
        exact h.append ho (.inr rfl)

/-- So does a storing event, record by record (R187). -/
theorem QueueGood.storeAll (now : Tick) (es : List Event) (h : QueueGood held q) :
    QueueGood false (storeAll now es q) := by
  have hfold := List.foldlRecOn es (fun q e => Machine.storeRecord now e q)
    (motive := fun q => QueueGood false (judgeAlert q)) h.judged fun _ hq e _ => hq.storeRecord now e
  exact hfold

/-- Taking records away keeps the newest last; one taken from a full queue gives back the reserve place (R192). -/
theorem QueueGood.popRecords (h : QueueGood held q) (n : Nat) : QueueGood false (popRecords n q) where
  size := by
    change (q.records.drop n).length ≤ 32
    rw [List.length_drop]
    have hl := h.size
    omega
  reserve hnone := by
    change (q.records.drop n).any isOverflow = false at hnone
    change (q.records.drop n).length ≤ 31
    rw [List.length_drop]
    cases ho : hasOverflow q with
    | false =>
      have hl := h.reserve ho
      omega
    | true =>
      obtain hzero | hpos := Nat.eq_zero_or_pos n
      · rw [hzero, List.drop_zero] at hnone
        exact absurd (ho.symm.trans hnone) (by decide)
      · have hl := h.size
        omega
  newest r hr := by
    change r ∈ (q.records.drop n).dropLast at hr
    rw [List.dropLast_drop_eq_drop_dropLast] at hr
    exact h.newest r (List.mem_of_mem_drop hr)
  numbers r hr := h.numbers r (List.mem_of_mem_drop hr)
  next := h.next
  subscribe := h.subscribe
  alertMask := h.alertMask
  line := rfl

/-- The bits of a word but bit 0 and bits 18 and above are those of the event kinds. -/
theorem everyKind_bit {i : Nat} (hi : i < 32) : i = 0 ∨ 18 ≤ i ∨ everyKind.getLsbD i = true := by
  revert i
  decide

/-- A number in the range of a set of event kinds has the bits of these alone (R220). -/
theorem kinds_of_kindsInRange {v : Int} (h : kindsInRange v = true) : BitVec.ofInt 32 v &&& ~~~everyKind = 0 := by
  simp only [kindsInRange, Bool.and_eq_true, decide_eq_true_eq, beq_iff_eq] at h
  obtain ⟨⟨hlow, hhigh⟩, heven⟩ := h
  obtain ⟨n, rfl⟩ := Int.eq_ofNat_of_zero_le hlow
  apply BitVec.eq_of_getLsbD_eq
  intro i hi
  have hbit : (BitVec.ofInt 32 (n : Int)).getLsbD i = n.testBit i := by
    rw [BitVec.ofInt_natCast, BitVec.getLsbD_ofNat, decide_eq_true hi, Bool.true_and]
  rw [BitVec.getLsbD_and, BitVec.getLsbD_not, hbit]
  refine Eq.trans ?_ BitVec.getLsbD_zero.symm
  obtain rfl | hover | hkind := everyKind_bit hi
  · have hzero : n.testBit 0 = false := by
      rw [Nat.testBit_zero]
      exact decide_eq_false (by omega)
    rw [hzero, Bool.false_and]
  · have hsmall : n < 2 ^ i := calc
      n < 2 ^ 18 := by omega
      _ ≤ 2 ^ i := Nat.pow_le_pow_right (by decide) hover
    rw [Nat.testBit_lt_two_pow hsmall, Bool.false_and]
  · rw [hkind, Bool.not_true, Bool.and_false, Bool.and_false]

end OneQueue

/-! ## Both queues -/

/-- A good queue is written at a port, out of device reset. -/
theorem QueueInv.setQueue {s : State} (h : QueueInv s) (p : Port) {q : EventQueue} (hr : s.inReset = false)
    (hq : QueueGood false q) : QueueInv (s.setQueue p q) := by
  intro r
  change QueueGood s.inReset ((s.queues.set p q).get r)
  rw [PerPort.get_set]
  split
  · exact hr ▸ hq
  · exact h r

/-- The queues and the reset state are all that is read. -/
theorem QueueInv.of_eq {s t : State} (h : QueueInv s) (hr : t.inReset = s.inReset) (hq : t.queues = s.queues) :
    QueueInv t := by
  intro p
  rw [State.queue, hr, hq]
  exact h p

/-- Device reset releases the lines and leaves the records (R182). -/
theorem QueueInv.deviceReset {s t : State} (ht : execDeviceReset s = .next t) (h : QueueInv s) : QueueInv t := by
  have released {held : Bool} {q : EventQueue} (hq : QueueGood held q) : QueueGood true (releaseAlert q) :=
    { hq with line := rfl }
  unfold execDeviceReset at ht
  split at ht <;> cases ht
  · exact h
  · intro p
    cases p with
    | A => exact released (h .A)
    | B => exact released (h .B)

/-- The release of device reset gives empty queues (R198). -/
theorem QueueInv.release {s t : State} (ht : execResetRelease s = .next t) (h : QueueInv s) : QueueInv t := by
  unfold execResetRelease at ht
  split at ht <;> cases ht
  · exact queueInv_reset
  · exact h

/-- A SET of SUBSCRIBE leaves the line, and one of ALERT_MASK judges it afresh (R195, R204). -/
theorem QueueInv.acceptPerPort {s : State} (h : QueueInv s) (p : Port) {k : SettingId} {v : Int}
    (hr : s.inReset = false) (hp : perPort k = true) (hv : settingInRange k v = true) :
    QueueInv (acceptPerPort p k v s) := by
  have hq : QueueGood false (s.queue p) := hr ▸ h p
  cases k with
  | subscribe => exact h.setQueue p hr { hq with subscribe := kinds_of_kindsInRange hv }
  | alertMask => exact h.setQueue p hr { hq with alertMask := kinds_of_kindsInRange hv, line := rfl }
  | _ => cases hp

/-- The queues are written by POP_EVENTS, by EVENT_STORE, by a session reset, by a SET of a port's own set and by device
reset; every other update lets them stand. -/
theorem queueInv_closed : Closed QueueInv where
  raised _ _ h := h
  sched _ _ h := h
  limits _ _ h := h
  reserved _ _ h := h
  token _ _ h := h
  chain _ _ _ h := h
  entries _ _ _ _ h := h
  renew _ _ _ _ _ _ h := h
  decided _ _ _ _ _ h := h.of_eq (by simp) (by simp)
  balance _ _ _ _ h := h
  balanceAll _ _ _ h := h
  balanceClock _ _ _ h := h
  passChange _ _ _ _ _ _ h := h.of_eq (by simp) (by simp)
  passEnd _ _ h := h.of_eq (by simp) (by simp)
  passNew _ _ _ _ h := h.of_eq (by simp) (by simp)
  strike _ _ h := h
  tickets _ _ _ _ h := h
  ticketNew _ _ _ _ _ h := h
  sweep _ _ _ _ _ _ h := h
  startSweep s _ h := by
    obtain ⟨w, r, x, he, -⟩ := startSweep_eq s
    exact he ▸ h
  endVisit s _ h := by
    obtain ⟨w, r, x, he⟩ := endVisit_eq s
    exact he ▸ h
  endAligned s h := by
    obtain ⟨w, r, x, he⟩ := endAlignedIfDone_eq s
    exact he ▸ h
  closeMap s reason _ h := by
    obtain ⟨c, w, r, x, he, -⟩ := startAfterEnd_closeMap_eq reason s
    exact he ▸ h
  recordModule _ _ _ _ h := h
  record _ _ _ h := h
  mapClock _ _ _ _ h := h
  restart _ h := h
  orphan _ _ _ h := h
  send s r o n p _ h := by
    obtain ⟨l, he⟩ := sendUnicast_eq r o n p s
    exact he ▸ h
  lane _ _ _ _ h := h
  statistics _ _ _ _ h := h
  window _ _ _ h := h
  resend _ _ _ _ _ _ h := h
  freeSlot _ _ h := h
  untag _ _ _ _ h := h
  badCheck _ _ _ _ _ _ _ h := h
  timeout s i x _ h := by
    obtain ⟨l, he⟩ := timeoutSlot_eq i x s
    exact he ▸ h
  quarantine _ _ h := h
  portSlot _ _ _ _ h := h
  latch _ _ _ _ _ _ _ h := h
  clearHold _ _ _ h := h
  store s p hr h := by
    unfold takeStoring
    split
    · exact h
    · exact h.setQueue p hr ((h p).storeAll _ _)
  pop _ p n hr h := h.setQueue p hr ((h p).popRecords n)
  queueReset _ p hr h := h.setQueue p hr QueueGood.reset
  portSetting _ p _ _ hr hp hv h := h.acceptPerPort p hr hp hv
  settings _ _ _ _ _ _ h := h
  deviceReset _ _ ht h := h.deviceReset ht
  release _ _ ht h := h.release ht

end Sys2Proof.Machine

open Sys2Proof Sys2Proof.Machine

/-- Settles O7: storing, popping, a session reset, the SET of a port's own sets and device reset each leave a good
queue, and every other update lets the queues stand. -/
theorem stepsKeepTheEventQueues : Obligations.StepsKeepTheEventQueues := fun _ _ hs ht =>
  queueInv_closed.step (fun _ _ h => h) (fun _ _ h => h) hs ht
end

