-- ==== Sys2Proof/Proofs/Token.lean ====
section
/-! PROOFS. Token.lean: TAKE_TOKEN, DROP_TOKEN and the expiry of a lease at the token's record (R207, R208, R211). -/

namespace Sys2Proof.Machine

section Token

variable {p : Port} {s : State}

/-- The answer of a block that writes the token alone. -/
theorem answerLater_setToken (a : Answer) (t : Token) :
    answerLater p a { endFrame p s with token := t } = { s.answered p (waitsFor a) with token := t } :=
  congrArg (fun u : State => { u with token := t }) (answerLater_endFrame p a s)

theorem holds_eq_false (h : ∀ l d, s.token ≠ .held p l d) : s.holds p = false := by
  rw [← Bool.not_eq_true, holds_iff]
  rintro ⟨l, d, ht⟩
  exact h l d ht

/-! ## TAKE_TOKEN (R207) -/

section Take

variable {n : Nat}

theorem exec_takeToken (p : Port) (n : Byte) (fill : List Byte) {s : State} (h : s.frameEnding p = true) :
    exec (.takeToken p (goodRest 0x60 [n] fill)) s = .next (takeTakeToken p n.toNat (endFrame p s)) := by
  change Host.Outcome.next (takeFrame p 0x60 (goodRest 0x60 [n] fill) _ s) = _
  rw [takeFrame_request p 0x60 [n] fill _ h rfl]
  rfl

/-- The lease is not a number of seconds in 1..60. -/
abbrev BadLease (n : Nat) : Prop := n = 0 ∨ 60 < n

theorem takeTakeToken_badLease (h : BadLease n) :
    takeTakeToken p n s = answerLater p (refusal .badArgument 0x60) s := if_pos h

/-- A FREE token is given to the port, and the port's own is renewed. -/
theorem takeTakeToken_granted (h : ¬BadLease n) (ht : s.token = .free ∨ ∃ l d, s.token = .held p l d) :
    takeTakeToken p n s = grantToken p n s := by
  unfold takeTakeToken
  rw [if_neg h]
  obtain ht | ⟨l, d, ht⟩ := ht
  · rw [ht]
  · rw [ht]
    exact if_pos rfl

theorem takeTakeToken_heldElsewhere {q : Port} {l : Nat} {d : Tick} (h : ¬BadLease n) (hq : q ≠ p)
    (ht : s.token = .held q l d) : takeTakeToken p n s = answerLater p (refusal .heldElsewhere 0x60) s := by
  unfold takeTakeToken
  rw [if_neg h, ht]
  exact if_neg hq

/-- A grant writes the record of the token, the lease from now, and answers its holder and length. -/
theorem grantToken_endFrame : grantToken p n (endFrame p s) =
    { s.answered p (waitsFor (okAnswer 0x60 [portCode p, byteOf n])) with
      token := .held p n (leaseEndFrom s.timebase n) } := answerLater_setToken _ _

/-- The port's code in the answer (R218). -/
theorem portCode_eq (p : Port) : portCode p = if p = .A then 1 else 2 := by
  cases p <;> rfl

theorem byteOf_toNat (b : Byte) : byteOf b.toNat = b := by
  rw [byteOf, BitVec.ofNat_toNat, BitVec.setWidth_eq]

end Take

/-! ## DROP_TOKEN (R208) -/

theorem exec_dropToken (p : Port) (fill : List Byte) {s : State} (h : s.frameEnding p = true) :
    exec (.dropToken p (goodRest 0x61 [] fill)) s = .next (takeDropToken p (endFrame p s)) := by
  change Host.Outcome.next (takeFrame p 0x61 (goodRest 0x61 [] fill) _ s) = _
  rw [takeFrame_request p 0x61 [] fill _ h rfl]

theorem takeDropToken_holder (h : s.holds p = true) :
    takeDropToken p s = answerLater p (okAnswer 0x61 []) { s with token := .free } := if_pos h

theorem takeDropToken_refused (h : s.holds p = false) :
    takeDropToken p s = answerLater p (refusal .noToken 0x61) s := if_neg (by simp [h])

/-! ## LEASE_EXPIRY (R211) -/

theorem exec_leaseExpiry (hr : s.inReset = false) (hd : s.leaseDue = true) :
    exec .leaseExpiry s = .next (lapseToken s) := by
  change Host.Outcome.next (awake _ s) = _
  rw [awake_eq hr, if_pos hd]

theorem leaseDue_of_held {l : Nat} {d : Tick} (ht : s.token = .held p l d) (h : (s.timebase - d).toNat < 2 ^ 31) :
    s.leaseDue = true := by
  unfold State.leaseDue
  rw [ht]
  exact reached_eq h

/-- A lapse frees the token, and its one record waits at the former holder's port. -/
theorem lapseToken_held {l : Nat} {d : Tick} (ht : s.token = .held p l d) : lapseToken s = { s with
    token := .free
    raised := s.raised.set p
      (s.raised.get p ++ [[{ kind := .tokenLapsed, time := s.timebase, port := some p }]]) } := by
  unfold lapseToken
  rw [ht]
  rfl

end Token

end Sys2Proof.Machine

open Sys2Proof Sys2Proof.Machine

/-- Settles O37: the lease is checked before the token's holder, and a lease that has run out lapses. -/
theorem tokenIsTakenAndLapses : Obligations.TokenIsTakenAndLapses := by
  refine fun p s => ⟨fun n fill hf => ⟨fun hbad => ?badLease, fun h1 h60 => ?goodLease⟩, fun l d hr ht hd => ?lapse⟩
  case badLease =>
    rw [exec_takeToken p n fill hf]
    exact refused_endFrame (takeTakeToken_badLease (hbad.imp_left bits_toNat_eq_zero.2))
  case goodLease =>
    have hgood : ¬BadLease n.toNat := by omega
    rw [exec_takeToken p n fill hf]
    refine ⟨fun ht => ?granted, fun q l d hq ht => ?heldElsewhere⟩
    case granted =>
      rw [takeTakeToken_granted (s := endFrame p s) hgood ht, grantToken_endFrame, portCode_eq, byteOf_toNat]
      rfl
    case heldElsewhere => exact refused_endFrame (takeTakeToken_heldElsewhere hgood hq ht)
  case lapse => rw [exec_leaseExpiry hr (leaseDue_of_held ht hd), lapseToken_held ht]

/-- Settles O38: the one check of DROP_TOKEN is that the port holds the token. -/
theorem dropTokenFreesTheToken : Obligations.DropTokenFreesTheToken := by
  refine fun p fill s hf => ⟨fun l d ht => ?holder, fun ht => ?refused⟩
  case holder =>
    have hholds : (endFrame p s).holds p = true := holds_iff.2 ⟨l, d, ht⟩
    rw [exec_dropToken p fill hf, takeDropToken_holder hholds, answerLater_setToken]
    rfl
  case refused =>
    rw [exec_dropToken p fill hf]
    exact refused_endFrame (takeDropToken_refused (holds_eq_false ht))
end

