-- ==== Sys2Proof/Proofs/SettingReads.lean ====
section
/-! PROOFS. SettingReads.lean: GET at the Settings Table (R205). -/

namespace Sys2Proof.Machine

section Get

variable {code index : Byte} {k : SettingId} {s : State}

theorem exec_get (p : Port) (code index : Byte) (fill : List Byte) {s : State} (h : s.frameEnding p = true) :
    exec (.get p (goodRest 0x63 [code, index] fill)) s = .next (s.answered p (waitsFor (getAnswer s code index))) := by
  change Host.Outcome.next (takeFrame p 0x63 (goodRest 0x63 [code, index] fill) _ s) = _
  rw [takeFrame_request p 0x63 [code, index] fill _ h rfl]
  exact congrArg _ (answerLater_endFrame p _ s)

/-! ## The answer -/

theorem getAnswer_refused (h : ∀ k, settingOf code = some k → getIndexGood k index.toNat = false) :
    getAnswer s code index = refusal .badArgument 0x63 := by
  unfold getAnswer
  cases hk : settingOf code with
  | none => rfl
  | some k => exact if_neg (by simp [h k hk])

theorem getAnswer_ok (hk : settingOf code = some k) (hi : getIndexGood k index.toNat = true) :
    getAnswer s code index
      = okAnswer 0x63 ([code, index] ++ bytes32 (BitVec.ofInt 32 (getValue s k index.toNat))) := by
  unfold getAnswer
  rw [hk]
  exact if_pos hi

/-! ## The index and the value -/

/-- GET may carry the index for the setting, and reads this value. -/
def Reads (s : State) (k : SettingId) (index : Nat) (v : Int) : Prop :=
  getIndexGood k index = true ∧ getValue s k index = v

theorem reads_populationMask {i : Nat} {m : Mod} (hm : modOfNumber i = some m) :
    Reads s .populationMask i (settingValue s.settings m .populationMask) := by
  refine ⟨?index, ?value⟩
  case index =>
    have hi : modNumber m = i := modNumber_of_modOfNumber hm
    have hlt := m.isLt
    simp only [getIndexGood, Bool.and_eq_true, decide_eq_true_eq]
    unfold modNumber at hi
    omega
  case value =>
    unfold getValue indexModule
    rw [hm]
    rfl

/-- The index of a per-port setting names the port whose copy is read. -/
theorem reads_subscribe (q : Port) : Reads s .subscribe (portCode q).toNat (s.queue q).subscribe.toNat := by
  cases q <;> exact ⟨rfl, rfl⟩

theorem reads_alertMask (q : Port) : Reads s .alertMask (portCode q).toNat (s.queue q).alertMask.toNat := by
  cases q <;> exact ⟨rfl, rfl⟩

theorem reads_shared (hk : k ∉ [.populationMask, .subscribe, .alertMask]) :
    Reads s k 0 (settingValue s.settings 0 k) := by
  cases k with
  | populationMask | subscribe | alertMask => simp at hk
  | _ => exact ⟨rfl, rfl⟩

end Get

end Sys2Proof.Machine

open Sys2Proof Sys2Proof.Machine

/-- Settles O42: the identifier and the index are the only checks, and each kind of setting reads its value. -/
theorem getAnswersTheValue : Obligations.GetAnswersTheValue := by
  refine fun p code index fill s hf => ⟨fun hbad => ?refused, fun k v hk hv => ?accepted⟩
  case refused =>
    rw [exec_get p code index fill hf, getAnswer_refused hbad]
    rfl
  case accepted =>
    have hreads : Reads s k index.toNat v := by
      obtain ⟨rfl, m, hm, rfl⟩ | ⟨rfl, ⟨rfl, rfl⟩ | ⟨rfl, rfl⟩⟩ | ⟨rfl, ⟨rfl, rfl⟩ | ⟨rfl, rfl⟩⟩
        | ⟨hkind, rfl, rfl⟩ := hv
      · exact reads_populationMask hm
      · exact reads_subscribe .A
      · exact reads_subscribe .B
      · exact reads_alertMask .A
      · exact reads_alertMask .B
      · exact reads_shared hkind
    obtain ⟨hi, rfl⟩ := hreads
    rw [exec_get p code index fill hf, getAnswer_ok hk hi]
end
